-- ==== Sys2Proof/Word.lean ====
section
/-! DEFINITION. The widths the DG4 reference names, and the record of four like things (bays, strings,
pins) it uses throughout. -/

namespace Sys2Proof

/-- A byte of a line, of a record or of an image. -/
abbrev Byte := BitVec 8

/-- A 16-bit quantity: model code, firmware revision, generation. -/
abbrev Word16 := BitVec 16

/-- A pack's 48-bit serial number. -/
abbrev Serial := BitVec 48

/-- A 64-bit nonce. -/
abbrev Nonce := BitVec 64

/-- A 64-bit value of the keyed digest. -/
abbrev Digest := BitVec 64

/-- A 128-bit key. -/
abbrev Key := BitVec 128

/-- One thing for each of numbers 0 to 3: the four bays, or the four strings. -/
structure Four (α : Type) where
  b0 : α
  b1 : α
  b2 : α
  b3 : α
deriving DecidableEq, Repr

namespace Four

/-- The thing of number `i`. -/
def get {α : Type} (f : Four α) (i : Fin 4) : α :=
  match i with
  | 0 => f.b0
  | 1 => f.b1
  | 2 => f.b2
  | 3 => f.b3

/-- `f` with the thing of number `i` replaced. -/
def set {α : Type} (f : Four α) (i : Fin 4) (x : α) : Four α :=
  match i with
  | 0 => { f with b0 := x }
  | 1 => { f with b1 := x }
  | 2 => { f with b2 := x }
  | 3 => { f with b3 := x }

/-- The same thing four times. -/
def fill {α : Type} (x : α) : Four α := ⟨x, x, x, x⟩

/-- The four things a function of the number gives. -/
def ofFn {α : Type} (g : Fin 4 → α) : Four α := ⟨g 0, g 1, g 2, g 3⟩

/-- A function applied to each. -/
def map {α β : Type} (g : α → β) (f : Four α) : Four β := ⟨g f.b0, g f.b1, g f.b2, g f.b3⟩

/-- In ascending number. -/
def toList {α : Type} (f : Four α) : List α := [f.b0, f.b1, f.b2, f.b3]

/-- The numbers, ascending. -/
def indices : List (Fin 4) := [0, 1, 2, 3]

end Four

end Sys2Proof
end

