-- ==== Sys2Proof/Syntax.lean ====
section
/-! DEFINITION. The commands of the gate: one constructor for each row of spec/opcode_table.json, with what
reaches the gate from outside in that step as its operands (log 4, log 5, log 10, log 12, log 13). -/

namespace Sys2Proof

/-- The levels of the gate's input pins. A line is `true` while it is dominant; the others are `true`
while active. -/
structure Pins where
  det : Four Bool
  lineDominant : Four Bool
  run : Bool
  prov : Bool
deriving DecidableEq, Repr

/-- What an interrupted store write leaves in its record (R36, R177): the old content in full, the new
content in full, or neither under a matching CRC-32. -/
inductive TornWrite where
  | old
  | new
  | neither
deriving DecidableEq, Repr

/-- How a completed store write reads back (R177): as written; not as written, with its rewrite in the
empty form good; or not as written, with that rewrite failed too. -/
inductive WriteResult where
  | written
  | failed
  | failedTwice
deriving DecidableEq, Repr

/-- What the end of an image's or an edit's write brings from outside: how the write reads back (log 13), and the DET
levels at that moment, which a GATE_RESET that waited for the image samples (R2, R178, R211; log 10). -/
structure CommitEvent where
  write : WriteResult
  det : Four Bool
deriving DecidableEq, Repr

/-- The commands. -/
inductive Instr where
  -- resets and supply
  | powerOn (levels : Pins) (torn : TornWrite)
  | resetnAssert (torn : TornWrite)
  | resetnRelease (levels : Pins) (torn : TornWrite)
  | startupRewriteComplete (ok : Bool)
  -- bay presence and timers
  | insertion (bay : Fin 4)
  | removal (bay : Fin 4)
  | settleExpiry (bay : Fin 4) (det : Bool)
  | reattemptExpiry (bay : Fin 4)
  | renewExpiry (bay : Fin 4)
  | graceExpiry (bay : Fin 4)
  | decayExpiry (bay : Fin 4)
  | cacheExpiry (serial : Serial)
  -- the RUN input
  | runInputChange (level : Bool)
  | runRise
  | runFall
  -- pack lines
  | bayLineLevelChange (bay : Fin 4) (dominant : Bool)
  | stuckLine (bay : Fin 4)
  | lineFaultRecovery (bay : Fin 4)
  | packFrameSent (bay : Fin 4)
  | collision (bay : Fin 4)
  | packReply (bay : Fin 4) (bytes : List Byte)
  | packRxGapExpiry (bay : Fin 4)
  | responseTimeout (bay : Fin 4)
  | retryWaitExpiry (bay : Fin 4)
  | linkHoldExpiry (bay : Fin 4)
  -- Digest Engine jobs
  | derivePackKeyComplete
  | checkProofComplete
  | deriveSessionComplete
  | checkTagComplete
  | checkImageComplete
  | keyCheckComplete
  -- store writes
  | keyLoadComplete (result : WriteResult)
  | modelCommit (result : CommitEvent)
  | revocationCommit (result : CommitEvent)
  -- tool line
  | toolFrame (bytes : List Byte)
  | toolRxGapExpiry
  | frameSent
  -- dormant
  | dormantDetSample (det : Four Bool)
  | rxdWake
  -- gate requests: the Management Engine takes the oldest waiting request
  | unknownCode
  | gateStatus
  | configSet
  | configGet
  | snapLatch
  | snapRead
  | dormant
  | gateReset (det : Four Bool)
  | bayQuery
  | bayRetry
  | keyLoad
  | keyCheck
  | modelGet
  | revokeGet
  | revokeAdd
  | revokeDrop
  | imageBegin
  | imageData
  | imageEnd
  | imageCancel
  | filterSet
  | filterGet
  | captureTake
  | topologySet
  | topologyGet
  | stringQuery
  | stringRelease
  -- the rows the table lists last
  | powerLoss (torn : TornWrite)
  | packRxFrameError (bay : Fin 4)
  | toolFramingError
  | toolRxIdleResync
deriving DecidableEq, Repr

end Sys2Proof
end

