-- ==== Sys2Proof/Decode.lean ====
section
/-! DEFINITION. The command a word spells by the table's bits. spec/opcode_table.json gives no row any bits
(its rows have no fields), so no word spells a command. -/

namespace Sys2Proof

/-- The command that a word of the opcode table spells: none, since no row of the table has bits. -/
def decodeTableWord (_nbits _w : Nat) : Option Instr := none

end Sys2Proof
end

