-- ==== Sys2Proof/Config.lean ====
section
/-! DEFINITION. What the reference leaves outside itself, as constants without a body: nothing in Lean can
evaluate them or prove a value of them. -/

namespace Sys2Proof.Config

/-- The keyed digest (R38): a fixed function of a 128-bit key and a message. Its construction is outside
the reference (00_scope), so the model has no body for it. DESIGN CHOICE, log 6. -/
opaque digest : Key → List Byte → Digest

/-- The order in which the gate draws the 64-bit values: any one order of all of them, a free value (R14, R90:
unpredictable). DESIGN CHOICE, log 7. -/
opaque nonceOrder : Equiv.Perm Nonce

/-- The `n`-th gate nonce the gate draws; the state's counter `nonceDraws` supplies `n`. No value comes twice among
the first 2^64 draws, which are as many as there are values (R14; log 7). -/
def freshNonce (n : Nat) : Nonce := nonceOrder (BitVec.ofNat 64 n)

end Sys2Proof.Config
end

