-- ==== Sys2Proof/Machine/Bytes.lean ====
section
/-! DEFINITION. Byte order (12: every multi-byte field is sent and stored most significant byte first). -/

namespace Sys2Proof.Machine

/-- The `n` low bytes of `x`, most significant first. -/
def bytesBE : Nat → Nat → List Byte
  | 0, _ => []
  | n + 1, x => BitVec.ofNat 8 (x >>> (8 * n)) :: bytesBE n x

/-- The number that bytes spell, most significant first. -/
def natBE (bytes : List Byte) : Nat :=
  bytes.foldl (fun acc b => acc * 256 + b.toNat) 0

/-- A small number as one byte. -/
def byteOf (n : Nat) : Byte := BitVec.ofNat 8 n

/-- A mark as a bit of weight `n`. -/
def bitOf (b : Bool) (n : Nat) : Nat := if b then 2 ^ n else 0

/-- A 0 or 1 byte. -/
def boolByte (b : Bool) : Byte := if b then 1#8 else 0#8

/-- Bit `n` set for each number `n` of which the mark holds (bays bit-sets, BEN levels). -/
def fourBits (f : Four Bool) : Byte :=
  byteOf (bitOf f.b0 0 + bitOf f.b1 1 + bitOf f.b2 2 + bitOf f.b3 3)

end Sys2Proof.Machine
end

