-- ==== Sys2Proof/Machine/Crc.lean ====
section
/-! DEFINITION. The two CRC computations (R213, R214). -/

namespace Sys2Proof.Machine

/-- One bit of the CRC-16: shift left, and subtract the polynomial 1021h when a one leaves. -/
def crc16Bit (c : BitVec 16) : BitVec 16 :=
  if c.getLsbD 15 then (c <<< 1) ^^^ 0x1021#16 else c <<< 1

/-- One byte of the CRC-16, most significant bit first. -/
def crc16Byte (c : BitVec 16) (b : Byte) : BitVec 16 :=
  let c := c ^^^ (b.zeroExtend 16 <<< 8)
  crc16Bit (crc16Bit (crc16Bit (crc16Bit (crc16Bit (crc16Bit (crc16Bit (crc16Bit c)))))))

/-- CRC-16 of both lines (R213): polynomial 1021h, initial value FFFFh, no final inversion. -/
def crc16 (bytes : List Byte) : BitVec 16 := bytes.foldl crc16Byte 0xFFFF#16

/-- One bit of the CRC-32. -/
def crc32Bit (c : BitVec 32) : BitVec 32 :=
  if c.getLsbD 31 then (c <<< 1) ^^^ 0x04C11DB7#32 else c <<< 1

/-- One byte of the CRC-32, most significant bit first. -/
def crc32Byte (c : BitVec 32) (b : Byte) : BitVec 32 :=
  let c := c ^^^ (b.zeroExtend 32 <<< 24)
  crc32Bit (crc32Bit (crc32Bit (crc32Bit (crc32Bit (crc32Bit (crc32Bit (crc32Bit c)))))))

/-- CRC-32 of the non-volatile records (R214): polynomial 04C11DB7h, initial value FFFFFFFFh, inverted. -/
def crc32 (bytes : List Byte) : BitVec 32 := ~~~ (bytes.foldl crc32Byte 0xFFFFFFFF#32)

end Sys2Proof.Machine
end

