-- ==== Sys2Proof/Machine/Store.lean ====
section
/-! DEFINITION. The contents of the three trust records, their byte form, and a stored record with its
CRC-32 (chapters 2, 3, 4 and 10, R214). -/

namespace Sys2Proof.Machine

/-- One entry of the model table, in the fields of its 10-byte record (R50, 12.5). -/
structure ModelEntry where
  code : Word16
  keySlot : Byte
  minFirmware : Word16
  chemistry : Byte
  cells : Byte
  capacity : Byte
  current : Byte
  flags : Byte
deriving DecidableEq, Repr

/-- An empty entry (R49): model code 0. Its other fields have no meaning. -/
def ModelEntry.none : ModelEntry := ⟨0, 0, 0, 0, 0, 0, 0, 0⟩

/-- An entry whose model code is 0 is empty (R49). -/
def ModelEntry.isEmpty (e : ModelEntry) : Bool := e.code == 0#16

/-- The WITHDRAWN flag (R51; 12.5 bit 4). -/
def ModelEntry.withdrawn (e : ModelEntry) : Bool := e.flags.getLsbD 4

/-- The 10-byte record of an entry (12.5). -/
def ModelEntry.bytes (e : ModelEntry) : List Byte :=
  bytesBE 2 e.code.toNat ++ [e.keySlot] ++ bytesBE 2 e.minFirmware.toNat ++
    [e.chemistry, e.cells, e.capacity, e.current, e.flags]

/-- The model table (R49): 32 entries and the generation. -/
structure ModelTable where
  entries : List ModelEntry
  gen : Word16
deriving DecidableEq, Repr

/-- The table with every entry empty and generation 0 (R57, R62). -/
def ModelTable.none : ModelTable := ⟨List.replicate 32 ModelEntry.none, 0⟩

/-- The bytes that the model record's CRC-32 covers (R214). -/
def ModelTable.bytes (t : ModelTable) : List Byte :=
  t.entries.flatMap ModelEntry.bytes ++ bytesBE 2 t.gen.toNat

/-- A range of serials (R63). -/
structure Range where
  first : Serial
  last : Serial
deriving DecidableEq, Repr

/-- The revocation list (R63): its ranges in order, and its generation. -/
structure RevList where
  ranges : List Range
  gen : Word16
deriving DecidableEq, Repr

/-- The list with no ranges and generation 0 (R67, R74). -/
def RevList.none : RevList := ⟨[], 0⟩

/-- The bytes that the revocation record's CRC-32 covers (R214): the count, 96 slots of 12 bytes, of which
those at or above the count are zeros, and the generation. -/
def RevList.bytes (l : RevList) : List Byte :=
  [byteOf l.ranges.length] ++
    l.ranges.flatMap (fun r => bytesBE 6 r.first.toNat ++ bytesBE 6 r.last.toNat) ++
    List.replicate (12 * (96 - l.ranges.length)) 0#8 ++ bytesBE 2 l.gen.toNat

/-- The key store (R30): slots 0 to 7, each EMPTY or holding a key. -/
abbrev KeyStore := List (Option Key)

/-- Every slot EMPTY (R31, R36). -/
def noKeys : KeyStore := List.replicate 8 none

/-- The key in a slot, when the slot is LOADED (R30). -/
def KeyStore.slot (k : KeyStore) (n : Nat) : Option Key := k.getD n none

/-- The bytes that the key store record's CRC-32 covers (R214). -/
def KeyStore.bytes (k : KeyStore) : List Byte :=
  k.flatMap (fun s =>
    match s with
    | some key => 1#8 :: bytesBE 16 key.toNat
    | none => 0#8 :: List.replicate 16 0#8)

/-- A non-volatile record as stored: its content and its CRC-32 (R214). -/
structure NvRecord (α : Type) where
  content : α
  crc : BitVec 32
deriving DecidableEq, Repr

/-- A record written as intended: its CRC-32 computed afresh over the content (R175). -/
def NvRecord.intact {α : Type} (bytes : α → List Byte) (c : α) : NvRecord α := ⟨c, crc32 (bytes c)⟩

/-- A record whose CRC-32 does not match its content (R177); which mismatching value stands there is
never seen. DESIGN CHOICE, log 12. -/
def NvRecord.damaged {α : Type} (bytes : α → List Byte) (c : α) : NvRecord α := ⟨c, ~~~ crc32 (bytes c)⟩

/-- The check of R192: the CRC-32 recomputed over the content agrees with the stored one. -/
def NvRecord.agrees {α : Type} (bytes : α → List Byte) (r : NvRecord α) : Bool :=
  crc32 (bytes r.content) == r.crc

end Sys2Proof.Machine
end

