-- ==== Sys2Proof/Machine/State.lean ====
section
/-! DEFINITION. The state of the gate, block by block (00_scope, blocks), and its value after reset. -/

namespace Sys2Proof.Machine

/-! ## Bay Controllers -/

/-- The bay states (R1). -/
inductive BayState where
  | empty | settling | identifying | challenging | authorized | renewing | grace | denied | lockout | lineFault
deriving DecidableEq, Repr

/-- The deny reasons (R1). -/
inductive DenyReason where
  | unknownModel | withdrawn | oldFirmware | revoked | noKey | forged | forgedRecent | duplicateSerial
  | noAnswer | packReject
deriving DecidableEq, Repr

/-- The challenge phases (R13). -/
inductive ChallengePhase where
  | key | exchange | check | session
deriving DecidableEq, Repr

/-- The kinds of challenge, ADMIT and RENEW (R1). -/
inductive ChallengeKind where
  | admission | renewal
deriving DecidableEq, Repr

/-- The authentication claim (R1). -/
inductive Claim where
  | none
  | idQuery
  | challenge (kind : ChallengeKind)
deriving DecidableEq, Repr

/-- The copy of a model entry's attributes a bay holds (R53). -/
structure ModelAttrs where
  keySlot : Byte
  chemistry : Byte
  cells : Byte
  capacity : Byte
  current : Byte
  flags : Byte
deriving DecidableEq, Repr

/-- The identity of a pack (R1, R53). -/
structure Identity where
  serial : Serial
  code : Word16
  firmware : Word16
  index : Option (Fin 32)
  attrs : Option ModelAttrs
deriving DecidableEq, Repr

/-- A pack key with the slot of the root key it was derived under (R1). -/
structure PackKey where
  key : Key
  slot : Nat
deriving DecidableEq, Repr

/-- A session (R1): its key, its number and the expected reply sequence. -/
structure Session where
  key : Key
  number : Byte
  expected : Byte
deriving DecidableEq, Repr

/-- An entry of a forward queue (R131). -/
structure ForwardEntry where
  tid : Byte
  code : Byte
  link : Bool
  payload : List Byte
  needsAuth : Bool
  retries : Nat
deriving DecidableEq, Repr

/-- The kinds of pack-line transaction (chapter 7, section 7.2). -/
inductive TxnKind where
  | forward | ident | challenge | splitFirst | splitSecond
deriving DecidableEq, Repr

/-- How far an attempt has got: the frame waits for a recessive line (R107), is being sent, has been sent
with the response timer running, or its reply has begun (R109). -/
inductive AttemptStage where
  | waiting | sending | awaiting | receiving
deriving DecidableEq, Repr

/-- The line state (R1), with the stage of the attempt and the mark of an abandoned ID or CHALLENGE
transaction that runs out its present attempt (R4). -/
inductive LineState where
  | idle
  | inTransaction (kind : TxnKind) (stage : AttemptStage) (abandoned : Bool)
  | retryWait (kind : TxnKind)
  | awaitDigest
deriving DecidableEq, Repr

/-- A pack-line frame, without its start byte and CRC (R108). -/
structure PackFrame where
  code : Byte
  control : Byte
  seq : Byte
  payload : List Byte
  tag : Option (BitVec 32)
deriving DecidableEq, Repr

/-- What a to-tool entry does with a passed reply (R134, R146). -/
inductive Disposition where
  | pass | copy | divert
deriving DecidableEq, Repr

/-- How strongly a reply must be verified (R134). -/
inductive VerifyLevel where
  | none | verify | strict
deriving DecidableEq, Repr

/-- The reply that the Frame Filter keeps while its tag is checked (R141). -/
structure HeldReply where
  code : Byte
  payload : List Byte
  disposition : Disposition
deriving DecidableEq, Repr

/-- One bay context with its bay-line side (R1, R112, R116, R122). Timers hold their remaining time in ms
and are `none` when stopped (log 1). -/
structure Bay where
  state : BayState
  reason : Option DenyReason
  present : Bool
  identity : Option Identity
  packKey : Option PackKey
  phase : Option ChallengePhase
  gateNonce : Nonce
  packNonce : Option Nonce
  session : Option Session
  claim : Claim
  authRetries : Nat
  strikes : Nat
  clean : Bool
  attempts : Nat
  settle : Option Nat
  reattempt : Option Nat
  renew : Option Nat
  grace : Option Nat
  decay : Option Nat
  retryWait : Option Nat
  linkHold : Option Nat
  response : Option Nat
  watch : Option Nat
  queue : List ForwardEntry
  line : LineState
  frame : Option PackFrame
  linkRun : Option Nat
  heldReply : Option HeldReply
deriving DecidableEq, Repr

/-- A bay after every reset, before bays with DET active settle (R2, R103, R129). -/
def Bay.afterReset (present : Bool) : Bay where
  state := .empty
  reason := none
  present := present
  identity := none
  packKey := none
  phase := none
  gateNonce := 0
  packNonce := none
  session := none
  claim := .none
  authRetries := 0
  strikes := 0
  clean := false
  attempts := 0
  settle := none
  reattempt := none
  renew := none
  grace := none
  decay := none
  retryWait := none
  linkHold := none
  response := none
  watch := none
  queue := []
  line := .idle
  frame := none
  linkRun := none
  heldReply := none

/-! ## Digest Engine -/

/-- The claimants of the Digest Engine (R42). -/
inductive Claimant where
  | bay (b : Fin 4)
  | management
deriving DecidableEq, Repr

/-- A digest job with the inputs copied at its submission (R42). -/
inductive Job where
  | derivePackKey (slot : Nat) (serial : Serial) (code : Word16)
  | checkProof (packKey : Key) (gateNonce packNonce : Nonce) (serial : Serial) (proof : Digest)
  | deriveSession (packKey : Key) (gateNonce packNonce : Nonce)
  | checkTag (sessionKey : Key) (seq code : Byte) (payload : List Byte) (tag : BitVec 32)
  | checkImage (image : List Byte) (digest : Digest)
  | keyCheck (slot : Nat)
deriving DecidableEq, Repr

/-- The job in progress (R43, R46): `slotKey` is what the named key slot held when the job started. -/
structure RunningJob where
  claimant : Claimant
  job : Job
  slotKey : Option Key
  discarded : Bool
deriving DecidableEq, Repr

/-- One job place for each claimant. -/
structure JobPlaces where
  bays : Four (Option Job)
  management : Option Job
deriving DecidableEq, Repr

/-- The Digest Engine (R42, R45). -/
structure DigestEngine where
  running : Option RunningJob
  waiting : JobPlaces
  held : JobPlaces
  pointer : Claimant
deriving DecidableEq, Repr

/-- No claimant has a job there. -/
def JobPlaces.none : JobPlaces := ⟨Four.fill .none, .none⟩

/-- The engine after every reset (R45, R48). -/
def DigestEngine.afterReset : DigestEngine := ⟨none, JobPlaces.none, JobPlaces.none, .management⟩

/-! ## Table Store and Image Loader -/

/-- The three non-volatile records (R175). -/
inductive RecordKind where
  | model | revoke | keys
deriving DecidableEq, Repr

/-- The store write in progress, with the content it writes (R175). -/
inductive StoreWrite where
  | keyLoad (slot : Nat) (new : KeyStore)
  | revokeEdit (new : RevList)
  | modelImage (new : ModelTable)
  | revokeImage (new : RevList)
  | rewrite (record : RecordKind)
deriving DecidableEq, Repr

/-- The Table Store (R175): the live contents, the stored records and the store-write unit. -/
structure TableStore where
  model : ModelTable
  revoke : RevList
  keys : KeyStore
  nvModel : NvRecord ModelTable
  nvRevoke : NvRecord RevList
  nvKeys : NvRecord KeyStore
  write : Option StoreWrite
deriving DecidableEq, Repr

/-- Status values of responses (12.6). -/
inductive Status where
  | ok | busy | queueFull | range | reserved | blocked | noPack | notAuthorized
  | notVerifiable | tagFailed | cancelled | noAnswer | packBusy | packReject | lineFault | lockout
  | stale | full | overlap | notFound | locked | order | digestMismatch | content
  | noKey | storeFailed | wrongState | unknownCode | unknownSelector | empty | noneHeld | diverted
deriving DecidableEq, Repr

/-- The target of an image load (R182). -/
inductive ImageTarget where
  | model | revoke
deriving DecidableEq, Repr

/-- The load states outside IDLE (R182). -/
inductive LoadStage where
  | loading | checking | committing
deriving DecidableEq, Repr

/-- The last outcome of a load (R182). -/
inductive LoadOutcome where
  | committed
  | cancelled
  | aborted
  | status (s : Status)
deriving DecidableEq, Repr

/-- The load record outside IDLE, with the staging buffer and the held IMAGE_END (R182). The bytes received
are the buffer's length. -/
structure Load where
  stage : LoadStage
  target : ImageTarget
  declared : Nat
  expectedGen : Word16
  digest : Option Digest
  buffer : List Byte
  endTid : Option Byte
deriving DecidableEq, Repr

/-- The Image Loader (R182): `load = none` is IDLE. -/
structure ImageLoader where
  load : Option Load
  lastOutcome : Option LoadOutcome
deriving DecidableEq, Repr

/-! ## Verdict Cache -/

/-- A verdict (R75), with the fields a GENUINE entry alone carries. -/
inductive Verdict where
  | genuine (index : Fin 32) (packKey : Key)
  | forged
deriving DecidableEq, Repr

/-- A verdict cache entry (R75). -/
structure CacheEntry where
  serial : Serial
  verdict : Verdict
  keySlot : Nat
  life : Nat
deriving DecidableEq, Repr

/-! ## Frame Filter -/

/-- The actions of a TO_PACK entry, and the values of DEFAULT_TO_PACK (R134, R203). -/
inductive ToPackAction where
  | forward | forwardAuth | block
deriving DecidableEq, Repr

/-- A filter table entry (R134). An invalid entry has no other field. -/
inductive FilterEntry where
  | invalid
  | toPack (value mask : Byte) (bays : Four Bool) (action : ToPackAction)
  | toTool (value mask : Byte) (bays : Four Bool) (level : VerifyLevel) (disposition : Disposition)
deriving DecidableEq, Repr

/-- A reply's mark (R146, R148). -/
inductive Mark where
  | none | verified | unverified
deriving DecidableEq, Repr

/-- A capture queue entry (R148). -/
structure CaptureEntry where
  bay : Fin 4
  code : Byte
  mark : Mark
  payload : List Byte
deriving DecidableEq, Repr

/-- The Frame Filter (R134, R148). -/
structure FrameFilter where
  table : List FilterEntry
  capture : List CaptureEntry
deriving DecidableEq, Repr

/-! ## String Controller -/

/-- The stage of the derivation that refused a string (R152). -/
inductive MismatchCause where
  | unfit | voltage | parallel
deriving DecidableEq, Repr

/-- A string record (R152): the state, with the optional field that state carries. -/
inductive StringState where
  | unused
  | idle
  | pending (holdRun holdProvision : Bool)
  | enabled
  | mismatch (cause : MismatchCause)
  | latchedOff (bay : Fin 4)
deriving DecidableEq, Repr

/-- The String Controller (R151, R152, R163, R164). A policy is `true` for MANUAL. -/
structure StringController where
  assign : Four (Option (Fin 4))
  manual : Four Bool
  strings : Four StringState
  reference : Option Nat
  ben : Four Bool
  runFiltered : Bool
  runFilter : Option Nat
deriving DecidableEq, Repr

/-! ## Management Engine -/

/-- A gate request as it waits in the management queue (R195). -/
structure GateRequest where
  tid : Byte
  code : Byte
  payload : List Byte
deriving DecidableEq, Repr

/-- The request the ME holds (R196). -/
inductive InHand where
  | keyLoad (tid : Byte)
  | revokeAdd (tid : Byte) (index : Nat)
  | revokeDrop (tid : Byte)
  | keyCheck (tid : Byte)
  | gateReset (tid : Byte)
deriving DecidableEq, Repr

/-- A held picture with its read marks (R206). -/
structure Snapshot where
  page0 : List Byte
  page1 : List Byte
  read0 : Bool
  read1 : Bool
deriving DecidableEq, Repr

/-- The Management Engine (R195, R206). -/
structure Management where
  queue : List GateRequest
  inHand : Option InHand
  snapshot : Option Snapshot
deriving DecidableEq, Repr

/-! ## Tool Line Interface -/

/-- The receive assembler (R193): the characters of the frame in assembly, or discarding until the line
has been idle. -/
inductive Receiver where
  | assembling (chars : List Byte)
  | discarding
deriving DecidableEq, Repr

/-- The flags of a response (R197). -/
structure RespFlags where
  verified : Bool
  unverified : Bool
  copied : Bool
  alreadyHeld : Bool
deriving DecidableEq, Repr

/-- No flag set. -/
def RespFlags.none : RespFlags := ⟨false, false, false, false⟩

/-- A response (R197). -/
structure Response where
  selector : BitVec 3
  tid : Byte
  code : Byte
  status : Status
  flags : RespFlags
  payload : List Byte
deriving DecidableEq, Repr

/-- The kinds of tool-line frame (R194). -/
inductive FrameKind where
  | request | response | notice
deriving DecidableEq, Repr

/-- A tool-line frame, without its start byte and CRC (R193). -/
structure ToolFrame where
  kind : FrameKind
  selector : BitVec 3
  tid : Byte
  code : Byte
  status : Byte
  flags : Byte
  payload : List Byte
deriving DecidableEq, Repr

/-- The pending-notice set (R199). -/
structure Notices where
  bays : Four Bool
  strings : Bool
  gate : Bool
deriving DecidableEq, Repr

/-- No source pending. -/
def Notices.none : Notices := ⟨Four.fill false, false, false⟩

/-- The Tool Line Interface (R193, R198, R199, R200). -/
structure ToolLine where
  rx : Receiver
  responses : List Response
  tx : Option ToolFrame
  notices : Notices
  woke : Bool
deriving DecidableEq, Repr

/-! ## Power control, configuration, flags -/

/-- Whether the gate runs (R212): without supply, RESETn held, in the start-up check with the rewrites that
wait behind the one in progress (R192), or running. -/
inductive Power where
  | off
  | resetHeld
  | startup (rewrites : List RecordKind)
  | running
deriving DecidableEq, Repr

/-- Timebase and power control (R33, R208, R209). -/
structure PowerControl where
  power : Power
  dormant : Bool
  provision : Bool
  detSample : Four (Option Bool)
deriving DecidableEq, Repr

/-- The configuration items (R203), in the units of 12.4. -/
structure Settings where
  settle : Nat
  response : Nat
  renew : Nat
  grace : Nat
  linkHold : Nat
  defaultToPack : ToPackAction
deriving DecidableEq, Repr

/-- The defaults (R203). -/
def Settings.default : Settings := ⟨50, 12, 30, 2000, 5, .block⟩

/-- The sticky flags (R201). -/
structure StickyFlags where
  cold : Bool
  modelLost : Bool
  revokeLost : Bool
  keysLost : Bool
  captureOverflow : Bool
  toolFrameError : Bool
deriving DecidableEq, Repr

/-- Every flag clear (R212 step 4). -/
def StickyFlags.none : StickyFlags := ⟨false, false, false, false, false, false⟩

/-! ## The whole state -/

/-- The state of the gate, and the queue of the commands that wait to reach it. -/
structure State where
  bays : Four Bay
  de : DigestEngine
  ts : TableStore
  il : ImageLoader
  cache : List CacheEntry
  ff : FrameFilter
  sc : StringController
  me : Management
  tli : ToolLine
  pw : PowerControl
  cfg : Settings
  flags : StickyFlags
  pins : Pins
  nonceDraws : Nat
  pending : List Instr
deriving DecidableEq, Repr

/-- Reasons to stop with a fault: none. No event of the reference stops the gate, so no meaning raises a
fault; that there is none is safe in itself (INVENTORY, Faults). -/
inductive Fault where
deriving DecidableEq, Repr

/-- Reasons a command has no meaning here. -/
inductive Refusal where
  /-- Raised by `exec`'s own arm for a command without a meaning; safe, since the machine stops. -/
  | notModelled (mnemonic : String)
deriving DecidableEq, Repr

/-- Every input inactive and every line recessive. -/
def quietPins : Pins := ⟨Four.fill false, Four.fill false, false, false⟩

/-- A Table Store that nothing was ever loaded into (log 8). -/
def TableStore.asManufactured : TableStore where
  model := ModelTable.none
  revoke := RevList.none
  keys := noKeys
  nvModel := NvRecord.intact ModelTable.bytes ModelTable.none
  nvRevoke := NvRecord.intact RevList.bytes RevList.none
  nvKeys := NvRecord.intact KeyStore.bytes noKeys
  write := none

/-- The String Controller after power-on and RESETn (R151, R170): the filtered RUN level is the input
sampled as the reset completes. -/
def StringController.afterReset (run : Bool) : StringController where
  assign := Four.fill none
  manual := Four.fill false
  strings := Four.fill .unused
  reference := none
  ben := Four.fill false
  runFiltered := run
  runFilter := none

/-- The machine right after reset: the first power-on of a gate as manufactured has completed with every
input inactive, COLD is set, and the gate notice that the completion raised is being sent (R212, R200;
log 8). -/
def State.reset : State where
  bays := Four.fill (Bay.afterReset false)
  de := DigestEngine.afterReset
  ts := TableStore.asManufactured
  il := ⟨none, none⟩
  cache := []
  ff := ⟨List.replicate 16 .invalid, []⟩
  sc := StringController.afterReset false
  me := ⟨[], none, none⟩
  tli :=
    { rx := .assembling []
      responses := []
      tx := some ⟨.notice, 7, 0, 0x82, 0, 0, [1, 0, 0, 0, 0, 0, 0, 0]⟩
      notices := Notices.none
      woke := false }
  pw := ⟨.running, false, false, Four.fill none⟩
  cfg := Settings.default
  flags := { StickyFlags.none with cold := true }
  pins := quietPins
  nonceDraws := 0
  pending := []

end Sys2Proof.Machine
end

