-- ==== Sys2Proof/Machine/Flags.lean ====
section
/-! DEFINITION. The byte values of states, statuses, marks and flags (12.4, 12.5, 12.6), and the setting of
sticky flags. -/

namespace Sys2Proof.Machine

/-- 12.6. -/
def Status.byte : Status → Byte
  | .ok => 0x00 | .busy => 0x01 | .queueFull => 0x02 | .range => 0x03
  | .reserved => 0x04 | .blocked => 0x05 | .noPack => 0x06 | .notAuthorized => 0x07
  | .notVerifiable => 0x08 | .tagFailed => 0x09 | .cancelled => 0x0A | .noAnswer => 0x0B
  | .packBusy => 0x0C | .packReject => 0x0D | .lineFault => 0x0E | .lockout => 0x0F
  | .stale => 0x10 | .full => 0x11 | .overlap => 0x12 | .notFound => 0x13
  | .locked => 0x14 | .order => 0x15 | .digestMismatch => 0x16 | .content => 0x17
  | .noKey => 0x18 | .storeFailed => 0x19 | .wrongState => 0x1A | .unknownCode => 0x1B
  | .unknownSelector => 0x1C | .empty => 0x1D | .noneHeld => 0x1E | .diverted => 0x1F

/-- 12.4, bay state. -/
def BayState.byte : BayState → Byte
  | .empty => 0 | .settling => 1 | .identifying => 2 | .challenging => 3 | .authorized => 4
  | .renewing => 5 | .grace => 6 | .denied => 7 | .lockout => 8 | .lineFault => 9

/-- 12.4, deny reason. -/
def DenyReason.byte : DenyReason → Byte
  | .unknownModel => 1 | .withdrawn => 2 | .oldFirmware => 3 | .revoked => 4 | .noKey => 5
  | .forged => 6 | .forgedRecent => 7 | .duplicateSerial => 8 | .noAnswer => 9 | .packReject => 10

/-- 12.4, deny reason, 0 when absent. -/
def reasonByte (r : Option DenyReason) : Byte := (r.map DenyReason.byte).getD 0

/-- 12.4, challenge phase, 0 when absent. -/
def phaseByte : Option ChallengePhase → Byte
  | none => 0 | some .key => 1 | some .exchange => 2 | some .check => 3 | some .session => 4

/-- 12.4, authentication claim. -/
def Claim.byte : Claim → Byte
  | .none => 0 | .idQuery => 1 | .challenge .admission => 2 | .challenge .renewal => 3

/-- 12.4, line state. -/
def LineState.byte : LineState → Byte
  | .idle => 0
  | .inTransaction .forward _ _ => 1
  | .inTransaction .ident _ _ => 2
  | .inTransaction .challenge _ _ => 3
  | .inTransaction .splitFirst _ _ => 4
  | .inTransaction .splitSecond _ _ => 5
  | .retryWait _ => 6
  | .awaitDigest => 7

/-- 12.4, string state. -/
def StringState.byte : StringState → Byte
  | .unused => 0 | .idle => 1 | .pending _ _ => 2 | .enabled => 3 | .mismatch _ => 4 | .latchedOff _ => 5

/-- 12.4, mismatch cause, 0 outside MISMATCH. -/
def StringState.causeByte : StringState → Byte
  | .mismatch .unfit => 1 | .mismatch .voltage => 2 | .mismatch .parallel => 3
  | _ => 0

/-- 12.4, hold causes, 0 outside PENDING. -/
def StringState.holdByte : StringState → Byte
  | .pending r p => byteOf (bitOf r 0 + bitOf p 1)
  | _ => 0

/-- The latch bay, present in LATCHED_OFF (R152). -/
def StringState.latchBay : StringState → Option (Fin 4)
  | .latchedOff b => some b
  | _ => none

/-- 12.4, latch bay: FFh none. -/
def StringState.latchByte (st : StringState) : Byte :=
  match st.latchBay with
  | some b => byteOf b.val
  | none => 0xFF

/-- 12.4, load state. -/
def ImageLoader.stateByte (il : ImageLoader) : Byte :=
  match il.load with
  | none => 0
  | some l =>
    match l.stage with
    | .loading => 1
    | .checking => 2
    | .committing => 3

/-- 12.4, last outcome: a status that ended the load stands with bit 7 set. -/
def outcomeByte : Option LoadOutcome → Byte
  | none => 0
  | some .committed => 1
  | some .cancelled => 2
  | some .aborted => 3
  | some (.status s) => s.byte ||| 0x80

/-- 12.4, capture mark. -/
def Mark.byte : Mark → Byte
  | .none => 0 | .verified => 1 | .unverified => 2

/-- 12.4, DEFAULT_TO_PACK and TO_PACK actions. -/
def ToPackAction.byte : ToPackAction → Byte
  | .forward => 0 | .forwardAuth => 1 | .block => 2

/-- 12.4, verify level. -/
def VerifyLevel.num : VerifyLevel → Nat
  | .none => 0 | .verify => 1 | .strict => 2

/-- 12.4, disposition. -/
def Disposition.num : Disposition → Nat
  | .pass => 0 | .copy => 1 | .divert => 2

/-- 12.4, an assignment: 0Fh is NONE. -/
def assignByte : Option (Fin 4) → Byte
  | some i => byteOf i.val
  | none => 0x0F

/-- 12.4, the sticky flags. -/
def StickyFlags.byte (f : StickyFlags) : Byte :=
  byteOf (bitOf f.cold 0 + bitOf f.modelLost 1 + bitOf f.revokeLost 2 + bitOf f.keysLost 3 +
    bitOf f.captureOverflow 4 + bitOf f.toolFrameError 5)

/-- 12.1, the flags of a response. -/
def RespFlags.byte (f : RespFlags) : Byte :=
  byteOf (bitOf f.verified 1 + bitOf f.unverified 2 + bitOf f.copied 3 + bitOf f.alreadyHeld 4)

/-- 12.4, a filter entry's five bytes. An invalid entry reads with every field zero (R138). -/
def FilterEntry.bytes : FilterEntry → List Byte
  | .invalid => [0, 0, 0, 0, 0]
  | .toPack v m bays a => [1, v, m, fourBits bays, a.byte]
  | .toTool v m bays l d => [3, v, m, fourBits bays, byteOf (l.num + 16 * d.num)]

/-- The mark a response shows (R133, R146). -/
def Mark.flags (m : Mark) (copied : Bool) : RespFlags :=
  ⟨m == .verified, m == .unverified, copied, false⟩

/-! ## Model flags of a bay's attributes (R51, R53; 12.5). A bay without them has every flag clear. -/

/-- SERIES_OK of the attributes. -/
def ModelAttrs.seriesOk (a : ModelAttrs) : Bool := a.flags.getLsbD 0

/-- PARALLEL_OK of the attributes. -/
def ModelAttrs.parallelOk (a : ModelAttrs) : Bool := a.flags.getLsbD 1

/-- The model attributes a bay holds with its identity (R53). -/
def Bay.attrs (bay : Bay) : Option ModelAttrs := bay.identity.bind (·.attrs)

/-- NARROW of the bay's attributes (R51, R55). -/
def Bay.narrow (bay : Bay) : Bool :=
  match bay.attrs with
  | some a => a.flags.getLsbD 2
  | none => false

/-- TAGGING of the bay's attributes (R51, R139). -/
def Bay.tagging (bay : Bay) : Bool :=
  match bay.attrs with
  | some a => a.flags.getLsbD 3
  | none => false

end Sys2Proof.Machine
end

