-- ==== Sys2Proof/Machine/Operands.lean ====
section
/-! DEFINITION. Frames of both lines as bytes (R108, R193, R213, 12.1) and the argument fields of gate
requests (12.3). -/

namespace Sys2Proof.Machine

/-! ## Tool-line frames -/

/-- What the receive assembler makes of the characters it has (R193). `rest` are the characters behind a
complete frame. -/
inductive ToolRx where
  | incomplete
  | framingError
  | crcError (rest : List Byte)
  | complete (kindSelector tid code flags : Byte) (payload rest : List Byte)
deriving DecidableEq, Repr

/-- The judgement of R193, character by character: start byte, length, completeness, CRC. -/
def parseTool : List Byte → ToolRx
  | [] => .incomplete
  | start :: body =>
    if start ≠ 0x5A then .framingError
    else
      match body with
      | ks :: tid :: code :: _status :: flags :: len :: rest =>
        let n := len.toNat
        if 48 < n then .framingError
        else if rest.length < n + 2 then .incomplete
        else if (crc16 (body.take (6 + n))).toNat = natBE ((rest.drop n).take 2) then
          .complete ks tid code flags (rest.take n) (rest.drop (n + 2))
        else .crcError (rest.drop (n + 2))
      | _ => .incomplete

/-- The kind field, bits 5..4 (12.1). -/
def kindField (ks : Byte) : Nat := (ks.toNat / 16) % 4

/-- The selector field, bits 2..0 (12.1). -/
def selectorField (ks : Byte) : BitVec 3 := ks.truncate 3

/-- 12.1, kinds. -/
def FrameKind.num : FrameKind → Nat
  | .request => 0 | .response => 1 | .notice => 2

/-- The kind and selector byte of a frame (12.1). -/
def ToolFrame.kindSelector (f : ToolFrame) : Byte := byteOf (16 * f.kind.num + f.selector.toNat)

/-- The characters of a tool-line frame, with start byte and CRC (12.1, R213). -/
def ToolFrame.bytes (f : ToolFrame) : List Byte :=
  let body := [f.kindSelector, f.tid, f.code, f.status, f.flags, byteOf f.payload.length] ++ f.payload
  [0x5A#8] ++ body ++ bytesBE 2 (crc16 body).toNat

/-- The frame of a response (R197). -/
def Response.frame (r : Response) : ToolFrame :=
  ⟨.response, r.selector, r.tid, r.code, r.status.byte, r.flags.byte, r.payload⟩

/-! ## Pack-line frames -/

/-- What the gate makes of the characters of a reply (R108). -/
inductive PackRx where
  | incomplete
  | frameError
  | crcError
  | good (f : PackFrame)
deriving DecidableEq, Repr

/-- The judgement of R108. Characters behind the last CRC character are discarded. -/
def parsePack : List Byte → PackRx
  | [] => .incomplete
  | start :: body =>
    if start ≠ 0xC3 then .frameError
    else
      match body with
      | code :: control :: seq :: len :: rest =>
        let n := len.toNat
        let t := if control.getLsbD 1 then 4 else 0
        if 16 < n then .frameError
        else if rest.length < n + t + 2 then .incomplete
        else if (crc16 (body.take (4 + n + t))).toNat = natBE ((rest.drop (n + t)).take 2) then
          .good ⟨code, control, seq, rest.take n,
            if control.getLsbD 1 then some (BitVec.ofNat 32 (natBE ((rest.drop n).take 4))) else none⟩
        else .crcError
      | _ => .incomplete

/-- The characters of a pack-line frame, with start byte and CRC (12.1, R213). -/
def PackFrame.bytes (f : PackFrame) : List Byte :=
  let body := [f.code, f.control, f.seq, byteOf f.payload.length] ++ f.payload ++
    (match f.tag with
     | some t => bytesBE 4 t.toNat
     | none => [])
  [0xC3#8] ++ body ++ bytesBE 2 (crc16 body).toNat

/-! ## Reserved pack-line codes (12.1) -/

def codeIdQuery : Byte := 0xF0
def codeIdReport : Byte := 0xF1
def codeChallenge : Byte := 0xF2
def codeProof : Byte := 0xF3
def codeBusy : Byte := 0xF4
def codeReject : Byte := 0xF5
def codeContAck : Byte := 0xF6

/-! ## Argument fields -/

/-- The field of `n` bytes at an offset, as a number (most significant byte first). -/
def field (payload : List Byte) (offset n : Nat) : Nat := natBE ((payload.drop offset).take n)

/-- The field of one byte at an offset. -/
def byteField (payload : List Byte) (offset : Nat) : Nat := field payload offset 1

/-- A 16-bit field. -/
def wordField (payload : List Byte) (offset : Nat) : Word16 := BitVec.ofNat 16 (field payload offset 2)

/-- A serial field. -/
def serialField (payload : List Byte) (offset : Nat) : Serial := BitVec.ofNat 48 (field payload offset 6)

/-- A number 0 to 3 (a bay or a string), or none when it is above 3. -/
def fourNumber (n : Nat) : Option (Fin 4) := if h : n < 4 then some ⟨n, h⟩ else none

/-- An assignment byte (12.4): 0..3 a string, 0Fh NONE, anything else outside the enumeration. -/
def assignField (n : Nat) : Option (Option (Fin 4)) :=
  if n = 0x0F then some none else (fourNumber n).map some

/-- A bit-set byte over four numbers (12.4), refused with any of bits 7..4 set (R215). -/
def bitSetField (n : Nat) : Option (Four Bool) :=
  if n < 16 then some ⟨n.testBit 0, n.testBit 1, n.testBit 2, n.testBit 3⟩ else none

/-- An action of a TO_PACK entry or DEFAULT_TO_PACK (12.4). -/
def toPackField (n : Nat) : Option ToPackAction :=
  if n = 0 then some .forward else if n = 1 then some .forwardAuth else if n = 2 then some .block else none

/-- A verify level (12.4). -/
def levelField (n : Nat) : Option VerifyLevel :=
  if n = 0 then some .none else if n = 1 then some .verify else if n = 2 then some .strict else none

/-- A disposition (12.4). -/
def dispositionField (n : Nat) : Option Disposition :=
  if n = 0 then some .pass else if n = 1 then some .copy else if n = 2 then some .divert else none

/-- The action byte of a TO_TOOL entry (12.4): bits 1..0 the verify level, bits 5..4 the disposition. R137 refuses
an entry for neither of the other bits, which name no field, and they are not kept (log 34). -/
def toToolField (n : Nat) : Option (VerifyLevel × Disposition) :=
  match levelField (n % 4), dispositionField ((n / 16) % 4) with
  | some l, some d => some (l, d)
  | _, _ => none

/-- The five bytes of a filter entry (12.4, R137). An entry written with valid clear is stored invalid
whatever its other fields hold. -/
def filterField (bytes : List Byte) : Option FilterEntry :=
  let b0 := byteField bytes 0
  let v := bytes.getD 1 0
  let m := bytes.getD 2 0
  if b0 % 2 = 0 then some .invalid
  else if 3 < b0 then none
  else
    match bitSetField (byteField bytes 3) with
    | none => none
    | some bays =>
      if b0 = 1 then (toPackField (byteField bytes 4)).map (FilterEntry.toPack v m bays)
      else (toToolField (byteField bytes 4)).map (fun a => FilterEntry.toTool v m bays a.1 a.2)

/-- An image target (12.3). -/
def targetField (n : Nat) : Option ImageTarget :=
  if n = 1 then some .model else if n = 2 then some .revoke else none

end Sys2Proof.Machine
end

