-- ==== Sys2Proof/Machine/Ops.lean ====
section
/-! DEFINITION. The shared operations over the state: accessors, responses, notices, sticky flags, the
transmitter, and the end of a step. -/

namespace Sys2Proof.Machine

/-- What a step of this gate answers. -/
abbrev Out := Host.Outcome State Fault Refusal

/-! ## Access -/

/-- The bay context of a bay. -/
def State.bay (s : State) (b : Fin 4) : Bay := s.bays.get b

/-- The gate has supply and RESETn is not held (R212). -/
def State.live (s : State) : Bool :=
  match s.pw.power with
  | .off => false
  | .resetHeld => false
  | .startup _ => true
  | .running => true

/-- The start-up check is complete (R192). -/
def State.isRunning (s : State) : Bool := s.pw.power == .running

/-- The gate takes bay events: running and not dormant (R192, R209). -/
def State.awake (s : State) : Bool := s.isRunning && !s.pw.dormant

/-- A store write is in progress, or a load counts as one from COMMITTING on (R175, R189). -/
def State.storeBusy (s : State) : Bool :=
  s.ts.write.isSome ||
    (match s.il.load with
     | some l => l.stage == .committing
     | none => false)

/-- The load is in the given stage (R182). -/
def State.loadStage (s : State) : Option LoadStage := s.il.load.map (·.stage)

/-! ## Notices (R199) -/

/-- Raise a bay's notice source. -/
def State.raiseBay (s : State) (b : Fin 4) : State :=
  { s with tli.notices.bays := s.tli.notices.bays.set b true }

/-- Raise the strings notice source. -/
def State.raiseStrings (s : State) : State := { s with tli.notices.strings := true }

/-- Raise the gate notice source. -/
def State.raiseGate (s : State) : State := { s with tli.notices.gate := true }

/-- What a bay's notice source is raised for: a change of state, of strikes, or of the reason recorded in
GRACE (R3, R71, R200). -/
def Bay.noticed (old new : Bay) : Bool :=
  old.state != new.state || old.strikes != new.strikes || (new.state == .grace && old.reason != new.reason)

/-- Replace a bay context by one that calls for no notice. -/
def State.setBay (s : State) (b : Fin 4) (new : Bay) : State := { s with bays := s.bays.set b new }

/-- Replace a bay context, raising its notice source when the change calls for it (R3). -/
def State.putBay (s : State) (b : Fin 4) (new : Bay) : State :=
  if (s.bay b).noticed new then (s.setBay b new).raiseBay b else s.setBay b new

/-! ## Sticky flags (R201): setting one raises the gate notice source, whether or not it was set -/

/-- Set MODEL_LOST. -/
def State.setModelLost (s : State) : State := { s with flags.modelLost := true }.raiseGate

/-- Set REVOKE_LOST. -/
def State.setRevokeLost (s : State) : State := { s with flags.revokeLost := true }.raiseGate

/-- Set KEYS_LOST. -/
def State.setKeysLost (s : State) : State := { s with flags.keysLost := true }.raiseGate

/-- Set CAPTURE_OVERFLOW. -/
def State.setCaptureOverflow (s : State) : State := { s with flags.captureOverflow := true }.raiseGate

/-- Set TOOL_FRAME_ERROR. -/
def State.setToolFrameError (s : State) : State := { s with flags.toolFrameError := true }.raiseGate

/-! ## Responses (R197, R198) -/

/-- Responses become ready: they join the response list in order (R198). -/
def State.answer (s : State) (rs : List Response) : State :=
  { s with tli.responses := s.tli.responses ++ rs }

/-- The response to a gate request, without flags (R197). -/
def gateResponse (tid code : Byte) (st : Status) (payload : List Byte) : Response :=
  ⟨7, tid, code, st, RespFlags.none, payload⟩

/-- The payload of an edit's response: generation, count and, for an add that took, the index (12.3). -/
def editPayload (l : RevList) (index : List Byte) : List Byte :=
  bytesBE 2 l.gen.toNat ++ (byteOf l.ranges.length :: index)

/-- The payload of a gate request's answer other than OK, where the request's own meaning gives none: REVOKE_ADD and
REVOKE_DROP carry the live generation and count whatever refuses them (12.3; log 21). -/
def State.rejectionPayload (s : State) (code : Byte) : List Byte :=
  if code = 0x32 ∨ code = 0x33 then editPayload s.ts.revoke [] else []

/-- The answer to a gate request that is not carried out, or whose write failed: QUEUE_FULL, CANCELLED or
STORE_FAILED (log 21). -/
def State.rejection (s : State) (tid code : Byte) (st : Status) : Response :=
  gateResponse tid code st (s.rejectionPayload code)

/-- The response to a request that stood in a forward queue (R133). -/
def entryResponse (b : Fin 4) (e : ForwardEntry) (code : Byte) (st : Status) (flags : RespFlags)
    (payload : List Byte) : Response :=
  ⟨BitVec.ofNat 3 b.val, e.tid, code, st, flags, payload⟩

/-- The responses of a flush (R131): the request on the line is the head of the queue. -/
def flushResponses (b : Fin 4) (queue : List ForwardEntry) (st : Status) : List Response :=
  queue.map (fun e => entryResponse b e e.code st RespFlags.none [])

/-! ## The transmitter (R198 to R200) -/

/-- The lowest-numbered pending source: bays, then strings, then gate (R199). -/
inductive NoticeSource where
  | bay (b : Fin 4)
  | strings
  | gate
deriving DecidableEq, Repr

/-- The source that the arbiter takes next (R199). -/
def Notices.lowest (n : Notices) : Option NoticeSource :=
  match Four.indices.find? (fun b => n.bays.get b) with
  | some b => some (.bay b)
  | Option.none => if n.strings then some .strings else if n.gate then some .gate else Option.none

/-- Remove a source from the set. -/
def Notices.remove (n : Notices) : NoticeSource → Notices
  | .bay b => { n with bays := n.bays.set b false }
  | .strings => { n with strings := false }
  | .gate => { n with gate := false }

/-- The payload of the gate's status fields that the gate notice carries (R200, 12.5). -/
def State.gateNoticePayload (s : State) : List Byte :=
  [s.flags.byte, boolByte s.tli.woke] ++ bytesBE 2 s.ts.model.gen.toNat ++ bytesBE 2 s.ts.revoke.gen.toNat ++
    [s.il.stateByte, outcomeByte s.il.lastOutcome]

/-- The notice frame of a source, filled with the values held at that moment (R199, R200, 12.5). -/
def State.noticeFrame (s : State) : NoticeSource → ToolFrame
  | .bay b =>
    ⟨.notice, BitVec.ofNat 3 b.val, 0, 0x80, 0, 0,
      [(s.bay b).state.byte, reasonByte (s.bay b).reason, byteOf (s.bay b).strikes]⟩
  | .strings =>
    ⟨.notice, 7, 0, 0x81, 0, 0, s.sc.strings.toList.map StringState.byte ++ [fourBits s.sc.ben]⟩
  | .gate => ⟨.notice, 7, 0, 0x82, 0, 0, s.gateNoticePayload⟩

/-- The transmit arbiter (R198): while the transmitter is free, the oldest response is sent, or else the
notice of the lowest pending source; sending a gate notice clears WOKE at its start (R200). -/
def State.transmit (s : State) : State :=
  match s.tli.tx with
  | some _ => s
  | none =>
    match s.tli.responses with
    | r :: rest => { s with tli.tx := some r.frame, tli.responses := rest }
    | [] =>
      match s.tli.notices.lowest with
      | none => s
      | some src =>
        { s with
          tli.tx := some (s.noticeFrame src)
          tli.notices := s.tli.notices.remove src
          tli.woke := if src = .gate then false else s.tli.woke }

/-- The transmit arbiter at the end of a step. In dormant an idle transmitter stays idle (R208; log 27). -/
def State.settleTx (s : State) : State := if s.pw.dormant then s else s.transmit

/-- The end of a step: the transmit arbiter acts on the state the step leaves (log 14). -/
def done (s : State) : Out := .next s.settleTx

/-- A step that the gate does not take in its present state leaves everything as it is (log 3). -/
def unchanged (s : State) : Out := .next s

/-- A step that is taken while a condition holds, and otherwise leaves everything as it is (log 3). -/
def taken (c : Bool) (s t : State) : Out := if c then done t else unchanged s

end Sys2Proof.Machine
end

