-- ==== Sys2Proof/Machine/Digest.lean ====
section
/-! DEFINITION. The Digest Engine's job places, its cyclic order and the withdrawal of jobs (chapter 2), and the
values of the digest messages (R38 to R41). -/

namespace Sys2Proof.Machine

/-! ## Job places -/

/-- The job of a claimant. -/
def JobPlaces.get (p : JobPlaces) : Claimant → Option Job
  | .bay b => p.bays.get b
  | .management => p.management

/-- Replace the job of a claimant. -/
def JobPlaces.set (p : JobPlaces) (c : Claimant) (j : Option Job) : JobPlaces :=
  match c with
  | .bay b => { p with bays := p.bays.set b j }
  | .management => { p with management := j }

/-- The claimants in the order in which they follow one in the cyclic order, itself last (R45). -/
def Claimant.following : Claimant → List Claimant
  | .bay 0 => [.bay 1, .bay 2, .bay 3, .management, .bay 0]
  | .bay 1 => [.bay 2, .bay 3, .management, .bay 0, .bay 1]
  | .bay 2 => [.bay 3, .management, .bay 0, .bay 1, .bay 2]
  | .bay 3 => [.management, .bay 0, .bay 1, .bay 2, .bay 3]
  | .management => [.bay 0, .bay 1, .bay 2, .bay 3, .management]

/-- The first waiting claimant that follows the pointer (R45). -/
def DigestEngine.nextWaiting (de : DigestEngine) : Option Claimant :=
  de.pointer.following.find? (fun c => (de.waiting.get c).isSome)

/-- The job in progress belongs to a claimant. -/
def DigestEngine.runs (de : DigestEngine) (c : Claimant) : Bool :=
  match de.running with
  | some r => r.claimant == c
  | none => false

/-- A claimant has a job outstanding (R42). -/
def DigestEngine.outstanding (de : DigestEngine) (c : Claimant) : Bool :=
  de.runs c || (de.waiting.get c).isSome || (de.held.get c).isSome

/-- The slot that a job names (R43). -/
def Job.namedSlot : Job → Option Nat
  | .derivePackKey slot _ _ => some slot
  | .checkImage _ _ => some 0
  | .keyCheck slot => some slot
  | _ => none

/-- A CHECK_TAG job. -/
def Job.isCheckTag : Job → Bool
  | .checkTag _ _ _ _ _ => true
  | _ => false

/-! ## Withdrawal (R46, R47) -/

/-- Withdraw a claimant's waiting and held jobs, and discard the result of its job in progress. -/
def DigestEngine.withdraw (de : DigestEngine) (c : Claimant) : DigestEngine where
  running := de.running.map (fun r => if r.claimant = c then { r with discarded := true } else r)
  waiting := de.waiting.set c none
  held := de.held.set c none
  pointer := de.pointer

/-- The jobs of a bay's admission or renewal are withdrawn; a CHECK_TAG job is not (R99, R142; log 16). -/
def DigestEngine.withdrawAuth (de : DigestEngine) (b : Fin 4) : DigestEngine where
  running := de.running.map
    (fun r => if r.claimant = .bay b ∧ r.job.isCheckTag = false then { r with discarded := true } else r)
  waiting := de.waiting.set (.bay b) ((de.waiting.get (.bay b)).filter Job.isCheckTag)
  held := de.held.set (.bay b) ((de.held.get (.bay b)).filter Job.isCheckTag)
  pointer := de.pointer

/-- Withdraw the jobs of a claimant. -/
def State.withdraw (s : State) (c : Claimant) : State := { s with de := s.de.withdraw c }

/-- Withdraw the admission jobs of a bay. -/
def State.withdrawAuth (s : State) (b : Fin 4) : State := { s with de := s.de.withdrawAuth b }

/-! ## Digest values (R38) -/

/-- A 128-bit result formed from two digests, the first the more significant half (R38). -/
def digestPair (key : Key) (upper lower : List Byte) : Key :=
  Config.digest key upper ++ Config.digest key lower

/-- A serial's six bytes. -/
def serialBytes (x : Serial) : List Byte := bytesBE 6 x.toNat

/-- A nonce's eight bytes. -/
def nonceBytes (x : Nonce) : List Byte := bytesBE 8 x.toNat

/-- The pack key of R39. -/
def packKeyValue (root : Key) (serial : Serial) (code : Word16) : Key :=
  digestPair root (0x01#8 :: (serialBytes serial ++ bytesBE 2 code.toNat))
    (0x02#8 :: (serialBytes serial ++ bytesBE 2 code.toNat))

/-- The proof of R39. -/
def proofValue (packKey : Key) (gateNonce packNonce : Nonce) (serial : Serial) : Digest :=
  Config.digest packKey (0x10#8 :: (nonceBytes gateNonce ++ nonceBytes packNonce ++ serialBytes serial))

/-- The session key of R40. -/
def sessionKeyValue (packKey : Key) (gateNonce packNonce : Nonce) : Key :=
  digestPair packKey (0x21#8 :: (nonceBytes gateNonce ++ nonceBytes packNonce))
    (0x22#8 :: (nonceBytes gateNonce ++ nonceBytes packNonce))

/-- The reply tag of R40: the four most significant bytes of the digest. -/
def tagValue (sessionKey : Key) (seq code : Byte) (payload : List Byte) : BitVec 32 :=
  (Config.digest sessionKey (0x30#8 :: seq :: code :: byteOf payload.length :: payload)).extractLsb' 32 32

/-- The image check of R41. -/
def imageValue (imageKey : Key) (image : List Byte) : Digest := Config.digest imageKey (0x40#8 :: image)

/-- The key check value of R37 and R41. -/
def keyCheckValue (key : Key) : Digest := Config.digest key (0x50#8 :: List.replicate 16 0#8)

end Sys2Proof.Machine
end

