-- ==== Sys2Proof/Machine/Cache.lean ====
section
/-! DEFINITION. The Verdict Cache: lookup, insertion and invalidation (chapter 5). -/

namespace Sys2Proof.Machine

/-- The entry for a serial (R77). -/
def cacheFind (cache : List CacheEntry) (serial : Serial) : Option CacheEntry :=
  cache.find? (fun e => e.serial == serial)

/-- The cache without the entry for a serial. -/
def cacheWithout (cache : List CacheEntry) (serial : Serial) : List CacheEntry :=
  cache.filter (fun e => e.serial != serial)

/-- The cache after the expiry for a serial: its entry leaves when its life has run down, and an entry with life left,
as one that an insertion has just put there, stays (R80; log 2). -/
def cacheExpire (cache : List CacheEntry) (serial : Serial) : List CacheEntry :=
  cache.filter (fun e => e.serial != serial || decide (1 < e.life))

/-- The recency order after a lookup: a hit moves the entry to the front (R77). -/
def cacheTouch (cache : List CacheEntry) (serial : Serial) : List CacheEntry :=
  match cacheFind cache serial with
  | some e => e :: cacheWithout cache serial
  | none => cache

/-- An insertion (R79): the entry for the serial is replaced, or a full cache loses its back entry; the new entry
goes to the front. -/
def cacheInsert (cache : List CacheEntry) (e : CacheEntry) : List CacheEntry :=
  match cacheFind cache e.serial with
  | some _ => e :: cacheWithout cache e.serial
  | none => e :: cache.take 7

/-- The full life of a GENUINE entry, 600 s (R75). -/
def genuineLife : Nat := 600000

/-- The full life of a FORGED entry, 30 s (R75). -/
def forgedLife : Nat := 30000

/-- A GENUINE entry (R75). -/
def CacheEntry.isGenuine (e : CacheEntry) : Bool :=
  match e.verdict with
  | .genuine _ _ => true
  | .forged => false

/-- Insert an entry for a serial (R79). -/
def State.cacheInsert (s : State) (serial : Serial) (verdict : Verdict) (slot life : Nat) : State :=
  { s with cache := Machine.cacheInsert s.cache ⟨serial, verdict, slot, life⟩ }

end Sys2Proof.Machine
end

