-- ==== Sys2Proof/Machine/Tables.lean ====
section
/-! DEFINITION. Lookups of the trust tables and the checks c to g (R11, R52, R65). -/

namespace Sys2Proof.Machine

/-- The entry at an index of the live table; empty beyond it. -/
def ModelTable.entry (t : ModelTable) (i : Nat) : ModelEntry := t.entries.getD i ModelEntry.none

/-- The lookup by model code (R52). Code 0 matches no entry. -/
def ModelTable.find (t : ModelTable) (code : Word16) : Option (Fin 32) :=
  if code = 0#16 then Option.none
  else (List.finRange 32).find? (fun i => (t.entry i.val).code == code)

/-- A range covers a serial (R65). -/
def Range.covers (r : Range) (serial : Serial) : Bool :=
  decide (r.first.toNat ≤ serial.toNat) && decide (serial.toNat ≤ r.last.toNat)

/-- The coverage lookup (R65). -/
def RevList.covers (l : RevList) (serial : Serial) : Bool := l.ranges.any (fun r => r.covers serial)

/-- The attributes that a lookup copies from the entry found (R53). -/
def ModelEntry.attrs (e : ModelEntry) : ModelAttrs :=
  ⟨e.keySlot, e.chemistry, e.cells, e.capacity, e.current, e.flags⟩

/-- Checks d to g of R11 against an entry: the first that fails gives its deny reason. -/
def TableStore.checksDG (ts : TableStore) (e : ModelEntry) (firmware : Word16) (serial : Serial) :
    Option DenyReason :=
  if e.withdrawn then some .withdrawn
  else if firmware.toNat < e.minFirmware.toNat then some .oldFirmware
  else if ts.revoke.covers serial then some .revoked
  else if (ts.keys.slot e.keySlot.toNat).isNone then some .noKey
  else none

/-- The table reasons (R20). -/
def DenyReason.isTable : DenyReason → Bool
  | .unknownModel | .withdrawn | .oldFirmware | .revoked | .noKey => true
  | _ => false

/-- The bay states among which no two bays hold the same serial (R12). -/
def BayState.holdsSerial : BayState → Bool
  | .challenging | .authorized | .renewing | .grace => true
  | _ => false

/-- Check b (R11, R12): another bay of the set holds the serial. -/
def State.duplicateSerial (s : State) (b : Fin 4) (serial : Serial) : Bool :=
  Four.indices.any (fun o =>
    o != b && (s.bay o).state.holdsSerial && (s.bay o).identity.map (·.serial) == some serial)

end Sys2Proof.Machine
end

