-- ==== Sys2Proof/Machine/Strings.lean ====
section
/-! DEFINITION. The String Controller's derivation (R153 to R163). -/

namespace Sys2Proof.Machine

/-- Eligible for power (R153). -/
def BayState.eligible : BayState → Bool
  | .authorized | .renewing | .grace => true
  | _ => false

/-- The members of a string, ascending (R151). -/
def StringController.members (sc : StringController) (x : Fin 4) : List (Fin 4) :=
  Four.indices.filter (fun b => sc.assign.get b == some x)

/-- Every member is eligible (R153). -/
def allEligible (bays : Four Bay) (ms : List (Fin 4)) : Bool := ms.all (fun b => (bays.get b).state.eligible)

/-- Two members agree in chemistry, cell count and capacity class (R154). -/
def ModelAttrs.agrees (a b : ModelAttrs) : Bool :=
  a.chemistry == b.chemistry && a.cells == b.cells && a.capacity == b.capacity

/-- The members' attributes, of those that hold any. -/
def memberAttrs (bays : Four Bay) (ms : List (Fin 4)) : List ModelAttrs :=
  ms.filterMap (fun b => (bays.get b).attrs)

/-- Every member holds attributes. -/
def allAttrs (bays : Four Bay) (ms : List (Fin 4)) : Bool := ms.all (fun b => (bays.get b).attrs.isSome)

/-- Internally fit (R154). -/
def internallyFit (bays : Four Bay) (ms : List (Fin 4)) : Bool :=
  let attrs := memberAttrs bays ms
  allAttrs bays ms && attrs.all (fun a => attrs.all (fun b => a.agrees b)) &&
    (decide (ms.length ≤ 1) || attrs.all ModelAttrs.seriesOk)

/-- The voltage of a string, in cells (R155). -/
def voltage (bays : Four Bay) (ms : List (Fin 4)) : Nat :=
  ((memberAttrs bays ms).map (fun a => a.cells.toNat)).sum

/-- Every member carries PARALLEL_OK (R161). -/
def parallelOk (bays : Four Bay) (ms : List (Fin 4)) : Bool :=
  allAttrs bays ms && (memberAttrs bays ms).all ModelAttrs.parallelOk

/-- What the derivation reads beside the bays and the String Controller's own state (R156). -/
structure DeriveInputs where
  byRemoval : Bool
  run : Bool
  provision : Bool
  dormant : Bool
deriving DecidableEq, Repr

/-- The first stage and the fitness stage (R157 to R159): the state of a string that is no candidate. -/
def sortString (sc : StringController) (bays : Four Bay) (byRemoval : Bool) (x : Fin 4) : Option StringState :=
  let ms := sc.members x
  match ms with
  | [] => some .unused
  | _ :: _ =>
    match sc.strings.get x with
    | .latchedOff b => some (.latchedOff b)
    | old =>
      if allEligible bays ms then
        if internallyFit bays ms then none else some (.mismatch .unfit)
      else if old = .enabled ∧ sc.manual.get x = true ∧ byRemoval = false then
        match ms.find? (fun b => !(bays.get b).state.eligible) with
        | some b => some (.latchedOff b)
        | none => some .idle
      else some .idle

/-- The candidates, ascending (R159). -/
def candidates (sc : StringController) (bays : Four Bay) (byRemoval : Bool) : List (Fin 4) :=
  Four.indices.filter (fun x => (sortString sc bays byRemoval x).isNone)

/-- The string was ENABLED before the derivation. -/
def StringController.wasEnabled (sc : StringController) (x : Fin 4) : Bool := sc.strings.get x == .enabled

/-- The reference voltage (R160). -/
def referenceOf (sc : StringController) (bays : Four Bay) (cands : List (Fin 4)) : Option Nat :=
  match cands.find? sc.wasEnabled with
  | some x => some (voltage bays (sc.members x))
  | none => cands.head?.map (fun x => voltage bays (sc.members x))

/-- The matched strings (R160). -/
def matchedOf (sc : StringController) (bays : Four Bay) (cands : List (Fin 4)) : List (Fin 4) :=
  cands.filter (fun x => some (voltage bays (sc.members x)) == referenceOf sc bays cands)

/-- One string considered for the admitted set (R161). -/
def admitOne (sc : StringController) (bays : Four Bay) (adm : List (Fin 4)) (x : Fin 4) : List (Fin 4) :=
  if adm = [] then [x]
  else if parallelOk bays (sc.members x) && adm.all (fun y => parallelOk bays (sc.members y)) then adm ++ [x]
  else adm

/-- The admitted set (R161): those ENABLED before first, then the others, each ascending. -/
def admittedOf (sc : StringController) (bays : Four Bay) (ms : List (Fin 4)) : List (Fin 4) :=
  (ms.filter sc.wasEnabled ++ ms.filter (fun x => !sc.wasEnabled x)).foldl (admitOne sc bays) []

/-- The state of an admitted string (R162). -/
def heldState (sc : StringController) (inp : DeriveInputs) (x : Fin 4) : StringState :=
  if sc.wasEnabled x then .enabled
  else if inp.run || inp.provision || inp.dormant then .pending inp.run inp.provision
  else .enabled

/-- The state that a derivation gives a string (R157 to R162). -/
def derivedState (sc : StringController) (bays : Four Bay) (inp : DeriveInputs) (x : Fin 4) : StringState :=
  let cands := candidates sc bays inp.byRemoval
  let matched := matchedOf sc bays cands
  match sortString sc bays inp.byRemoval x with
  | some st => st
  | none =>
    if matched.contains x then
      if (admittedOf sc bays matched).contains x then heldState sc inp x else .mismatch .parallel
    else .mismatch .voltage

/-- The BEN outputs of a topology and its string states (R163). -/
def benOf (assign : Four (Option (Fin 4))) (strings : Four StringState) : Four Bool :=
  assign.map (fun a =>
    match a with
    | some x => strings.get x == .enabled
    | none => false)

/-- The String Controller after a derivation (R156). -/
def StringController.derive (sc : StringController) (bays : Four Bay) (inp : DeriveInputs) : StringController :=
  let strings := Four.ofFn (derivedState sc bays inp)
  { sc with
    strings := strings
    reference := referenceOf sc bays (candidates sc bays inp.byRemoval)
    ben := benOf sc.assign strings }

/-- What the strings notice source is raised for: a change of a string's state or latch bay (R163). -/
def StringState.noticed (old new : StringState) : Bool :=
  old.byte != new.byte || old.latchBay != new.latchBay

/-- Some string's change calls for the strings notice. -/
def stringsNoticed (old new : Four StringState) : Bool :=
  Four.indices.any (fun x => (old.get x).noticed (new.get x))

/-- Derive the strings in the present event (R156), and raise the strings source on a change (R163). -/
def State.derive (s : State) (byRemoval : Bool) : State :=
  let sc := s.sc.derive s.bays ⟨byRemoval, s.sc.runFiltered, s.pw.provision, s.pw.dormant⟩
  if stringsNoticed s.sc.strings sc.strings then { s with sc := sc }.raiseStrings else { s with sc := sc }

/-- The bay's string is ENABLED (R95). -/
def State.stringEnabled (s : State) (b : Fin 4) : Bool :=
  match s.sc.assign.get b with
  | some x => s.sc.strings.get x == .enabled
  | none => false

end Sys2Proof.Machine
end

