-- ==== Sys2Proof/Machine/Line.lean ====
section
/-! DEFINITION. The pack line of one bay: attempts, the bay-line arbiter, link runs and the narrow split
(chapter 7). -/

namespace Sys2Proof.Machine

/-! ## Attempts -/

/-- The head of the forward queue, or an entry of zeros when there is none. -/
def Bay.head (bay : Bay) : ForwardEntry := bay.queue.headD ⟨0, 0, false, [], false, 0⟩

/-- The attempt number of the transaction of a kind (R108, R112). -/
def Bay.retriesOf (bay : Bay) : TxnKind → Nat
  | .ident | .challenge => bay.authRetries
  | .forward | .splitFirst | .splitSecond => bay.head.retries

/-- The kind byte of CHALLENGE (12.1). -/
def Claim.kindByte : Claim → Byte
  | .challenge .renewal => 2
  | _ => 1

/-- The frame that an attempt sends (R108, R109, R125, 12.1). -/
def Bay.frameOf (bay : Bay) (kind : TxnKind) : PackFrame :=
  let seq := byteOf (bay.retriesOf kind)
  match kind with
  | .ident => ⟨codeIdQuery, 0, seq, [], none⟩
  | .challenge => ⟨codeChallenge, 0, seq, bay.claim.kindByte :: bytesBE 8 bay.gateNonce.toNat, none⟩
  | .forward => ⟨bay.head.code, 0, seq, bay.head.payload, none⟩
  | .splitFirst => ⟨bay.head.code, 1, seq, bay.head.payload.take 8, none⟩
  | .splitSecond => ⟨bay.head.code, 0, seq, bay.head.payload.drop 8, none⟩

/-- Make an attempt (R107, R109): the frame begins at once on a recessive line, and otherwise waits for one. -/
def Bay.attempt (bay : Bay) (kind : TxnKind) (dominant : Bool) : Bay :=
  { bay with
    line := .inTransaction kind (if dominant then .waiting else .sending) false
    frame := some (bay.frameOf kind)
    response := none
    retryWait := none }

/-- The line becomes IDLE at the end of a transaction or of a wait (R112, R113). -/
def Bay.idleLine (bay : Bay) : Bay :=
  { bay with line := .idle, frame := none, response := none, retryWait := none, heldReply := none }

/-- Everything on the line side after a drop of all its work (R8, R104, R117, R129). -/
def Bay.clearLine (bay : Bay) : Bay :=
  { bay with
    queue := []
    line := .idle
    frame := none
    authRetries := 0
    linkRun := none
    linkHold := none
    retryWait := none
    response := none
    heldReply := none }

/-- The abandonment of an ID or CHALLENGE transaction (R4, R115): its present attempt runs out, and a retry wait
is stopped. -/
def Bay.abandonLine (bay : Bay) : Bay :=
  match bay.line with
  | .inTransaction .ident stage _ => { bay with line := .inTransaction .ident stage true, authRetries := 0 }
  | .inTransaction .challenge stage _ =>
    { bay with line := .inTransaction .challenge stage true, authRetries := 0 }
  | .retryWait .ident => { bay.idleLine with authRetries := 0 }
  | .retryWait .challenge => { bay.idleLine with authRetries := 0 }
  | _ => { bay with authRetries := 0 }

/-! ## Eligibility (R120) -/

/-- The authentication claim may have the line. -/
def Bay.claimEligible (bay : Bay) : Bool :=
  match bay.state, bay.claim with
  | .identifying, .idQuery => true
  | .challenging, .challenge _ => bay.phase == some .exchange
  | .renewing, .challenge _ => bay.phase == some .exchange
  | _, _ => false

/-- The forward queue head may have the line, when there is one. -/
def Bay.headEligible (bay : Bay) : Bool :=
  match bay.state with
  | .authorized | .grace | .denied => true
  | .renewing => bay.linkRun.isSome
  | _ => false

/-- The kind of the claim's transaction. -/
def Claim.txnKind : Claim → TxnKind
  | .idQuery => .ident
  | _ => .challenge

/-- The kind of a forwarded request's transaction (R125), decided at its first grant from NARROW as it stands then
(R55). A retry grant, which a split half never needs, keeps the one frame of the attempts before it (R109, R115; log
25). -/
def Bay.forwardKind (bay : Bay) (e : ForwardEntry) : TxnKind :=
  if e.retries == 0 && bay.narrow && decide (9 ≤ e.payload.length) then .splitFirst else .forward

/-- The carrying check (R132). -/
def Bay.carries (bay : Bay) (e : ForwardEntry) : Bool :=
  match bay.state with
  | .authorized | .renewing => true
  | _ => !e.needsAuth

/-! ## Link runs (R122, R123) -/

/-- The link run at a grant of the head: opened by LINK, or one position further at an entry's first grant. -/
def runAtGrant (run : Option Nat) (e : ForwardEntry) : Option Nat :=
  match run with
  | some n => if e.retries = 0 then some (min 4 (n + 1)) else some n
  | none => if e.link then some 1 else none

/-- The completion of an entry, already out of the queue, as it bears on the link run. -/
def Bay.afterEntry (bay : Bay) (e : ForwardEntry) (hold : Nat) : Bay :=
  match bay.linkRun with
  | none => bay
  | some n =>
    if e.link = false ∨ 4 ≤ n then { bay with linkRun := none, linkHold := none }
    else if bay.queue = [] then { bay with linkHold := some hold }
    else bay

/-- The head leaves the queue at its completion (R113) and the line becomes IDLE. -/
def Bay.popHead (bay : Bay) (hold : Nat) : Bay :=
  ({ bay with queue := bay.queue.tail }.idleLine).afterEntry bay.head hold

/-! ## The arbiter (R121) -/

/-- Grant an IDLE line for as long as a claimant is eligible: an entry answered NOT_AUTHORIZED leaves the queue,
and the arbiter acts again. `fuel` bounds the entries looked at. -/
def Bay.grants (b : Fin 4) (dominant : Bool) (hold : Nat) : Nat → Bay → Bay × List Response
  | 0, bay => (bay, [])
  | fuel + 1, bay =>
    if bay.line ≠ .idle then (bay, [])
    else if bay.claimEligible && bay.linkRun.isNone then
      (bay.attempt bay.claim.txnKind dominant, [])
    else if bay.headEligible then
      match bay.queue with
      | [] => (bay, [])
      | e :: _ =>
        let granted := { bay with linkRun := runAtGrant bay.linkRun e, linkHold := none }
        if granted.carries e then (granted.attempt (granted.forwardKind e) dominant, [])
        else
          let next := Bay.grants b dominant hold fuel (granted.popHead hold)
          (next.1, entryResponse b e e.code .notAuthorized RespFlags.none [] :: next.2)
    else (bay, [])

/-- The arbiter of a bay acts (R121). -/
def State.arbitrate (s : State) (b : Fin 4) : State :=
  let r := Bay.grants b (s.pins.lineDominant.get b) s.cfg.linkHold ((s.bay b).queue.length + 1) (s.bay b)
  (s.setBay b r.1).answer r.2

/-- The arbiters of all four bays act. -/
def State.arbitrateAll (s : State) : State := (((s.arbitrate 0).arbitrate 1).arbitrate 2).arbitrate 3

/-- The end of an event of one bay: its arbiter acts, the strings are derived (R3, R156), and the transmitter
takes what became ready. -/
def doneBay (b : Fin 4) (s : State) : Out := done ((s.arbitrate b).derive false)

/-- The end of an event that reaches every bay. -/
def doneBays (s : State) : Out := done (s.arbitrateAll.derive false)

end Sys2Proof.Machine
end

