-- ==== Sys2Proof/Machine/Loader.lean ====
section
/-! DEFINITION. The Image Loader: image content (R188), the end of a load (R190), the beginning of its write
(R189), and the grants of the Digest Engine, which can end a load (R43, R45). -/

namespace Sys2Proof.Machine

/-! ## Image content (R188) -/

/-- The record of an image at an index. -/
def imageRecord (image : List Byte) (i : Nat) : List Byte := (image.drop (2 + 10 * i)).take 10

/-- The records of an image, as many as its header's count. -/
def imageRecords (image : List Byte) : List (List Byte) :=
  (List.range (byteField image 1)).map (imageRecord image)

/-- A model record (12.5). -/
def modelRecord (r : List Byte) : ModelEntry :=
  ⟨wordField r 0, r.getD 2 0, wordField r 3, r.getD 5 0, r.getD 6 0, r.getD 7 0, r.getD 8 0, r.getD 9 0⟩

/-- A byte within a range. -/
def byteIn (lo hi : Nat) (x : Byte) : Bool := decide (lo ≤ x.toNat) && decide (x.toNat ≤ hi)

/-- The conditions on one model record (R50, R188). -/
def ModelEntry.acceptable (e : ModelEntry) : Bool :=
  e.isEmpty ||
    (byteIn 1 7 e.keySlot && byteIn 1 7 e.chemistry && byteIn 1 15 e.cells && byteIn 0 15 e.capacity &&
      byteIn 0 7 e.current && byteIn 0 31 e.flags)

/-- No value stands twice. -/
def distinct : List Word16 → Bool
  | [] => true
  | x :: rest => !rest.contains x && distinct rest

/-- The entries that a model image installs. -/
def imageEntries (image : List Byte) : List ModelEntry := (imageRecords image).map modelRecord

/-- The model conditions of R188. -/
def modelContentOk (image : List Byte) : Bool :=
  decide (byteField image 1 ≤ 32) && (imageEntries image).all ModelEntry.acceptable &&
    distinct (((imageEntries image).filter (fun e => !e.isEmpty)).map (·.code))

/-- The first and last serial of a revocation record, as numbers (12.5, R188). -/
def revokeRecord (r : List Byte) : Nat × Nat := (field r 0 6, field r 0 6 + field r 6 4)

/-- Each record's first serial is greater than the previous record's last serial. -/
def ascending : List (Nat × Nat) → Bool
  | [] => true
  | [_] => true
  | a :: b :: rest => decide (a.2 < b.1) && ascending (b :: rest)

/-- The revocation conditions of R188. -/
def revokeContentOk (image : List Byte) : Bool :=
  let rs := (imageRecords image).map revokeRecord
  decide (byteField image 1 ≤ 96) && rs.all (fun r => decide (r.2 ≤ 0xFFFFFFFFFFFF)) && ascending rs

/-- The kind byte of an image (12.5). -/
def ImageTarget.byte : ImageTarget → Byte
  | .model => 1
  | .revoke => 2

/-- The content check (R188). -/
def Load.contentOk (l : Load) : Bool :=
  l.buffer.getD 0 0 == l.target.byte && decide (l.declared = 2 + 10 * byteField l.buffer 1) &&
    (match l.target with
     | .model => modelContentOk l.buffer
     | .revoke => revokeContentOk l.buffer)

/-- The table that a model image installs (R188): indices from the count up are empty. -/
def Load.newModel (l : Load) : ModelTable :=
  let es := imageEntries l.buffer
  ⟨es ++ List.replicate (32 - es.length) ModelEntry.none, l.expectedGen + 1⟩

/-- The list that a revocation image installs (R188). -/
def Load.newRevoke (l : Load) : RevList :=
  ⟨(imageRecords l.buffer).map
      (fun r => ⟨BitVec.ofNat 48 (revokeRecord r).1, BitVec.ofNat 48 (revokeRecord r).2⟩),
    l.expectedGen + 1⟩

/-- The store write of a load in COMMITTING (R189). -/
def Load.storeWrite (l : Load) : StoreWrite :=
  match l.target with
  | .model => .modelImage l.newModel
  | .revoke => .revokeImage l.newRevoke

/-! ## The end of a load (R190) -/

/-- The response to a held IMAGE_END, when there is one. -/
def Load.endResponse (l : Load) (st : Status) (payload : List Byte) : List Response :=
  match l.endTid with
  | some tid => [gateResponse tid 0x3A st payload]
  | none => []

/-- A load ends: its CHECK_IMAGE job is withdrawn, its held IMAGE_END is answered, the record returns to IDLE with
the outcome recorded, and the gate source is raised (R190, R182). -/
def State.endLoad (s : State) (l : Load) (outcome : LoadOutcome) (st : Status) (payload : List Byte) : State :=
  let s := if l.stage = .checking then s.withdraw .management else s
  ({ s with il := ⟨none, some outcome⟩ }.answer (l.endResponse st payload)).raiseGate

/-- A load in COMMITTING begins its store write when the unit is free (R189). -/
def State.beginImageWrite (s : State) : State :=
  match s.il.load, s.ts.write with
  | some l, none => if l.stage = .committing then { s with ts.write := some l.storeWrite } else s
  | _, _ => s

/-! ## Grants of the Digest Engine -/

/-- The engine has no job in progress. -/
def State.engineFree (s : State) : State := { s with de.running := none }

/-- A job whose slot is EMPTY at its start completes at once with NO_KEY (R43): a load in CHECKING ends, and a
KEY_CHECK is answered. A bay's job delivers nothing (log 24). -/
def State.jobNoKey (s : State) : Job → State
  | .checkImage _ _ =>
    match s.il.load with
    | some l => if l.stage = .checking then s.endLoad l (.status .noKey) .noKey [] else s
    | none => s
  | .keyCheck _ =>
    match s.me.inHand with
    | some (.keyCheck tid) => { s with me.inHand := none }.answer [gateResponse tid 0x21 .noKey []]
    | _ => s
  | _ => s

/-- A job starts (R43, R45): the pointer names its claimant, and a key slot it names is read. -/
def State.startJob (s : State) (c : Claimant) (j : Job) : State :=
  match j.namedSlot with
  | none => { s with de.pointer := c, de.running := some ⟨c, j, none, false⟩ }
  | some n =>
    match s.ts.keys.slot n with
    | some key => { s with de.pointer := c, de.running := some ⟨c, j, some key, false⟩ }
    | none => { s with de.pointer := c }.jobNoKey j

/-- The engine grants by the pointer while it is free and a claimant waits (R45). `fuel` bounds the grants that
end at once. -/
def State.grantJobs : Nat → State → State
  | 0, s => s
  | fuel + 1, s =>
    match s.de.running, s.de.nextWaiting with
    | none, some c =>
      match s.de.waiting.get c with
      | some j => State.grantJobs fuel ({ s with de.waiting := s.de.waiting.set c none }.startJob c j)
      | none => s
    | _, _ => s

/-- A job completes (R42, R45): the engine is free, a job its claimant held is submitted, and the engine grants. -/
def State.jobDone (s : State) (c : Claimant) : State :=
  match s.de.held.get c with
  | some j =>
    State.grantJobs 6
      { s with de.running := none, de.held := s.de.held.set c none, de.waiting := s.de.waiting.set c (some j) }
  | none => State.grantJobs 6 s.engineFree

/-- A claimant submits a job (R42, R45): to an idle engine it is granted at once; behind a discarded job of its
own it is held; otherwise it waits. -/
def State.submit (s : State) (c : Claimant) (j : Job) : State :=
  match s.de.running with
  | none => s.startJob c j
  | some r =>
    if r.claimant = c then { s with de.held := s.de.held.set c (some j) }
    else { s with de.waiting := s.de.waiting.set c (some j) }

end Sys2Proof.Machine
end

