-- ==== Sys2Proof/Machine/Bays.lean ====
section
/-! DEFINITION. The transitions of a bay that several commands share (chapters 1 and 6, R117): entering each
state, strikes, the checks at an ID_REPORT, re-evaluation. None of them runs the arbiter or derives the strings;
the command's end does. -/

namespace Sys2Proof.Machine

/-- The work of an admission or renewal is abandoned (R4, R46): its transaction runs out its attempt, its job is
withdrawn or its result discarded. -/
def State.abandon (s : State) (b : Fin 4) : State := (s.setBay b (s.bay b).abandonLine).withdrawAuth b

/-! ## Entering SETTLING and EMPTY -/

/-- The stuck-line watch at its start, with the level as it stands (R116): 20 ms on a dominant line. -/
def watchFor (dominant : Bool) : Option Nat := if dominant then some 20 else none

/-- A bay enters SETTLING (R5): the settle timer and the stuck-line watch start. -/
def Bay.toSettling (bay : Bay) (settle : Nat) (dominant : Bool) : Bay :=
  { bay with state := .settling, settle := some settle, watch := watchFor dominant }

/-- A bay enters SETTLING with the SETTLE value in force. -/
def State.enterSettling (s : State) (b : Fin 4) : State :=
  s.putBay b ((s.bay b).toSettling s.cfg.settle (s.pins.lineDominant.get b))

/-- A bay is emptied (R7, R8). Strikes, clean, the decay timer and the gate nonce are kept. -/
def Bay.toEmpty (bay : Bay) : Bay :=
  { bay.clearLine with
    state := .empty
    identity := none
    packKey := none
    phase := none
    packNonce := none
    session := none
    reason := none
    attempts := 0
    claim := .none
    settle := none
    reattempt := none
    renew := none
    grace := none
    watch := none }

/-- The effects of R7 and R8 on a bay that is not in LOCKOUT: its requests are answered CANCELLED and its work
ends. -/
def State.emptyBay (s : State) (b : Fin 4) : State :=
  ((s.answer (flushResponses b (s.bay b).queue .cancelled)).putBay b (s.bay b).toEmpty).withdraw (.bay b)

/-! ## Entering LOCKOUT and LINE_FAULT -/

/-- A bay enters LOCKOUT (R104). -/
def Bay.toLockout (bay : Bay) : Bay :=
  { bay.clearLine with
    state := .lockout
    session := none
    reason := none
    phase := none
    packNonce := none
    claim := .none
    settle := none
    reattempt := none
    renew := none
    grace := none
    watch := none }

/-- LOCKOUT entry with its answers and withdrawals (R104). -/
def State.enterLockout (s : State) (b : Fin 4) : State :=
  ((s.answer (flushResponses b (s.bay b).queue .lockout)).putBay b (s.bay b).toLockout).withdraw (.bay b)

/-- A bay enters LINE_FAULT (R117, R118): the recovery timer starts at once on a recessive line. -/
def Bay.toLineFault (bay : Bay) (settle : Nat) (dominant : Bool) : Bay :=
  { bay.clearLine with
    state := .lineFault
    session := none
    reason := none
    phase := none
    packNonce := none
    claim := .none
    settle := if dominant then none else some settle
    reattempt := none
    renew := none
    grace := none
    watch := none }

/-- LINE_FAULT entry with its answers and withdrawals (R117). -/
def State.enterLineFault (s : State) (b : Fin 4) : State :=
  ((s.answer (flushResponses b (s.bay b).queue .lineFault)).putBay b
    ((s.bay b).toLineFault s.cfg.settle (s.pins.lineDominant.get b))).withdraw (.bay b)

/-! ## Entering IDENTIFYING, DENIED and GRACE -/

/-- A bay enters IDENTIFYING (R9), from any state; an open link run closes (R123). -/
def Bay.toIdentifying (bay : Bay) : Bay :=
  { bay with
    state := .identifying
    identity := none
    packKey := none
    phase := none
    packNonce := none
    session := none
    reason := none
    claim := .idQuery
    settle := none
    reattempt := none
    renew := none
    grace := none
    linkRun := none
    linkHold := none }

/-- IDENTIFYING entry; the work of the state left is abandoned (R4, R9). -/
def State.enterIdentifying (s : State) (b : Fin 4) : State :=
  let s := s.abandon b
  s.putBay b (s.bay b).toIdentifying

/-- A bay that has lost its standing or never had it: DENIED or GRACE, without session, claim or challenge (R19,
R22, R95, R96). -/
def Bay.standDown (bay : Bay) (state : BayState) (reason : Option DenyReason) (grace : Option Nat) : Bay :=
  { bay with
    state := state
    reason := reason
    session := none
    claim := .none
    phase := none
    packNonce := none
    settle := none
    renew := none
    grace := grace }

/-- A bay enters DENIED with a reason (R19). -/
def State.deny (s : State) (b : Fin 4) (reason : DenyReason) : State :=
  let s := s.abandon b
  s.putBay b ((s.bay b).standDown .denied (some reason) none)

/-- A bay leaves GRACE for DENIED with the recorded reason (R97). -/
def State.endGrace (s : State) (b : Fin 4) : State :=
  s.putBay b ((s.bay b).standDown .denied (s.bay b).reason none)

/-- A bay in AUTHORIZED or RENEWING loses eligibility (R95): GRACE when RUN is active and its string is ENABLED,
DENIED otherwise. -/
def State.loseEligibility (s : State) (b : Fin 4) (reason : DenyReason) : State :=
  if s.sc.runFiltered && s.stringEnabled b then
    let s := s.abandon b
    s.putBay b ((s.bay b).standDown .grace (some reason) (some s.cfg.grace))
  else s.deny b reason

/-! ## Challenges -/

/-- A challenge is claimed with a fresh gate nonce, in phase EXCHANGE (R14, R90). -/
def Bay.toExchange (bay : Bay) (state : BayState) (kind : ChallengeKind) (nonce : Nonce) : Bay :=
  { bay with
    state := state
    phase := some .exchange
    claim := .challenge kind
    gateNonce := nonce
    authRetries := 0
    renew := none }

/-- Draw a gate nonce and claim CHALLENGE (R14, R90). -/
def State.enterExchange (s : State) (b : Fin 4) (state : BayState) (kind : ChallengeKind) : State :=
  { s with nonceDraws := s.nonceDraws + 1 }.putBay b
    ((s.bay b).toExchange state kind (Config.freshNonce s.nonceDraws))

/-- A bay enters RENEWING from AUTHORIZED (R88, R90). -/
def State.enterRenewing (s : State) (b : Fin 4) : State := s.enterExchange b .renewing .renewal

/-! ## Strikes (R100) -/

/-- A strike counted against a bay. -/
def Bay.struck (bay : Bay) : Bay :=
  { bay with strikes := min 7 (bay.strikes + 1), clean := false, decay := some 60000 }

/-- A strike is taken; the seventh takes the bay to LOCKOUT (R100, R104). -/
def State.strike (s : State) (b : Fin 4) : State :=
  let s := (s.putBay b (s.bay b).struck).raiseBay b
  if 7 ≤ (s.bay b).strikes then s.enterLockout b else s

/-- A tag failure is taken by the bay in its present state (R99). -/
def State.tagFailure (s : State) (b : Fin 4) : State :=
  let s := s.strike b
  if (s.bay b).state = .authorized then s.enterRenewing b else s

/-! ## Admission and renewal failures -/

/-- An ID or CHALLENGE transaction of an admission ends as NO_ANSWER or PACK_REJECT (R22). -/
def State.admissionFailure (s : State) (b : Fin 4) (reason : DenyReason) : State :=
  let s := s.deny b reason
  let n := min 3 ((s.bay b).attempts + 1)
  s.setBay b { s.bay b with attempts := n, reattempt := if n < 3 then some 2000 else none }

/-- An ID or CHALLENGE transaction fails, taken by the bay's state (R22, R92). -/
def State.authFailure (s : State) (b : Fin 4) (reason : DenyReason) : State :=
  match (s.bay b).state with
  | .identifying => s.admissionFailure b reason
  | .challenging => s.admissionFailure b reason
  | .renewing => s.loseEligibility b reason
  | _ => s

/-! ## The ID_REPORT (R11 to R13) -/

/-- The identity with the entry a lookup found (R53). -/
def Identity.withModel (id : Identity) (i : Fin 32) (e : ModelEntry) : Identity :=
  { id with index := some i, attrs := some e.attrs }

/-- Replace a bay's identity. -/
def State.setIdentity (s : State) (b : Fin 4) (id : Identity) : State :=
  s.setBay b { s.bay b with identity := some id }

/-- The pack key that a cache hit supplies for the model found (R13, R78). -/
def suppliedKey (hit : Option CacheEntry) (i : Fin 32) (e : ModelEntry) : Option PackKey :=
  match hit with
  | some c =>
    match c.verdict with
    | .genuine j key => if j = i ∧ c.keySlot = e.keySlot.toNat then some ⟨key, c.keySlot⟩ else none
    | .forged => none
  | none => none

/-- A bay enters CHALLENGING from a passed ID_REPORT (R13): with a key from the cache in phase EXCHANGE, and
otherwise in phase KEY with a DERIVE_PACK_KEY job. -/
def State.enterChallenging (s : State) (b : Fin 4) (id : Identity) (hit : Option CacheEntry) (i : Fin 32)
    (e : ModelEntry) : State :=
  match suppliedKey hit i e with
  | some key =>
    (s.setBay b { s.bay b with packKey := some key }).enterExchange b .challenging .admission
  | none =>
    (s.putBay b { s.bay b with state := .challenging, phase := some .key, claim := .none }).submit (.bay b)
      (.derivePackKey e.keySlot.toNat id.serial id.code)

/-- The checks c to g of an ID_REPORT, and what follows them (R11). -/
def State.admitModel (s : State) (b : Fin 4) (id : Identity) (hit : Option CacheEntry) : State :=
  match s.ts.model.find id.code with
  | none => s.deny b .unknownModel
  | some i =>
    let e := s.ts.model.entry i.val
    let s := s.setIdentity b (id.withModel i e)
    match s.ts.checksDG e id.firmware id.serial with
    | some r => s.deny b r
    | none => s.enterChallenging b id hit i e

/-- An ID_REPORT is taken (R11): identity, cache lookup, checks a to g. -/
def State.takeIdReport (s : State) (b : Fin 4) (payload : List Byte) : State :=
  let id : Identity := ⟨serialField payload 0, wordField payload 6, wordField payload 8, none, none⟩
  let hit := cacheFind s.cache id.serial
  let s := { s with cache := cacheTouch s.cache id.serial }.setIdentity b id
  if hit.any (fun c => !c.isGenuine) then s.deny b .forgedRecent
  else if s.duplicateSerial b id.serial then (s.deny b .duplicateSerial).strike b
  else s.admitModel b id hit

/-! ## Authorization (R17, R18, R94) -/

/-- The clean rule (R102). -/
def Bay.cleanRule (bay : Bay) : Bay :=
  if bay.clean then { bay with strikes := 0, decay := none } else { bay with clean := true }

/-- A bay enters AUTHORIZED with a session (R17, R88, R94). -/
def Bay.toAuthorized (bay : Bay) (session : Session) (renew attempts : Nat) : Bay :=
  ({ bay with
      state := .authorized
      session := some session
      phase := none
      packNonce := none
      claim := .none
      attempts := attempts
      renew := some (1000 * renew) } : Bay).cleanRule

/-- The GENUINE insertion for a bay's serial, index and pack key (R79). -/
def State.insertGenuine (s : State) (id : Identity) (i : Fin 32) (key : PackKey) : State :=
  s.cacheInsert id.serial (.genuine i key.key) key.slot genuineLife

/-- The authorization point of an admission (R17, R18). -/
def State.authorize (s : State) (b : Fin 4) (id : Identity) (key : PackKey) (sessionKey : Key) : State :=
  match s.ts.model.find id.code with
  | none => (s.setIdentity b { id with index := none }).deny b .unknownModel
  | some i =>
    let e := s.ts.model.entry i.val
    let s := s.setIdentity b (id.withModel i e)
    match s.ts.checksDG e id.firmware id.serial with
    | some r => s.deny b r
    | none =>
      if e.keySlot.toNat = key.slot then
        (s.insertGenuine id i key).putBay b ((s.bay b).toAuthorized ⟨sessionKey, 1, 0⟩ s.cfg.renew 0)
      else s.enterIdentifying b

/-- A renewing bay returns to AUTHORIZED (R94). -/
def State.renewed (s : State) (b : Fin 4) (id : Identity) (key : PackKey) (old : Session) (sessionKey : Key) :
    State :=
  let number : Byte := if old.number = 255 then 255 else old.number + 1
  let s := match id.index with
    | some i => s.insertGenuine id i key
    | none => s
  s.putBay b ((s.bay b).toAuthorized ⟨sessionKey, number, 0⟩ s.cfg.renew (s.bay b).attempts)

/-! ## Commits and key loads at a bay (R24 to R27, R70, R71) -/

/-- Re-evaluation (R25, R53). -/
def State.reevaluate (s : State) (b : Fin 4) (id : Identity) : State :=
  match s.ts.model.find id.code with
  | none => (s.setIdentity b { id with index := none }).loseEligibility b .unknownModel
  | some i =>
    let e := s.ts.model.entry i.val
    match s.ts.checksDG e id.firmware id.serial with
    | some r => (s.setIdentity b { id with index := some i }).loseEligibility b r
    | none =>
      if (s.bay b).packKey.map (·.slot) = some e.keySlot.toNat then s.setIdentity b (id.withModel i e)
      else s.enterIdentifying b

/-- A bay takes a commit (R24): `revocation` when the list was committed (R71). -/
def State.commitBay (revocation : Bool) (s : State) (b : Fin 4) : State :=
  match (s.bay b).state, (s.bay b).identity with
  | .authorized, some id => s.reevaluate b id
  | .renewing, some id => s.reevaluate b id
  | .grace, some id =>
    if revocation && s.ts.revoke.covers id.serial then
      s.putBay b { s.bay b with reason := some .revoked }
    else s
  | .denied, _ =>
    if (s.bay b).reason.any DenyReason.isTable then s.enterIdentifying b else s
  | _, _ => s

/-- Every bay takes a commit (R24). -/
def State.commitBays (s : State) (revocation : Bool) : State := Four.indices.foldl (State.commitBay revocation) s

/-- The slot that a DENIED bay's model names in the live table (R26; log 22). -/
def State.modelSlot (s : State) (bay : Bay) : Option Nat :=
  match bay.identity with
  | some id => (s.ts.model.find id.code).map (fun i => (s.ts.model.entry i.val).keySlot.toNat)
  | none => none

/-- A bay acts on a key load to the slots of which `slots` holds (R26, R27). -/
def State.keyLoadBay (slots : Nat → Bool) (s : State) (b : Fin 4) : State :=
  let bay := s.bay b
  match bay.state with
  | .challenging => if bay.attrs.any (fun a => slots a.keySlot.toNat) then s.enterIdentifying b else s
  | .authorized | .renewing | .grace => if bay.packKey.any (fun k => slots k.slot) then s.enterIdentifying b else s
  | .denied =>
    if bay.reason = some .noKey ∧ (s.modelSlot bay).any slots = true then s.enterIdentifying b else s
  | _ => s

/-- Every bay acts on a key load. -/
def State.keyLoadBays (s : State) (slots : Nat → Bool) : State := Four.indices.foldl (State.keyLoadBay slots) s

end Sys2Proof.Machine
end

