-- ==== Sys2Proof/Machine/Dormancy.lean ====
section
/-! DEFINITION. The wake (R210) and the commands that wake a dormant gate, with strike decay (R101, R106, R209). -/

namespace Sys2Proof.Machine

/-- A bay in EMPTY with present set enters SETTLING (R210, R212 step 7). -/
def State.settlePresent (s : State) (b : Fin 4) : State :=
  if (s.bay b).state = .empty ∧ (s.bay b).present = true then s.enterSettling b else s

/-- Every bay in EMPTY with present set enters SETTLING. -/
def State.settleAll (s : State) : State := Four.indices.foldl State.settlePresent s

/-- The wake (R210). -/
def State.wake (s : State) : State :=
  let s := { s with pw.dormant := false, pw.detSample := Four.fill none }.settleAll
  ({ s.derive false with tli.woke := true } : State).raiseGate

/-- The gate is dormant. -/
def State.asleep (s : State) : Bool := s.isRunning && s.pw.dormant

/-- A start bit on RXD wakes a dormant gate (R209): what it begins is discarded. -/
def State.rxdWake (s : State) : State := { s.wake with tli.rx := .discarding }

/-- RXD_WAKE (R209). -/
def execRxdWake (s : State) : Out := taken s.asleep s s.rxdWake

/-- A DET sample differs from the one before at some bay (R209). The first sample has none before it (log 17). -/
def sampleChanged (old : Four (Option Bool)) (det : Four Bool) : Bool :=
  Four.indices.any (fun b => (old.get b).any (fun x => x != det.get b))

/-- A dormant DET sample is taken (R209): present follows it. -/
def State.sampleDet (s : State) (det : Four Bool) : State :=
  { s with
    bays := Four.ofFn (fun b => { s.bay b with present := det.get b })
    pw.detSample := det.map some
    pins.det := det }

/-- DORMANT_DET_SAMPLE (R209, R210). -/
def execDormantDetSample (det : Four Bool) (s : State) : Out :=
  taken s.asleep s
    (if sampleChanged s.pw.detSample det then (s.sampleDet det).wake else s.sampleDet det)

/-- A strike decays (R101). -/
def Bay.decayed (bay : Bay) : Bay :=
  { bay with
    strikes := bay.strikes - 1
    decay := if 1 < bay.strikes then some 60000 else none }

/-- A bay leaves LOCKOUT (R106): EMPTY, or SETTLING when a pack is present. -/
def State.leaveLockout (s : State) (b : Fin 4) : State :=
  let s := s.putBay b
    { s.bay b with state := .empty, identity := none, packKey := none, attempts := 0, clean := false }
  s.settlePresent b

/-- A decay expiry at a bay (R101, R106). -/
def State.decayBay (s : State) (b : Fin 4) : State :=
  let s := (s.putBay b (s.bay b).decayed).raiseBay b
  if (s.bay b).state = .lockout ∧ (s.bay b).strikes = 0 then
    if s.pw.dormant then (s.leaveLockout b).wake else s.leaveLockout b
  else s

/-- The decay period has run out: the timer stands in its last millisecond, and no strike has restarted it (R101;
log 2). -/
def Bay.decayDue (bay : Bay) : Bool := bay.decay.any (fun n => decide (n ≤ 1))

/-- DECAY_EXPIRY (R101, R106, R209). -/
def execDecayExpiry (bay : Fin 4) (s : State) : Out :=
  if s.live && (s.bay bay).decayDue then doneBay bay (s.decayBay bay) else unchanged s

end Sys2Proof.Machine
end

