-- ==== Sys2Proof/Machine/BayEvents.lean ====
section
/-! DEFINITION. The commands of bay presence, of bay timers, of the verdict cache's lives and of RUN (chapters 1,
5, 6 and 9). -/

namespace Sys2Proof.Machine

/-- The last known level of a DET input. -/
def State.setDet (s : State) (b : Fin 4) (level : Bool) : State :=
  { s with pins.det := s.pins.det.set b level }

/-- A bay's present field. -/
def State.setPresent (s : State) (b : Fin 4) (x : Bool) : State := s.setBay b { s.bay b with present := x }

/-- INSERTION (R4a, R5). While the start-up check runs, present alone follows DET (R192; log 29). -/
def execInsertion (bay : Fin 4) (s : State) : Out :=
  if s.live && !s.pw.dormant && !(s.bay bay).present then
    let s' := (s.setDet bay true).setPresent bay true
    doneBay bay (if s.isRunning then s'.settlePresent bay else s')
  else unchanged s

/-- A removal (R7, R8): in LOCKOUT, present alone falls. -/
def State.removeBay (s : State) (b : Fin 4) : State :=
  if (s.bay b).state = .lockout then s.setPresent b false else (s.emptyBay b).setPresent b false

/-- REMOVAL (R7, R8). -/
def execRemoval (bay : Fin 4) (s : State) : Out :=
  if s.live && !s.pw.dormant && (s.bay bay).present then
    done (((s.setDet bay false).removeBay bay).derive true)
  else unchanged s

/-- SETTLE_EXPIRY (R6). -/
def execSettleExpiry (bay : Fin 4) (det : Bool) (s : State) : Out :=
  if s.awake && (s.bay bay).state == .settling && (s.bay bay).settle.isSome then
    let s' := s.setDet bay det
    doneBay bay
      (if det then s'.enterIdentifying bay
       else s'.setBay bay { s.bay bay with settle := some s.cfg.settle })
  else unchanged s

/-- REATTEMPT_EXPIRY (R23). -/
def execReattemptExpiry (bay : Fin 4) (s : State) : Out :=
  if (s.bay bay).state == .denied && (s.bay bay).reattempt.isSome then doneBay bay (s.enterIdentifying bay)
  else unchanged s

/-- RENEW_EXPIRY (R88, R90). -/
def execRenewExpiry (bay : Fin 4) (s : State) : Out :=
  if (s.bay bay).state == .authorized && (s.bay bay).renew.isSome then doneBay bay (s.enterRenewing bay)
  else unchanged s

/-- GRACE_EXPIRY (R97). -/
def execGraceExpiry (bay : Fin 4) (s : State) : Out :=
  if (s.bay bay).state == .grace && (s.bay bay).grace.isSome then doneBay bay (s.endGrace bay)
  else unchanged s

/-- CACHE_EXPIRY (R80): an entry whose life has run down leaves the cache. -/
def execCacheExpiry (serial : Serial) (s : State) : Out :=
  .next { s with cache := cacheExpire s.cache serial }

/-- RUN_INPUT_CHANGE (R164): the 1 ms filter restarts on a level other than the filtered one. -/
def execRunInputChange (level : Bool) (s : State) : Out :=
  if s.live then
    .next { s with pins.run := level, sc.runFilter := if level = s.sc.runFiltered then none else some 1 }
  else unchanged s

/-- The filtered RUN level takes the input's level (R164). -/
def State.takeRun (s : State) (level : Bool) : State :=
  { s with sc.runFiltered := level, sc.runFilter := none }

/-- The derivation at a change of RUN; in dormant it waits for the wake (R164). -/
def State.deriveAwake (s : State) : State := if s.pw.dormant then s else s.derive false

/-- RUN_RISE (R165). -/
def execRunRise (s : State) : Out :=
  if s.sc.runFilter.isSome && !s.sc.runFiltered then done (s.takeRun true).deriveAwake else unchanged s

/-- A bay takes the fall of RUN (R97, R166). -/
def State.runFallBay (s : State) (b : Fin 4) : State :=
  if (s.bay b).state = .grace then s.endGrace b else s

/-- RUN_FALL (R166). -/
def execRunFall (s : State) : Out :=
  if s.sc.runFilter.isSome && s.sc.runFiltered then
    done (Four.indices.foldl State.runFallBay (s.takeRun false)).deriveAwake
  else unchanged s

end Sys2Proof.Machine
end

