-- ==== Sys2Proof/Machine/Resets.lean ====
section
/-! DEFINITION. The resets and the start-up integrity check (R192, R211, R212), the supply and RESETn. -/

namespace Sys2Proof.Machine

/-! ## An interrupted store write (R36, R177) -/

/-- A record whose write was interrupted. -/
def NvRecord.torn {α : Type} (r : NvRecord α) (bytes : α → List Byte) (new : α) (t : TornWrite) : NvRecord α :=
  match t with
  | .old => r
  | .new => NvRecord.intact bytes new
  | .neither => NvRecord.damaged bytes new

/-- The store write in progress is abandoned (R177; log 12). -/
def TableStore.abandonWrite (ts : TableStore) (t : TornWrite) : TableStore :=
  match ts.write with
  | none => ts
  | some (.keyLoad _ new) => { ts with write := none, nvKeys := ts.nvKeys.torn KeyStore.bytes new t }
  | some (.revokeEdit new) => { ts with write := none, nvRevoke := ts.nvRevoke.torn RevList.bytes new t }
  | some (.revokeImage new) => { ts with write := none, nvRevoke := ts.nvRevoke.torn RevList.bytes new t }
  | some (.modelImage new) => { ts with write := none, nvModel := ts.nvModel.torn ModelTable.bytes new t }
  | some (.rewrite .model) =>
    { ts with write := none, nvModel := ts.nvModel.torn ModelTable.bytes ModelTable.none t }
  | some (.rewrite .revoke) =>
    { ts with write := none, nvRevoke := ts.nvRevoke.torn RevList.bytes RevList.none t }
  | some (.rewrite .keys) => { ts with write := none, nvKeys := ts.nvKeys.torn KeyStore.bytes noKeys t }

/-! ## The start-up check (R31, R57, R67, R192) -/

/-- The content that the check leaves live: what is stored when the CRC-32 agrees, else the empty content. -/
def NvRecord.liveOr {α : Type} (r : NvRecord α) (bytes : α → List Byte) (empty : α) : α :=
  if r.agrees bytes then r.content else empty

/-- The Table Store's live contents after the check. -/
def TableStore.check (ts : TableStore) : TableStore :=
  { ts with
    model := ts.nvModel.liveOr ModelTable.bytes ModelTable.none
    revoke := ts.nvRevoke.liveOr RevList.bytes RevList.none
    keys := ts.nvKeys.liveOr KeyStore.bytes noKeys
    write := none }

/-- The damaged records, in the order in which they are rewritten (R192). -/
def TableStore.damaged (ts : TableStore) : List RecordKind :=
  (if ts.nvModel.agrees ModelTable.bytes then [] else [.model]) ++
    ((if ts.nvRevoke.agrees RevList.bytes then [] else [.revoke]) ++
      (if ts.nvKeys.agrees KeyStore.bytes then [] else [.keys]))

/-! ## The volatile state under a reset -/

/-- Every volatile state at its reset value, with the gate in a phase and the inputs at sampled levels (R2, R86,
R129, R136, R149, R151, R170, R182, R203, R212). -/
def State.cleared (s : State) (power : Power) (provision : Bool) (levels : Pins) : State where
  bays := levels.det.map Bay.afterReset
  de := DigestEngine.afterReset
  ts := s.ts
  il := ⟨none, none⟩
  cache := []
  ff := ⟨List.replicate 16 .invalid, []⟩
  sc := StringController.afterReset levels.run
  me := ⟨[], none, none⟩
  tli := ⟨.assembling [], [], none, Notices.none, false⟩
  pw := ⟨power, false, provision, Four.fill none⟩
  cfg := Settings.default
  flags := StickyFlags.none
  pins := levels
  nonceDraws := s.nonceDraws
  pending := s.pending

/-- The start-up check is complete (R212 step 7): the gate source is raised and present bays settle. -/
def State.completeStartup (s : State) : State := { s with pw.power := .running }.raiseGate.settleAll

/-- The next rewrite takes the store-write unit, or the check is complete (R192). -/
def State.nextRewrite (s : State) (todo : List RecordKind) : State :=
  match todo with
  | [] => s.completeStartup
  | k :: rest => { s with pw.power := .startup rest, ts.write := some (.rewrite k) }

/-- The flag of a damaged record is set (R192). -/
def State.flagLost (s : State) : RecordKind → State
  | .model => s.setModelLost
  | .revoke => s.setRevokeLost
  | .keys => s.setKeysLost

/-- COLD is set by power-on (R201, R212 step 4). -/
def State.setCold (s : State) (cold : Bool) : State :=
  if cold then { s with flags.cold := true }.raiseGate else s

/-- The sequence of R212 up to the start-up check, with the records as `abandonWrite` leaves them. -/
def State.restart (s : State) (levels : Pins) (torn : TornWrite) (cold : Bool) : State :=
  let ts := s.ts.abandonWrite torn
  let t : State := { s with ts := ts.check }.cleared (.startup []) levels.prov levels
  (ts.damaged.foldl State.flagLost (t.setCold cold)).nextRewrite ts.damaged

/-- The state while the supply is off or RESETn is held active (R212; log 9, log 33). -/
def State.holdReset (s : State) (power : Power) (torn : TornWrite) : State :=
  { s with ts := s.ts.abandonWrite torn }.cleared power false
    { s.pins with det := Four.fill false, run := false }

/-- POWER_ON (R212). -/
def execPowerOn (levels : Pins) (torn : TornWrite) (s : State) : Out := done (s.restart levels torn true)

/-- The gate has supply. -/
def State.powered (s : State) : Bool := s.pw.power != .off

/-- RESETN_RELEASE (R212). -/
def execResetnRelease (levels : Pins) (torn : TornWrite) (s : State) : Out :=
  taken s.powered s (s.restart levels torn false)

/-- RESETN_ASSERT (R212). -/
def execResetnAssert (torn : TornWrite) (s : State) : Out :=
  if s.powered then .next (s.holdReset .resetHeld torn) else unchanged s

/-- POWER_LOSS (R177, R212). -/
def execPowerLoss (torn : TornWrite) (s : State) : Out := .next (s.holdReset .off torn)

/-- A rewrite of a damaged record ends (R192): when it fails, the record stays damaged. -/
def TableStore.rewritten (ts : TableStore) (k : RecordKind) (ok : Bool) : TableStore :=
  match k with
  | .model =>
    { ts with write := none, nvModel :=
        if ok then NvRecord.intact ModelTable.bytes ModelTable.none
        else NvRecord.damaged ModelTable.bytes ModelTable.none }
  | .revoke =>
    { ts with write := none, nvRevoke :=
        if ok then NvRecord.intact RevList.bytes RevList.none else NvRecord.damaged RevList.bytes RevList.none }
  | .keys =>
    { ts with write := none, nvKeys :=
        if ok then NvRecord.intact KeyStore.bytes noKeys else NvRecord.damaged KeyStore.bytes noKeys }

/-- STARTUP_REWRITE_COMPLETE (R192). -/
def execStartupRewriteComplete (ok : Bool) (s : State) : Out :=
  match s.pw.power, s.ts.write with
  | .startup rest, some (.rewrite k) => done ({ s with ts := s.ts.rewritten k ok }.nextRewrite rest)
  | _, _ => unchanged s

/-! ## GATE_RESET (R211) -/

/-- The answers of the reset event, in their order (R211). -/
def State.resetAnswers (s : State) (tid : Byte) : List Response :=
  Four.indices.flatMap (fun b => flushResponses b (s.bay b).queue .cancelled) ++
    ((match s.il.load with
      | some l => l.endResponse .cancelled []
      | none => []) ++
      (s.me.queue.map (fun r => s.rejection r.tid r.code .cancelled) ++ [gateResponse tid 0x07 .ok []]))

/-- A string's state after GATE_RESET (R152, R170). -/
def StringController.restState (sc : StringController) (x : Fin 4) : StringState :=
  if sc.members x = [] then .unused else .idle

/-- The String Controller after GATE_RESET (R170). -/
def StringController.gateReset (sc : StringController) : StringController :=
  { sc with strings := Four.ofFn sc.restState, reference := none, ben := Four.fill false }

/-- The volatile operating state returned to its values after reset (R211): what is kept is not named. -/
def State.gateCleared (s : State) (det : Four Bool) : State :=
  { s with
    bays := det.map Bay.afterReset
    de := DigestEngine.afterReset
    cache := []
    ff.capture := []
    il := ⟨none, none⟩
    sc := s.sc.gateReset
    me := ⟨[], none, none⟩
    tli.notices := ⟨Four.fill false, true, true⟩
    tli.woke := false
    pw.detSample := Four.fill none }

/-- The reset event of GATE_RESET (R211). -/
def State.gateReset (s : State) (tid : Byte) (det : Four Bool) : State :=
  ((s.gateCleared det).answer (s.resetAnswers tid)).settleAll

/-- A GATE_RESET that waited for an image commit is carried out, with the DET levels sampled then (R2, R178, R211). -/
def State.finishReset (s : State) (det : Four Bool) : State :=
  match s.me.inHand with
  | some (.gateReset tid) => ({ s with pins.det := det } : State).gateReset tid det
  | _ => s

end Sys2Proof.Machine
end

