-- ==== Sys2Proof/Machine/GateRequests.lean ====
section
/-! DEFINITION. The Management Engine takes gate requests (R196), and the requests of chapter 11: status,
configuration, snapshot, DORMANT, GATE_RESET. -/

namespace Sys2Proof.Machine

/-! ## Taking a request (R195, R196) -/

/-- The Management Engine may take a request: the start-up check is complete, the gate is awake and no request is
in hand. Behind an edit's store write it takes none (R175, R196), not even the REVOKE_GET that the example of 4.7 shows
answered then: the model follows the rules against the example (log 36). -/
def State.meReady (s : State) : Bool := s.awake && s.me.inHand.isNone

/-- The oldest request of the management queue, when the Management Engine may take it (R196). -/
def State.nextRequest (s : State) : Option GateRequest := if s.meReady then s.me.queue.head? else none

/-- The oldest request leaves the queue. -/
def State.popRequest (s : State) : State := { s with me.queue := s.me.queue.tail }

/-- The Management Engine takes the oldest request when it has the code of the command's row (log 4). -/
def takeRequest (code : Byte) (s : State) (act : GateRequest → State → State) : Out :=
  match s.nextRequest with
  | some r => if r.code = code then done (act r s.popRequest) else unchanged s
  | none => unchanged s

/-- A request is answered. -/
def State.reply (s : State) (r : GateRequest) (st : Status) (payload : List Byte) : State :=
  s.answer [gateResponse r.tid r.code st payload]

/-- A request is refused without a payload. -/
def State.refuse (s : State) (r : GateRequest) (st : Status) : State := s.reply r st []

/-- The ME keeps a request. -/
def State.hold (s : State) (h : InHand) : State := { s with me.inHand := some h }

/-- The request codes of 12.3. -/
def knownCodes : List Byte :=
  [0x01, 0x02, 0x03, 0x04, 0x05, 0x06, 0x07, 0x10, 0x11, 0x20, 0x21, 0x30, 0x31, 0x32, 0x33, 0x38, 0x39, 0x3A, 0x3B,
    0x40, 0x41, 0x42, 0x50, 0x51, 0x52, 0x53]

/-- UNKNOWN_CODE (R196). -/
def execUnknownCode (s : State) : Out :=
  match s.nextRequest with
  | some r => if knownCodes.contains r.code then unchanged s else done (s.popRequest.refuse r .unknownCode)
  | none => unchanged s

/-! ## GATE_STATUS (R202) -/

/-- The payload of GATE_STATUS (12.3). -/
def State.statusPayload (s : State) : List Byte :=
  [s.flags.byte, byteOf (bitOf s.pw.provision 0 + bitOf s.sc.runFiltered 1)] ++
    bytesBE 2 s.ts.model.gen.toNat ++ bytesBE 2 s.ts.revoke.gen.toNat ++
    [s.il.stateByte, outcomeByte s.il.lastOutcome]

/-- GATE_STATUS is carried out. -/
def State.gateStatus (r : GateRequest) (s : State) : State :=
  if r.payload = [0] then s.reply r .ok s.statusPayload
  else if r.payload = [1] then ({ s with flags := StickyFlags.none } : State).reply r .ok s.statusPayload
  else s.refuse r .range

/-- GATE_STATUS. -/
def execGateStatus (s : State) : Out := takeRequest 0x01 s State.gateStatus

/-! ## Configuration (R203 to R205) -/

/-- The configuration with one item set, when item and value are in range (R203, 12.4). -/
def Settings.assign (cfg : Settings) (item value : Nat) : Option Settings :=
  match item with
  | 1 => if 10 ≤ value ∧ value ≤ 250 then some { cfg with settle := value } else none
  | 2 => if 2 ≤ value ∧ value ≤ 50 then some { cfg with response := value } else none
  | 3 => if 1 ≤ value ∧ value ≤ 600 then some { cfg with renew := value } else none
  | 4 => if 100 ≤ value ∧ value ≤ 10000 then some { cfg with grace := value } else none
  | 5 => if 1 ≤ value ∧ value ≤ 20 then some { cfg with linkHold := value } else none
  | 6 => (toPackField value).map (fun a => { cfg with defaultToPack := a })
  | _ => none

/-- The value of an item (12.4). -/
def Settings.read (cfg : Settings) (item : Nat) : Option Nat :=
  match item with
  | 1 => some cfg.settle
  | 2 => some cfg.response
  | 3 => some cfg.renew
  | 4 => some cfg.grace
  | 5 => some cfg.linkHold
  | 6 => some cfg.defaultToPack.byte.toNat
  | _ => none

/-- CONFIG_SET is carried out (R204). -/
def State.configSet (r : GateRequest) (s : State) : State :=
  if r.payload.length = 3 then
    match s.cfg.assign (byteField r.payload 0) (field r.payload 1 2) with
    | some cfg => ({ s with cfg := cfg } : State).reply r .ok (bytesBE 2 (field r.payload 1 2))
    | none => s.refuse r .range
  else s.refuse r .range

/-- CONFIG_SET. -/
def execConfigSet (s : State) : Out := takeRequest 0x02 s State.configSet

/-- CONFIG_GET is carried out (R205). -/
def State.configGet (r : GateRequest) (s : State) : State :=
  if r.payload.length = 1 then
    match s.cfg.read (byteField r.payload 0) with
    | some v => s.reply r .ok (bytesBE 2 v)
    | none => s.refuse r .range
  else s.refuse r .range

/-- CONFIG_GET. -/
def execConfigGet (s : State) : Out := takeRequest 0x03 s State.configGet

/-! ## The snapshot (R206, R207) -/

/-- A timer's remaining time in whole units, rounded up; 0 when it is stopped (R206). -/
def unitsLeft (t : Option Nat) (unit : Nat) : Nat :=
  match t with
  | some ms => (ms + (unit - 1)) / unit
  | none => 0

/-- The ten bytes of a bay on page 0 (12.5). -/
def Bay.picture (bay : Bay) : List Byte :=
  [bay.state.byte, reasonByte bay.reason, byteOf bay.strikes, boolByte bay.clean] ++
    bytesBE 2 (unitsLeft bay.renew 100) ++ bytesBE 2 (unitsLeft bay.grace 10) ++
    [byteOf (unitsLeft bay.decay 1000), byteOf bay.queue.length]

/-- Page 1 (12.5). -/
def State.pageOne (s : State) : List Byte :=
  s.sc.strings.toList.map StringState.byte ++ [fourBits s.sc.ben, boolByte s.sc.runFiltered] ++
    bytesBE 2 s.ts.model.gen.toNat ++ bytesBE 2 s.ts.revoke.gen.toNat ++
    [byteOf s.cache.length, byteOf s.ff.capture.length, s.il.stateByte, outcomeByte s.il.lastOutcome,
      byteOf s.me.queue.length]

/-- The picture that SNAP_LATCH copies (R206). -/
def State.picture (s : State) : Snapshot := ⟨s.bays.toList.flatMap Bay.picture, s.pageOne, false, false⟩

/-- SNAP_LATCH is carried out (R206). -/
def State.snapLatch (r : GateRequest) (s : State) : State :=
  if r.payload = [] then
    match s.me.snapshot with
    | none => ({ s with me.snapshot := some s.picture } : State).reply r .ok []
    | some _ => s.answer [{ gateResponse r.tid r.code .ok [] with flags := ⟨false, false, false, true⟩ }]
  else s.refuse r .range

/-- SNAP_LATCH. -/
def execSnapLatch (s : State) : Out := takeRequest 0x04 s State.snapLatch

/-- The record after a page is read (R207): released once both are. -/
def Snapshot.afterRead (p : Snapshot) (page : Nat) : Option Snapshot :=
  let p' := if page = 0 then { p with read0 := true } else { p with read1 := true }
  if p'.read0 && p'.read1 then none else some p'

/-- A page of the picture. -/
def Snapshot.page (p : Snapshot) (page : Nat) : List Byte := if page = 0 then p.page0 else p.page1

/-- SNAP_READ is carried out (R207). -/
def State.snapRead (r : GateRequest) (s : State) : State :=
  if r.payload.length = 1 ∧ byteField r.payload 0 ≤ 1 then
    match s.me.snapshot with
    | none => s.refuse r .noneHeld
    | some p =>
      ({ s with me.snapshot := p.afterRead (byteField r.payload 0) } : State).reply r .ok
        (p.page (byteField r.payload 0))
  else s.refuse r .range

/-- SNAP_READ. -/
def execSnapRead (s : State) : Out := takeRequest 0x05 s State.snapRead

/-! ## DORMANT (R208) -/

/-- A load in LOADING or CHECKING is aborted by dormant entry (R191). -/
def State.abortLoad (s : State) : State :=
  match s.il.load with
  | some l => s.endLoad l .aborted .cancelled []
  | none => s

/-- Every waiting request is answered CANCELLED, and the queue becomes empty (R195). -/
def State.cancelQueue (s : State) : State :=
  ({ s with me.queue := [] } : State).answer
    (s.me.queue.map (fun (q : GateRequest) => s.rejection q.tid q.code .cancelled))

/-- A bay at dormant entry (R8): emptied as at a removal, unless in LOCKOUT. Present is kept until the first
sample (log 17). -/
def State.dormantBay (s : State) (b : Fin 4) : State :=
  if (s.bay b).state = .lockout then s else s.emptyBay b

/-- Dormant entry (R208). -/
def State.enterDormant (r : GateRequest) (s : State) : State :=
  let s := Four.indices.foldl State.dormantBay (s.abortLoad.refuse r .ok).cancelQueue
  let s := ({ s with pw.dormant := true, pw.detSample := Four.fill none } : State).derive true
  { s with ff.capture := [], me.snapshot := none }

/-- DORMANT is carried out or refused (R208). -/
def State.dormantRequest (r : GateRequest) (s : State) : State :=
  if r.payload ≠ [] then s.refuse r .range
  else if s.sc.runFiltered || s.storeBusy then s.refuse r .busy
  else s.enterDormant r

/-- DORMANT (R208): the transmitter goes on with what became ready. -/
def execDormant (s : State) : Out :=
  match s.nextRequest with
  | some r => if r.code = 0x06 then .next (s.popRequest.dormantRequest r).transmit else unchanged s
  | none => unchanged s

/-! ## GATE_RESET (R211) -/

/-- GATE_RESET is carried out, or held until an image commit has ended (R178, R211). -/
def State.gateResetRequest (det : Four Bool) (r : GateRequest) (s : State) : State :=
  if r.payload ≠ [] then s.refuse r .range
  else
    let s := { s with pins.det := det }
    if s.loadStage = some .committing then s.hold (.gateReset r.tid) else s.gateReset r.tid det

/-- GATE_RESET. -/
def execGateReset (det : Four Bool) (s : State) : Out := takeRequest 0x07 s (State.gateResetRequest det)

end Sys2Proof.Machine
end

