-- ==== Sys2Proof/Machine/BayRequests.lean ====
section
/-! DEFINITION. BAY_QUERY and BAY_RETRY (R28, R29). -/

namespace Sys2Proof.Machine

/-- The identity fields of BAY_QUERY: presence marks, serial, model code, firmware revision, model index (12.4). -/
def identityBytes : Option Identity → List Byte
  | none => List.replicate 12 0
  | some id =>
    [byteOf (1 + bitOf id.index.isSome 1)] ++ bytesBE 6 id.serial.toNat ++ bytesBE 2 id.code.toNat ++
      bytesBE 2 id.firmware.toNat ++ [(id.index.map (fun i => byteOf i.val)).getD 0]

/-- The 23 bytes of BAY_QUERY (12.4). -/
def Bay.report (bay : Bay) : List Byte :=
  [bay.state.byte, reasonByte bay.reason, boolByte bay.present] ++ identityBytes bay.identity ++
    [phaseByte bay.phase, bay.claim.byte, byteOf bay.strikes, boolByte bay.clean, byteOf bay.attempts,
      (bay.session.map (·.number)).getD 0, byteOf bay.queue.length, bay.line.byte]

/-- The bay or string that a payload of one byte names (R215). -/
def oneNumber (payload : List Byte) : Option (Fin 4) :=
  if payload.length = 1 then fourNumber (byteField payload 0) else none

/-- BAY_QUERY is carried out (R28). -/
def State.bayQuery (r : GateRequest) (s : State) : State :=
  match oneNumber r.payload with
  | some b => s.reply r .ok (s.bay b).report
  | none => s.refuse r .range

/-- BAY_QUERY. -/
def execBayQuery (s : State) : Out := takeRequest 0x10 s State.bayQuery

/-- A denied bay is sent back through admission (R29). -/
def State.retryBay (s : State) (b : Fin 4) : State :=
  ((s.setBay b { s.bay b with attempts := 0, reattempt := none }).enterIdentifying b).arbitrate b

/-- BAY_RETRY is carried out (R29). -/
def State.bayRetry (r : GateRequest) (s : State) : State :=
  match oneNumber r.payload with
  | some b =>
    if (s.bay b).state = .denied then ((s.retryBay b).derive false).reply r .ok [] else s.refuse r .wrongState
  | none => s.refuse r .range

/-- BAY_RETRY. -/
def execBayRetry (s : State) : Out := takeRequest 0x11 s State.bayRetry

end Sys2Proof.Machine
end

