-- ==== Sys2Proof/Machine/Commits.lean ====
section
/-! DEFINITION. The completions of store writes (R35, R36, R59, R62, R69, R74, R176, R177). -/

namespace Sys2Proof.Machine

/-- The record after a failed write's rewrite in the empty form (R177). -/
def failedRecord {α : Type} (bytes : α → List Byte) (empty : α) (r : WriteResult) : NvRecord α :=
  match r with
  | .failedTwice => NvRecord.damaged bytes empty
  | _ => NvRecord.intact bytes empty

/-- The write took. -/
def tookWrite : WriteResult → Bool
  | .written => true
  | _ => false

/-! ## Model image (R59, R62) -/

/-- The model table that a completed write makes live. -/
def liveModel (r : WriteResult) (new : ModelTable) : ModelTable := if tookWrite r then new else ModelTable.none

/-- The model record after a completed write. -/
def State.storeModel (s : State) (new : ModelTable) (r : WriteResult) : State :=
  { s with
    ts.model := liveModel r new
    ts.nvModel :=
      if tookWrite r then NvRecord.intact ModelTable.bytes new else failedRecord ModelTable.bytes ModelTable.none r
    ts.write := none
    cache := s.cache.filter (fun e => !e.isGenuine) }

/-- The load whose write completed ends (R189, R190). -/
def State.endCommit (s : State) (r : WriteResult) (gen : Word16) : State :=
  match s.il.load with
  | some l =>
    if tookWrite r then s.endLoad l .committed .ok (bytesBE 2 gen.toNat)
    else s.endLoad l (.status .storeFailed) .storeFailed []
  | none => s

/-- A model commit, or a failed one taken as the commit of the empty table (R27, R59, R62). -/
def State.commitModel (s : State) (new : ModelTable) (r : WriteResult) : State :=
  let s := s.storeModel new r
  let s := if tookWrite r then s.raiseGate else s.setModelLost
  (s.commitBays false).arbitrateAll.derive false

/-- MODEL_COMMIT (R59, R62, R178). A GATE_RESET that waited samples the DET levels that the event brings (R2, R211). -/
def execModelCommit (result : CommitEvent) (s : State) : Out :=
  match s.ts.write with
  | some (.modelImage new) =>
    done (((s.commitModel new result.write).endCommit result.write new.gen).finishReset result.det)
  | _ => unchanged s

/-! ## Revocation edit or image (R69, R74) -/

/-- The list that a completed write makes live. -/
def liveRevoke (r : WriteResult) (new : RevList) : RevList := if tookWrite r then new else RevList.none

/-- The revocation record after a completed write, with the covered cache entries removed (R69). -/
def State.storeRevoke (s : State) (new : RevList) (r : WriteResult) : State :=
  { s with
    ts.revoke := liveRevoke r new
    ts.nvRevoke := if tookWrite r then NvRecord.intact RevList.bytes new else failedRecord RevList.bytes RevList.none r
    ts.write := none
    cache := s.cache.filter (fun e => !(liveRevoke r new).covers e.serial) }

/-- A revocation commit, or a failed one taken as the commit of the empty list (R27, R69, R74). -/
def State.commitRevoke (s : State) (new : RevList) (r : WriteResult) : State :=
  let s := s.storeRevoke new r
  let s := if tookWrite r then s.raiseGate else s.setRevokeLost
  (s.commitBays true).arbitrateAll.derive false

/-- The edit that the ME holds is answered with generation and count, and an add that took with its index (R176, R177,
12.3; log 21). -/
def State.endEdit (s : State) (new : RevList) (r : WriteResult) : State :=
  match s.me.inHand with
  | some (.revokeAdd tid index) =>
    { s with me.inHand := none }.answer
      [if tookWrite r then gateResponse tid 0x32 .ok (editPayload new [byteOf index])
       else s.rejection tid 0x32 .storeFailed]
  | some (.revokeDrop tid) =>
    { s with me.inHand := none }.answer
      [if tookWrite r then gateResponse tid 0x33 .ok (editPayload new []) else s.rejection tid 0x33 .storeFailed]
  | _ => s

/-- REVOCATION_COMMIT (R69, R74, R178, R189). A GATE_RESET that waited for an image samples the DET levels that the event
brings (R2, R211). -/
def execRevocationCommit (result : CommitEvent) (s : State) : Out :=
  match s.ts.write with
  | some (.revokeEdit new) => done ((s.commitRevoke new result.write).endEdit new result.write).beginImageWrite
  | some (.revokeImage new) =>
    done (((s.commitRevoke new result.write).endCommit result.write new.gen).finishReset result.det)
  | _ => unchanged s

/-! ## Key load (R35, R36) -/

/-- The key store that a completed write makes live. -/
def liveKeys (r : WriteResult) (new : KeyStore) : KeyStore := if tookWrite r then new else noKeys

/-- The slots whose loading the bays and the cache take: the root key slot loaded, or every root key slot after a
failure (R27, R35, R84). -/
def loadedSlots (slot : Nat) (r : WriteResult) (n : Nat) : Bool :=
  if tookWrite r then n == slot && slot != 0 else decide (1 ≤ n) && decide (n ≤ 7)

/-- The key store record after a completed write, with the cache entries of the slots removed (R35, R83, R84). -/
def State.storeKeys (s : State) (slot : Nat) (new : KeyStore) (r : WriteResult) : State :=
  { s with
    ts.keys := liveKeys r new
    ts.nvKeys := if tookWrite r then NvRecord.intact KeyStore.bytes new else failedRecord KeyStore.bytes noKeys r
    ts.write := none
    cache := s.cache.filter (fun e => !loadedSlots slot r e.keySlot) }

/-- A key load, or a failed one taken as a key load to each of slots 1 to 7 (R26, R27, R35, R36). -/
def State.commitKeys (s : State) (slot : Nat) (new : KeyStore) (r : WriteResult) : State :=
  let s := s.storeKeys slot new r
  let s := if tookWrite r then s else s.setKeysLost
  (s.keyLoadBays (loadedSlots slot r)).arbitrateAll.derive false

/-- The KEY_LOAD that the ME holds is answered (R35, R36). -/
def State.endKeyLoad (s : State) (r : WriteResult) : State :=
  match s.me.inHand with
  | some (.keyLoad tid) =>
    { s with me.inHand := none }.answer [gateResponse tid 0x20 (if tookWrite r then .ok else .storeFailed) []]
  | _ => s

/-- KEY_LOAD_COMPLETE (R35, R36, R189). -/
def execKeyLoadComplete (result : WriteResult) (s : State) : Out :=
  match s.ts.write with
  | some (.keyLoad slot new) => done ((s.commitKeys slot new result).endKeyLoad result).beginImageWrite
  | _ => unchanged s

end Sys2Proof.Machine
end

