-- ==== Sys2Proof/Machine/Replies.lean ====
section
/-! DEFINITION. The Frame Filter's lookups, and what becomes of a forwarded request's reply (chapter 8). -/

namespace Sys2Proof.Machine

/-! ## Lookups (R134, R135) -/

/-- A code agrees with a value in the positions that a mask selects (R134). -/
def codeMatches (value mask code : Byte) : Bool := (code &&& mask) == (value &&& mask)

/-- What an entry gives a to-pack lookup (R134). -/
def FilterEntry.toPackAction (f : FilterEntry) (b : Fin 4) (code : Byte) : Option ToPackAction :=
  match f with
  | .toPack v m bays a => if codeMatches v m code && bays.get b then some a else none
  | _ => none

/-- What an entry gives a to-tool lookup (R134). -/
def FilterEntry.toToolAction (f : FilterEntry) (b : Fin 4) (code : Byte) : Option (VerifyLevel × Disposition) :=
  match f with
  | .toTool v m bays l d => if codeMatches v m code && bays.get b then some (l, d) else none
  | _ => none

/-- The to-pack lookup (R135). -/
def State.toPackLookup (s : State) (b : Fin 4) (code : Byte) : ToPackAction :=
  (s.ff.table.findSome? (fun f => f.toPackAction b code)).getD s.cfg.defaultToPack

/-- The to-tool lookup (R135). -/
def State.toToolLookup (s : State) (b : Fin 4) (code : Byte) : VerifyLevel × Disposition :=
  (s.ff.table.findSome? (fun f => f.toToolAction b code)).getD (.none, .pass)

/-! ## Completion of a forwarded request (R113, R133) -/

/-- The head of the queue completes and is answered. -/
def State.completeHead (s : State) (b : Fin 4) (code : Byte) (st : Status) (flags : RespFlags)
    (payload : List Byte) : State :=
  match (s.bay b).queue with
  | [] => s.setBay b (s.bay b).idleLine
  | e :: _ =>
    (s.answer [entryResponse b e code st flags payload]).setBay b ((s.bay b).popHead s.cfg.linkHold)

/-- A forwarded transaction fails (R113): the response carries the request's code. -/
def State.forwardFailed (s : State) (b : Fin 4) (st : Status) : State :=
  s.completeHead b (s.bay b).head.code st RespFlags.none []

/-! ## The capture queue (R148) -/

/-- The capture queue has room. -/
def State.captureRoom (s : State) : Bool := decide (s.ff.capture.length < 8)

/-- An append to the capture queue, dropped with CAPTURE_OVERFLOW set when the queue is full (R148). -/
def State.capture (s : State) (e : CaptureEntry) : State :=
  if s.captureRoom then { s with ff.capture := s.ff.capture ++ [e] } else s.setCaptureOverflow

/-- A reply is passed (R146): sent on by its disposition, and the request completes. -/
def State.passReply (s : State) (b : Fin 4) (code : Byte) (payload : List Byte) (mark : Mark)
    (d : Disposition) : State :=
  match d with
  | .pass => s.completeHead b code .ok (mark.flags false) payload
  | .copy => (s.capture ⟨b, code, mark, payload⟩).completeHead b code .ok (mark.flags s.captureRoom) payload
  | .divert =>
    (s.capture ⟨b, code, mark, payload⟩).completeHead b code .diverted (Mark.flags .none s.captureRoom) []

/-- A reply is withheld as a tag failure (R145): the response is formed first (R147), and the bay then takes the
failure (R99). -/
def State.withholdTagFailed (s : State) (b : Fin 4) (code : Byte) : State :=
  (s.completeHead b code .tagFailed RespFlags.none []).tagFailure b

/-- The expected reply sequence advances by one (R143). -/
def Bay.advance (bay : Bay) : Bay :=
  { bay with session := bay.session.map (fun x => { x with expected := x.expected + 1 }) }

/-- The reply of a tag check is kept while the job is outstanding, and the line waits for it (R114, R141). -/
def Bay.holdReply (bay : Bay) (f : PackFrame) (d : Disposition) : Bay :=
  { bay.idleLine with line := .awaitDigest, heldReply := some ⟨f.code, f.payload, d⟩ }

/-- A reply that calls for a tag check (R141). -/
def State.checkTag (s : State) (b : Fin 4) (f : PackFrame) (session : Session) (d : Disposition) : State :=
  match f.tag with
  | none => s.withholdTagFailed b f.code
  | some tag =>
    if f.seq = session.expected then
      (s.setBay b ((s.bay b).holdReply f d)).submit (.bay b) (.checkTag session.key f.seq f.code f.payload tag)
    else s.withholdTagFailed b f.code

/-- A reply of a bay that holds a session, of a tagging model (R139 to R141). -/
def State.classifyTagging (s : State) (b : Fin 4) (f : PackFrame) (session : Session) (level : VerifyLevel)
    (d : Disposition) : State :=
  match level with
  | .none =>
    (if f.tag.isSome then s.setBay b (s.bay b).advance else s).passReply b f.code f.payload .none d
  | .verify => s.checkTag b f session d
  | .strict => s.checkTag b f session d

/-- A reply that cannot be verified, by its level (R140, R144). -/
def State.classifyPlain (s : State) (b : Fin 4) (f : PackFrame) (level : VerifyLevel) (d : Disposition) : State :=
  match level with
  | .none => s.passReply b f.code f.payload .none d
  | .verify => s.passReply b f.code f.payload .unverified d
  | .strict => s.completeHead b f.code .notVerifiable RespFlags.none []

/-- The classification of a forwarded reply (R139). -/
def State.classify (s : State) (b : Fin 4) (f : PackFrame) : State :=
  let a := s.toToolLookup b f.code
  match (s.bay b).session, (s.bay b).tagging with
  | some session, true => s.classifyTagging b f session a.1 a.2
  | _, _ => s.classifyPlain b f a.1 a.2

end Sys2Proof.Machine
end

