-- ==== Sys2Proof/Machine/DigestEvents.lean ====
section
/-! DEFINITION. The completions of digest jobs (R14, R16, R17, R37, R93, R94, R142, R187). -/

namespace Sys2Proof.Machine

/-- A completed job frees the engine (R44, R45); unless it was discarded, its bay takes the result. -/
def bayJobEnds (s : State) (r : RunningJob) (take : Fin 4 → State → State) : Out :=
  match r.claimant, r.discarded with
  | .bay b, false => doneBay b (take b (s.jobDone r.claimant))
  | _, _ => done (s.jobDone r.claimant)

/-- The pack key is in hand (R14). -/
def State.takePackKey (slot : Nat) (key : Key) (b : Fin 4) (s : State) : State :=
  if (s.bay b).state = .challenging ∧ (s.bay b).phase = some .key then
    (s.setBay b { s.bay b with packKey := some ⟨key, slot⟩ }).enterExchange b .challenging .admission
  else s

/-- DERIVE_PACK_KEY_COMPLETE. -/
def execDerivePackKeyComplete (s : State) : Out :=
  match s.de.running with
  | some ⟨c, .derivePackKey slot serial code, some root, d⟩ =>
    bayJobEnds s ⟨c, .derivePackKey slot serial code, some root, d⟩
      (State.takePackKey slot (packKeyValue root serial code))
  | _ => unchanged s

/-- The proof matched (R16, R93): phase SESSION, with a DERIVE_SESSION job. -/
def State.proofMatched (s : State) (b : Fin 4) (packKey : Key) (gateNonce packNonce : Nonce) : State :=
  (s.setBay b { s.bay b with phase := some .session }).submit (.bay b)
    (.deriveSession packKey gateNonce packNonce)

/-- The FORGED insertion of a mismatch (R79). -/
def State.insertForged (s : State) (b : Fin 4) (serial : Serial) : State :=
  match (s.bay b).packKey with
  | some key => s.cacheInsert serial .forged key.slot forgedLife
  | none => s

/-- A proof mismatch at admission (R16). -/
def State.forgedAtAdmission (s : State) (b : Fin 4) (serial : Serial) : State :=
  ((s.insertForged b serial).deny b .forged).strike b

/-- A proof mismatch at renewal (R93). -/
def State.forgedAtRenewal (s : State) (b : Fin 4) (serial : Serial) : State :=
  let s := ((s.insertForged b serial).setBay b { s.bay b with packNonce := none }).strike b
  if (s.bay b).state = .lockout then s else s.loseEligibility b .forged

/-- The comparison of a CHECK_PROOF is taken in phase CHECK (R16, R93). -/
def State.takeProofResult (packKey : Key) (gateNonce packNonce : Nonce) (serial : Serial) (equal : Bool)
    (b : Fin 4) (s : State) : State :=
  if (s.bay b).phase = some .check then
    match (s.bay b).state with
    | .challenging =>
      if equal then s.proofMatched b packKey gateNonce packNonce else s.forgedAtAdmission b serial
    | .renewing => if equal then s.proofMatched b packKey gateNonce packNonce else s.forgedAtRenewal b serial
    | _ => s
  else s

/-- CHECK_PROOF_COMPLETE. -/
def execCheckProofComplete (s : State) : Out :=
  match s.de.running with
  | some ⟨c, .checkProof packKey gateNonce packNonce serial proof, k, d⟩ =>
    bayJobEnds s ⟨c, .checkProof packKey gateNonce packNonce serial proof, k, d⟩
      (State.takeProofResult packKey gateNonce packNonce serial
        (proofValue packKey gateNonce packNonce serial == proof))
  | _ => unchanged s

/-- The session key is in hand in phase SESSION (R17, R94). -/
def State.takeSessionKey (sessionKey : Key) (b : Fin 4) (s : State) : State :=
  if (s.bay b).phase = some .session then
    match (s.bay b).state, (s.bay b).identity, (s.bay b).packKey, (s.bay b).session with
    | .challenging, some id, some key, _ => s.authorize b id key sessionKey
    | .renewing, some id, some key, some old => s.renewed b id key old sessionKey
    | _, _, _, _ => s
  else s

/-- DERIVE_SESSION_COMPLETE. -/
def execDeriveSessionComplete (s : State) : Out :=
  match s.de.running with
  | some ⟨c, .deriveSession packKey gateNonce packNonce, k, d⟩ =>
    bayJobEnds s ⟨c, .deriveSession packKey gateNonce packNonce, k, d⟩
      (State.takeSessionKey (sessionKeyValue packKey gateNonce packNonce))
  | _ => unchanged s

/-- The comparison of a CHECK_TAG is taken (R142): the kept reply is passed VERIFIED, or withheld. -/
def State.takeTagResult (equal : Bool) (b : Fin 4) (s : State) : State :=
  match (s.bay b).heldReply with
  | some h =>
    if equal then (s.setBay b (s.bay b).advance).passReply b h.code h.payload .verified h.disposition
    else s.withholdTagFailed b h.code
  | none => s

/-- CHECK_TAG_COMPLETE. -/
def execCheckTagComplete (s : State) : Out :=
  match s.de.running with
  | some ⟨c, .checkTag key seq code payload tag, k, d⟩ =>
    bayJobEnds s ⟨c, .checkTag key seq code payload tag, k, d⟩
      (State.takeTagResult (tagValue key seq code payload == tag))
  | _ => unchanged s

/-- The comparison of a CHECK_IMAGE is taken by a load in CHECKING (R187). -/
def State.takeImageResult (s : State) (equal : Bool) : State :=
  match s.il.load with
  | some l =>
    if l.stage = .checking then
      if equal = false then s.endLoad l (.status .digestMismatch) .digestMismatch []
      else if l.contentOk = false then s.endLoad l (.status .content) .content []
      else ({ s with il.load := some { l with stage := .committing } } : State).beginImageWrite
    else s
  | none => s

/-- CHECK_IMAGE_COMPLETE (R187). -/
def execCheckImageComplete (s : State) : Out :=
  match s.de.running with
  | some ⟨c, .checkImage image digest, some key, d⟩ =>
    let s' := s.jobDone c
    done (if d then s' else s'.takeImageResult (imageValue key image == digest))
  | _ => unchanged s

/-- The KEY_CHECK request is answered (R37). -/
def State.takeCheckValue (s : State) (value : Digest) : State :=
  match s.me.inHand with
  | some (.keyCheck tid) =>
    { s with me.inHand := none }.answer [gateResponse tid 0x21 .ok (bytesBE 8 value.toNat)]
  | _ => s

/-- KEY_CHECK_COMPLETE (R37). -/
def execKeyCheckComplete (s : State) : Out :=
  match s.de.running with
  | some ⟨c, .keyCheck _, some key, d⟩ =>
    let s' := s.jobDone c
    done (if d then s' else s'.takeCheckValue (keyCheckValue key))
  | _ => unchanged s

end Sys2Proof.Machine
end

