-- ==== Sys2Proof/Machine/FilterRequests.lean ====
section
/-! DEFINITION. FILTER_SET, FILTER_GET and CAPTURE_TAKE (R137, R138, R150). -/

namespace Sys2Proof.Machine

/-- FILTER_SET is carried out (R137). -/
def State.filterSet (r : GateRequest) (s : State) : State :=
  let i := byteField r.payload 0
  if r.payload.length = 6 ∧ i ≤ 15 then
    match filterField (r.payload.drop 1) with
    | some f => ({ s with ff.table := s.ff.table.set i f } : State).reply r .ok []
    | none => s.refuse r .range
  else s.refuse r .range

/-- FILTER_SET. -/
def execFilterSet (s : State) : Out := takeRequest 0x40 s State.filterSet

/-- FILTER_GET is carried out (R138). -/
def State.filterGet (r : GateRequest) (s : State) : State :=
  let i := byteField r.payload 0
  if r.payload.length = 1 ∧ i ≤ 15 then s.reply r .ok (s.ff.table.getD i .invalid).bytes
  else s.refuse r .range

/-- FILTER_GET. -/
def execFilterGet (s : State) : Out := takeRequest 0x41 s State.filterGet

/-- CAPTURE_TAKE is carried out (R150). -/
def State.captureTake (r : GateRequest) (s : State) : State :=
  if r.payload ≠ [] then s.refuse r .range
  else
    match s.ff.capture with
    | [] => s.refuse r .empty
    | e :: rest =>
      ({ s with ff.capture := rest } : State).reply r .ok
        ([byteOf e.bay.val, e.code, e.mark.byte, byteOf rest.length, byteOf e.payload.length] ++ e.payload)

/-- CAPTURE_TAKE. -/
def execCaptureTake (s : State) : Out := takeRequest 0x42 s State.captureTake

end Sys2Proof.Machine
end

