-- ==== Sys2Proof/Machine/LoadRequests.lean ====
section
/-! DEFINITION. The requests of an image load (R183 to R186). -/

namespace Sys2Proof.Machine

/-! ## IMAGE_BEGIN (R183) -/

/-- The live generation of a target. -/
def State.targetGen (s : State) : ImageTarget → Word16
  | .model => s.ts.model.gen
  | .revoke => s.ts.revoke.gen

/-- The target and length of a well-formed IMAGE_BEGIN. -/
def beginFields (payload : List Byte) : Option (ImageTarget × Nat) :=
  let n := field payload 1 2
  if payload.length = 5 ∧ 1 ≤ n ∧ n ≤ 1024 then (targetField (byteField payload 0)).map (fun t => (t, n)) else none

/-- IMAGE_BEGIN with the Image Loader IDLE. -/
def State.openLoad (s : State) (r : GateRequest) : State :=
  match beginFields r.payload with
  | none => s.refuse r .range
  | some (t, n) =>
    let gen := wordField r.payload 3
    if s.storeBusy then s.refuse r .busy
    else if gen ≠ s.targetGen t then s.reply r .stale (bytesBE 2 (s.targetGen t).toNat)
    else ({ s with il.load := some ⟨.loading, t, n, gen, none, [], none⟩ } : State).reply r .ok []

/-- IMAGE_BEGIN is carried out (R183). -/
def State.imageBegin (r : GateRequest) (s : State) : State :=
  match s.il.load with
  | none => s.openLoad r
  | some l =>
    if l.stage = .committing then s.refuse r .busy else (s.endLoad l .aborted .cancelled []).refuse r .busy

/-- IMAGE_BEGIN. -/
def execImageBegin (s : State) : Out := takeRequest 0x38 s State.imageBegin

/-! ## IMAGE_DATA (R184) -/

/-- A request that fails in LOADING aborts the load with its status (R190). -/
def State.failLoad (s : State) (l : Load) (r : GateRequest) (st : Status) : State :=
  (s.endLoad l (.status st) .cancelled []).refuse r st

/-- The bytes that IMAGE_DATA carries. -/
def dataBytes (payload : List Byte) : List Byte := payload.drop 2

/-- The condition of IMAGE_DATA that fails in LOADING, if any (R184). -/
def Load.dataFailure (l : Load) (payload : List Byte) : Option Status :=
  if payload.length < 3 ∨ 42 < payload.length then some .range
  else if field payload 0 2 ≠ l.buffer.length then some .order
  else if l.declared < field payload 0 2 + (dataBytes payload).length then some .range
  else none

/-- IMAGE_DATA in LOADING. -/
def State.appendData (s : State) (l : Load) (r : GateRequest) : State :=
  match l.dataFailure r.payload with
  | some st => s.failLoad l r st
  | none =>
    let buffer := l.buffer ++ dataBytes r.payload
    ({ s with il.load := some { l with buffer := buffer } } : State).reply r .ok (bytesBE 2 buffer.length)

/-- IMAGE_DATA is carried out (R184). -/
def State.imageData (r : GateRequest) (s : State) : State :=
  match s.il.load with
  | none => s.refuse r .order
  | some l => if l.stage = .loading then s.appendData l r else s.refuse r .busy

/-- IMAGE_DATA. -/
def execImageData (s : State) : Out := takeRequest 0x39 s State.imageData

/-! ## IMAGE_END (R185) -/

/-- The condition of IMAGE_END that fails in LOADING, if any (R185). -/
def State.endFailure (s : State) (l : Load) (payload : List Byte) : Option Status :=
  if payload.length ≠ 8 then some .range
  else if l.buffer.length ≠ l.declared then some .order
  else if (s.ts.keys.slot 0).isNone then some .noKey
  else none

/-- IMAGE_END in LOADING: the load enters CHECKING, holding the request, and CHECK_IMAGE is submitted. -/
def State.closeTransfer (s : State) (l : Load) (r : GateRequest) : State :=
  match s.endFailure l r.payload with
  | some st => s.failLoad l r st
  | none =>
    let digest : Digest := BitVec.ofNat 64 (field r.payload 0 8)
    ({ s with il.load := some { l with stage := .checking, digest := some digest, endTid := some r.tid } } :
      State).submit .management (.checkImage l.buffer digest)

/-- IMAGE_END is carried out (R185). -/
def State.imageEnd (r : GateRequest) (s : State) : State :=
  match s.il.load with
  | none => s.refuse r .order
  | some l => if l.stage = .loading then s.closeTransfer l r else s.refuse r .busy

/-- IMAGE_END. -/
def execImageEnd (s : State) : Out := takeRequest 0x3A s State.imageEnd

/-! ## IMAGE_CANCEL (R186) -/

/-- IMAGE_CANCEL is carried out (R186). -/
def State.imageCancel (r : GateRequest) (s : State) : State :=
  if r.payload ≠ [] then s.refuse r .range
  else
    match s.il.load with
    | none => s.refuse r .wrongState
    | some l =>
      if l.stage = .committing then s.refuse r .busy else (s.endLoad l .cancelled .cancelled []).refuse r .ok

/-- IMAGE_CANCEL. -/
def execImageCancel (s : State) : Out := takeRequest 0x3B s State.imageCancel

end Sys2Proof.Machine
end

