-- ==== Sys2Proof/Machine/PackLine.lean ====
section
/-! DEFINITION. The commands of the pack lines (chapter 7). -/

namespace Sys2Proof.Machine

/-! ## Ends of an attempt (R110, R112) -/

/-- One more retry counted for the transaction of a kind (R112). -/
def Bay.countRetry (bay : Bay) : TxnKind → Bay
  | .ident | .challenge => { bay with authRetries := bay.authRetries + 1 }
  | .forward | .splitFirst | .splitSecond =>
    { bay with queue := { bay.head with retries := bay.head.retries + 1 } :: bay.queue.tail }

/-- The retry wait of 5 ms (R112). -/
def Bay.waitRetry (bay : Bay) (kind : TxnKind) : Bay :=
  { (bay.countRetry kind).idleLine with line := .retryWait kind, retryWait := some 5 }

/-- The ID or CHALLENGE transaction is over: the line is IDLE and its retry count cleared (R112, R113). -/
def Bay.authOver (bay : Bay) : Bay := { bay.idleLine with authRetries := 0 }

/-- The deny reason of a failed ID or CHALLENGE transaction (R10, R15, R92): a PACK_BUSY is recorded as
NO_ANSWER. -/
def failureReason (st : Status) : DenyReason := if st = .packReject then .packReject else .noAnswer

/-- A transaction fails (R112, R113). -/
def State.transactionFailed (s : State) (b : Fin 4) (kind : TxnKind) (st : Status) : State :=
  match kind with
  | .ident | .challenge => (s.setBay b (s.bay b).authOver).authFailure b (failureReason st)
  | .forward | .splitFirst | .splitSecond => s.forwardFailed b st

/-- An attempt ends in a retryable outcome (R110, R112): retried within the budget. -/
def State.attemptFailed (s : State) (b : Fin 4) (kind : TxnKind) (busy : Bool) : State :=
  if (s.bay b).retriesOf kind < 3 then s.setBay b ((s.bay b).waitRetry kind)
  else s.transactionFailed b kind (if busy then .packBusy else .noAnswer)

/-- An ID_REPORT of ten bytes is taken in IDENTIFYING (R10); elsewhere the outcome is discarded (R4). -/
def State.idReply (s : State) (b : Fin 4) (payload : List Byte) : State :=
  if (s.bay b).state = .identifying then s.takeIdReport b payload else s

/-- The bay waits for its CHALLENGE transaction: CHALLENGING or RENEWING, phase EXCHANGE (R13, R90). -/
def Bay.exchanging (bay : Bay) : Bool :=
  (bay.state == .challenging || bay.state == .renewing) && bay.phase == some .exchange

/-- The pack nonce is held and the phase becomes CHECK (R15, R92). -/
def Bay.toCheck (bay : Bay) (nonce : Nonce) : Bay :=
  { bay with packNonce := some nonce, phase := some .check, claim := .none }

/-- A PROOF of 16 bytes is taken in phase EXCHANGE (R15, R92): CHECK_PROOF is submitted. -/
def State.takeProof (s : State) (b : Fin 4) (payload : List Byte) : State :=
  let nonce : Nonce := BitVec.ofNat 64 (field payload 0 8)
  let proof : Digest := BitVec.ofNat 64 (field payload 8 8)
  match (s.bay b).packKey, (s.bay b).identity, (s.bay b).exchanging with
  | some key, some id, true =>
    (s.setBay b ((s.bay b).toCheck nonce)).submit (.bay b)
      (.checkProof key.key (s.bay b).gateNonce nonce id.serial proof)
  | _, _, _ => s

/-- The first half of a split is acknowledged (R126): the second half begins at once as attempt 0. -/
def State.beginSecondHalf (s : State) (b : Fin 4) : State :=
  let bay := s.bay b
  s.setBay b
    ({ bay with queue := { bay.head with retries := 0 } :: bay.queue.tail }.attempt .splitSecond
      (s.pins.lineDominant.get b))

/-- A good frame that is neither BUSY nor REJECT, taken by the transaction's kind (R111, R126, R127). -/
def State.takeReply (s : State) (b : Fin 4) (kind : TxnKind) (f : PackFrame) : State :=
  match kind with
  | .ident =>
    if f.code = codeIdReport ∧ f.payload.length = 10 then
      (s.setBay b (s.bay b).authOver).idReply b f.payload
    else s.transactionFailed b kind .packReject
  | .challenge =>
    if f.code = codeProof ∧ f.payload.length = 16 then (s.setBay b (s.bay b).authOver).takeProof b f.payload
    else s.transactionFailed b kind .packReject
  | .splitFirst =>
    if f.code = codeContAck then s.beginSecondHalf b else s.transactionFailed b kind .packReject
  | .forward | .splitSecond =>
    if f.code = codeContAck then s.transactionFailed b kind .packReject else s.classify b f

/-- A good frame ends an attempt (R110). -/
def State.goodFrame (s : State) (b : Fin 4) (kind : TxnKind) (f : PackFrame) : State :=
  if f.code = codeBusy then s.attemptFailed b kind true
  else if f.code = codeReject then s.transactionFailed b kind .packReject
  else s.takeReply b kind f

/-- An abandoned transaction's attempt has ended: the outcome is discarded (R4). -/
def State.abandonedEnd (s : State) (b : Fin 4) : State := s.setBay b (s.bay b).authOver

/-- The kind of the transaction whose reply the gate awaits or receives, with its abandoned mark. -/
def Bay.awaitsReply (bay : Bay) : Option (TxnKind × Bool) :=
  match bay.line with
  | .inTransaction kind .awaiting ab => some (kind, ab)
  | .inTransaction kind .receiving ab => some (kind, ab)
  | _ => none

/-- An error ends the attempt whose reply is awaited (R108, R110). -/
def replyError (b : Fin 4) (s : State) : Out :=
  match (s.bay b).awaitsReply with
  | some (kind, ab) => doneBay b (if ab then s.abandonedEnd b else s.attemptFailed b kind false)
  | none => unchanged s

/-! ## The level of a bay line (R107, R116, R118) -/

/-- A bay's line changes to a level: the stuck-line watch or the recovery timer restarts, a frame waiting for a
recessive line begins, and the start bit of a reply stops the response timer (R109; log 20). -/
def Bay.onLevel (bay : Bay) (settle : Nat) (dominant : Bool) : Bay :=
  match bay.state with
  | .empty => bay
  | .lockout => bay
  | .lineFault => { bay with settle := if dominant then none else some settle }
  | _ =>
    let bay := { bay with watch := watchFor dominant }
    match bay.line with
    | .inTransaction kind .waiting ab =>
      if dominant then bay else { bay with line := .inTransaction kind .sending ab }
    | .inTransaction kind .awaiting ab =>
      if dominant then { bay with line := .inTransaction kind .receiving ab, response := none } else bay
    | _ => bay

/-- The last known level of a bay line. -/
def State.setLineLevel (s : State) (b : Fin 4) (dominant : Bool) : State :=
  { s with pins.lineDominant := s.pins.lineDominant.set b dominant }

/-- BAY_LINE_LEVEL_CHANGE (R107, R116, R118). -/
def execBayLineLevelChange (bay : Fin 4) (dominant : Bool) (s : State) : Out :=
  taken (s.live && s.pins.lineDominant.get bay != dominant) s
    ((s.setLineLevel bay dominant).setBay bay ((s.bay bay).onLevel s.cfg.settle dominant))

/-- The stuck-line watch acts in the bay's state (R116). -/
def BayState.watched : BayState → Bool
  | .empty | .lockout | .lineFault => false
  | _ => true

/-- STUCK_LINE (R117). -/
def execStuckLine (bay : Fin 4) (s : State) : Out :=
  if s.awake && (s.bay bay).state.watched && (s.bay bay).watch.isSome then doneBay bay (s.enterLineFault bay)
  else unchanged s

/-- A bay leaves LINE_FAULT for SETTLING (R118). -/
def State.recover (s : State) (b : Fin 4) : State :=
  (s.setBay b { s.bay b with identity := none, packKey := none, attempts := 0 }).enterSettling b

/-- LINE_FAULT_RECOVERY (R118). -/
def execLineFaultRecovery (bay : Fin 4) (s : State) : Out :=
  if s.awake && (s.bay bay).state == .lineFault && (s.bay bay).settle.isSome then doneBay bay (s.recover bay)
  else unchanged s

/-! ## Frames (R107 to R112) -/

/-- PACK_FRAME_SENT (R109): the response timer starts with the RESPONSE value in force. -/
def execPackFrameSent (bay : Fin 4) (s : State) : Out :=
  match (s.bay bay).line with
  | .inTransaction kind .sending ab =>
    done (s.setBay bay
      { s.bay bay with line := .inTransaction kind .awaiting ab, response := some s.cfg.response })
  | _ => unchanged s

/-- COLLISION (R107): the attempt ends with a frame error. -/
def execCollision (bay : Fin 4) (s : State) : Out :=
  match (s.bay bay).line with
  | .inTransaction kind .sending ab =>
    doneBay bay (if ab then s.abandonedEnd bay else s.attemptFailed bay kind false)
  | _ => unchanged s

/-- PACK_REPLY (R110): the frame is judged by R108 and ends the attempt. Characters short of a frame begin a reply
(log 30). -/
def execPackReply (bay : Fin 4) (bytes : List Byte) (s : State) : Out :=
  match (s.bay bay).awaitsReply with
  | none => unchanged s
  | some (kind, ab) =>
    match parsePack bytes with
    | .incomplete =>
      done (s.setBay bay { s.bay bay with line := .inTransaction kind .receiving ab, response := none })
    | .frameError => replyError bay s
    | .crcError => replyError bay s
    | .good f => doneBay bay (if ab then s.abandonedEnd bay else s.goodFrame bay kind f)

/-- PACK_RX_GAP_EXPIRY (R108): a frame error. -/
def execPackRxGapExpiry (bay : Fin 4) (s : State) : Out := replyError bay s

/-- PACK_RX_FRAME_ERROR (R108): a frame error. -/
def execPackRxFrameError (bay : Fin 4) (s : State) : Out := replyError bay s

/-- RESPONSE_TIMEOUT (R110): the response timer runs while no character has begun. -/
def execResponseTimeout (bay : Fin 4) (s : State) : Out :=
  if (s.bay bay).response.isSome then replyError bay s else unchanged s

/-- RETRY_WAIT_EXPIRY (R112, R125): a split half makes its next attempt at once; any other transaction is a claim
again. -/
def execRetryWaitExpiry (bay : Fin 4) (s : State) : Out :=
  if (s.bay bay).retryWait.isSome then
    match (s.bay bay).line with
    | .retryWait .splitFirst =>
      done (s.setBay bay ((s.bay bay).attempt .splitFirst (s.pins.lineDominant.get bay)))
    | .retryWait .splitSecond =>
      done (s.setBay bay ((s.bay bay).attempt .splitSecond (s.pins.lineDominant.get bay)))
    | .retryWait _ => doneBay bay (s.setBay bay (s.bay bay).idleLine)
    | _ => unchanged s
  else unchanged s

/-- LINK_HOLD_EXPIRY (R123): the run closes and the arbiter acts. -/
def execLinkHoldExpiry (bay : Fin 4) (s : State) : Out :=
  if (s.bay bay).linkHold.isSome then
    doneBay bay (s.setBay bay { s.bay bay with linkRun := none, linkHold := none })
  else unchanged s

end Sys2Proof.Machine
end

