-- ==== Sys2Proof/Machine/StringRequests.lean ====
section
/-! DEFINITION. TOPOLOGY_SET, TOPOLOGY_GET, STRING_QUERY and STRING_RELEASE (R171 to R174). -/

namespace Sys2Proof.Machine

/-- The topology of a well-formed TOPOLOGY_SET (12.3, 12.4). -/
def topologyFields (payload : List Byte) : Option (Four (Option (Fin 4)) × Four Bool) :=
  if payload.length = 5 then
    match assignField (byteField payload 0), assignField (byteField payload 1), assignField (byteField payload 2),
      assignField (byteField payload 3), bitSetField (byteField payload 4) with
    | some a, some b, some c, some d, some manual => some (⟨a, b, c, d⟩, manual)
    | _, _, _, _, _ => none
  else none

/-- A latch is settled at a TOPOLOGY_SET (R171 step 2): kept when member set and policy are both unchanged. -/
def settledLatch (old new : StringController) (x : Fin 4) : StringState :=
  match old.strings.get x with
  | .latchedOff b =>
    if old.members x = new.members x ∧ old.manual.get x = new.manual.get x then .latchedOff b else .idle
  | st => st

/-- The topology is installed and the latches settled (R171). -/
def StringController.install (sc : StringController) (assign : Four (Option (Fin 4))) (manual : Four Bool) :
    StringController :=
  let new := { sc with assign := assign, manual := manual }
  { new with strings := Four.ofFn (settledLatch sc new) }

/-- The four string states as bytes. -/
def State.stringBytes (s : State) : List Byte := s.sc.strings.toList.map StringState.byte

/-- Some BEN output is on. -/
def anyOn (ben : Four Bool) : Bool := ben.b0 || ben.b1 || ben.b2 || ben.b3

/-- The strings source is raised for strings that changed against an earlier picture (R163). -/
def State.noticeStrings (s : State) (old : Four StringState) : State :=
  if stringsNoticed old s.sc.strings then s.raiseStrings else s

/-- TOPOLOGY_SET, taken (R171). -/
def State.installTopology (s : State) (assign : Four (Option (Fin 4))) (manual : Four Bool) : State :=
  ({ s with sc := s.sc.install assign manual } : State).derive false |>.noticeStrings s.sc.strings

/-- TOPOLOGY_SET is carried out (R171). -/
def State.topologySet (r : GateRequest) (s : State) : State :=
  match topologyFields r.payload with
  | none => s.refuse r .range
  | some (assign, manual) =>
    if s.sc.runFiltered || anyOn s.sc.ben then s.refuse r .busy
    else
      let s' := s.installTopology assign manual
      s'.reply r .ok s'.stringBytes

/-- TOPOLOGY_SET. -/
def execTopologySet (s : State) : Out := takeRequest 0x50 s State.topologySet

/-- TOPOLOGY_GET is carried out (R172). -/
def State.topologyGet (r : GateRequest) (s : State) : State :=
  if r.payload ≠ [] then s.refuse r .range
  else s.reply r .ok (s.sc.assign.toList.map assignByte ++ [fourBits s.sc.manual])

/-- TOPOLOGY_GET. -/
def execTopologyGet (s : State) : Out := takeRequest 0x51 s State.topologyGet

/-- The bays of a string as a bit-set. -/
def memberBits (ms : List (Fin 4)) : Byte := fourBits (Four.ofFn (fun b => ms.contains b))

/-- The lowest current class of a string whose members all hold attributes; 0 otherwise (R54, R173). -/
def currentClass (bays : Four Bay) (ms : List (Fin 4)) : Byte :=
  if allAttrs bays ms then byteOf (((memberAttrs bays ms).map (fun a => a.current.toNat)).min?.getD 0) else 0

/-- The 11 bytes of STRING_QUERY (12.4, R173). -/
def State.stringReport (s : State) (x : Fin 4) : List Byte :=
  let ms := s.sc.members x
  let st := s.sc.strings.get x
  [st.byte, boolByte (s.sc.manual.get x), memberBits ms,
    memberBits (ms.filter (fun b => (s.bay b).state.eligible)),
    byteOf (if allAttrs s.bays ms then voltage s.bays ms else 0), currentClass s.bays ms, boolByte (st == .enabled),
    st.causeByte, st.holdByte, st.latchByte, byteOf (s.sc.reference.getD 0)]

/-- STRING_QUERY is carried out (R173). -/
def State.stringQuery (r : GateRequest) (s : State) : State :=
  match oneNumber r.payload with
  | some x => s.reply r .ok (s.stringReport x)
  | none => s.refuse r .range

/-- STRING_QUERY. -/
def execStringQuery (s : State) : Out := takeRequest 0x52 s State.stringQuery

/-- A latched string is released and derived (R174). -/
def State.releaseString (s : State) (x : Fin 4) : State :=
  ({ s with sc.strings := s.sc.strings.set x .idle } : State).derive false |>.noticeStrings s.sc.strings

/-- STRING_RELEASE is carried out (R174). -/
def State.stringRelease (r : GateRequest) (s : State) : State :=
  match oneNumber r.payload with
  | none => s.refuse r .range
  | some x =>
    match (s.sc.strings.get x).latchBay with
    | none => s.refuse r .wrongState
    | some _ =>
      let s' := s.releaseString x
      s'.reply r .ok [(s'.sc.strings.get x).byte]

/-- STRING_RELEASE. -/
def execStringRelease (s : State) : Out := takeRequest 0x53 s State.stringRelease

end Sys2Proof.Machine
end

