-- ==== Sys2Proof/Machine/TableRequests.lean ====
section
/-! DEFINITION. The requests of the key store, the model table and the revocation list (R34, R37, R58, R68, R180,
R181). -/

namespace Sys2Proof.Machine

/-! ## Keys -/

/-- The condition of KEY_LOAD that refuses it, if any (R34). -/
def State.keyLoadRefusal (s : State) (r : GateRequest) : Option Status :=
  if r.payload.length ≠ 17 ∨ 7 < byteField r.payload 0 then some .range
  else if s.pw.provision = false then some .locked
  else if s.storeBusy then some .busy
  else if byteField r.payload 0 = 0 ∧ s.loadStage = some .checking then some .busy
  else none

/-- KEY_LOAD is carried out (R34): the store write begins, and the ME keeps the request. -/
def State.keyLoad (r : GateRequest) (s : State) : State :=
  match s.keyLoadRefusal r with
  | some st => s.refuse r st
  | none =>
    let slot := byteField r.payload 0
    let key : Key := BitVec.ofNat 128 (field r.payload 1 16)
    ({ s with ts.write := some (.keyLoad slot (s.ts.keys.set slot (some key))) } : State).hold (.keyLoad r.tid)

/-- KEY_LOAD. -/
def execKeyLoad (s : State) : Out := takeRequest 0x20 s State.keyLoad

/-- The condition of KEY_CHECK that refuses it, if any (R37). R37 gives its conditions no order: the model applies them
as R37 lists them, so an EMPTY slot is refused NO_KEY even behind a management job (log 35). -/
def State.keyCheckRefusal (s : State) (r : GateRequest) : Option Status :=
  if r.payload.length ≠ 1 ∨ 7 < byteField r.payload 0 then some .range
  else if (s.ts.keys.slot (byteField r.payload 0)).isNone then some .noKey
  else if s.de.outstanding .management then some .busy
  else none

/-- KEY_CHECK is carried out (R37): the job is submitted, and the ME keeps the request. -/
def State.keyCheck (r : GateRequest) (s : State) : State :=
  match s.keyCheckRefusal r with
  | some st => s.refuse r st
  | none => (s.hold (.keyCheck r.tid)).submit .management (.keyCheck (byteField r.payload 0))

/-- KEY_CHECK. -/
def execKeyCheck (s : State) : Out := takeRequest 0x21 s State.keyCheck

/-! ## MODEL_GET and REVOKE_GET -/

/-- MODEL_GET is carried out (R58). -/
def State.modelGet (r : GateRequest) (s : State) : State :=
  let i := byteField r.payload 0
  if r.payload.length ≠ 1 ∨ 31 < i then s.refuse r .range
  else
    let e := s.ts.model.entry i
    if e.isEmpty then s.reply r .notFound (bytesBE 2 s.ts.model.gen.toNat)
    else s.reply r .ok (byteOf i :: (e.bytes ++ bytesBE 2 s.ts.model.gen.toNat))

/-- MODEL_GET. -/
def execModelGet (s : State) : Out := takeRequest 0x30 s State.modelGet

/-- Count and generation of the revocation list (12.3). -/
def RevList.tail (l : RevList) : List Byte := byteOf l.ranges.length :: bytesBE 2 l.gen.toNat

/-- REVOKE_GET is carried out (R68). -/
def State.revokeGet (r : GateRequest) (s : State) : State :=
  let i := byteField r.payload 0
  if r.payload.length ≠ 1 ∨ 95 < i then s.refuse r .range
  else
    match s.ts.revoke.ranges[i]? with
    | none => s.reply r .notFound s.ts.revoke.tail
    | some x =>
      s.reply r .ok
        (byteOf i :: (bytesBE 6 x.first.toNat ++ bytesBE 6 x.last.toNat ++ s.ts.revoke.tail))

/-- REVOKE_GET. -/
def execRevokeGet (s : State) : Out := takeRequest 0x31 s State.revokeGet

/-! ## Conditional edits (R179 to R181) -/

/-- A load of the revocation list is under way (R180). -/
def State.revokeLoading (s : State) : Bool := s.il.load.any (fun l => l.target == .revoke)

/-- Two ranges overlap (R180). -/
def Range.overlaps (a b : Range) : Bool :=
  decide (a.first.toNat ≤ b.last.toNat) && decide (b.first.toNat ≤ a.last.toNat)

/-- The index that a first serial calls for (R64). -/
def RevList.indexFor (l : RevList) (first : Serial) : Nat :=
  (l.ranges.filter (fun x => decide (x.first.toNat < first.toNat))).length

/-- The list with a range added at its place (R180). -/
def RevList.add (l : RevList) (x : Range) : RevList :=
  ⟨l.ranges.take (l.indexFor x.first) ++ x :: l.ranges.drop (l.indexFor x.first), l.gen + 1⟩

/-- The list without the range that begins at a serial (R181). -/
def RevList.remove (l : RevList) (first : Serial) : RevList :=
  ⟨l.ranges.filter (fun x => x.first != first), l.gen + 1⟩

/-- The range that REVOKE_ADD names. -/
def addRange (payload : List Byte) : Range := ⟨serialField payload 2, serialField payload 8⟩

/-- The condition of REVOKE_ADD that refuses it, if any (R180). -/
def State.revokeAddRefusal (s : State) (r : GateRequest) : Option Status :=
  let x := addRange r.payload
  if r.payload.length ≠ 14 then some .range
  else if wordField r.payload 0 ≠ s.ts.revoke.gen then some .stale
  else if s.storeBusy || s.revokeLoading then some .busy
  else if x.last.toNat < x.first.toNat then some .range
  else if s.ts.revoke.ranges.any (fun y => y.overlaps x) then some .overlap
  else if 96 ≤ s.ts.revoke.ranges.length then some .full
  else none

/-- REVOKE_ADD is carried out (R180). -/
def State.revokeAdd (r : GateRequest) (s : State) : State :=
  match s.revokeAddRefusal r with
  | some st => s.reply r st (editPayload s.ts.revoke [])
  | none =>
    let x := addRange r.payload
    ({ s with ts.write := some (.revokeEdit (s.ts.revoke.add x)) } : State).hold
      (.revokeAdd r.tid (s.ts.revoke.indexFor x.first))

/-- REVOKE_ADD. -/
def execRevokeAdd (s : State) : Out := takeRequest 0x32 s State.revokeAdd

/-- The condition of REVOKE_DROP that refuses it, if any (R181). -/
def State.revokeDropRefusal (s : State) (r : GateRequest) : Option Status :=
  if r.payload.length ≠ 8 then some .range
  else if wordField r.payload 0 ≠ s.ts.revoke.gen then some .stale
  else if s.storeBusy || s.revokeLoading then some .busy
  else if s.ts.revoke.ranges.any (fun x => x.first == serialField r.payload 2) then none
  else some .notFound

/-- REVOKE_DROP is carried out (R181). -/
def State.revokeDrop (r : GateRequest) (s : State) : State :=
  match s.revokeDropRefusal r with
  | some st => s.reply r st (editPayload s.ts.revoke [])
  | none =>
    ({ s with ts.write := some (.revokeEdit (s.ts.revoke.remove (serialField r.payload 2))) } : State).hold
      (.revokeDrop r.tid)

/-- REVOKE_DROP. -/
def execRevokeDrop (s : State) : Out := takeRequest 0x33 s State.revokeDrop

end Sys2Proof.Machine
end

