-- ==== Sys2Proof/Machine/ToolEvents.lean ====
section
/-! DEFINITION. The commands of the tool line: frames in and out (R130, R193 to R200). -/

namespace Sys2Proof.Machine

/-! ## Pass-through requests (R130) -/

/-- The first check of R130 that refuses a request, with the to-pack lookup's answer. -/
def State.passThroughRefusal (s : State) (b : Fin 4) (code : Byte) (payload : List Byte) : Option Status :=
  if 16 < payload.length then some .range
  else if 0xF0 ≤ code.toNat then some .reserved
  else if s.toPackLookup b code = .block then some .blocked
  else if (s.bay b).state = .empty then some .noPack
  else if (s.bay b).state = .lockout then some .lockout
  else if (s.bay b).state = .lineFault then some .lineFault
  else if 4 ≤ (s.bay b).queue.length then some .queueFull
  else none

/-- A pass-through request is refused at once, or taken into the bay's forward queue (R130, R131). -/
def State.passThrough (s : State) (b : Fin 4) (tid code flags : Byte) (payload : List Byte) : State :=
  match s.passThroughRefusal b code payload with
  | some st => s.answer [⟨BitVec.ofNat 3 b.val, tid, code, st, RespFlags.none, []⟩]
  | none =>
    (s.setBay b
      { s.bay b with
        queue := (s.bay b).queue ++
          [⟨tid, code, flags.getLsbD 0, payload, s.toPackLookup b code == .forwardAuth, 0⟩] }).arbitrate b

/-! ## Gate requests (R195) -/

/-- A gate request joins the management queue, or is refused QUEUE_FULL; an edit refused so carries generation and
count too (12.3, where R195 is silent; log 21). -/
def State.enqueue (s : State) (r : GateRequest) : State :=
  if s.me.queue.length < 4 then { s with me.queue := s.me.queue ++ [r] }
  else s.answer [s.rejection r.tid r.code .queueFull]

/-- A good frame is routed by its kind and selector (R194). -/
def State.route (s : State) (ks tid code flags : Byte) (payload : List Byte) : State :=
  if kindField ks ≠ 0 then s.setToolFrameError
  else
    match fourNumber (selectorField ks).toNat with
    | some b => s.passThrough b tid code flags payload
    | none =>
      if selectorField ks = 7 then s.enqueue ⟨tid, code, payload⟩
      else s.answer [⟨selectorField ks, tid, code, .unknownSelector, RespFlags.none, []⟩]

/-- The receive assembler takes another state. -/
def State.setRx (s : State) (rx : Receiver) : State := { s with tli.rx := rx }

/-- Characters reach the receive assembler (R193). -/
def State.receive (s : State) (chars : List Byte) : State :=
  match parseTool chars with
  | .incomplete => s.setRx (.assembling chars)
  | .framingError => (s.setRx .discarding).setToolFrameError
  | .crcError rest => (s.setRx (.assembling rest)).setToolFrameError
  | .complete ks tid code flags payload rest => (s.setRx (.assembling rest)).route ks tid code flags payload

/-- The tool line is received: the gate is live (R212). -/
def State.hears (s : State) : Bool := s.live && !s.pw.dormant

/-- TOOL_FRAME (R193, R194). In dormant it is a start bit on RXD (R209; log 18). -/
def execToolFrame (bytes : List Byte) (s : State) : Out :=
  if s.asleep then done s.rxdWake
  else
    match s.tli.rx with
    | .assembling chars => taken s.hears s (s.receive (chars ++ bytes))
    | .discarding => unchanged s

/-- TOOL_RX_GAP_EXPIRY (R193; log 19). In dormant, where the frame began before the entry, it is no start bit and
wakes nothing (R209). -/
def execToolRxGapExpiry (s : State) : Out :=
  match s.tli.rx with
  | .assembling _ => taken s.live s (s.setRx (.assembling [])).setToolFrameError
  | .discarding => unchanged s

/-- TOOL_FRAMING_ERROR (R193; log 18). -/
def execToolFramingError (s : State) : Out :=
  if s.asleep then done s.rxdWake
  else
    match s.tli.rx with
    | .assembling _ => taken s.hears s (s.setRx .discarding).setToolFrameError
    | .discarding => unchanged s

/-- TOOL_RX_IDLE_RESYNC (R193, R209). -/
def execToolRxIdleResync (s : State) : Out :=
  match s.tli.rx with
  | .assembling _ => unchanged s
  | .discarding => if s.live then .next (s.setRx (.assembling [])) else unchanged s

/-- FRAME_SENT (R198): the transmitter is free, and acts, in dormant too (R208). -/
def execFrameSent (s : State) : Out :=
  match s.tli.tx with
  | some _ => .next ({ s with tli.tx := none } : State).transmit
  | none => unchanged s

end Sys2Proof.Machine
end

