-- ==== Sys2Proof/Machine/Dispatch.lean ====
section
/-! DEFINITION. One arm for each command of the table. -/

namespace Sys2Proof.Machine

def exec (i : Instr) (s : State) : Host.Outcome State Fault Refusal :=
  match i with
  | .powerOn levels torn => Sys2Proof.Machine.execPowerOn levels torn s
  | .resetnAssert torn => Sys2Proof.Machine.execResetnAssert torn s
  | .resetnRelease levels torn => Sys2Proof.Machine.execResetnRelease levels torn s
  | .startupRewriteComplete ok => Sys2Proof.Machine.execStartupRewriteComplete ok s
  | .insertion bay => Sys2Proof.Machine.execInsertion bay s
  | .removal bay => Sys2Proof.Machine.execRemoval bay s
  | .settleExpiry bay det => Sys2Proof.Machine.execSettleExpiry bay det s
  | .reattemptExpiry bay => Sys2Proof.Machine.execReattemptExpiry bay s
  | .renewExpiry bay => Sys2Proof.Machine.execRenewExpiry bay s
  | .graceExpiry bay => Sys2Proof.Machine.execGraceExpiry bay s
  | .decayExpiry bay => Sys2Proof.Machine.execDecayExpiry bay s
  | .cacheExpiry serial => Sys2Proof.Machine.execCacheExpiry serial s
  | .runInputChange level => Sys2Proof.Machine.execRunInputChange level s
  | .runRise => Sys2Proof.Machine.execRunRise s
  | .runFall => Sys2Proof.Machine.execRunFall s
  | .bayLineLevelChange bay dominant => Sys2Proof.Machine.execBayLineLevelChange bay dominant s
  | .stuckLine bay => Sys2Proof.Machine.execStuckLine bay s
  | .lineFaultRecovery bay => Sys2Proof.Machine.execLineFaultRecovery bay s
  | .packFrameSent bay => Sys2Proof.Machine.execPackFrameSent bay s
  | .collision bay => Sys2Proof.Machine.execCollision bay s
  | .packReply bay bytes => Sys2Proof.Machine.execPackReply bay bytes s
  | .packRxGapExpiry bay => Sys2Proof.Machine.execPackRxGapExpiry bay s
  | .responseTimeout bay => Sys2Proof.Machine.execResponseTimeout bay s
  | .retryWaitExpiry bay => Sys2Proof.Machine.execRetryWaitExpiry bay s
  | .linkHoldExpiry bay => Sys2Proof.Machine.execLinkHoldExpiry bay s
  | .derivePackKeyComplete => Sys2Proof.Machine.execDerivePackKeyComplete s
  | .checkProofComplete => Sys2Proof.Machine.execCheckProofComplete s
  | .deriveSessionComplete => Sys2Proof.Machine.execDeriveSessionComplete s
  | .checkTagComplete => Sys2Proof.Machine.execCheckTagComplete s
  | .checkImageComplete => Sys2Proof.Machine.execCheckImageComplete s
  | .keyCheckComplete => Sys2Proof.Machine.execKeyCheckComplete s
  | .keyLoadComplete result => Sys2Proof.Machine.execKeyLoadComplete result s
  | .modelCommit result => Sys2Proof.Machine.execModelCommit result s
  | .revocationCommit result => Sys2Proof.Machine.execRevocationCommit result s
  | .toolFrame bytes => Sys2Proof.Machine.execToolFrame bytes s
  | .toolRxGapExpiry => Sys2Proof.Machine.execToolRxGapExpiry s
  | .frameSent => Sys2Proof.Machine.execFrameSent s
  | .dormantDetSample det => Sys2Proof.Machine.execDormantDetSample det s
  | .rxdWake => Sys2Proof.Machine.execRxdWake s
  | .unknownCode => Sys2Proof.Machine.execUnknownCode s
  | .gateStatus => Sys2Proof.Machine.execGateStatus s
  | .configSet => Sys2Proof.Machine.execConfigSet s
  | .configGet => Sys2Proof.Machine.execConfigGet s
  | .snapLatch => Sys2Proof.Machine.execSnapLatch s
  | .snapRead => Sys2Proof.Machine.execSnapRead s
  | .dormant => Sys2Proof.Machine.execDormant s
  | .gateReset det => Sys2Proof.Machine.execGateReset det s
  | .bayQuery => Sys2Proof.Machine.execBayQuery s
  | .bayRetry => Sys2Proof.Machine.execBayRetry s
  | .keyLoad => Sys2Proof.Machine.execKeyLoad s
  | .keyCheck => Sys2Proof.Machine.execKeyCheck s
  | .modelGet => Sys2Proof.Machine.execModelGet s
  | .revokeGet => Sys2Proof.Machine.execRevokeGet s
  | .revokeAdd => Sys2Proof.Machine.execRevokeAdd s
  | .revokeDrop => Sys2Proof.Machine.execRevokeDrop s
  | .imageBegin => Sys2Proof.Machine.execImageBegin s
  | .imageData => Sys2Proof.Machine.execImageData s
  | .imageEnd => Sys2Proof.Machine.execImageEnd s
  | .imageCancel => Sys2Proof.Machine.execImageCancel s
  | .filterSet => Sys2Proof.Machine.execFilterSet s
  | .filterGet => Sys2Proof.Machine.execFilterGet s
  | .captureTake => Sys2Proof.Machine.execCaptureTake s
  | .topologySet => Sys2Proof.Machine.execTopologySet s
  | .topologyGet => Sys2Proof.Machine.execTopologyGet s
  | .stringQuery => Sys2Proof.Machine.execStringQuery s
  | .stringRelease => Sys2Proof.Machine.execStringRelease s
  | .powerLoss torn => Sys2Proof.Machine.execPowerLoss torn s
  | .packRxFrameError bay => Sys2Proof.Machine.execPackRxFrameError bay s
  | .toolFramingError => Sys2Proof.Machine.execToolFramingError s
  | .toolRxIdleResync => Sys2Proof.Machine.execToolRxIdleResync s

end Sys2Proof.Machine
end

