-- ==== Sys2Proof/Machine/Timebase.lean ====
section
/-! DEFINITION. The passing of time (log 1, log 2): 1 ms taken from every running timer. A timer at its last
millisecond waits there for its expiry command. -/

namespace Sys2Proof.Machine

/-- 1 ms of a timer: a stopped timer stays stopped, a running one never reads 0 (R206). -/
def tickTimer (t : Option Nat) : Option Nat := t.map (fun n => max 1 (n - 1))

/-- 1 ms of a bay's timers. -/
def Bay.tick (bay : Bay) : Bay :=
  { bay with
    settle := tickTimer bay.settle
    reattempt := tickTimer bay.reattempt
    renew := tickTimer bay.renew
    grace := tickTimer bay.grace
    decay := tickTimer bay.decay
    retryWait := tickTimer bay.retryWait
    linkHold := tickTimer bay.linkHold
    response := tickTimer bay.response
    watch := tickTimer bay.watch }

/-- 1 ms of a cache entry's life (R80). -/
def CacheEntry.tick (e : CacheEntry) : CacheEntry := { e with life := max 1 (e.life - 1) }

/-- 1 ms of the gate. Without supply, or with RESETn held, no timer runs (R212). -/
def State.tick (s : State) : State :=
  if s.live then
    { s with
      bays := s.bays.map Bay.tick
      cache := s.cache.map CacheEntry.tick
      sc.runFilter := tickTimer s.sc.runFilter }
  else s

end Sys2Proof.Machine
end

