-- ==== Sys2Proof/WellFormed.lean ====
section
/-! DEFINITION. Which command terms name an event of the table: the operand of a frame event is one complete
frame, of any CRC (R108, R193). Every other command has operands whose types admit well-formed values only. -/

namespace Sys2Proof

/-- One complete tool-line frame (R193): start byte 5Ah, a length of at most 48, and exactly the characters
that length calls for. -/
def toolFrameShape (bytes : List Byte) : Bool :=
  bytes.getD 0 0 == 0x5A#8 && (bytes.getD 6 0).toNat ≤ 48 && bytes.length == 9 + (bytes.getD 6 0).toNat

/-- One complete pack-line frame (R108): start byte C3h, a length of at most 16, and exactly the characters
that its length and its TAGGED flag call for. -/
def packFrameShape (bytes : List Byte) : Bool :=
  bytes.getD 0 0 == 0xC3#8 && (bytes.getD 4 0).toNat ≤ 16 &&
    bytes.length == 7 + (bytes.getD 4 0).toNat + (if (bytes.getD 2 0).getLsbD 1 then 4 else 0)

/-- The well-formedness check of a command. -/
def Instr.wellFormed : Instr → Bool
  | .toolFrame bytes => toolFrameShape bytes
  | .packReply _ bytes => packFrameShape bytes
  | _ => true

end Sys2Proof
end

