-- ==== Sys2Proof/Certificates/Slice0/Obligations.lean ====
section
/-! DEFINITION. The statements of this row. Where a command's own effect is followed by what the gate does at the
end of every event (a bay's arbiter, the string derivation, the transmitter), a statement names the state that the
command leaves to them, written out, and the three have statements of their own. -/

namespace Sys2Proof.Claims

open Sys2Proof.Machine

/-- After an event of bay `b`: the bay's arbiter acts (R121), the strings are derived (R156), and the transmitter
takes what is ready (R198). -/
def afterBay (b : Fin 4) (u : State) : State := ((u.arbitrate b).derive false).settleTx

/-- After an event that reaches every bay: the four arbiters act, the strings are derived, the transmitter takes
what is ready. -/
def afterBays (u : State) : State := (u.arbitrateAll.derive false).settleTx

end Sys2Proof.Claims

open Sys2Proof Sys2Proof.Machine Sys2Proof.Claims

/-! ## The machine -/

/-- A step carries out the command at the front of the queue, on the state with the rest of the queue. -/
def Obligations.StepRunsTheFrontCommand : Prop :=
  ∀ (c : Instr) (rest : List Instr) (s : State),
    step { s with pending := c :: rest } = exec c { s with pending := rest }

/-- With no command waiting, a step lets 1 ms pass (log 1): a powered gate takes it from every running timer and
every cache entry, none of which passes below 1, and changes nothing else; an unpowered one, or one held in reset,
changes nothing. The tick is the model's choice. -/
def Obligations.IdleStepPassesOneMillisecond : Prop :=
  ∀ s : State, s.pending = [] →
    step s = .next
      (if s.pw.power = .off ∨ s.pw.power = .resetHeld then s
       else
        let run (t : Option Nat) : Option Nat := t.map (fun n => if n ≤ 2 then 1 else n - 1)
        { s with
          bays := s.bays.map (fun bay => { bay with
            settle := run bay.settle, reattempt := run bay.reattempt, renew := run bay.renew,
            grace := run bay.grace, decay := run bay.decay, retryWait := run bay.retryWait,
            linkHold := run bay.linkHold, response := run bay.response, watch := run bay.watch })
          cache := s.cache.map (fun e => { e with life := if e.life ≤ 2 then 1 else e.life - 1 })
          sc.runFilter := run s.sc.runFilter })

/-- No command stops the gate, and no command touches the commands that wait behind it. -/
def Obligations.EveryCommandGoesOn : Prop :=
  ∀ (c : Instr) (s : State), ∃ t, exec c s = .next t ∧ t.pending = s.pending

/-- The state after reset (log 8): every bay EMPTY with nothing recorded, the engine idle with its pointer at
management, empty tables of generation 0 whose stored records agree with their CRC-32, no load, no cache entry, an
invalid filter table, no topology, the default configuration, COLD set, and the gate notice of the power-on being
sent. The table contents and the quiet inputs are the model's choice. -/
def Obligations.ResetIsAQuietPoweredGate : Prop :=
  let s := State.reset
  (∀ b, (s.bay b).state = .empty ∧ (s.bay b).reason = none ∧ (s.bay b).present = false ∧
    (s.bay b).identity = none ∧ (s.bay b).packKey = none ∧ (s.bay b).phase = none ∧ (s.bay b).gateNonce = 0 ∧
    (s.bay b).packNonce = none ∧ (s.bay b).session = none ∧ (s.bay b).claim = .none ∧ (s.bay b).strikes = 0 ∧
    (s.bay b).clean = false ∧ (s.bay b).attempts = 0 ∧ (s.bay b).queue = [] ∧ (s.bay b).line = .idle ∧
    (s.bay b).linkRun = none ∧ (s.bay b).settle = none ∧ (s.bay b).reattempt = none ∧ (s.bay b).renew = none ∧
    (s.bay b).grace = none ∧ (s.bay b).decay = none ∧ (s.bay b).retryWait = none ∧ (s.bay b).linkHold = none ∧
    (s.bay b).authRetries = 0 ∧ (s.bay b).response = none ∧ (s.bay b).watch = none ∧ (s.bay b).frame = none ∧
    (s.bay b).heldReply = none) ∧
  s.de.running = none ∧ s.de.pointer = .management ∧ (∀ c, s.de.waiting.get c = none ∧ s.de.held.get c = none) ∧
  s.ts.model = ⟨List.replicate 32 ⟨0, 0, 0, 0, 0, 0, 0, 0⟩, 0⟩ ∧ s.ts.revoke = ⟨[], 0⟩ ∧
  s.ts.keys = List.replicate 8 none ∧ s.ts.write = none ∧
  s.ts.nvModel.content = s.ts.model ∧ s.ts.nvModel.crc = crc32 s.ts.model.bytes ∧
  s.ts.nvRevoke.content = s.ts.revoke ∧ s.ts.nvRevoke.crc = crc32 s.ts.revoke.bytes ∧
  s.ts.nvKeys.content = s.ts.keys ∧ s.ts.nvKeys.crc = crc32 (KeyStore.bytes s.ts.keys) ∧
  s.il = ⟨none, none⟩ ∧ s.cache = [] ∧ s.ff.table = List.replicate 16 .invalid ∧ s.ff.capture = [] ∧
  s.sc.assign = Four.fill none ∧ s.sc.manual = Four.fill false ∧ s.sc.strings = Four.fill .unused ∧
  s.sc.reference = none ∧ s.sc.ben = Four.fill false ∧ s.sc.runFiltered = false ∧
  s.me = ⟨[], none, none⟩ ∧ s.tli.rx = .assembling [] ∧ s.tli.responses = [] ∧
  s.tli.tx = some ⟨.notice, 7, 0, 0x82, 0, 0, [1, 0, 0, 0, 0, 0, 0, 0]⟩ ∧
  s.tli.notices = ⟨Four.fill false, false, false⟩ ∧ s.tli.woke = false ∧
  s.pw.power = .running ∧ s.pw.dormant = false ∧ s.pw.provision = false ∧
  s.cfg = ⟨50, 12, 30, 2000, 5, .block⟩ ∧ s.flags = ⟨true, false, false, false, false, false⟩ ∧ s.pending = []

/-! ## What ends every event: the transmitter, the arbiter, the derivation -/

/-- R198 to R200 at the transmitter. It acts at the end of an event unless the gate is dormant (log 27). While it is
sending, nothing changes. When it is free, the oldest response is sent; with none, the notice of the lowest pending
source, filled with the values held at that moment: bay sources first in ascending number, then strings, then gate. A
gate notice clears WOKE at its start. Everything else stays as it is. -/
def Obligations.TransmitterTakesResponsesThenNotices : Prop :=
  ∀ s : State,
    (s.pw.dormant = true → s.settleTx = s) ∧ (s.pw.dormant = false → s.settleTx = s.transmit) ∧
    (s.tli.tx ≠ none → s.transmit = s) ∧
    (s.tli.tx = none →
      (∀ r rest, s.tli.responses = r :: rest →
        s.transmit = { s with
          tli.responses := rest
          tli.tx := some ⟨.response, r.selector, r.tid, r.code, r.status.byte, r.flags.byte, r.payload⟩ }) ∧
      (s.tli.responses = [] →
        (∀ b : Fin 4, s.tli.notices.bays.get b = true → (∀ o < b, s.tli.notices.bays.get o = false) →
          s.transmit = { s with
            tli.notices := { s.tli.notices with bays := s.tli.notices.bays.set b false }
            tli.tx := some ⟨.notice, BitVec.ofNat 3 b.val, 0, 0x80, 0, 0,
              [(s.bay b).state.byte, reasonByte (s.bay b).reason, byteOf (s.bay b).strikes]⟩ }) ∧
        ((∀ b, s.tli.notices.bays.get b = false) →
          (s.tli.notices.strings = true →
            s.transmit = { s with
              tli.notices := { s.tli.notices with strings := false }
              tli.tx := some ⟨.notice, 7, 0, 0x81, 0, 0,
                [(s.sc.strings.get 0).byte, (s.sc.strings.get 1).byte, (s.sc.strings.get 2).byte,
                  (s.sc.strings.get 3).byte, fourBits s.sc.ben]⟩ }) ∧
          (s.tli.notices.strings = false → s.tli.notices.gate = true →
            s.transmit = { s with
              tli.notices := { s.tli.notices with gate := false }
              tli.woke := false
              tli.tx := some ⟨.notice, 7, 0, 0x82, 0, 0,
                [s.flags.byte, boolByte s.tli.woke] ++ bytesBE 2 s.ts.model.gen.toNat ++
                  bytesBE 2 s.ts.revoke.gen.toNat ++ [s.il.stateByte, outcomeByte s.il.lastOutcome]⟩ }) ∧
          (s.tli.notices.strings = false → s.tli.notices.gate = false → s.transmit = s))))

namespace Sys2Proof.Claims

open Sys2Proof.Machine

/-- The authentication claim is eligible (R120). -/
def claimWaits (x : Bay) : Prop :=
  (x.state = .identifying ∧ x.claim = .idQuery) ∨
    ((x.state = .challenging ∨ x.state = .renewing) ∧ x.phase = some .exchange ∧ ∃ k, x.claim = .challenge k)

/-- The head of the forward queue is eligible (R120). -/
def headWaits (x : Bay) : Prop :=
  (x.state = .authorized ∨ x.state = .grace ∨ x.state = .denied ∨ (x.state = .renewing ∧ x.linkRun ≠ none)) ∧
    x.queue ≠ []

/-- The bay with an attempt of a transaction made (R107, R109): the frame is sent at once on a recessive line, and
waits on a dominant one. -/
def attempted (x : Bay) (kind : TxnKind) (frame : PackFrame) (dominant : Bool) : Bay :=
  { x with
    line := .inTransaction kind (if dominant then .waiting else .sending) false
    frame := some frame
    response := none
    retryWait := none }

/-- The link run at a grant of an entry (R122). -/
def runWith (run : Option Nat) (e : ForwardEntry) : Option Nat :=
  match run with
  | none => if e.link then some 1 else none
  | some n => if e.retries = 0 then some (min 4 (n + 1)) else some n

/-- The bay after the completion of the entry at its head, with the link run as it then stands (R113, R123): the
entry has left the queue, the line is IDLE, and the run closes, or its hold begins when the queue is empty. -/
def entryDone (x : Bay) (run : Option Nat) (e : ForwardEntry) (hold : Nat) : Bay :=
  let closes : Bool := e.link == false || run.any (fun n => decide (4 ≤ n))
  { x with
    queue := x.queue.tail
    line := .idle
    frame := none
    response := none
    retryWait := none
    heldReply := none
    linkRun := if closes then none else run
    linkHold :=
      match run with
      | none => x.linkHold
      | some _ => if closes then none else if x.queue.tail = [] then some hold else x.linkHold }

end Sys2Proof.Claims

/-- The bay-line arbiter (R120 to R123, R125, R132). It does nothing while the line is not IDLE or nobody is
eligible. The claim is granted ahead of the head unless a link run is open. A granted head that the carrying check
refuses is answered NOT_AUTHORIZED, and the arbiter acts again. Nine or more bytes to a NARROW pack go as the first half
of a split when NARROW stands at the first grant; a retry grant, known by its retry count (log 25), repeats its frame
(R55, R109, R115). In every case the rest of the state stays. -/
def Obligations.ArbiterGrantsTheLine : Prop :=
  ∀ (b : Fin 4) (s : State),
    let x := s.bay b
    let dom := s.pins.lineDominant.get b
    ((x.line ≠ .idle ∨ (¬ claimWaits x ∧ ¬ headWaits x) ∨ (claimWaits x ∧ x.linkRun ≠ none ∧ ¬ headWaits x)) →
      s.arbitrate b = s) ∧
    (x.line = .idle → claimWaits x → x.linkRun = none →
      s.arbitrate b = s.setBay b
        (if x.state = .identifying then attempted x .ident ⟨0xF0, 0, byteOf x.authRetries, [], none⟩ dom
         else attempted x .challenge
          ⟨0xF2, 0, byteOf x.authRetries,
            (if x.claim = .challenge .renewal then 2 else 1) :: bytesBE 8 x.gateNonce.toNat, none⟩ dom)) ∧
    (x.line = .idle → headWaits x → (claimWaits x → x.linkRun ≠ none) →
      ∀ e rest, x.queue = e :: rest →
        let run := runWith x.linkRun e
        let y : Bay := { x with linkRun := run, linkHold := none }
        (e.needsAuth = false ∨ x.state = .authorized ∨ x.state = .renewing →
          s.arbitrate b = s.setBay b
            (if x.narrow = true ∧ e.retries = 0 ∧ 9 ≤ e.payload.length then
              attempted y .splitFirst ⟨e.code, 1, byteOf e.retries, e.payload.take 8, none⟩ dom
             else attempted y .forward ⟨e.code, 0, byteOf e.retries, e.payload, none⟩ dom)) ∧
        (e.needsAuth = true → x.state = .grace ∨ x.state = .denied →
          s.arbitrate b =
            ((s.setBay b (entryDone { x with linkHold := none } run e s.cfg.linkHold)).answer
              [⟨BitVec.ofNat 3 b.val, e.tid, e.code, .notAuthorized, RespFlags.none, []⟩]).arbitrate b))


/-! ## The Digest Engine -/

namespace Sys2Proof.Claims

open Sys2Proof.Machine

/-- A claimant's place in the cyclic order (R45). -/
def place : Claimant → Nat
  | .bay b => b.val
  | .management => 4

/-- How many claimants stand between the pointer and a claimant in the cyclic order; four for the pointer's own. -/
def behind (pointer c : Claimant) : Nat := (place c + 4 - place pointer) % 5

/-- The job started for a claimant (R43, R45), with the key that it read at its start. -/
def started (s : State) (c : Claimant) (j : Job) (slotKey : Option Key) : State :=
  { s with de.pointer := c, de.running := some ⟨c, j, slotKey, false⟩ }

end Sys2Proof.Claims

/-- R42, R43, R45 at a submission. An idle engine starts the job at once, with the key that its slot holds then.
Behind a job in progress it waits; behind a discarded job of its own claimant it is held. A job whose slot is EMPTY
at its start does not run: a CHECK_IMAGE aborts its load with NO_KEY. -/
def Obligations.DigestJobsAreSubmitted : Prop :=
  ∀ (s : State) (c : Claimant) (j : Job),
    (s.de.running = none → j.namedSlot = none → s.submit c j = started s c j none) ∧
    (s.de.running = none → ∀ n key, j.namedSlot = some n → s.ts.keys.slot n = some key →
      s.submit c j = started s c j (some key)) ∧
    (s.de.running = none → s.ts.keys.slot 0 = none → ∀ image d l, j = .checkImage image d →
      s.il.load = some l → l.stage = .checking →
      s.submit c j =
        ({ s with
          de := { s.de with pointer := c }.withdraw .management
          il := ⟨none, some (.status .noKey)⟩ }.answer
            (match l.endTid with
              | some tid => [⟨7, tid, 0x3A, .noKey, RespFlags.none, []⟩]
              | none => [])).raiseGate) ∧
    (∀ r, s.de.running = some r → r.claimant ≠ c →
      s.submit c j = { s with de.waiting := s.de.waiting.set c (some j) }) ∧
    (∀ r, s.de.running = some r → r.claimant = c →
      s.submit c j = { s with de.held := s.de.held.set c (some j) })

/-- R45 at a completion: a job that the claimant held joins the waiting ones; the first waiting claimant behind the
pointer is granted, and the pointer names it; with none waiting the engine is idle and the pointer stays. A job
that starts on an EMPTY slot ends at once, and the engine grants on. -/
def Obligations.DigestEngineRotates : Prop :=
  ∀ (s : State) (c : Claimant),
    let u : State :=
      match s.de.held.get c with
      | some j =>
        { s with de.running := none, de.held := s.de.held.set c none, de.waiting := s.de.waiting.set c (some j) }
      | none => { s with de.running := none }
    ((∀ o, u.de.waiting.get o = none) → s.jobDone c = u) ∧
    (∀ w j, u.de.waiting.get w = some j →
      (∀ o, u.de.waiting.get o ≠ none → behind u.de.pointer w ≤ behind u.de.pointer o) →
      let g : State := { u with de.waiting := u.de.waiting.set w none }
      (j.namedSlot = none → s.jobDone c = started g w j none) ∧
      (∀ n key, j.namedSlot = some n → s.ts.keys.slot n = some key → s.jobDone c = started g w j (some key)) ∧
      (∀ n, j.namedSlot = some n → s.ts.keys.slot n = none →
        s.jobDone c = State.grantJobs 6 ({ g with de.pointer := w }.jobNoKey j)))

/-- The digest messages of R38 to R41, byte by byte: the pack key and the session key as digest pairs, the proof,
the reply tag as the four most significant bytes, the image check and the key check value. -/
def Obligations.DigestMessagesAreComposed : Prop :=
  (∀ (k : Key) (serial : Serial) (code : Word16),
    packKeyValue k serial code =
      Config.digest k ([0x01] ++ bytesBE 6 serial.toNat ++ bytesBE 2 code.toNat) ++
        Config.digest k ([0x02] ++ bytesBE 6 serial.toNat ++ bytesBE 2 code.toNat)) ∧
  (∀ (k : Key) (g p : Nonce) (serial : Serial),
    proofValue k g p serial =
      Config.digest k ([0x10] ++ bytesBE 8 g.toNat ++ bytesBE 8 p.toNat ++ bytesBE 6 serial.toNat)) ∧
  (∀ (k : Key) (g p : Nonce),
    sessionKeyValue k g p =
      Config.digest k ([0x21] ++ bytesBE 8 g.toNat ++ bytesBE 8 p.toNat) ++
        Config.digest k ([0x22] ++ bytesBE 8 g.toNat ++ bytesBE 8 p.toNat)) ∧
  (∀ (k : Key) (seq code : Byte) (payload : List Byte),
    (tagValue k seq code payload).toNat =
      (Config.digest k ([0x30, seq, code, BitVec.ofNat 8 payload.length] ++ payload)).toNat / 2 ^ 32) ∧
  (∀ (k : Key) (image : List Byte), imageValue k image = Config.digest k ([0x40] ++ image)) ∧
  (∀ k : Key, keyCheckValue k = Config.digest k [0x50, 0, 0, 0, 0, 0, 0, 0, 0, 0, 0, 0, 0, 0, 0, 0, 0])

/-! ## The string derivation -/

namespace Sys2Proof.Claims

open Sys2Proof.Machine

/-- Eligible for power (R153). -/
def eligible (x : Bay) : Prop := x.state = .authorized ∨ x.state = .renewing ∨ x.state = .grace

/-- The bays assigned to a string, ascending (R151). -/
def membersOf (s : State) (x : Fin 4) : List (Fin 4) := [0, 1, 2, 3].filter (fun b => s.sc.assign.get b == some x)

/-- Internally fit (R154): the members agree in chemistry, cell count and capacity class, and two or more all carry
SERIES_OK. -/
def fit (s : State) (x : Fin 4) : Prop :=
  ∀ b ∈ membersOf s x, ∃ a, (s.bay b).attrs = some a ∧
    (∀ o ∈ membersOf s x, ∃ a', (s.bay o).attrs = some a' ∧ a'.chemistry = a.chemistry ∧ a'.cells = a.cells ∧
      a'.capacity = a.capacity) ∧
    (1 < (membersOf s x).length → a.flags.getLsbD 0 = true)

/-- The voltage of a string in cells (R155). -/
def volts (s : State) (x : Fin 4) : Nat :=
  ((membersOf s x).map (fun b => match (s.bay b).attrs with
    | some a => a.cells.toNat
    | none => 0)).sum

/-- Every member carries PARALLEL_OK (R161). -/
def parallel (s : State) (x : Fin 4) : Prop :=
  ∀ b ∈ membersOf s x, ∃ a, (s.bay b).attrs = some a ∧ a.flags.getLsbD 1 = true

/-- A candidate for connection (R157 to R159). -/
def candidate (s : State) (x : Fin 4) : Prop :=
  membersOf s x ≠ [] ∧ (∀ b, s.sc.strings.get x ≠ .latchedOff b) ∧ (∀ b ∈ membersOf s x, eligible (s.bay b)) ∧ fit s x

/-- The string was ENABLED before the derivation. -/
def wasOn (s : State) (x : Fin 4) : Prop := s.sc.strings.get x = .enabled

/-- `x` is considered first among the strings of which `P` holds: those ENABLED before come first, and each group
stands in ascending index (R160, R161). -/
def firstOf (s : State) (P : Fin 4 → Prop) (x : Fin 4) : Prop :=
  P x ∧ ∀ y, P y → y ≠ x → (wasOn s x ∧ (wasOn s y → x < y)) ∨ (¬ wasOn s x ∧ ¬ wasOn s y ∧ x < y)

end Sys2Proof.Claims

/-- The first two stages of the derivation (R157 to R159): UNUSED without members, latched strings stay latched, an
incomplete string is IDLE, or LATCHED_OFF when it was ENABLED under MANUAL and the event is no removal, and a
complete string that is not fit is MISMATCH with cause UNFIT. R158 names as latch bay the lowest member that lost
eligibility in the event; that this is the lowest member that is not eligible is the model's reading (log 23). -/
def Sys2Proof.Claims.DerivationSortsStrings : Prop :=
  ∀ (s : State) (byRemoval : Bool) (x : Fin 4),
    let ms := membersOf s x
    let new := (s.derive byRemoval).sc.strings.get x
    (ms = [] → new = .unused) ∧
    (ms ≠ [] → ∀ b, s.sc.strings.get x = .latchedOff b → new = .latchedOff b) ∧
    (ms ≠ [] → (∀ b, s.sc.strings.get x ≠ .latchedOff b) →
      (∀ b ∈ ms, ¬ eligible (s.bay b) → (∀ o ∈ ms, o < b → eligible (s.bay o)) →
        new = if s.sc.strings.get x = .enabled ∧ s.sc.manual.get x = true ∧ byRemoval = false then .latchedOff b
          else .idle) ∧
      ((∀ b ∈ ms, eligible (s.bay b)) → ¬ fit s x → new = .mismatch .unfit))

/-- The later stages (R160 to R162): the reference voltage, the matched and the admitted strings, and the state of
each candidate. -/
def Sys2Proof.Claims.DerivationMatchesAndAdmits : Prop :=
  ∀ (s : State) (byRemoval : Bool),
    let t := s.derive byRemoval
    let matched (x : Fin 4) : Prop := candidate s x ∧ t.sc.reference = some (volts s x)
    ((∀ x, ¬ candidate s x) → t.sc.reference = none) ∧
    (∀ x, firstOf s (candidate s) x → t.sc.reference = some (volts s x)) ∧
    (∀ x, candidate s x → ¬ matched x → t.sc.strings.get x = .mismatch .voltage) ∧
    (∀ x y, firstOf s matched x → matched y →
      (y ≠ x → ¬ (parallel s x ∧ parallel s y) → t.sc.strings.get y = .mismatch .parallel) ∧
      (y = x ∨ (parallel s x ∧ parallel s y) →
        t.sc.strings.get y =
          if s.sc.strings.get y = .enabled then .enabled
          else if s.sc.runFiltered = true ∨ s.pw.provision = true ∨ s.pw.dormant = true then
            .pending s.sc.runFiltered s.pw.provision
          else .enabled))

/-- R157 to R162: the state that a derivation gives every string. The latch bay is the model's reading of R158 (log
23). -/
def Obligations.DerivationFollowsItsStages : Prop :=
  DerivationSortsStrings ∧ DerivationMatchesAndAdmits


/-- R163 at a derivation: BEN is on for every bay of an ENABLED string and off for every other, the strings source is
raised when a string's state or latch bay changed, and nothing but the strings, the reference and BEN is written. -/
def Obligations.DerivationDrivesBen : Prop :=
  ∀ (s : State) (byRemoval : Bool),
    let t := s.derive byRemoval
    (∀ b, t.sc.ben.get b = true ↔ ∃ x, s.sc.assign.get b = some x ∧ t.sc.strings.get x = .enabled) ∧
    (t.tli.notices.strings = true ↔ s.tli.notices.strings = true ∨
      ∃ x, (t.sc.strings.get x).byte ≠ (s.sc.strings.get x).byte ∨
        (t.sc.strings.get x).latchBay ≠ (s.sc.strings.get x).latchBay) ∧
    t = { s with
      sc := { s.sc with strings := t.sc.strings, reference := t.sc.reference, ben := t.sc.ben }
      tli.notices := { s.tli.notices with strings := t.tli.notices.strings } }


/-! ## Resets and the start-up check -/

namespace Sys2Proof.Claims

open Sys2Proof.Machine

/-- Every volatile state at its reset value (R2, R48, R86, R129, R136, R149, R170, R182, R203, R212), over the Table
Store as given, with the inputs at the given levels. The count of nonces drawn and the waiting commands are the
model's own and are kept. -/
def atReset (s : State) (ts : TableStore) (power : Power) (provision : Bool) (levels : Pins) : State where
  bays := ⟨Bay.afterReset levels.det.b0, Bay.afterReset levels.det.b1, Bay.afterReset levels.det.b2,
    Bay.afterReset levels.det.b3⟩
  de := ⟨none, ⟨⟨none, none, none, none⟩, none⟩, ⟨⟨none, none, none, none⟩, none⟩, .management⟩
  ts := ts
  il := ⟨none, none⟩
  cache := []
  ff := ⟨List.replicate 16 .invalid, []⟩
  sc :=
    { assign := ⟨none, none, none, none⟩
      manual := ⟨false, false, false, false⟩
      strings := ⟨.unused, .unused, .unused, .unused⟩
      reference := none
      ben := ⟨false, false, false, false⟩
      runFiltered := levels.run
      runFilter := none }
  me := ⟨[], none, none⟩
  tli := ⟨.assembling [], [], none, ⟨⟨false, false, false, false⟩, false, false⟩, false⟩
  pw := ⟨power, false, provision, ⟨none, none, none, none⟩⟩
  cfg := ⟨50, 12, 30, 2000, 5, .block⟩
  flags := ⟨false, false, false, false, false, false⟩
  pins := levels
  nonceDraws := s.nonceDraws
  pending := s.pending

/-- A stored record's CRC-32 agrees with its content. -/
def recordGood {α : Type} (bytes : α → List Byte) (r : NvRecord α) : Prop := crc32 (bytes r.content) = r.crc

/-- A bay in SETTLING after a reset, with its settle timer at the default and the watch on a dominant line. -/
def settlingAtReset (dominant : Bool) : Bay :=
  { Bay.afterReset true with state := .settling, settle := some 50, watch := if dominant then some 20 else none }

end Sys2Proof.Claims

/-- Power-on, and the release of RESETn, with the three records agreeing with their CRC-32 (R2, R192, R212): the stored
contents become live, every volatile state takes its reset value, PROV and RUN are sampled, bays with DET active
settle, the gate source is raised, and power-on alone sets COLD. A write in progress is abandoned first. -/
def Sys2Proof.Claims.RestartWithGoodRecords : Prop :=
  ∀ (levels : Pins) (torn : TornWrite) (s : State),
    let ts := s.ts.abandonWrite torn
    recordGood ModelTable.bytes ts.nvModel → recordGood RevList.bytes ts.nvRevoke →
    recordGood KeyStore.bytes ts.nvKeys →
      let bay (d dominant : Bool) : Bay := if d then settlingAtReset dominant else Bay.afterReset false
      let up (cold : Bool) : State :=
        { atReset s
            { ts with model := ts.nvModel.content, revoke := ts.nvRevoke.content, keys := ts.nvKeys.content }
            .running levels.prov levels with
          bays := ⟨bay levels.det.b0 levels.lineDominant.b0, bay levels.det.b1 levels.lineDominant.b1,
            bay levels.det.b2 levels.lineDominant.b2, bay levels.det.b3 levels.lineDominant.b3⟩
          tli := ⟨.assembling [], [], none, ⟨levels.det, false, true⟩, false⟩
          flags := ⟨cold, false, false, false, false, false⟩ }
      exec (.powerOn levels torn) s = .next (up true).settleTx ∧
      (s.pw.power ≠ .off → exec (.resetnRelease levels torn) s = .next (up false).settleTx)

/-- Power-on, and the release of RESETn, with a damaged record (R31, R57, R67, R192): a damaged record's content is
taken as empty and its flag set, the rewrites of the damaged records follow one another in the store-write unit, the
first begun at once, and no bay leaves EMPTY meanwhile. -/
def Sys2Proof.Claims.RestartWithDamagedRecords : Prop :=
  ∀ (levels : Pins) (torn : TornWrite) (s : State) (dm dr dk : Bool),
    let ts := s.ts.abandonWrite torn
    (dm = false ↔ recordGood ModelTable.bytes ts.nvModel) → (dr = false ↔ recordGood RevList.bytes ts.nvRevoke) →
    (dk = false ↔ recordGood KeyStore.bytes ts.nvKeys) →
      ∀ k rest, (if dm then [RecordKind.model] else []) ++ (if dr then [RecordKind.revoke] else []) ++
          (if dk then [RecordKind.keys] else []) = k :: rest →
        let up (cold : Bool) : State :=
          { atReset s
              { ts with
                model := if dm then ⟨List.replicate 32 ModelEntry.none, 0⟩ else ts.nvModel.content
                revoke := if dr then ⟨[], 0⟩ else ts.nvRevoke.content
                keys := if dk then List.replicate 8 none else ts.nvKeys.content
                write := some (.rewrite k) }
              (.startup rest) levels.prov levels with
            tli := ⟨.assembling [], [], none, ⟨Four.fill false, false, true⟩, false⟩
            flags := ⟨cold, dm, dr, dk, false, false⟩ }
        exec (.powerOn levels torn) s = .next (up true).settleTx ∧
        (s.pw.power ≠ .off → exec (.resetnRelease levels torn) s = .next (up false).settleTx)

/-- R192, R212: power-on and the release of RESETn, with good and with damaged records. -/
def Obligations.RestartsRunTheStartupCheck : Prop :=
  RestartWithGoodRecords ∧ RestartWithDamagedRecords


/-- A start-up rewrite ends (R192): the record holds its empty form, under a matching CRC-32 or, when the rewrite
failed, still damaged. The next damaged record's rewrite begins; behind the last, the start-up is complete: the gate
source is raised and each EMPTY bay with a pack present settles. The model's choices are the failed rewrite as an operand
(log 13), its record, the empty content under the complement of its CRC-32 (log 12), and `present` having followed DET
during the check (log 29). -/
def Obligations.StartupRewritesFollowOneAnother : Prop :=
  ∀ (ok : Bool) (s : State) (rest : List RecordKind) (k : RecordKind),
    s.pw.power = .startup rest → s.ts.write = some (.rewrite k) →
      let crcOf (x : BitVec 32) : BitVec 32 := if ok then x else ~~~ x
      let ts : TableStore :=
        match k with
        | .model => { s.ts with nvModel := ⟨ModelTable.none, crcOf (crc32 ModelTable.none.bytes)⟩ }
        | .revoke => { s.ts with nvRevoke := ⟨RevList.none, crcOf (crc32 RevList.none.bytes)⟩ }
        | .keys => { s.ts with nvKeys := ⟨noKeys, crcOf (crc32 (KeyStore.bytes noKeys))⟩ }
      (∀ k' rest', rest = k' :: rest' →
        exec (.startupRewriteComplete ok) s =
          .next (State.settleTx
            { s with ts := { ts with write := some (.rewrite k') }, pw.power := .startup rest' })) ∧
      (rest = [] →
        let settles (b : Fin 4) : Bool := (s.bay b).state == .empty && (s.bay b).present
        exec (.startupRewriteComplete ok) s =
          .next (State.settleTx
            { s with
              ts := { ts with write := none }
              pw.power := .running
              bays := Four.ofFn (fun b =>
                if settles b then
                  { s.bay b with
                    state := .settling
                    settle := some s.cfg.settle
                    watch := if s.pins.lineDominant.get b then some 20 else none }
                else s.bay b)
              tli.notices := { s.tli.notices with
                bays := Four.ofFn (fun b => s.tli.notices.bays.get b || settles b), gate := true } }))

/-- RESETn going active, and the loss of supply (R177, R212; log 9, log 33): the gate is in the state of a reset in
progress, every BEN off, nothing being sent and nothing in assembly, and a write in progress is abandoned. -/
def Sys2Proof.Claims.ResetHoldsTheGateQuiet : Prop :=
  ∀ (torn : TornWrite) (s : State),
    let held (p : Power) : State :=
      atReset s (s.ts.abandonWrite torn) p false { s.pins with det := ⟨false, false, false, false⟩, run := false }
    exec (.powerLoss torn) s = .next (held .off) ∧
    (s.pw.power ≠ .off → exec (.resetnAssert torn) s = .next (held .resetHeld)) ∧
    (held .off).sc.ben = ⟨false, false, false, false⟩ ∧ (held .resetHeld).sc.ben = ⟨false, false, false, false⟩

/-- What an interrupted store write leaves in its record (R36, R177): the old content in full, the new content in full
under a matching CRC-32, or a content whose CRC-32 does not match. The other two records and the live tables stay,
and the store-write unit is free. -/
def Sys2Proof.Claims.InterruptedWriteTouchesOneRecord : Prop :=
  ∀ (ts : TableStore) (torn : TornWrite),
    (ts.write = none → ts.abandonWrite torn = ts) ∧
    (∀ w, ts.write = some w →
      let t := ts.abandonWrite torn
      t.write = none ∧ t.model = ts.model ∧ t.revoke = ts.revoke ∧ t.keys = ts.keys ∧
      (∀ new, w = .modelImage new ∨ (w = .rewrite .model ∧ new = ModelTable.none) →
        t.nvRevoke = ts.nvRevoke ∧ t.nvKeys = ts.nvKeys ∧
        (torn = .old → t.nvModel = ts.nvModel) ∧
        (torn = .new → t.nvModel.content = new ∧ recordGood ModelTable.bytes t.nvModel) ∧
        (torn = .neither → ¬ recordGood ModelTable.bytes t.nvModel)) ∧
      (∀ new, w = .revokeEdit new ∨ w = .revokeImage new ∨ (w = .rewrite .revoke ∧ new = RevList.none) →
        t.nvModel = ts.nvModel ∧ t.nvKeys = ts.nvKeys ∧
        (torn = .old → t.nvRevoke = ts.nvRevoke) ∧
        (torn = .new → t.nvRevoke.content = new ∧ recordGood RevList.bytes t.nvRevoke) ∧
        (torn = .neither → ¬ recordGood RevList.bytes t.nvRevoke)) ∧
      (∀ new n, w = .keyLoad n new ∨ (w = .rewrite .keys ∧ new = noKeys) →
        t.nvModel = ts.nvModel ∧ t.nvRevoke = ts.nvRevoke ∧
        (torn = .old → t.nvKeys = ts.nvKeys) ∧
        (torn = .new → t.nvKeys.content = new ∧ recordGood KeyStore.bytes t.nvKeys) ∧
        (torn = .neither → ¬ recordGood KeyStore.bytes t.nvKeys)))

/-- R36, R177, R212: RESETn going active and the loss of supply, and what they leave of a store write. -/
def Obligations.ResetsInterruptWhatRuns : Prop :=
  ResetHoldsTheGateQuiet ∧ InterruptedWriteTouchesOneRecord


/-! ## Presence, bay timers, RUN -/

namespace Sys2Proof.Claims

open Sys2Proof.Machine

/-- A bay context that has entered IDENTIFYING (R4, R9, R123). -/
def identifying (x : Bay) : Bay :=
  { x.abandonLine with
    state := .identifying
    identity := none
    packKey := none
    phase := none
    packNonce := none
    session := none
    reason := none
    claim := .idQuery
    settle := none
    reattempt := none
    renew := none
    grace := none
    linkRun := none
    linkHold := none }

/-- Bay `b` has entered IDENTIFYING: the work of the state it left is withdrawn, and its notice source is raised. -/
def identified (s : State) (b : Fin 4) : State :=
  (({ s with de := s.de.withdrawAuth b } : State).setBay b (identifying (s.bay b))).raiseBay b

/-- A bay context with everything on its line side dropped (R8, R104, R117). -/
def lineDropped (x : Bay) : Bay :=
  { x with
    queue := []
    line := .idle
    frame := none
    authRetries := 0
    linkRun := none
    linkHold := none
    retryWait := none
    response := none
    heldReply := none }

/-- One answer of a status for each request of a bay's queue, in queue order (R8, R104, R117). -/
def flushed (s : State) (b : Fin 4) (st : Status) : List Response :=
  (s.bay b).queue.map (fun e => ⟨BitVec.ofNat 3 b.val, e.tid, e.code, st, RespFlags.none, []⟩)

/-- A bay in SETTLING: the settle timer starts with the SETTLE value in force, the watch with the level as it stands
(R5, R116). -/
def settling (x : Bay) (settle : Nat) (dominant : Bool) : Bay :=
  { x with state := .settling, settle := some settle, watch := if dominant then some 20 else none }

end Sys2Proof.Claims

/-- Abandonment (R4, R46, R115): a waiting or held job of the bay is withdrawn and a job in progress is discarded, a
CHECK_TAG excepted; a transaction of the bay's own keeps the line for its present attempt, and a retry wait of one
ends. -/
def Obligations.AbandonedWorkIsDropped : Prop :=
  (∀ (de : DigestEngine) (b : Fin 4),
    let t := de.withdrawAuth b
    t.pointer = de.pointer ∧
    (∀ c, c ≠ .bay b → t.waiting.get c = de.waiting.get c ∧ t.held.get c = de.held.get c) ∧
    (∀ j, de.waiting.get (.bay b) = some j → t.waiting.get (.bay b) = if j.isCheckTag then some j else none) ∧
    (∀ j, de.held.get (.bay b) = some j → t.held.get (.bay b) = if j.isCheckTag then some j else none) ∧
    (de.waiting.get (.bay b) = none → t.waiting.get (.bay b) = none) ∧
    (de.held.get (.bay b) = none → t.held.get (.bay b) = none) ∧
    (de.running = none → t.running = none) ∧
    (∀ r, de.running = some r →
      t.running = some { r with
        discarded := r.discarded || (decide (r.claimant = .bay b) && !r.job.isCheckTag) })) ∧
  (∀ x : Bay,
    (∀ k st ab, x.line = .inTransaction k st ab →
      x.abandonLine =
        { x with
          authRetries := 0
          line := .inTransaction k st (if k = .ident ∨ k = .challenge then true else ab) }) ∧
    (∀ k, x.line = .retryWait k →
      x.abandonLine =
        if k = .ident ∨ k = .challenge then
          { x with line := .idle, frame := none, response := none, retryWait := none, heldReply := none, authRetries := 0 }
        else { x with authRetries := 0 }) ∧
    (x.line = .idle ∨ x.line = .awaitDigest → x.abandonLine = { x with authRetries := 0 }))

/-- INSERTION (R4a, R5, R192): present rises. A running gate takes an EMPTY bay to SETTLING; in LOCKOUT, in any other
state and while the start-up check runs, present alone changes. That present follows an insertion during the check, of
which R192 says nothing, is the model's choice (log 29). -/
def Sys2Proof.Claims.InsertionIsTaken : Prop :=
  ∀ (b : Fin 4) (s : State), s.live = true → s.pw.dormant = false → (s.bay b).present = false →
    let u : State := { s with pins.det := s.pins.det.set b true }
    let x : Bay := { s.bay b with present := true }
    (s.pw.power = .running → x.state = .empty →
      exec (.insertion b) s =
        .next (afterBay b ((u.setBay b (settling x s.cfg.settle (s.pins.lineDominant.get b))).raiseBay b))) ∧
    (s.pw.power ≠ .running ∨ x.state ≠ .empty → exec (.insertion b) s = .next (afterBay b (u.setBay b x)))

/-- REMOVAL (R7, R8). From any state but LOCKOUT the bay is EMPTY in one event: its requests are answered CANCELLED in
queue order, its digest jobs are withdrawn or discarded, its line is dropped, and strikes, clean, decay and the gate
nonce are kept. In LOCKOUT present alone falls. The strings are derived as for a removal. -/
def Sys2Proof.Claims.RemovalEmptiesTheBay : Prop :=
  ∀ (b : Fin 4) (s : State), s.live = true → s.pw.dormant = false → (s.bay b).present = true →
    let u : State := { s with pins.det := s.pins.det.set b false }
    ((s.bay b).state = .lockout →
      exec (.removal b) s =
        .next (((u.setBay b { s.bay b with present := false }).derive true).settleTx)) ∧
    ((s.bay b).state ≠ .lockout →
      let e : State :=
        ({ u with de := s.de.withdraw (.bay b) } : State).setBay b
          { lineDropped (s.bay b) with
            present := false
            state := .empty
            identity := none
            packKey := none
            phase := none
            packNonce := none
            session := none
            reason := none
            attempts := 0
            claim := .none
            settle := none
            reattempt := none
            renew := none
            grace := none
            watch := none }
      let e := e.answer (flushed s b .cancelled)
      exec (.removal b) s =
        .next (((if (s.bay b).state = .empty then e else e.raiseBay b).derive true).settleTx))

/-- R4a, R5, R7, R8, R192: insertion and removal; during the start-up check present follows DET (log 29). -/
def Obligations.PresenceFollowsDet : Prop :=
  InsertionIsTaken ∧ RemovalEmptiesTheBay


/-- SETTLE_EXPIRY (R6): with DET active the bay enters IDENTIFYING; with DET inactive it stays in SETTLING and starts
the settle timer again. -/
def Sys2Proof.Claims.SettleExpiryLooksAtDet : Prop :=
  ∀ (b : Fin 4) (det : Bool) (s : State), s.awake = true → (s.bay b).state = .settling → (s.bay b).settle ≠ none →
    let u : State := { s with pins.det := s.pins.det.set b det }
    exec (.settleExpiry b det) s =
      .next (afterBay b
        (if det then identified u b else u.setBay b { s.bay b with settle := some s.cfg.settle }))

/-- REATTEMPT_EXPIRY (R23): a bay in DENIED whose re-attempt timer runs enters
IDENTIFYING. -/
def Sys2Proof.Claims.ReattemptExpiryIdentifiesAgain : Prop :=
  ∀ (b : Fin 4) (s : State), (s.bay b).state = .denied → (s.bay b).reattempt ≠ none →
    exec (.reattemptExpiry b) s = .next (afterBay b (identified s b))

namespace Sys2Proof.Claims

open Sys2Proof.Machine

/-- A bay in AUTHORIZED enters RENEWING (R88, R90): a fresh gate nonce (a free value, log 7), and the claim
CHALLENGE with kind RENEW in phase EXCHANGE. -/
def renewing (s : State) (b : Fin 4) : State :=
  (({ s with nonceDraws := s.nonceDraws + 1 } : State).setBay b
    { s.bay b with
      state := .renewing
      phase := some .exchange
      claim := .challenge .renewal
      gateNonce := Config.freshNonce s.nonceDraws
      authRetries := 0
      renew := none }).raiseBay b

end Sys2Proof.Claims

/-- RENEW_EXPIRY (R88, R90): a bay in AUTHORIZED enters RENEWING with a fresh gate nonce (a free value, log 7) and the
claim CHALLENGE with kind RENEW in phase EXCHANGE; its session, identity and pack key stay. -/
def Sys2Proof.Claims.RenewExpiryBeginsARenewal : Prop :=
  ∀ (b : Fin 4) (s : State), (s.bay b).state = .authorized → (s.bay b).renew ≠ none →
    exec (.renewExpiry b) s = .next (afterBay b (renewing s b))

namespace Sys2Proof.Claims

open Sys2Proof.Machine

/-- A bay context that has left GRACE for DENIED with its recorded reason (R97). -/
def graceEnded (x : Bay) : Bay :=
  { x with
    state := .denied
    session := none
    claim := .none
    phase := none
    packNonce := none
    settle := none
    renew := none
    grace := none }

end Sys2Proof.Claims

/-- GRACE_EXPIRY (R97): the bay is DENIED with the recorded reason; identity, pack key and the queue stay. -/
def Sys2Proof.Claims.GraceExpiryDenies : Prop :=
  ∀ (b : Fin 4) (s : State), (s.bay b).state = .grace → (s.bay b).grace ≠ none →
    exec (.graceExpiry b) s = .next (afterBay b ((s.setBay b (graceEnded (s.bay b))).raiseBay b))

/-- R6, R23, R88, R90, R97: the expiries of the settle, re-attempt, renew and grace timers. -/
def Obligations.BayTimersExpire : Prop :=
  SettleExpiryLooksAtDet ∧ ReattemptExpiryIdentifiesAgain ∧ RenewExpiryBeginsARenewal ∧ GraceExpiryDenies


/-- RUN_INPUT_CHANGE, RUN_RISE and RUN_FALL (R164 to R166). The filter restarts on a level other than the filtered one
and stops on the filtered one. At its end the filtered level changes. A rise reaches no bay; a fall takes every bay in
GRACE to DENIED before the derivation. In dormant the derivation waits for the wake (log 28). -/
def Obligations.RunIsFilteredAndTaken : Prop :=
  ∀ s : State,
    (∀ level, s.live = true →
      exec (.runInputChange level) s =
        .next { s with pins.run := level, sc.runFilter := if level = s.sc.runFiltered then none else some 1 }) ∧
    (s.sc.runFilter ≠ none → s.sc.runFiltered = false →
      let u : State := { s with sc.runFiltered := true, sc.runFilter := none }
      exec .runRise s = .next (State.settleTx (if s.pw.dormant then u else u.derive false))) ∧
    (s.sc.runFilter ≠ none → s.sc.runFiltered = true →
      let falls (b : Fin 4) : Bool := (s.bay b).state == .grace
      let u : State :=
        { s with
          sc.runFiltered := false
          sc.runFilter := none
          bays := Four.ofFn (fun b => if falls b then graceEnded (s.bay b) else s.bay b)
          tli.notices := { s.tli.notices with
            bays := Four.ofFn (fun b => s.tli.notices.bays.get b || falls b) } }
      exec .runFall s = .next (State.settleTx (if s.pw.dormant then u else u.derive false)))

/-- DECAY_EXPIRY (R101, R106, R209). A timer that a strike has just started again has not run out, and nothing happens;
one that stands in its last millisecond has (log 2). The count then falls by one, its timer runs on from 60 s while it
is above 0, and the bay's source is raised; nothing else of the bay changes outside LOCKOUT. The fall to 0 in LOCKOUT
ends the lockout: the bay settles when a pack is present and is EMPTY otherwise. In dormant that end wakes the gate. -/
def Sys2Proof.Claims.StrikesDecay : Prop :=
  ∀ (b : Fin 4) (s : State) (n : Nat), s.live = true → (s.bay b).decay = some n →
    (1 < n → exec (.decayExpiry b) s = .next s) ∧ (n ≤ 1 →
    let x : Bay :=
      { s.bay b with
        strikes := (s.bay b).strikes - 1
        decay := if (s.bay b).strikes ≤ 1 then none else some 60000 }
    let freed : Bay := { x with state := .empty, identity := none, packKey := none, attempts := 0, clean := false }
    ((s.bay b).state ≠ .lockout ∨ 1 < (s.bay b).strikes →
      exec (.decayExpiry b) s = .next (afterBay b ((s.setBay b x).raiseBay b))) ∧
    ((s.bay b).state = .lockout → (s.bay b).strikes ≤ 1 →
      let u : State :=
        (s.setBay b
          (if x.present then settling freed s.cfg.settle (s.pins.lineDominant.get b) else freed)).raiseBay b
      (s.pw.dormant = false → exec (.decayExpiry b) s = .next (afterBay b u)) ∧
      (s.pw.dormant = true → exec (.decayExpiry b) s = .next (afterBay b u.wake))))

/-- CACHE_EXPIRY (R80): the entry for the serial, its life run down, leaves the cache; an entry with life left, as one that
an insertion has just put there, stays. That a life has run down when it stands in its last millisecond is the model's
clock (log 2). The others keep their order, and nothing else in the gate changes. -/
def Obligations.CacheExpiryRemovesOneEntry : Prop :=
  ∀ (x : Serial) (s : State),
    exec (.cacheExpiry x) s = .next { s with cache := s.cache.filter (fun e => e.serial != x || decide (1 < e.life)) }

/-- DORMANT_DET_SAMPLE, RXD_WAKE and the wake (R209, R210). In dormant, present follows the DET samples; a sample that
differs from the one before wakes the gate, and so does a start bit, whose frame is discarded. At the wake every EMPTY
bay with present set settles, the strings are derived, WOKE is set and the gate source is raised. -/
def Obligations.DormantGateWakes : Prop :=
  ∀ s : State, s.pw.power = .running → s.pw.dormant = true →
    let woken (u : State) : State :=
      let settles (b : Fin 4) : Bool := (u.bay b).state == .empty && (u.bay b).present
      let v : State := State.derive
        { u with
          pw.dormant := false
          pw.detSample := Four.fill none
          bays := Four.ofFn (fun b =>
            if settles b then settling (u.bay b) u.cfg.settle (u.pins.lineDominant.get b) else u.bay b)
          tli.notices := { u.tli.notices with
            bays := Four.ofFn (fun b => u.tli.notices.bays.get b || settles b) } } false
      ({ v with tli.woke := true } : State).raiseGate
    (∀ u : State, u.wake = woken u) ∧
    exec .rxdWake s = .next (State.settleTx { woken s with tli.rx := .discarding }) ∧
    (∀ det : Four Bool,
      let u : State :=
        { s with
          bays := Four.ofFn (fun b => { s.bay b with present := det.get b })
          pw.detSample := det.map some
          pins.det := det }
      ((∃ b x, s.pw.detSample.get b = some x ∧ x ≠ det.get b) →
        exec (.dormantDetSample det) s = .next (woken u).settleTx) ∧
      ((∀ b x, s.pw.detSample.get b = some x → x = det.get b) →
        exec (.dormantDetSample det) s = .next u.settleTx))


/-! ## Pack lines -/

/-- BAY_LINE_LEVEL_CHANGE (R107, R109, R116, R118). In LINE_FAULT the recovery timer starts at a recessive level and
stops at a dominant one. In every other state but EMPTY and LOCKOUT the 20 ms watch does the reverse, a frame that
waits begins at a recessive level, and the start bit of an awaited reply stops the response timer. -/
def Obligations.LineLevelsAreWatched : Prop :=
  ∀ (b : Fin 4) (dom : Bool) (s : State), s.live = true → s.pins.lineDominant.get b ≠ dom →
    let x := s.bay b
    let u : State := { s with pins.lineDominant := s.pins.lineDominant.set b dom }
    let w : Bay := { x with watch := if dom then some 20 else none }
    let run := exec (.bayLineLevelChange b dom) s
    (x.state = .empty ∨ x.state = .lockout → run = .next u.settleTx) ∧
    (x.state = .lineFault →
      run = .next (u.setBay b { x with settle := if dom then none else some s.cfg.settle }).settleTx) ∧
    (x.state ≠ .empty → x.state ≠ .lockout → x.state ≠ .lineFault →
      (∀ k ab, dom = false → x.line = .inTransaction k .waiting ab →
        run = .next (u.setBay b { w with line := .inTransaction k .sending ab }).settleTx) ∧
      (∀ k ab, dom = true → x.line = .inTransaction k .awaiting ab →
        run = .next (u.setBay b { w with line := .inTransaction k .receiving ab, response := none }).settleTx) ∧
      ((∀ k ab, x.line ≠ .inTransaction k .waiting ab ∨ dom = true) →
        (∀ k ab, x.line ≠ .inTransaction k .awaiting ab ∨ dom = false) →
        run = .next (u.setBay b w).settleTx))

/-- STUCK_LINE and LINE_FAULT_RECOVERY (R116 to R118). A watched bay whose line stays dominant enters LINE_FAULT: its
requests are answered LINE_FAULT, its line and digest work is dropped, identity, pack key, attempts, strikes, clean and
decay are kept. The recovery takes it to SETTLING without identity, pack key and attempts. -/
def Obligations.StuckLinesFaultAndRecover : Prop :=
  ∀ (b : Fin 4) (s : State), s.awake = true →
    let x := s.bay b
    let dom := s.pins.lineDominant.get b
    (x.state ≠ .empty → x.state ≠ .lockout → x.state ≠ .lineFault → x.watch ≠ none →
      exec (.stuckLine b) s =
        .next (afterBay b
          (((({ s with de := s.de.withdraw (.bay b) } : State).setBay b
            { lineDropped x with
              state := .lineFault
              session := none
              reason := none
              phase := none
              packNonce := none
              claim := .none
              settle := if dom then none else some s.cfg.settle
              reattempt := none
              renew := none
              grace := none
              watch := none }).answer (flushed s b .lineFault)).raiseBay b))) ∧
    (x.state = .lineFault → x.settle ≠ none →
      exec (.lineFaultRecovery b) s =
        .next (afterBay b
          ((s.setBay b
            (settling { x with identity := none, packKey := none, attempts := 0 } s.cfg.settle dom)).raiseBay b)))

/-- PACK_FRAME_SENT (R109): the attempt's frame is out, and the response timer starts with the RESPONSE value. -/
def Sys2Proof.Claims.SentFrameAwaitsItsReply : Prop :=
  ∀ (b : Fin 4) (s : State) (k : TxnKind) (ab : Bool), (s.bay b).line = .inTransaction k .sending ab →
    exec (.packFrameSent b) s =
      .next (s.setBay b
        { s.bay b with line := .inTransaction k .awaiting ab, response := some s.cfg.response }).settleTx

namespace Sys2Proof.Claims

open Sys2Proof.Machine

/-- A command ends the attempt of the transaction on a bay's line (R110): with an error (no frame), which is a
collision while sending, an error or the response timer's expiry while the reply is awaited, or a frame that fails
R108; or with a good frame. -/
def attemptEnds (s : State) (b : Fin 4) (c : Instr) (kind : TxnKind) (abandoned : Bool) (f : Option PackFrame) :
    Prop :=
  (f = none ∧ c = .collision b ∧ (s.bay b).line = .inTransaction kind .sending abandoned) ∨
  (((s.bay b).line = .inTransaction kind .awaiting abandoned ∨
      (s.bay b).line = .inTransaction kind .receiving abandoned) ∧
    ((f = none ∧
        (c = .packRxGapExpiry b ∨ c = .packRxFrameError b ∨ (c = .responseTimeout b ∧ (s.bay b).response ≠ none))) ∨
      ∃ bytes, c = .packReply b bytes ∧
        ((f = none ∧ (parsePack bytes = .frameError ∨ parsePack bytes = .crcError)) ∨
          ∃ g, f = some g ∧ parsePack bytes = .good g)))

/-- The outcome of an attempt is retryable (R110): an error, or BUSY. -/
def retryable (f : Option PackFrame) : Prop := ∀ g, f = some g → g.code = 0xF4

/-- The kinds of transaction that carry a forwarded request. -/
def carriesRequest (k : TxnKind) : Prop := k = .forward ∨ k = .splitFirst ∨ k = .splitSecond

/-- The kinds of transaction that the bay makes for itself. -/
def authKind (k : TxnKind) : Prop := k = .ident ∨ k = .challenge

/-- A bay whose ID or CHALLENGE transaction is over: the line is IDLE, the retry count 0 (R112, R113). -/
def lineOver (x : Bay) : Bay :=
  { x with line := .idle, frame := none, response := none, retryWait := none, heldReply := none, authRetries := 0 }

/-- A bay context that has lost its standing or never had it (R19, R95, R96). -/
def stoodDown (x : Bay) (state : BayState) (reason : DenyReason) (grace : Option Nat) : Bay :=
  { x with
    state := state
    reason := some reason
    session := none
    claim := .none
    phase := none
    packNonce := none
    settle := none
    renew := none
    grace := grace }

/-- The bay, as given, has entered DENIED: its admission work is withdrawn and its source raised. -/
def denied (s : State) (b : Fin 4) (x : Bay) (r : DenyReason) : State :=
  (({ s with de := s.de.withdrawAuth b } : State).setBay b (stoodDown x .denied r none)).raiseBay b

/-- The bay, as given, has lost eligibility (R95): GRACE with its timer while RUN is active and its string is ENABLED,
and otherwise DENIED. -/
def lostEligibility (s : State) (b : Fin 4) (x : Bay) (r : DenyReason) : State :=
  if s.sc.runFiltered = true ∧ ∃ i, s.sc.assign.get b = some i ∧ s.sc.strings.get i = .enabled then
    (({ s with de := s.de.withdrawAuth b } : State).setBay b
      (stoodDown x .grace r (some s.cfg.grace))).raiseBay b
  else denied s b x r

/-- An ID or CHALLENGE transaction has failed (R22, R92): an admission ends in DENIED with one more attempt counted and
the 2 s re-attempt timer while the count is below 3; a renewal loses eligibility; elsewhere nothing follows. -/
def authFailed (s : State) (b : Fin 4) (r : DenyReason) : State :=
  let x := lineOver (s.bay b)
  if x.state = .identifying ∨ x.state = .challenging then
    let n := min 3 (x.attempts + 1)
    denied s b { x with attempts := n, reattempt := if n < 3 then some 2000 else none } r
  else if x.state = .renewing then lostEligibility s b x r
  else s.setBay b x

/-- A strike (R100): one more, up to seven, clean cleared, the decay period started afresh, and the source raised. The
seventh takes the bay to LOCKOUT (R104): its requests are answered LOCKOUT and its work ends. -/
def afterStrike (s : State) (b : Fin 4) : State :=
  let x : Bay := { s.bay b with strikes := min 7 ((s.bay b).strikes + 1), clean := false, decay := some 60000 }
  if x.strikes < 7 then (s.setBay b x).raiseBay b
  else
    ((({ s with de := s.de.withdraw (.bay b) } : State).setBay b
      { lineDropped x with
        state := .lockout
        session := none
        reason := none
        phase := none
        packNonce := none
        claim := .none
        settle := none
        reattempt := none
        renew := none
        grace := none
        watch := none }).answer (flushed s b .lockout)).raiseBay b

/-- The response to the request of an entry (R133). -/
def entryAnswer (b : Fin 4) (e : ForwardEntry) (code : Byte) (st : Status) (flags : RespFlags) (payload : List Byte) :
    Response :=
  ⟨BitVec.ofNat 3 b.val, e.tid, code, st, flags, payload⟩

/-- The head of the queue has completed and is answered without a payload (R113). -/
def completed (s : State) (b : Fin 4) (e : ForwardEntry) (code : Byte) (st : Status) : State :=
  (s.setBay b (entryDone (s.bay b) (s.bay b).linkRun e s.cfg.linkHold)).answer
    [entryAnswer b e code st RespFlags.none []]

end Sys2Proof.Claims

/-- R110, R112: a retryable outcome with the retry count below 3 counts one retry and starts the 5 ms wait. An abandoned
transaction's attempt is not retried: its outcome is discarded and the line is IDLE (R4). -/
def Obligations.FailedAttemptsAreRetried : Prop :=
  ∀ (b : Fin 4) (s : State) (c : Instr) (k : TxnKind) (ab : Bool) (f : Option PackFrame),
    attemptEnds s b c k ab f →
      (ab = true → exec c s = .next (afterBay b (s.setBay b (lineOver (s.bay b))))) ∧
      (ab = false → retryable f →
        let w : Bay :=
          { s.bay b with
            line := .retryWait k
            frame := none
            response := none
            heldReply := none
            retryWait := some 5 }
        (authKind k → (s.bay b).authRetries < 3 →
          exec c s = .next (afterBay b (s.setBay b { w with authRetries := (s.bay b).authRetries + 1 }))) ∧
        (carriesRequest k → ∀ e rest, (s.bay b).queue = e :: rest → e.retries < 3 →
          exec c s =
            .next (afterBay b (s.setBay b { w with queue := { e with retries := e.retries + 1 } :: rest }))))

/-- R112, R113: a retryable outcome with the retry count at 3 ends the transaction. A forwarded request is answered
PACK_BUSY when its last attempt was BUSY and NO_ANSWER otherwise; an ID or CHALLENGE transaction ends as NO_ANSWER
(R22, R92). -/
def Sys2Proof.Claims.ExhaustedBudgetsFail : Prop :=
  ∀ (b : Fin 4) (s : State) (c : Instr) (k : TxnKind) (f : Option PackFrame),
    attemptEnds s b c k false f → retryable f →
      (authKind k → 3 ≤ (s.bay b).authRetries → exec c s = .next (afterBay b (authFailed s b .noAnswer))) ∧
      (carriesRequest k → ∀ e rest, (s.bay b).queue = e :: rest → 3 ≤ e.retries →
        exec c s = .next (afterBay b (completed s b e e.code (if f = none then .noAnswer else .packBusy))))

/-- R10, R15, R110, R111, R126: REJECT, a reply of another code or length to ID_QUERY or CHALLENGE, a CONT_ACK to a
request that is no first half, and any reply but CONT_ACK to a first half end the transaction as PACK_REJECT, without
retry. -/
def Sys2Proof.Claims.RejectedTransactionsFail : Prop :=
  ∀ (b : Fin 4) (s : State) (c : Instr) (k : TxnKind) (f : PackFrame),
    attemptEnds s b c k false (some f) → f.code ≠ 0xF4 →
      ((f.code = 0xF5 ∧ authKind k) ∨ (k = .ident ∧ ¬ (f.code = 0xF1 ∧ f.payload.length = 10)) ∨
          (k = .challenge ∧ ¬ (f.code = 0xF3 ∧ f.payload.length = 16)) →
        exec c s = .next (afterBay b (authFailed s b .packReject))) ∧
      ((f.code = 0xF5 ∧ carriesRequest k) ∨ (k = .splitFirst ∧ f.code ≠ 0xF6) ∨
          ((k = .forward ∨ k = .splitSecond) ∧ f.code = 0xF6) →
        ∀ e rest, (s.bay b).queue = e :: rest →
          exec c s = .next (afterBay b (completed s b e e.code .packReject)))

/-- R10, R15, R110 to R113, R126: the ends of a transaction without its reply. -/
def Obligations.TransactionsFail : Prop :=
  ExhaustedBudgetsFail ∧ RejectedTransactionsFail


/-- R126: CONT_ACK to the first half of a narrow split begins the second half at once as its attempt 0. -/
def Sys2Proof.Claims.SplitPairsContinue : Prop :=
  ∀ (b : Fin 4) (s : State) (c : Instr) (f : PackFrame) (e : ForwardEntry) (rest : List ForwardEntry),
    attemptEnds s b c .splitFirst false (some f) → f.code = 0xF6 → (s.bay b).queue = e :: rest →
      exec c s =
        .next (afterBay b
          (s.setBay b
            (attempted { s.bay b with queue := { e with retries := 0 } :: rest } .splitSecond
              ⟨e.code, 0, 0, e.payload.drop 8, none⟩ (s.pins.lineDominant.get b))))

/-- RETRY_WAIT_EXPIRY and LINK_HOLD_EXPIRY (R112, R123, R125). Behind the wait of a split half its next attempt is made
at once; behind any other the line is IDLE and the transaction a claim again. The end of a hold closes the run. -/
def Sys2Proof.Claims.LineWaitsEnd : Prop :=
  ∀ (b : Fin 4) (s : State),
    let x := s.bay b
    let dom := s.pins.lineDominant.get b
    (∀ k, x.line = .retryWait k → x.retryWait ≠ none →
      (k ≠ .splitFirst → k ≠ .splitSecond →
        exec (.retryWaitExpiry b) s =
          .next (afterBay b
            (s.setBay b
              { x with line := .idle, frame := none, response := none, retryWait := none, heldReply := none }))) ∧
      (∀ e rest, x.queue = e :: rest →
        (k = .splitFirst →
          exec (.retryWaitExpiry b) s =
            .next (s.setBay b
              (attempted x .splitFirst ⟨e.code, 1, byteOf e.retries, e.payload.take 8, none⟩ dom)).settleTx) ∧
        (k = .splitSecond →
          exec (.retryWaitExpiry b) s =
            .next (s.setBay b
              (attempted x .splitSecond ⟨e.code, 0, byteOf e.retries, e.payload.drop 8, none⟩ dom)).settleTx))) ∧
    (x.linkHold ≠ none →
      exec (.linkHoldExpiry b) s = .next (afterBay b (s.setBay b { x with linkRun := none, linkHold := none })))

/-- R109, R112, R123, R125, R126: the wait for a reply begins when a frame is out, the second half of a split follows its
first, and the retry wait and the link hold end. -/
def Obligations.LineWaitsBeginAndEnd : Prop :=
  SentFrameAwaitsItsReply ∧ SplitPairsContinue ∧ LineWaitsEnd


/-- R100, R104: what a strike does to the gate. -/
def Sys2Proof.Claims.StrikesAreCounted : Prop := ∀ (b : Fin 4) (s : State), s.strike b = afterStrike s b

/-- R100, R101, R104, R106, R209: strikes, their decay, and the lockout that seven of them begin. -/
def Obligations.StrikesCountAndDecay : Prop :=
  StrikesAreCounted ∧ StrikesDecay


/-! ## Admission -/

namespace Sys2Proof.Claims

open Sys2Proof.Machine

/-- The lookup of a model code in the live table (R52): the entry's index, none for code 0 or a code not there. -/
def modelAt (s : State) (code : Word16) (i : Fin 32) : Prop :=
  code ≠ 0 ∧ (s.ts.model.entry i.val).code = code ∧ ∀ j < i, (s.ts.model.entry j.val).code ≠ code

/-- A serial is covered by the live revocation list (R65). -/
def covered (s : State) (x : Serial) : Prop :=
  ∃ r ∈ s.ts.revoke.ranges, r.first.toNat ≤ x.toNat ∧ x.toNat ≤ r.last.toNat

/-- The first of checks d to g of R11 that an identity fails against an entry, or none. -/
def failsDtoG (s : State) (e : ModelEntry) (id : Identity) (r : Option DenyReason) : Prop :=
  let d : Prop := e.flags.getLsbD 4 = true
  let f : Prop := id.firmware.toNat < e.minFirmware.toNat
  let k : Prop := s.ts.keys.slot e.keySlot.toNat = none
  (r = some .withdrawn ↔ d) ∧ (r = some .oldFirmware ↔ ¬ d ∧ f) ∧
    (r = some .revoked ↔ ¬ d ∧ ¬ f ∧ covered s id.serial) ∧
    (r = some .noKey ↔ ¬ d ∧ ¬ f ∧ ¬ covered s id.serial ∧ k) ∧
    (r = none ↔ ¬ d ∧ ¬ f ∧ ¬ covered s id.serial ∧ ¬ k)

/-- Another bay in CHALLENGING, AUTHORIZED, RENEWING or GRACE holds the serial (R12). -/
def heldElsewhere (s : State) (b : Fin 4) (x : Serial) : Prop :=
  ∃ o, o ≠ b ∧ ((s.bay o).state = .challenging ∨ (s.bay o).state = .authorized ∨ (s.bay o).state = .renewing ∨
    (s.bay o).state = .grace) ∧ ∃ id, (s.bay o).identity = some id ∧ id.serial = x

/-- An identity with the model of an entry copied (R53). -/
def withModel (id : Identity) (i : Fin 32) (e : ModelEntry) : Identity :=
  { id with index := some i, attrs := some ⟨e.keySlot, e.chemistry, e.cells, e.capacity, e.current, e.flags⟩ }

/-- The verdict cache with a hit moved to the front (R77). -/
def touched (s : State) (x : Serial) : List CacheEntry :=
  match s.cache.find? (fun e => e.serial == x) with
  | some e => e :: s.cache.filter (fun e => e.serial != x)
  | none => s.cache

/-- The GENUINE hit for a serial supplies the key of a model found (R78). -/
def supplies (s : State) (x : Serial) (i : Fin 32) (e : ModelEntry) (key : Key) : Prop :=
  ∃ c, s.cache.find? (fun e => e.serial == x) = some c ∧ c.verdict = .genuine i key ∧ c.keySlot = e.keySlot.toNat

end Sys2Proof.Claims

/-- An ID_REPORT of ten bytes in IDENTIFYING (R10, R11, R12, R53, R77, R100): the identity is taken, the cache is looked
up, and the checks are applied in order. A FORGED hit denies FORGED_RECENT; a serial held elsewhere denies
DUPLICATE_SERIAL with a strike; a model not found, and checks d to g, deny with their reasons. -/
def Sys2Proof.Claims.IdReportsAreChecked : Prop :=
  ∀ (b : Fin 4) (s : State) (c : Instr) (f : PackFrame),
    attemptEnds s b c .ident false (some f) → f.code = 0xF1 → f.payload.length = 10 → (s.bay b).state = .identifying →
      let id : Identity :=
        ⟨BitVec.ofNat 48 (natBE (f.payload.take 6)), BitVec.ofNat 16 (natBE ((f.payload.drop 6).take 2)),
          BitVec.ofNat 16 (natBE ((f.payload.drop 8).take 2)), none, none⟩
      let u : State := { s with cache := touched s id.serial }
      let x : Bay := { lineOver (s.bay b) with identity := some id }
      let forgedHit : Prop := ∃ e, s.cache.find? (fun e => e.serial == id.serial) = some e ∧ e.verdict = .forged
      (forgedHit → exec c s = .next (afterBay b (denied u b x .forgedRecent))) ∧
      (¬ forgedHit → heldElsewhere s b id.serial →
        exec c s = .next (afterBay b (afterStrike (denied u b x .duplicateSerial) b))) ∧
      (¬ forgedHit → ¬ heldElsewhere s b id.serial → (∀ i, ¬ modelAt s id.code i) →
        exec c s = .next (afterBay b (denied u b x .unknownModel))) ∧
      (¬ forgedHit → ¬ heldElsewhere s b id.serial → ∀ i, modelAt s id.code i →
        let e := s.ts.model.entry i.val
        ∀ r, failsDtoG s e id (some r) →
          exec c s = .next (afterBay b (denied u b { x with identity := some (withModel id i e) } r)))

/-- An ID_REPORT that passes every check (R13, R14, R78): CHALLENGING, with the pack key from the cache and a fresh gate
nonce in phase EXCHANGE, or in phase KEY with a DERIVE_PACK_KEY job for the model's slot. -/
def Sys2Proof.Claims.PassedReportsBeginAChallenge : Prop :=
  ∀ (b : Fin 4) (s : State) (c : Instr) (f : PackFrame),
    attemptEnds s b c .ident false (some f) → f.code = 0xF1 → f.payload.length = 10 → (s.bay b).state = .identifying →
      let id : Identity :=
        ⟨BitVec.ofNat 48 (natBE (f.payload.take 6)), BitVec.ofNat 16 (natBE ((f.payload.drop 6).take 2)),
          BitVec.ofNat 16 (natBE ((f.payload.drop 8).take 2)), none, none⟩
      let u : State := { s with cache := touched s id.serial }
      (∀ e, s.cache.find? (fun e => e.serial == id.serial) = some e → e.verdict ≠ .forged) →
      ¬ heldElsewhere s b id.serial → ∀ i, modelAt s id.code i →
        let e := s.ts.model.entry i.val
        failsDtoG s e id none →
          let x : Bay := { lineOver (s.bay b) with identity := some (withModel id i e), state := .challenging }
          (∀ key, supplies s id.serial i e key →
            exec c s =
              .next (afterBay b
                ((({ u with nonceDraws := s.nonceDraws + 1 } : State).setBay b
                  { x with
                    packKey := some ⟨key, e.keySlot.toNat⟩
                    phase := some .exchange
                    claim := .challenge .admission
                    gateNonce := Config.freshNonce s.nonceDraws
                    renew := none }).raiseBay b))) ∧
          ((∀ key, ¬ supplies s id.serial i e key) →
            exec c s =
              .next (afterBay b
                (((u.setBay b { x with phase := some .key, claim := .none }).raiseBay b).submit (.bay b)
                  (.derivePackKey e.keySlot.toNat id.serial id.code))))

/-- R10 to R14, R53, R77, R78, R100: what an ID_REPORT does to a bay in IDENTIFYING. -/
def Obligations.IdReportsAreTaken : Prop :=
  IdReportsAreChecked ∧ PassedReportsBeginAChallenge


/-- A PROOF of 16 bytes in phase EXCHANGE (R15, R92): the pack nonce is held, the claim is gone, the phase is CHECK, and
CHECK_PROOF is submitted. Elsewhere the reply only ends the transaction. -/
def Obligations.ProofsAreTaken : Prop :=
  ∀ (b : Fin 4) (s : State) (c : Instr) (f : PackFrame),
    attemptEnds s b c .challenge false (some f) → f.code = 0xF3 → f.payload.length = 16 →
      let x := lineOver (s.bay b)
      let waits : Prop := (x.state = .challenging ∨ x.state = .renewing) ∧ x.phase = some .exchange
      let nonce : Nonce := BitVec.ofNat 64 (natBE (f.payload.take 8))
      let proof : Digest := BitVec.ofNat 64 (natBE ((f.payload.drop 8).take 8))
      (waits → ∀ key id, x.packKey = some key → x.identity = some id →
        exec c s =
          .next (afterBay b
            ((s.setBay b { x with packNonce := some nonce, phase := some .check, claim := .none }).submit (.bay b)
              (.checkProof key.key x.gateNonce nonce id.serial proof)))) ∧
      (¬ waits → exec c s = .next (afterBay b (s.setBay b x)))


/-! ## Replies of forwarded requests -/

namespace Sys2Proof.Claims

open Sys2Proof.Machine

/-- A code agrees with a value in the positions that a mask selects, for a bay of a set (R134). -/
def concerns (value mask : Byte) (bays : Four Bool) (b : Fin 4) (code : Byte) : Prop :=
  code &&& mask = value &&& mask ∧ bays.get b = true

/-- An entry of the filter table matches a to-pack lookup with an action (R134). -/
def givesToPack (f : FilterEntry) (b : Fin 4) (code : Byte) (a : ToPackAction) : Prop :=
  ∃ v m bays, f = .toPack v m bays a ∧ concerns v m bays b code

/-- An entry of the filter table matches a to-tool lookup with a verify level and a disposition (R134). -/
def givesToTool (f : FilterEntry) (b : Fin 4) (code : Byte) (l : VerifyLevel) (d : Disposition) : Prop :=
  ∃ v m bays, f = .toTool v m bays l d ∧ concerns v m bays b code

/-- The head of the queue completes with a passed reply (R146, R148): sent on by its disposition, and captured by COPY
and DIVERT while the capture queue has room; without room CAPTURE_OVERFLOW is set. -/
def passed (s : State) (b : Fin 4) (x : Bay) (e : ForwardEntry) (code : Byte) (payload : List Byte) (mark : Mark)
    (d : Disposition) : State :=
  let room : Bool := decide (s.ff.capture.length < 8)
  let u : State :=
    if d = .pass then s
    else if room then { s with ff.capture := s.ff.capture ++ [⟨b, code, mark, payload⟩] }
    else ({ s with flags.captureOverflow := true } : State).raiseGate
  let copied : Bool := d != .pass && room
  (u.setBay b (entryDone x x.linkRun e s.cfg.linkHold)).answer
    [if d = .divert then entryAnswer b e code .diverted ⟨false, false, copied, false⟩ []
     else entryAnswer b e code .ok ⟨mark == .verified, mark == .unverified, copied, false⟩ payload]

/-- A reply is withheld as a tag failure (R145, R99): the request is answered TAG_FAILED, the bay takes a strike, and in
AUTHORIZED it then enters RENEWING. -/
def tagFailed (s : State) (b : Fin 4) (e : ForwardEntry) (code : Byte) : State :=
  let v := afterStrike (completed s b e code .tagFailed) b
  if (v.bay b).state = .authorized then renewing v b else v

/-- The bay with its expected reply sequence advanced by one, modulo 256, when it holds a session (R143). -/
def advanced (x : Bay) : Bay :=
  match x.session with
  | some t => { x with session := some { t with expected := t.expected + 1 } }
  | none => x

end Sys2Proof.Claims

/-- R134, R135: the first entry of the filter table that matches gives the action; with no match a to-pack lookup gives
DEFAULT_TO_PACK, and a to-tool lookup level NONE with disposition PASS. -/
def Obligations.FilterLookupsTakeTheFirstMatch : Prop :=
  ∀ (s : State) (b : Fin 4) (code : Byte),
    (∀ before f after a, s.ff.table = before ++ f :: after → givesToPack f b code a →
      (∀ g ∈ before, ∀ a', ¬ givesToPack g b code a') → s.toPackLookup b code = a) ∧
    ((∀ g ∈ s.ff.table, ∀ a, ¬ givesToPack g b code a) → s.toPackLookup b code = s.cfg.defaultToPack) ∧
    (∀ before f after l d, s.ff.table = before ++ f :: after → givesToTool f b code l d →
      (∀ g ∈ before, ∀ l' d', ¬ givesToTool g b code l' d') → s.toToolLookup b code = (l, d)) ∧
    ((∀ g ∈ s.ff.table, ∀ l d, ¬ givesToTool g b code l d) → s.toToolLookup b code = (.none, .pass))

/-- The classification of a forwarded reply (R139 to R141, R143 to R146): by its verify level, by whether the bay holds
a session of a tagging model, by its tag and sequence. A reply to check holds the line until CHECK_TAG ends. -/
def Obligations.RepliesAreClassified : Prop :=
  ∀ (b : Fin 4) (s : State) (c : Instr) (k : TxnKind) (f : PackFrame) (e : ForwardEntry) (rest : List ForwardEntry),
    attemptEnds s b c k false (some f) → k = .forward ∨ k = .splitSecond →
    f.code ≠ 0xF4 → f.code ≠ 0xF5 → f.code ≠ 0xF6 → (s.bay b).queue = e :: rest →
      let x := s.bay b
      ∀ level d, s.toToolLookup b f.code = (level, d) →
        (∀ t, x.session = some t → x.tagging = true →
          (level = .none →
            exec c s =
              .next (afterBay b (passed s b (if f.tag = none then x else advanced x) e f.code f.payload .none d))) ∧
          (level ≠ .none →
            (f.tag = none ∨ f.seq ≠ t.expected → exec c s = .next (afterBay b (tagFailed s b e f.code))) ∧
            (∀ tag, f.tag = some tag → f.seq = t.expected →
              exec c s =
                .next (afterBay b
                  ((s.setBay b
                    { x with
                      line := .awaitDigest
                      frame := none
                      response := none
                      retryWait := none
                      heldReply := some ⟨f.code, f.payload, d⟩ }).submit (.bay b)
                    (.checkTag t.key f.seq f.code f.payload tag)))))) ∧
        (x.session = none ∨ x.tagging = false →
          (level = .none → exec c s = .next (afterBay b (passed s b x e f.code f.payload .none d))) ∧
          (level = .verify → exec c s = .next (afterBay b (passed s b x e f.code f.payload .unverified d))) ∧
          (level = .strict → exec c s = .next (afterBay b (completed s b e f.code .notVerifiable))))

/-! ## Completions of digest jobs -/

namespace Sys2Proof.Claims

open Sys2Proof.Machine

/-- The verdict cache after an insertion (R76, R79): the entry for the serial is replaced, or a full cache loses its
back entry; the new entry is at the front. -/
def inserted (cache : List CacheEntry) (e : CacheEntry) : List CacheEntry :=
  e :: (if ∃ o ∈ cache, o.serial = e.serial then cache.filter (fun o => o.serial != e.serial) else cache.take 7)

/-- The clean rule (R102). -/
def cleaned (x : Bay) : Bay :=
  { x with
    clean := true
    strikes := if x.clean then 0 else x.strikes
    decay := if x.clean then none else x.decay }

/-- A bay in AUTHORIZED with a new session and a new renew period (R17, R88, R94). -/
def authorizedWith (x : Bay) (t : Session) (renewSeconds : Nat) : Bay :=
  cleaned
    { x with
      state := .authorized
      session := some t
      phase := none
      packNonce := none
      claim := .none
      renew := some (1000 * renewSeconds) }

end Sys2Proof.Claims

/-- R14: no two draws give one nonce, for as many draws as there are values (the order of the values is free, log 7), and
no command, no reset and no step takes the count of draws back. -/
def Sys2Proof.Claims.NoncesAreNotRepeated : Prop :=
  (∀ m n : Nat, m < n → n < 2 ^ 64 → Config.freshNonce m ≠ Config.freshNonce n) ∧
  (∀ (c : Instr) (s t : State), exec c s = .next t → s.nonceDraws ≤ t.nonceDraws) ∧
  (∀ s t : State, step s = .next t → s.nonceDraws ≤ t.nonceDraws)

/-- DERIVE_PACK_KEY_COMPLETE (R14, R44): in phase KEY the key is recorded with its slot, a fresh gate nonce is drawn and
CHALLENGE is claimed with kind ADMIT in phase EXCHANGE. In any other state the result changes nothing. -/
def Sys2Proof.Claims.DerivedKeysAreTaken : Prop :=
  ∀ (s : State) (b : Fin 4) (slot : Nat) (serial : Serial) (code : Word16) (root : Key),
    s.de.running = some ⟨.bay b, .derivePackKey slot serial code, some root, false⟩ →
      let d := s.jobDone (.bay b)
      ((s.bay b).state = .challenging → (s.bay b).phase = some .key →
        exec .derivePackKeyComplete s =
          .next (afterBay b
            (({ d with nonceDraws := s.nonceDraws + 1 } : State).setBay b
              { s.bay b with
                packKey := some ⟨packKeyValue root serial code, slot⟩
                phase := some .exchange
                claim := .challenge .admission
                gateNonce := Config.freshNonce s.nonceDraws
                authRetries := 0
                renew := none }))) ∧
      ((s.bay b).state ≠ .challenging ∨ (s.bay b).phase ≠ some .key →
        exec .derivePackKeyComplete s = .next (afterBay b d))

/-- R14, R44: a pack key in hand begins the challenge, with a gate nonce that no challenge before it had. -/
def Obligations.PackKeysAreTaken : Prop :=
  DerivedKeysAreTaken ∧ NoncesAreNotRepeated

/-- CHECK_PROOF_COMPLETE (R16, R79, R93, R95, R100). In phase CHECK an equal value takes the phase to SESSION and submits
DERIVE_SESSION. A difference inserts FORGED and takes a strike: an admission is DENIED FORGED, a renewal loses
eligibility with FORGED unless the strike locked the bay out. Elsewhere the result changes nothing. -/
def Obligations.ProofsAreCompared : Prop :=
  ∀ (s : State) (b : Fin 4) (key : Key) (g p : Nonce) (serial : Serial) (proof : Digest) (sk : Option Key),
    s.de.running = some ⟨.bay b, .checkProof key g p serial proof, sk, false⟩ →
      let d := s.jobDone (.bay b)
      let x := s.bay b
      let equal : Prop := proofValue key g p serial = proof
      (x.phase = some .check → x.state = .challenging ∨ x.state = .renewing → equal →
        exec .checkProofComplete s =
          .next (afterBay b
            ((d.setBay b { x with phase := some .session }).submit (.bay b) (.deriveSession key g p)))) ∧
      (x.phase = some .check → ¬ equal → ∀ k, x.packKey = some k →
        let f : State := { d with cache := inserted s.cache ⟨serial, .forged, k.slot, 30000⟩ }
        (x.state = .challenging →
          exec .checkProofComplete s =
            .next (afterBay b (afterStrike (denied f b x.abandonLine .forged) b))) ∧
        (x.state = .renewing →
          let v := afterStrike (f.setBay b { x with packNonce := none }) b
          exec .checkProofComplete s =
            .next (afterBay b
              (if (v.bay b).state = .lockout then v
               else lostEligibility v b (v.bay b).abandonLine .forged)))) ∧
      (x.phase ≠ some .check ∨ (x.state ≠ .challenging ∧ x.state ≠ .renewing) →
        exec .checkProofComplete s = .next (afterBay b d))

/-- DERIVE_SESSION_COMPLETE at the authorization point (R17, R18, R79, R88, R102): checks c to g are repeated on the live
tables and the model's slot must be the pack key's. The bay is AUTHORIZED with session number 1 and a GENUINE entry,
or DENIED with the check's reason, or sent to IDENTIFYING when only the slot differs. -/
def Sys2Proof.Claims.AdmissionsReachTheAuthorizationPoint : Prop :=
  ∀ (s : State) (b : Fin 4) (key : Key) (g p : Nonce) (sk : Option Key) (id : Identity) (pk : PackKey),
    s.de.running = some ⟨.bay b, .deriveSession key g p, sk, false⟩ →
    (s.bay b).phase = some .session → (s.bay b).state = .challenging → (s.bay b).identity = some id →
    (s.bay b).packKey = some pk →
      let d := s.jobDone (.bay b)
      let x := s.bay b
      ((∀ i, ¬ modelAt s id.code i) →
        exec .deriveSessionComplete s =
          .next (afterBay b
            (denied d b ({ x with identity := some { id with index := none } } : Bay).abandonLine .unknownModel))) ∧
      (∀ i, modelAt s id.code i →
        let e := s.ts.model.entry i.val
        let y : Bay := { x with identity := some (withModel id i e) }
        (∀ r, failsDtoG s e id (some r) →
          exec .deriveSessionComplete s = .next (afterBay b (denied d b y.abandonLine r))) ∧
        (failsDtoG s e id none → e.keySlot.toNat = pk.slot →
          exec .deriveSessionComplete s =
            .next (afterBay b
              ((({ d with cache := inserted s.cache ⟨id.serial, .genuine i pk.key, pk.slot, 600000⟩ } : State).setBay b
                (authorizedWith { y with attempts := 0 } ⟨sessionKeyValue key g p, 1, 0⟩ s.cfg.renew)).raiseBay b))) ∧
        (failsDtoG s e id none → e.keySlot.toNat ≠ pk.slot →
          exec .deriveSessionComplete s = .next (afterBay b (identified d b))))

/-- DERIVE_SESSION_COMPLETE in RENEWING (R79, R88, R94, R102): AUTHORIZED again under the new session key, the session
number one higher up to 255, the expected sequence 0, attempts kept. -/
def Sys2Proof.Claims.RenewalsReturnToAuthorized : Prop :=
  ∀ (s : State) (b : Fin 4) (key : Key) (g p : Nonce) (sk : Option Key) (id : Identity) (pk : PackKey) (t : Session)
      (i : Fin 32),
    s.de.running = some ⟨.bay b, .deriveSession key g p, sk, false⟩ →
    (s.bay b).phase = some .session → (s.bay b).state = .renewing → (s.bay b).identity = some id →
    (s.bay b).packKey = some pk → (s.bay b).session = some t → id.index = some i →
      let d := s.jobDone (.bay b)
      exec .deriveSessionComplete s =
        .next (afterBay b
          ((({ d with cache := inserted s.cache ⟨id.serial, .genuine i pk.key, pk.slot, 600000⟩ } : State).setBay b
            (authorizedWith (s.bay b)
              ⟨sessionKeyValue key g p, if t.number = 255 then 255 else t.number + 1, 0⟩ s.cfg.renew)).raiseBay b))

/-- R17, R18, R79, R88, R94, R102: the session key in hand, at an admission and at a renewal. -/
def Obligations.SessionsAuthorize : Prop :=
  AdmissionsReachTheAuthorizationPoint ∧ RenewalsReturnToAuthorized


/-- CHECK_TAG_COMPLETE (R114, R142, R145, R146): an equal tag passes the kept reply VERIFIED and advances the expected
sequence; a difference withholds it as a tag failure. -/
def Obligations.TagsAreCompared : Prop :=
  ∀ (s : State) (b : Fin 4) (key : Key) (seq code : Byte) (payload : List Byte) (tag : BitVec 32) (sk : Option Key)
      (h : HeldReply) (e : ForwardEntry) (rest : List ForwardEntry),
    s.de.running = some ⟨.bay b, .checkTag key seq code payload tag, sk, false⟩ →
    (s.bay b).heldReply = some h → (s.bay b).queue = e :: rest →
      let d := s.jobDone (.bay b)
      (tagValue key seq code payload = tag →
        exec .checkTagComplete s =
          .next (afterBay b (passed d b (advanced (s.bay b)) e h.code h.payload .verified h.disposition))) ∧
      (tagValue key seq code payload ≠ tag →
        exec .checkTagComplete s = .next (afterBay b (tagFailed d b e h.code)))

namespace Sys2Proof.Claims

open Sys2Proof.Machine

/-- A load has ended (R190): the record is IDLE with the outcome, the IMAGE_END that it held is answered, and the gate
source is raised. -/
def loadEnded (s : State) (l : Load) (outcome : LoadOutcome) (st : Status) (payload : List Byte) : State :=
  (({ s with il := ⟨none, some outcome⟩ } : State).answer
    (match l.endTid with
     | some tid => [⟨7, tid, 0x3A, st, RespFlags.none, payload⟩]
     | none => [])).raiseGate

end Sys2Proof.Claims

/-- CHECK_IMAGE_COMPLETE (R187, R189): a digest that differs ends the load with DIGEST_MISMATCH, a content that fails its
check with CONTENT; otherwise the load is COMMITTING, and its store write begins when the unit is free. -/
def Sys2Proof.Claims.ImagesAreCompared : Prop :=
  ∀ (s : State) (c : Claimant) (image : List Byte) (digest : Digest) (key : Key) (l : Load),
    s.de.running = some ⟨c, .checkImage image digest, some key, false⟩ →
      let d := s.jobDone c
      d.il.load = some l → l.stage = .checking →
        let w : State := { d with de := d.de.withdraw .management }
        (imageValue key image ≠ digest →
          exec .checkImageComplete s =
            .next (loadEnded w l (.status .digestMismatch) .digestMismatch []).settleTx) ∧
        (imageValue key image = digest → l.contentOk = false →
          exec .checkImageComplete s = .next (loadEnded w l (.status .content) .content []).settleTx) ∧
        (imageValue key image = digest → l.contentOk = true →
          let m : Load := { l with stage := .committing }
          exec .checkImageComplete s =
            .next (State.settleTx
              { d with
                il.load := some m
                ts.write :=
                  match s.ts.write with
                  | some w => some w
                  | none => some (if l.target = .model then .modelImage m.newModel else .revokeImage m.newRevoke) }))

namespace Sys2Proof.Claims

open Sys2Proof.Machine

/-- A non-empty entry's fields are within the ranges of R50, and it sets no flag outside R51's five. -/
def inRange (e : ModelEntry) : Prop :=
  1 ≤ e.keySlot.toNat ∧ e.keySlot.toNat ≤ 7 ∧ 1 ≤ e.chemistry.toNat ∧ e.chemistry.toNat ≤ 7 ∧ 1 ≤ e.cells.toNat ∧
    e.cells.toNat ≤ 15 ∧ e.capacity.toNat ≤ 15 ∧ e.current.toNat ≤ 7 ∧ e.flags.toNat ≤ 31

/-- The first serial of a revocation record, and the last: the first plus the span (R188). -/
def span (r : List Byte) : Nat × Nat := (natBE (r.take 6), natBE (r.take 6) + natBE ((r.drop 6).take 4))

end Sys2Proof.Claims

/-- R188, R189: the content check of an image of records, and the table or list that it installs at the expected
generation plus one. -/
def Sys2Proof.Claims.ImageContentIsChecked : Prop :=
  ∀ (l : Load) (kind count : Byte) (records : List (List Byte)),
    l.buffer = kind :: count :: records.flatten → (∀ r ∈ records, r.length = 10) → records.length = count.toNat →
      let entries := records.map modelRecord
      (l.contentOk = true ↔
        l.declared = 2 + 10 * count.toNat ∧
        ((l.target = .model ∧ kind = 1 ∧ count.toNat ≤ 32 ∧ (∀ e ∈ entries, e.code = 0 ∨ inRange e) ∧
            entries.Pairwise (fun a b => a.code ≠ 0 → a.code ≠ b.code)) ∨
          (l.target = .revoke ∧ kind = 2 ∧ count.toNat ≤ 96 ∧ (∀ r ∈ records, (span r).2 < 2 ^ 48) ∧
            records.Pairwise (fun a b => (span a).2 < (span b).1)))) ∧
      l.newModel = ⟨entries ++ List.replicate (32 - count.toNat) ModelEntry.none, l.expectedGen + 1⟩ ∧
      l.newRevoke =
        ⟨records.map (fun r => ⟨BitVec.ofNat 48 (span r).1, BitVec.ofNat 48 (span r).2⟩), l.expectedGen + 1⟩

/-- R187 to R189: what becomes of an image when its check has ended. -/
def Obligations.ImagesAreChecked : Prop :=
  ImagesAreCompared ∧ ImageContentIsChecked

/-- KEY_CHECK_COMPLETE (R37, R41, R44): the held KEY_CHECK is answered with the key check value. -/
def Sys2Proof.Claims.KeyChecksAreAnswered : Prop :=
  ∀ (s : State) (c : Claimant) (slot : Nat) (key : Key) (tid : Byte),
    s.de.running = some ⟨c, .keyCheck slot, some key, false⟩ →
      let d := s.jobDone c
      d.me.inHand = some (.keyCheck tid) →
        exec .keyCheckComplete s =
          .next ((({ d with me.inHand := none } : State).answer
            [⟨7, tid, 0x21, .ok, RespFlags.none, bytesBE 8 (keyCheckValue key).toNat⟩]).settleTx)

/-- R46, R47: the completion of a discarded job frees the engine and delivers nothing. -/
def Sys2Proof.Claims.DiscardedResultsDeliverNothing : Prop :=
  ∀ (s : State) (r : RunningJob), s.de.running = some r → r.discarded = true →
    let runs (c : Instr) : Prop := exec c s = .next (s.jobDone r.claimant).settleTx
    (∀ n x m k, r.job = .derivePackKey n x m → r.slotKey = some k → runs .derivePackKeyComplete) ∧
    (∀ k g p x y, r.job = .checkProof k g p x y → runs .checkProofComplete) ∧
    (∀ k g p, r.job = .deriveSession k g p → runs .deriveSessionComplete) ∧
    (∀ k q c p t, r.job = .checkTag k q c p t → runs .checkTagComplete) ∧
    (∀ i d k, r.job = .checkImage i d → r.slotKey = some k → runs .checkImageComplete) ∧
    (∀ n k, r.job = .keyCheck n → r.slotKey = some k → runs .keyCheckComplete)

/-- R37, R46, R47: a KEY_CHECK is answered by its job, and a discarded job delivers nothing. -/
def Obligations.DigestResultsReachTheirClaimant : Prop :=
  KeyChecksAreAnswered ∧ DiscardedResultsDeliverNothing

/-! ## Store writes -/

namespace Sys2Proof.Claims

open Sys2Proof.Machine

/-- The record that a completed write leaves (R177): the new content, or its empty form when the write failed, under a
matching CRC-32 unless that rewrite failed too. -/
def written {α : Type} (bytes : α → List Byte) (empty new : α) (r : WriteResult) : NvRecord α :=
  match r with
  | .written => ⟨new, crc32 (bytes new)⟩
  | .failed => ⟨empty, crc32 (bytes empty)⟩
  | .failedTwice => ⟨empty, ~~~ crc32 (bytes empty)⟩

/-- A loaded key's slots, as the bays and the cache take them (R26, R35, R36): the slot loaded, when it holds a root key,
or each of slots 1 to 7 after a failure. -/
def slotsTaken (slot : Nat) (r : WriteResult) (n : Nat) : Bool :=
  if r = .written then decide (n = slot ∧ n ≠ 0) else decide (1 ≤ n ∧ n ≤ 7)

/-- The write of a load in COMMITTING begins when the store-write unit falls free (R189). -/
def nextWrite (s : State) : Option StoreWrite :=
  match s.il.load with
  | some l =>
    if l.stage = .committing then
      some (if l.target = .model then .modelImage l.newModel else .revokeImage l.newRevoke)
    else none
  | none => none

/-- After an event in which every bay acts: the arbiters and the derivation. -/
def settled (u : State) : State := u.arbitrateAll.derive false

/-- A GATE_RESET that waited for the commit is carried out, with the DET levels sampled then (R2, R178, R211). -/
def thenReset (v : State) (det : Four Bool) : State :=
  match v.me.inHand with
  | some (.gateReset tid) => ({ v with pins.det := det } : State).gateReset tid det
  | _ => v

end Sys2Proof.Claims

/-- KEY_LOAD_COMPLETE (R26, R27, R35, R36, R83, R84, R189). The key store and its record take the new keys, or lose every
key with KEYS_LOST set when the write failed. The cache entries of the slots go, every bay takes the load in ascending
number, the held KEY_LOAD is answered OK or STORE_FAILED, and the write of a load in COMMITTING begins. -/
def Obligations.KeyLoadsComplete : Prop :=
  ∀ (slot : Nat) (new : KeyStore) (r : WriteResult) (tid : Byte) (s : State),
    s.ts.write = some (.keyLoad slot new) → s.me.inHand = some (.keyLoad tid) →
      let ok : Prop := r = .written
      let u : State :=
        { s with
          ts.keys := if ok then new else List.replicate 8 none
          ts.nvKeys := written KeyStore.bytes (List.replicate 8 none) new r
          ts.write := none
          cache := s.cache.filter (fun e => !slotsTaken slot r e.keySlot)
          flags.keysLost := s.flags.keysLost || decide (¬ ok)
          tli.notices.gate := s.tli.notices.gate || decide (¬ ok) }
      let v := settled (([0, 1, 2, 3] : List (Fin 4)).foldl (State.keyLoadBay (slotsTaken slot r)) u)
      exec (.keyLoadComplete r) s =
        .next (State.settleTx
          (({ v with me.inHand := none, ts.write := nextWrite s } : State).answer
            [⟨7, tid, 0x20, if ok then .ok else .storeFailed, RespFlags.none, []⟩]))

/-- MODEL_COMMIT (R24, R59, R62, R82, R178, R189, R190). The table and its record take the image, or are empty with
MODEL_LOST set when the write failed. Every GENUINE cache entry goes, every bay takes the commit in ascending number, the
load ends COMMITTED with its IMAGE_END answered OK and the new generation, or STORE_FAILED, and a GATE_RESET that waited
is carried out with the DET levels of that moment, an operand (log 10). That a failed write's rewrite is part of the event,
and that its own result is the operand's third value, are the model's choice (log 13). -/
def Obligations.ModelCommitsComplete : Prop :=
  ∀ (new : ModelTable) (r : WriteResult) (det : Four Bool) (l : Load) (s : State),
    s.ts.write = some (.modelImage new) → s.il.load = some l → l.stage = .committing →
      let ok : Prop := r = .written
      let u : State :=
        { s with
          ts.model := if ok then new else ⟨List.replicate 32 ModelEntry.none, 0⟩
          ts.nvModel := written ModelTable.bytes ⟨List.replicate 32 ModelEntry.none, 0⟩ new r
          ts.write := none
          cache := s.cache.filter (fun e => decide (e.verdict = .forged))
          flags.modelLost := s.flags.modelLost || decide (¬ ok)
          tli.notices.gate := true }
      let v := settled (([0, 1, 2, 3] : List (Fin 4)).foldl (State.commitBay false) u)
      exec (.modelCommit ⟨r, det⟩) s =
        .next (State.settleTx (thenReset
          (if ok then loadEnded v l .committed .ok (bytesBE 2 new.gen.toNat)
           else loadEnded v l (.status .storeFailed) .storeFailed []) det))

/-- REVOCATION_COMMIT (R24, R69, R71, R74, R85, R176 to R178, R189, R190), of an edit and of an image. The list and its
record take the new list, or are empty with REVOKE_LOST set when the write failed. The cache entries of covered serials
go, and every bay takes the commit in ascending number. The held edit, or the load, is answered; behind an edit the write
of a load in COMMITTING begins, and behind an image a GATE_RESET that waited is carried out with the DET levels of that
moment, an operand (log 10). The model's choices are that an edit answered STORE_FAILED carries the live generation and
count (log 21), and the failed write's rewrite as part of the event, with its result in the operand (log 13). -/
def Obligations.RevocationCommitsComplete : Prop :=
  ∀ (new : RevList) (r : WriteResult) (det : Four Bool) (s : State),
    let ok : Prop := r = .written
    let live : RevList := if ok then new else ⟨[], 0⟩
    let u : State :=
      { s with
        ts.revoke := live
        ts.nvRevoke := written RevList.bytes ⟨[], 0⟩ new r
        ts.write := none
        cache := s.cache.filter (fun e =>
          !live.ranges.any (fun x => decide (x.first.toNat ≤ e.serial.toNat ∧ e.serial.toNat ≤ x.last.toNat)))
        flags.revokeLost := s.flags.revokeLost || decide (¬ ok)
        tli.notices.gate := true }
    let v := settled (([0, 1, 2, 3] : List (Fin 4)).foldl (State.commitBay true) u)
    (s.ts.write = some (.revokeEdit new) →
      let list : List Byte := bytesBE 2 live.gen.toNat ++ [byteOf live.ranges.length]
      let answered (tid code : Byte) (index : List Byte) : State :=
        ({ v with me.inHand := none, ts.write := nextWrite s } : State).answer
          [if ok then ⟨7, tid, code, .ok, RespFlags.none, list ++ index⟩
           else ⟨7, tid, code, .storeFailed, RespFlags.none, list⟩]
      (∀ tid index, s.me.inHand = some (.revokeAdd tid index) →
        exec (.revocationCommit ⟨r, det⟩) s = .next (answered tid 0x32 [byteOf index]).settleTx) ∧
      (∀ tid, s.me.inHand = some (.revokeDrop tid) →
        exec (.revocationCommit ⟨r, det⟩) s = .next (answered tid 0x33 []).settleTx)) ∧
    (∀ l, s.ts.write = some (.revokeImage new) → s.il.load = some l → l.stage = .committing →
      exec (.revocationCommit ⟨r, det⟩) s =
        .next (State.settleTx (thenReset
          (if ok then loadEnded v l .committed .ok (bytesBE 2 new.gen.toNat)
           else loadEnded v l (.status .storeFailed) .storeFailed []) det)))

/-- R24 to R27, R53, R70, R71, R95: what a bay does at a commit and at a key load. A bay in AUTHORIZED or RENEWING looks
its model up again, applies checks c to g and loses eligibility at the first that fails; when all pass it copies the
entry's attributes, or is sent to IDENTIFYING when its pack key belongs to another slot. A bay in GRACE takes reason
REVOKED from a revocation commit that covers it. A bay DENIED with a table reason is sent to IDENTIFYING. A key load
sends to IDENTIFYING the bays whose key, or whose model's key, stands in a slot loaded (log 22). No other bay acts. -/
def Obligations.BaysTakeTableChanges : Prop :=
  ∀ (s : State) (b : Fin 4),
    let x := s.bay b
    let tableReason : Prop := x.reason = some .unknownModel ∨ x.reason = some .withdrawn ∨ x.reason = some .oldFirmware ∨
      x.reason = some .revoked ∨ x.reason = some .noKey
    (∀ rev id, x.state = .authorized ∨ x.state = .renewing → x.identity = some id →
      ((∀ i, ¬ modelAt s id.code i) →
        s.commitBay rev b =
          lostEligibility s b ({ x with identity := some { id with index := none } } : Bay).abandonLine .unknownModel) ∧
      (∀ i, modelAt s id.code i →
        let e := s.ts.model.entry i.val
        (∀ r, failsDtoG s e id (some r) →
          s.commitBay rev b =
            lostEligibility s b ({ x with identity := some { id with index := some i } } : Bay).abandonLine r) ∧
        (failsDtoG s e id none → ∀ k, x.packKey = some k →
          s.commitBay rev b =
            if k.slot = e.keySlot.toNat then s.setBay b { x with identity := some (withModel id i e) }
            else identified s b))) ∧
    (∀ id, x.state = .grace → x.identity = some id →
      s.commitBay false b = s ∧ (¬ covered s id.serial → s.commitBay true b = s) ∧
      (covered s id.serial →
        s.commitBay true b =
          if x.reason = some .revoked then s else (s.setBay b { x with reason := some .revoked }).raiseBay b)) ∧
    (∀ rev, x.state = .denied →
      (tableReason → s.commitBay rev b = identified s b) ∧ (¬ tableReason → s.commitBay rev b = s)) ∧
    (∀ rev, x.state ≠ .authorized → x.state ≠ .renewing → x.state ≠ .grace → x.state ≠ .denied →
      s.commitBay rev b = s) ∧
    (∀ slots : Nat → Bool,
      let acts : Prop :=
        (x.state = .challenging ∧ ∃ a, x.attrs = some a ∧ slots a.keySlot.toNat = true) ∨
        ((x.state = .authorized ∨ x.state = .renewing ∨ x.state = .grace) ∧
          ∃ k, x.packKey = some k ∧ slots k.slot = true) ∨
        (x.state = .denied ∧ x.reason = some .noKey ∧
          ∃ id i, x.identity = some id ∧ modelAt s id.code i ∧ slots (s.ts.model.entry i.val).keySlot.toNat = true)
      (acts → s.keyLoadBay slots b = identified s b) ∧ (¬ acts → s.keyLoadBay slots b = s))

/-! ## The tool line -/

namespace Sys2Proof.Claims

open Sys2Proof.Machine

/-- The characters of a TOOL_FRAME complete, behind those in assembly, a frame with a matching CRC (R193), at a gate that
receives the tool line: `v` is the state with the characters behind the frame in assembly. -/
def toolHears (s : State) (bytes : List Byte) (ks tid code flags : Byte) (payload : List Byte) (v : State) : Prop :=
  s.live = true ∧ s.pw.dormant = false ∧ ∃ chars rest, s.tli.rx = .assembling chars ∧
    parseTool (chars ++ bytes) = .complete ks tid code flags payload rest ∧
    v = { s with tli.rx := .assembling rest }

/-- The answer to a gate request that is refused or cancelled outside its own meaning: without a payload, but for
REVOKE_ADD and REVOKE_DROP, which carry the live generation and count whatever refuses them (12.3; log 21). -/
def rejected (s : State) (tid code : Byte) (st : Status) : Response :=
  ⟨7, tid, code, st, RespFlags.none,
    if code = 0x32 ∨ code = 0x33 then bytesBE 2 s.ts.revoke.gen.toNat ++ [byteOf s.ts.revoke.ranges.length] else []⟩

/-- TOOL_FRAME_ERROR is set, which raises the gate source (R201). -/
def lineFaulted (s : State) (rx : Receiver) : State :=
  { s with tli.rx := rx, flags.toolFrameError := true, tli.notices.gate := true }

end Sys2Proof.Claims

/-- TOOL_FRAME with a request to a bay (R130, R131): the first check that fails refuses the request at once, without a
payload and without a place in a queue; a request that none refuses joins the bay's forward queue, with the bay's arbiter
behind it. The checks are a payload above 16 bytes, a reserved code, a filter action BLOCK, a bay in EMPTY, in LOCKOUT or
in LINE_FAULT, and a full queue. -/
def Obligations.PassThroughRequestsAreTaken : Prop :=
  ∀ (s v : State) (bytes : List Byte) (ks tid code flags : Byte) (payload : List Byte) (b : Fin 4),
    toolHears s bytes ks tid code flags payload v → kindField ks = 0 → selectorField ks = BitVec.ofNat 3 b.val →
      let x := s.bay b
      let ends (st : Status) : Prop :=
        exec (.toolFrame bytes) s =
          .next (v.answer [⟨BitVec.ofNat 3 b.val, tid, code, st, RespFlags.none, []⟩]).settleTx
      let act := s.toPackLookup b code
      (16 < payload.length → ends .range) ∧
      (payload.length ≤ 16 →
        (240 ≤ code.toNat → ends .reserved) ∧
        (code.toNat < 240 →
          (act = .block → ends .blocked) ∧
          (act ≠ .block →
            (x.state = .empty → ends .noPack) ∧ (x.state = .lockout → ends .lockout) ∧
            (x.state = .lineFault → ends .lineFault) ∧
            (x.state ≠ .empty → x.state ≠ .lockout → x.state ≠ .lineFault →
              (4 ≤ x.queue.length → ends .queueFull) ∧
              (x.queue.length < 4 →
                exec (.toolFrame bytes) s =
                  .next (((v.setBay b
                    { x with
                      queue := x.queue ++
                        [⟨tid, code, flags.getLsbD 0, payload, decide (act = .forwardAuth), 0⟩] }).arbitrate
                    b).settleTx))))))

/-- TOOL_FRAME with any other frame (R193 to R195, R201). A request to selector 7 joins the management queue, or is
refused QUEUE_FULL behind four, an edit with the live generation and count (12.3; log 21); selectors 4 to 6 are answered
UNKNOWN_SELECTOR; a frame that is no request sets TOOL_FRAME_ERROR without an answer, and so do a CRC error and a framing
error, of which the second discards what follows. That characters short of a frame wait in assembly, and that those behind
one frame are kept for the next command, is the model's choice for operands that are no whole frame (log 30). -/
def Sys2Proof.Claims.ToolFramesAreRouted : Prop :=
  (∀ (s v : State) (bytes : List Byte) (ks tid code flags : Byte) (payload : List Byte),
    toolHears s bytes ks tid code flags payload v →
      let ends (u : State) : Prop := exec (.toolFrame bytes) s = .next u.settleTx
      (kindField ks ≠ 0 → ends (lineFaulted v v.tli.rx)) ∧
      (kindField ks = 0 → selectorField ks = 7 →
        (s.me.queue.length < 4 → ends { v with me.queue := s.me.queue ++ [⟨tid, code, payload⟩] }) ∧
        (4 ≤ s.me.queue.length → ends (v.answer [rejected s tid code .queueFull]))) ∧
      (kindField ks = 0 → 4 ≤ (selectorField ks).toNat → selectorField ks ≠ 7 →
        ends (v.answer [⟨selectorField ks, tid, code, .unknownSelector, RespFlags.none, []⟩]))) ∧
  (∀ (s : State) (bytes chars : List Byte), s.live = true → s.pw.dormant = false → s.tli.rx = .assembling chars →
    (∀ rest, parseTool (chars ++ bytes) = .crcError rest →
      exec (.toolFrame bytes) s = .next (lineFaulted s (.assembling rest)).settleTx) ∧
    (parseTool (chars ++ bytes) = .framingError →
      exec (.toolFrame bytes) s = .next (lineFaulted s .discarding).settleTx) ∧
    (parseTool (chars ++ bytes) = .incomplete →
      exec (.toolFrame bytes) s = .next (State.settleTx { s with tli.rx := .assembling (chars ++ bytes) })))

/-- R193: what the receive assembler makes of its characters. A first character other than 5Ah and a length above 48 are
framing errors; too few characters are no frame yet; a complete frame is judged by its CRC-16 over the kind and selector
byte through the payload, and what follows it begins the next. -/
def Sys2Proof.Claims.ToolCharactersAreJudged : Prop :=
  (parseTool [] = .incomplete) ∧
  (∀ (start : Byte) (rest : List Byte), start ≠ 0x5A → parseTool (start :: rest) = .framingError) ∧
  (∀ rest : List Byte, rest.length < 6 → parseTool (0x5A :: rest) = .incomplete) ∧
  (∀ (ks tid code st flags len : Byte) (rest : List Byte),
    let n := len.toNat
    let whole := 0x5A#8 :: ks :: tid :: code :: st :: flags :: len :: rest
    (48 < n → parseTool whole = .framingError) ∧
    (n ≤ 48 → rest.length < n + 2 → parseTool whole = .incomplete) ∧
    (n ≤ 48 → ∀ payload after (c0 c1 : Byte), payload.length = n → rest = payload ++ c0 :: c1 :: after →
      (crc16 (ks :: tid :: code :: st :: flags :: len :: payload) = c0 ++ c1 →
        parseTool whole = .complete ks tid code flags payload after) ∧
      (crc16 (ks :: tid :: code :: st :: flags :: len :: payload) ≠ c0 ++ c1 →
        parseTool whole = .crcError after)))

/-- R193 to R195, R201: what the gate makes of the characters of a TOOL_FRAME, and where their frame goes. The assembly of
operands that are no one whole frame is the model's choice (log 30). -/
def Obligations.ToolFramesAreJudgedAndRouted : Prop :=
  ToolCharactersAreJudged ∧ ToolFramesAreRouted

/-- TOOL_FRAMING_ERROR, TOOL_RX_GAP_EXPIRY, TOOL_RX_IDLE_RESYNC and FRAME_SENT (R193, R198, R208, R209). A framing error
discards until the line has been idle; a gap error comes with that idle time (log 19) and is no start bit, so that it sets
TOOL_FRAME_ERROR in dormant too and wakes nothing. The characters of a TOOL_FRAME and of a framing error are start bits,
which wake a dormant gate (log 18). The end of a frame frees the transmitter, in dormant too. -/
def Obligations.ToolLineEventsAreTaken : Prop :=
  (∀ (s : State) (chars : List Byte), s.live = true → s.tli.rx = .assembling chars →
    (s.pw.dormant = false → exec .toolFramingError s = .next (lineFaulted s .discarding).settleTx) ∧
    exec .toolRxGapExpiry s = .next (lineFaulted s (.assembling [])).settleTx) ∧
  (∀ s : State, s.live = true → s.tli.rx = .discarding →
    exec .toolRxIdleResync s = .next { s with tli.rx := .assembling [] } ∧ exec .toolRxGapExpiry s = .next s ∧
    (s.pw.dormant = false →
      exec .toolFramingError s = .next s ∧ ∀ bytes, exec (.toolFrame bytes) s = .next s)) ∧
  (∀ s : State, s.pw.power = .running → s.pw.dormant = true →
    exec .toolFramingError s = exec .rxdWake s ∧ ∀ bytes, exec (.toolFrame bytes) s = exec .rxdWake s) ∧
  (∀ s : State, s.tli.tx ≠ none → exec .frameSent s = .next (({ s with tli.tx := none } : State).transmit))

/-! ## Gate requests -/

namespace Sys2Proof.Claims

open Sys2Proof.Machine

/-- The Management Engine takes request `r` of a code (R195, R196): the gate runs awake, no request is in hand, and `r` is
the oldest of the management queue. -/
def asks (s : State) (code : Byte) (r : GateRequest) (rest : List GateRequest) : Prop :=
  s.pw.power = .running ∧ s.pw.dormant = false ∧ s.me.inHand = none ∧ s.me.queue = r :: rest ∧ r.code = code

/-- The state without the request taken. -/
def without (s : State) (rest : List GateRequest) : State := { s with me.queue := rest }

/-- A gate request is answered (R197). -/
def replied (u : State) (r : GateRequest) (st : Status) (payload : List Byte) : State :=
  u.answer [⟨7, r.tid, r.code, st, RespFlags.none, payload⟩]

/-- The request is refused with a status and without a payload, and nothing else changes. -/
def refuses (c : Instr) (s : State) (r : GateRequest) (rest : List GateRequest) (st : Status) : Prop :=
  exec c s = .next (replied (without s rest) r st []).settleTx

/-- A store write is in progress, or a load is in COMMITTING, which counts as one (R189). -/
def storing (s : State) : Prop := s.ts.write ≠ none ∨ ∃ l, s.il.load = some l ∧ l.stage = .committing

/-- The range, default and meaning of the configuration items (R203): the configuration with an item at a value. -/
def configured (s : State) (item value : Nat) (cfg : Settings) : Prop :=
  (item = 1 ∧ 10 ≤ value ∧ value ≤ 250 ∧ cfg = { s.cfg with settle := value }) ∨
  (item = 2 ∧ 2 ≤ value ∧ value ≤ 50 ∧ cfg = { s.cfg with response := value }) ∨
  (item = 3 ∧ 1 ≤ value ∧ value ≤ 600 ∧ cfg = { s.cfg with renew := value }) ∨
  (item = 4 ∧ 100 ≤ value ∧ value ≤ 10000 ∧ cfg = { s.cfg with grace := value }) ∨
  (item = 5 ∧ 1 ≤ value ∧ value ≤ 20 ∧ cfg = { s.cfg with linkHold := value }) ∨
  (item = 6 ∧ ((value = 0 ∧ cfg = { s.cfg with defaultToPack := .forward }) ∨
    (value = 1 ∧ cfg = { s.cfg with defaultToPack := .forwardAuth }) ∨
    (value = 2 ∧ cfg = { s.cfg with defaultToPack := .block })))

/-- The value that a configuration item holds (R205). -/
def configValue (s : State) (item value : Nat) : Prop :=
  (item = 1 ∧ value = s.cfg.settle) ∨ (item = 2 ∧ value = s.cfg.response) ∨ (item = 3 ∧ value = s.cfg.renew) ∨
  (item = 4 ∧ value = s.cfg.grace) ∨ (item = 5 ∧ value = s.cfg.linkHold) ∨
  (item = 6 ∧ ((value = 0 ∧ s.cfg.defaultToPack = .forward) ∨ (value = 1 ∧ s.cfg.defaultToPack = .forwardAuth) ∨
    (value = 2 ∧ s.cfg.defaultToPack = .block)))

end Sys2Proof.Claims

/-- GATE_STATUS, CONFIG_SET and CONFIG_GET (R202 to R205). The status is that of the moment of taking, and clear = 1
clears the flags behind it. An item is set only within its range, and is answered with the value stored. -/
def Obligations.StatusAndConfigurationAreServed : Prop :=
  ∀ (s : State) (r : GateRequest) (rest : List GateRequest),
    let u := without s rest
    let status : List Byte :=
      [s.flags.byte, (if s.pw.provision then 1 else 0) + (if s.sc.runFiltered then 2 else 0)] ++
        bytesBE 2 s.ts.model.gen.toNat ++ bytesBE 2 s.ts.revoke.gen.toNat ++
        [s.il.stateByte, outcomeByte s.il.lastOutcome]
    (asks s 0x01 r rest →
      (r.payload = [0] → exec .gateStatus s = .next (replied u r .ok status).settleTx) ∧
      (r.payload = [1] →
        exec .gateStatus s =
          .next (replied { u with flags := ⟨false, false, false, false, false, false⟩ } r .ok status).settleTx) ∧
      (r.payload ≠ [0] → r.payload ≠ [1] → refuses .gateStatus s r rest .range)) ∧
    (asks s 0x02 r rest →
      (∀ item hi lo : Byte, r.payload = [item, hi, lo] →
        let value := hi.toNat * 256 + lo.toNat
        (∀ cfg, configured s item.toNat value cfg →
          exec .configSet s = .next (replied { u with cfg := cfg } r .ok [hi, lo]).settleTx) ∧
        ((∀ cfg, ¬ configured s item.toNat value cfg) → refuses .configSet s r rest .range)) ∧
      (r.payload.length ≠ 3 → refuses .configSet s r rest .range)) ∧
    (asks s 0x03 r rest →
      (∀ item : Byte, r.payload = [item] →
        (∀ value, configValue s item.toNat value →
          exec .configGet s = .next (replied u r .ok (bytesBE 2 value)).settleTx) ∧
        (item.toNat = 0 ∨ 6 < item.toNat → refuses .configGet s r rest .range)) ∧
      (r.payload.length ≠ 1 → refuses .configGet s r rest .range))

namespace Sys2Proof.Claims

open Sys2Proof.Machine

/-- A timer's remaining time in units of some ms, rounded up (R206). -/
def remaining (t : Option Nat) (unit : Nat) : Nat :=
  match t with
  | none => 0
  | some ms => (ms + unit - 1) / unit

/-- The ten bytes of a bay on page 0 (R206). -/
def bayPicture (x : Bay) : List Byte :=
  [x.state.byte, reasonByte x.reason, byteOf x.strikes, if x.clean then 1 else 0] ++
    bytesBE 2 (remaining x.renew 100) ++ bytesBE 2 (remaining x.grace 10) ++
    [byteOf (remaining x.decay 1000), byteOf x.queue.length]

/-- The picture that SNAP_LATCH takes (R206), with the requests that wait behind it. -/
def picture (s : State) (waiting : Nat) : Snapshot where
  page0 := bayPicture (s.bay 0) ++ (bayPicture (s.bay 1) ++ (bayPicture (s.bay 2) ++ bayPicture (s.bay 3)))
  page1 :=
    [(s.sc.strings.get 0).byte, (s.sc.strings.get 1).byte, (s.sc.strings.get 2).byte, (s.sc.strings.get 3).byte,
      fourBits s.sc.ben, if s.sc.runFiltered then 1 else 0] ++
    bytesBE 2 s.ts.model.gen.toNat ++ bytesBE 2 s.ts.revoke.gen.toNat ++
    [byteOf s.cache.length, byteOf s.ff.capture.length, s.il.stateByte, outcomeByte s.il.lastOutcome, byteOf waiting]
  read0 := false
  read1 := false

end Sys2Proof.Claims

/-- SNAP_LATCH and SNAP_READ (R206, R207). A picture is taken when none is held, and kept with ALREADY_HELD otherwise. A
read sets the page's mark; the read that sets the second releases the picture. -/
def Obligations.SnapshotsAreLatchedAndRead : Prop :=
  ∀ (s : State) (r : GateRequest) (rest : List GateRequest),
    let u := without s rest
    (asks s 0x04 r rest →
      (r.payload = [] → s.me.snapshot = none →
        exec .snapLatch s =
          .next (replied { u with me.snapshot := some (picture s rest.length) } r .ok []).settleTx) ∧
      (r.payload = [] → s.me.snapshot ≠ none →
        exec .snapLatch s =
          .next (u.answer [⟨7, r.tid, r.code, .ok, ⟨false, false, false, true⟩, []⟩]).settleTx) ∧
      (r.payload ≠ [] → refuses .snapLatch s r rest .range)) ∧
    (asks s 0x05 r rest →
      (r.payload ≠ [0] → r.payload ≠ [1] → refuses .snapRead s r rest .range) ∧
      (r.payload = [0] ∨ r.payload = [1] → s.me.snapshot = none → refuses .snapRead s r rest .noneHeld) ∧
      (∀ p, s.me.snapshot = some p →
        (r.payload = [0] →
          exec .snapRead s =
            .next (replied { u with me.snapshot := if p.read1 then none else some { p with read0 := true } } r .ok
              p.page0).settleTx) ∧
        (r.payload = [1] →
          exec .snapRead s =
            .next (replied { u with me.snapshot := if p.read0 then none else some { p with read1 := true } } r .ok
              p.page1).settleTx)))

/-- DORMANT (R8, R169, R191, R195, R208). While RUN is active, a store write runs or a load is in COMMITTING it is refused
BUSY. Otherwise a load in LOADING or CHECKING is aborted, DORMANT is answered OK, the waiting requests are answered
CANCELLED (an edit with the live generation and count, log 21), every bay outside LOCKOUT is emptied with its requests
answered CANCELLED, present kept until the first sample (log 17), the strings are derived as for a removal with the dormant hold, and the capture queue and the snapshot are
released. The transmitter goes on. -/
def Obligations.DormantEntryDropsEveryBay : Prop :=
  ∀ (s : State) (r : GateRequest) (rest : List GateRequest), asks s 0x06 r rest →
    (r.payload ≠ [] → refuses .dormant s r rest .range) ∧
    (r.payload = [] → s.sc.runFiltered = true ∨ storing s → refuses .dormant s r rest .busy) ∧
    (r.payload = [] → s.sc.runFiltered = false → ¬ storing s →
      let u := without s rest
      let v : State :=
        match s.il.load with
        | none => u
        | some l =>
          loadEnded (if l.stage = .checking then { u with de := s.de.withdraw .management } else u) l .aborted
            .cancelled []
      let locked (b : Fin 4) : Bool := decide ((s.bay b).state = .lockout)
      let emptied (x : Bay) : Bay :=
        { lineDropped x with
          state := .empty
          identity := none
          packKey := none
          phase := none
          packNonce := none
          session := none
          reason := none
          attempts := 0
          claim := .none
          settle := none
          reattempt := none
          renew := none
          grace := none
          watch := none }
      let w : State :=
        ({ v with
          me.queue := []
          bays := Four.ofFn (fun b => if locked b then s.bay b else emptied (s.bay b))
          de := ([0, 1, 2, 3] : List (Fin 4)).foldl (fun d b => if locked b then d else d.withdraw (.bay b)) v.de
          tli.notices := { v.tli.notices with
            bays := Four.ofFn (fun b =>
              s.tli.notices.bays.get b || (!locked b && !decide ((s.bay b).state = .empty))) }
          pw := { s.pw with dormant := true, detSample := ⟨none, none, none, none⟩ } } : State).answer
          ([⟨7, r.tid, r.code, .ok, RespFlags.none, []⟩] ++
            (rest.map (fun q => rejected s q.tid q.code .cancelled) ++
              ([0, 1, 2, 3] : List (Fin 4)).flatMap (fun b => if locked b then [] else flushed s b .cancelled)))
      exec .dormant s =
        .next (State.transmit { w.derive true with ff.capture := [], me.snapshot := none }))

/-- GATE_RESET (R2, R48, R86, R149, R170, R178, R191, R211), with the DET inputs at the levels given. While a load is in
COMMITTING the request is held. Otherwise the volatile operating state returns to its reset values with every BEN off,
the answers become ready in their order (a waiting edit's CANCELLED with the live generation and count, log 21), the
strings and gate sources alone are pending, and each bay with DET active settles. Configuration, filter table, topology, policies, flags, tables, keys, receiver and response list are kept. -/
def Obligations.GateResetClearsTheOperation : Prop :=
  ∀ (s : State) (r : GateRequest) (rest : List GateRequest) (det : Four Bool), asks s 0x07 r rest →
    (r.payload ≠ [] → refuses (.gateReset det) s r rest .range) ∧
    (r.payload = [] → ∀ l, s.il.load = some l → l.stage = .committing →
      exec (.gateReset det) s =
        .next (State.settleTx
          { without s rest with me.inHand := some (.gateReset r.tid), pins.det := det })) ∧
    (r.payload = [] → (∀ l, s.il.load = some l → l.stage ≠ .committing) →
      let held : List Response :=
        match s.il.load with
        | some l =>
          (match l.endTid with
            | some tid => [⟨7, tid, 0x3A, .cancelled, RespFlags.none, []⟩]
            | none => [])
        | none => []
      let bay (b : Fin 4) : Bay :=
        if det.get b then settling (Bay.afterReset true) s.cfg.settle (s.pins.lineDominant.get b)
        else Bay.afterReset false
      exec (.gateReset det) s =
        .next (State.settleTx
          (({ s with
            pins.det := det
            bays := ⟨bay 0, bay 1, bay 2, bay 3⟩
            de := ⟨none, ⟨⟨none, none, none, none⟩, none⟩, ⟨⟨none, none, none, none⟩, none⟩, .management⟩
            cache := []
            ff.capture := []
            il := ⟨none, none⟩
            sc := { s.sc with
              strings := Four.ofFn (fun x => if membersOf s x = [] then .unused else .idle)
              reference := none
              ben := ⟨false, false, false, false⟩ }
            me := ⟨[], none, none⟩
            tli := { s.tli with notices := ⟨det, true, true⟩, woke := false }
            pw.detSample := ⟨none, none, none, none⟩ } : State).answer
            (([0, 1, 2, 3] : List (Fin 4)).flatMap (fun b => flushed s b .cancelled) ++ (held ++
              (rest.map (fun q => rejected s q.tid q.code .cancelled) ++
                [⟨7, r.tid, 0x07, .ok, RespFlags.none, []⟩]))))))

/-- BAY_QUERY and BAY_RETRY (R28, R29). A query changes nothing and reports the bay. A retry sends a bay in DENIED back to
IDENTIFYING with its attempts cleared, in one event with its arbiter and the derivation; in any other state it is refused
WRONG_STATE. -/
def Obligations.BaysAreQueriedAndRetried : Prop :=
  ∀ (s : State) (r : GateRequest) (rest : List GateRequest),
    let u := without s rest
    (asks s 0x10 r rest → ∀ b : Fin 4, r.payload = [BitVec.ofNat 8 b.val] →
      let x := s.bay b
      let identity : List Byte :=
        match x.identity with
        | none => [0, 0, 0, 0, 0, 0, 0, 0, 0, 0, 0, 0]
        | some id =>
          [if id.index = none then 1 else 3] ++ bytesBE 6 id.serial.toNat ++ bytesBE 2 id.code.toNat ++
            bytesBE 2 id.firmware.toNat ++
            [match id.index with
              | some i => BitVec.ofNat 8 i.val
              | none => 0]
      exec .bayQuery s =
        .next (replied u r .ok
          ([x.state.byte, reasonByte x.reason, if x.present then 1 else 0] ++ identity ++
            [phaseByte x.phase, x.claim.byte, byteOf x.strikes, if x.clean then 1 else 0, byteOf x.attempts,
              match x.session with
              | some t => t.number
              | none => 0,
              byteOf x.queue.length, x.line.byte])).settleTx) ∧
    (asks s 0x11 r rest → ∀ b : Fin 4, r.payload = [BitVec.ofNat 8 b.val] →
      ((s.bay b).state = .denied →
        exec .bayRetry s =
          .next (replied
            (((identified (u.setBay b { s.bay b with attempts := 0, reattempt := none }) b).arbitrate b).derive false)
            r .ok []).settleTx) ∧
      ((s.bay b).state ≠ .denied → refuses .bayRetry s r rest .wrongState))

/-- KEY_LOAD, KEY_CHECK and MODEL_GET (R34, R37, R58). A KEY_LOAD is refused outside provisioning mode, behind a store
write, and for slot 0 while a load is in CHECKING; taken, its store write begins and the request is held. A KEY_CHECK of
a LOADED slot submits its job and is held, unless a management job is outstanding, which refuses it BUSY. That an EMPTY
slot is refused NO_KEY behind a management job too is the model's choice: R37 gives NO_KEY and BUSY no order (log 35).
MODEL_GET reports an entry. -/
def Obligations.KeysAndModelsAreServed : Prop :=
  ∀ (s : State) (r : GateRequest) (rest : List GateRequest),
    let u := without s rest
    (asks s 0x20 r rest → ∀ (slot : Byte) (key : List Byte), r.payload = slot :: key → key.length = 16 →
      slot.toNat ≤ 7 →
      let checks : Prop := ∃ l, s.il.load = some l ∧ l.stage = .checking
      (s.pw.provision = false → refuses .keyLoad s r rest .locked) ∧
      (s.pw.provision = true → storing s ∨ (slot = 0 ∧ checks) → refuses .keyLoad s r rest .busy) ∧
      (s.pw.provision = true → ¬ storing s → ¬ (slot = 0 ∧ checks) →
        exec .keyLoad s =
          .next (State.settleTx
            { u with
              me.inHand := some (.keyLoad r.tid)
              ts.write := some (.keyLoad slot.toNat
                (s.ts.keys.set slot.toNat (some (BitVec.ofNat 128 (natBE key))))) }))) ∧
    (asks s 0x21 r rest → ∀ slot : Byte, r.payload = [slot] → slot.toNat ≤ 7 →
      (s.ts.keys.slot slot.toNat = none → refuses .keyCheck s r rest .noKey) ∧
      (s.ts.keys.slot slot.toNat ≠ none →
        let busy : Prop :=
          (∃ j, s.de.running = some j ∧ j.claimant = .management) ∨ s.de.waiting.management ≠ none ∨
            s.de.held.management ≠ none
        (busy → refuses .keyCheck s r rest .busy) ∧
        (¬ busy →
          exec .keyCheck s =
            .next ((({ u with me.inHand := some (.keyCheck r.tid) } : State).submit .management
              (.keyCheck slot.toNat)).settleTx)))) ∧
    (asks s 0x30 r rest → ∀ i : Byte, r.payload = [i] → i.toNat ≤ 31 →
      let e := s.ts.model.entry i.toNat
      let gen := bytesBE 2 s.ts.model.gen.toNat
      (e.code = 0 → exec .modelGet s = .next (replied u r .notFound gen).settleTx) ∧
      (e.code ≠ 0 →
        exec .modelGet s =
          .next (replied u r .ok
            ([i] ++ bytesBE 2 e.code.toNat ++ [e.keySlot] ++ bytesBE 2 e.minFirmware.toNat ++
              [e.chemistry, e.cells, e.capacity, e.current, e.flags] ++ gen)).settleTx))

/-- REVOKE_GET, REVOKE_ADD and REVOKE_DROP (R64, R68, R179 to R181): the conditions of an edit in their order, each
refusal with the live generation and count; an edit that none refuses begins its store write with the new list, and the
request is held. -/
def Obligations.RevocationsAreReadAndEdited : Prop :=
  ∀ (s : State) (r : GateRequest) (rest : List GateRequest),
    let u := without s rest
    let list := s.ts.revoke
    let gen := bytesBE 2 list.gen.toNat
    let count := byteOf list.ranges.length
    let loading : Prop := ∃ l, s.il.load = some l ∧ l.target = .revoke
    let edit (c : Instr) (st : Status) : Prop := exec c s = .next (replied u r st (gen ++ [count])).settleTx
    (asks s 0x31 r rest → ∀ i : Byte, r.payload = [i] → i.toNat ≤ 95 →
      (list.ranges.length ≤ i.toNat →
        exec .revokeGet s = .next (replied u r .notFound ([count] ++ gen)).settleTx) ∧
      (∀ x, list.ranges[i.toNat]? = some x →
        exec .revokeGet s =
          .next (replied u r .ok
            ([i] ++ bytesBE 6 x.first.toNat ++ bytesBE 6 x.last.toNat ++ [count] ++ gen)).settleTx)) ∧
    (asks s 0x32 r rest →
      (r.payload.length ≠ 14 → edit .revokeAdd .range) ∧
      (∀ g a z : List Byte, r.payload = g ++ (a ++ z) → g.length = 2 → a.length = 6 → z.length = 6 →
        let x : Range := ⟨BitVec.ofNat 48 (natBE a), BitVec.ofNat 48 (natBE z)⟩
        let overlap : Prop := ∃ y ∈ list.ranges, y.first.toNat ≤ x.last.toNat ∧ x.first.toNat ≤ y.last.toNat
        (natBE g ≠ list.gen.toNat → edit .revokeAdd .stale) ∧
        (natBE g = list.gen.toNat →
          (storing s ∨ loading → edit .revokeAdd .busy) ∧
          (¬ storing s → ¬ loading →
            (x.last.toNat < x.first.toNat → edit .revokeAdd .range) ∧
            (x.first.toNat ≤ x.last.toNat →
              (overlap → edit .revokeAdd .overlap) ∧
              (¬ overlap →
                (96 ≤ list.ranges.length → edit .revokeAdd .full) ∧
                (list.ranges.length < 96 →
                  let n := (list.ranges.filter (fun y => decide (y.first.toNat < x.first.toNat))).length
                  exec .revokeAdd s =
                    .next (State.settleTx
                      { u with
                        me.inHand := some (.revokeAdd r.tid n)
                        ts.write := some (.revokeEdit
                          ⟨list.ranges.take n ++ [x] ++ list.ranges.drop n, list.gen + 1⟩) })))))))) ∧
    (asks s 0x33 r rest →
      (r.payload.length ≠ 8 → edit .revokeDrop .range) ∧
      (∀ g a : List Byte, r.payload = g ++ a → g.length = 2 → a.length = 6 →
        let first : Serial := BitVec.ofNat 48 (natBE a)
        (natBE g ≠ list.gen.toNat → edit .revokeDrop .stale) ∧
        (natBE g = list.gen.toNat →
          (storing s ∨ loading → edit .revokeDrop .busy) ∧
          (¬ storing s → ¬ loading →
            ((∀ y ∈ list.ranges, y.first ≠ first) → edit .revokeDrop .notFound) ∧
            (∀ y ∈ list.ranges, y.first = first →
              exec .revokeDrop s =
                .next (State.settleTx
                  { u with
                    me.inHand := some (.revokeDrop r.tid)
                    ts.write := some (.revokeEdit
                      ⟨list.ranges.filter (fun y => decide (y.first ≠ first)), list.gen + 1⟩) }))))))

/-- IMAGE_BEGIN, IMAGE_DATA, IMAGE_END and IMAGE_CANCEL (R183 to R186, R190), by the state of the Image Loader: opening,
appending, closing with a CHECK_IMAGE job, cancelling, the refusals, and the aborts that some of them bring. -/
def Obligations.ImageLoadsProceed : Prop :=
  ∀ (s : State) (r : GateRequest) (rest : List GateRequest),
    let u := without s rest
    let aborted (l : Load) (o : LoadOutcome) : State :=
      loadEnded (if l.stage = .checking then { u with de := s.de.withdraw .management } else u) l o .cancelled []
    (asks s 0x38 r rest →
      (∀ l, s.il.load = some l →
        (l.stage = .committing → refuses .imageBegin s r rest .busy) ∧
        (l.stage ≠ .committing →
          exec .imageBegin s = .next (replied (aborted l .aborted) r .busy []).settleTx)) ∧
      (s.il.load = none →
        (r.payload.length ≠ 5 → refuses .imageBegin s r rest .range) ∧
        (∀ (k : Byte) (n g : List Byte), r.payload = k :: (n ++ g) → n.length = 2 → g.length = 2 →
          let target : ImageTarget := if k = 1 then .model else .revoke
          let live := if k = 1 then s.ts.model.gen else s.ts.revoke.gen
          let formed : Prop := (k = 1 ∨ k = 2) ∧ 1 ≤ natBE n ∧ natBE n ≤ 1024
          (¬ formed → refuses .imageBegin s r rest .range) ∧
          (formed → s.ts.write ≠ none → refuses .imageBegin s r rest .busy) ∧
          (formed → s.ts.write = none → natBE g ≠ live.toNat →
            exec .imageBegin s = .next (replied u r .stale (bytesBE 2 live.toNat)).settleTx) ∧
          (formed → s.ts.write = none → natBE g = live.toNat →
            exec .imageBegin s =
              .next (replied { u with il.load := some ⟨.loading, target, natBE n, live, none, [], none⟩ } r .ok
                []).settleTx)))) ∧
    (asks s 0x39 r rest →
      (s.il.load = none → refuses .imageData s r rest .order) ∧
      (∀ l, s.il.load = some l →
        (l.stage ≠ .loading → refuses .imageData s r rest .busy) ∧
        (l.stage = .loading →
          let fails (st : Status) : Prop := exec .imageData s = .next (replied (aborted l (.status st)) r st []).settleTx
          (r.payload.length < 3 ∨ 42 < r.payload.length → fails .range) ∧
          (∀ o bytes : List Byte, r.payload = o ++ bytes → o.length = 2 → 1 ≤ bytes.length → bytes.length ≤ 40 →
            (natBE o ≠ l.buffer.length → fails .order) ∧
            (natBE o = l.buffer.length →
              (l.declared < l.buffer.length + bytes.length → fails .range) ∧
              (l.buffer.length + bytes.length ≤ l.declared →
                exec .imageData s =
                  .next (replied { u with il.load := some { l with buffer := l.buffer ++ bytes } } r .ok
                    (bytesBE 2 (l.buffer.length + bytes.length))).settleTx)))))) ∧
    (asks s 0x3A r rest →
      (s.il.load = none → refuses .imageEnd s r rest .order) ∧
      (∀ l, s.il.load = some l →
        (l.stage ≠ .loading → refuses .imageEnd s r rest .busy) ∧
        (l.stage = .loading →
          let fails (st : Status) : Prop := exec .imageEnd s = .next (replied (aborted l (.status st)) r st []).settleTx
          (r.payload.length ≠ 8 → fails .range) ∧
          (r.payload.length = 8 → l.buffer.length ≠ l.declared → fails .order) ∧
          (r.payload.length = 8 → l.buffer.length = l.declared →
            (s.ts.keys.slot 0 = none → fails .noKey) ∧
            (s.ts.keys.slot 0 ≠ none →
              let digest : Digest := BitVec.ofNat 64 (natBE r.payload)
              exec .imageEnd s =
                .next ((({ u with
                  il.load := some { l with stage := .checking, digest := some digest, endTid := some r.tid } } :
                  State).submit .management (.checkImage l.buffer digest)).settleTx)))))) ∧
    (asks s 0x3B r rest → r.payload = [] →
      (s.il.load = none → refuses .imageCancel s r rest .wrongState) ∧
      (∀ l, s.il.load = some l →
        (l.stage = .committing → refuses .imageCancel s r rest .busy) ∧
        (l.stage ≠ .committing →
          exec .imageCancel s = .next (replied (aborted l .cancelled) r .ok []).settleTx)))

namespace Sys2Proof.Claims

open Sys2Proof.Machine

/-- The entry that the five bytes of a FILTER_SET give (R137, 12.4). Bits 7..6 and 3..2 of a TO_TOOL action byte belong to
no field, and are not looked at (log 34). -/
def givesEntry (b0 value mask bays action : Byte) : FilterEntry → Prop
  | .invalid => b0.getLsbD 0 = false
  | .toPack v m set a => b0 = 1 ∧ value = v ∧ mask = m ∧ bays = fourBits set ∧ action = a.byte
  | .toTool v m set l d =>
    b0 = 3 ∧ value = v ∧ mask = m ∧ bays = fourBits set ∧ action.toNat % 4 = l.num ∧ action.toNat / 16 % 4 = d.num

end Sys2Proof.Claims

/-- FILTER_SET, FILTER_GET and CAPTURE_TAKE (R137, R138, R150). An entry is written as given, or as invalid whatever its
other bytes when its valid bit is clear, and any other payload is refused RANGE. The unnamed bits of a TO_TOOL action byte
are ignored and read back as zero, which is the model's reading of R137 and R215 (log 34). The oldest captured reply leaves
the queue. -/
def Obligations.FiltersAndCapturesAreServed : Prop :=
  ∀ (s : State) (r : GateRequest) (rest : List GateRequest),
    let u := without s rest
    let set (i : Fin 16) (f : FilterEntry) : Prop :=
      exec .filterSet s = .next (replied { u with ff.table := s.ff.table.set i.val f } r .ok []).settleTx
    (asks s 0x40 r rest →
      let carries (i : Fin 16) (f : FilterEntry) : Prop :=
        ∃ b0 v m bays action, r.payload = [BitVec.ofNat 8 i.val, b0, v, m, bays, action] ∧
          givesEntry b0 v m bays action f
      (∀ i f, carries i f → set i f) ∧ ((∀ i f, ¬ carries i f) → refuses .filterSet s r rest .range)) ∧
    (asks s 0x41 r rest → ∀ (i : Fin 16) (f : FilterEntry), r.payload = [BitVec.ofNat 8 i.val] →
      s.ff.table[i.val]? = some f → exec .filterGet s = .next (replied u r .ok f.bytes).settleTx) ∧
    (asks s 0x42 r rest → r.payload = [] →
      (s.ff.capture = [] → refuses .captureTake s r rest .empty) ∧
      (∀ e more, s.ff.capture = e :: more →
        exec .captureTake s =
          .next (replied { u with ff.capture := more } r .ok
            ([BitVec.ofNat 8 e.bay.val, e.code, e.mark.byte, byteOf more.length, byteOf e.payload.length] ++
              e.payload)).settleTx))

namespace Sys2Proof.Claims

open Sys2Proof.Machine

/-- The strings source is raised for a string whose state or latch bay changed in the event (R163). -/
def noticed (old : State) (t : State) : State :=
  if ∃ x, (t.sc.strings.get x).byte ≠ (old.sc.strings.get x).byte ∨
      (t.sc.strings.get x).latchBay ≠ (old.sc.strings.get x).latchBay
  then t.raiseStrings else t

/-- Five bytes that a TOPOLOGY_SET carries, and TOPOLOGY_GET returns (R171, R172): four assignments, 0Fh for none, and the
set of strings under MANUAL. -/
def topologyBytes (assign : Four (Option (Fin 4))) (manual : Four Bool) : List Byte :=
  [assignByte (assign.get 0), assignByte (assign.get 1), assignByte (assign.get 2), assignByte (assign.get 3),
    fourBits manual]

/-- The set of bays of which something holds, as a byte. -/
def bayBits (p : Fin 4 → Bool) : Byte :=
  BitVec.ofNat 8 ((if p 0 then 1 else 0) + (if p 1 then 2 else 0) + (if p 2 then 4 else 0) + (if p 3 then 8 else 0))

/-- The byte of a number that every member of a string determines, or 0 when a member holds no attributes (R54, R173). -/
def ifAttributes (s : State) (x : Fin 4) (n : Nat) : Byte :=
  if (membersOf s x).all (fun b => (s.bay b).attrs.isSome) then byteOf n else 0

end Sys2Proof.Claims

/-- TOPOLOGY_SET, TOPOLOGY_GET, STRING_QUERY and STRING_RELEASE (R171 to R174). A topology is taken only with RUN inactive
and every BEN off; a latch stays when its string keeps its members and policy; the strings are derived in the same
event. A release returns a latched string to IDLE and derives. -/
def Obligations.TopologiesAndStringsAreServed : Prop :=
  ∀ (s : State) (r : GateRequest) (rest : List GateRequest),
    let u := without s rest
    (asks s 0x50 r rest → ∀ assign manual, r.payload = topologyBytes assign manual →
      (s.sc.runFiltered = true ∨ (∃ b, s.sc.ben.get b = true) → refuses .topologySet s r rest .busy) ∧
      (s.sc.runFiltered = false → (∀ b, s.sc.ben.get b = false) →
        let v : State := { u with sc.assign := assign, sc.manual := manual }
        let kept (x : Fin 4) : StringState :=
          match s.sc.strings.get x with
          | .latchedOff b =>
            if membersOf v x = membersOf s x ∧ manual.get x = s.sc.manual.get x then .latchedOff b else .idle
          | st => st
        let t := noticed s (State.derive { v with sc.strings := Four.ofFn kept } false)
        exec .topologySet s =
          .next (replied t r .ok
            [(t.sc.strings.get 0).byte, (t.sc.strings.get 1).byte, (t.sc.strings.get 2).byte,
              (t.sc.strings.get 3).byte]).settleTx)) ∧
    (asks s 0x51 r rest → r.payload = [] →
      exec .topologyGet s = .next (replied u r .ok (topologyBytes s.sc.assign s.sc.manual)).settleTx) ∧
    (asks s 0x52 r rest → ∀ x : Fin 4, r.payload = [BitVec.ofNat 8 x.val] →
      let st := s.sc.strings.get x
      let classes := (membersOf s x).filterMap (fun b => (s.bay b).attrs.map (fun a => a.current.toNat))
      exec .stringQuery s =
        .next (replied u r .ok
          [st.byte, if s.sc.manual.get x then 1 else 0, bayBits (fun b => (membersOf s x).contains b),
            bayBits (fun b => (membersOf s x).contains b && (s.bay b).state.eligible),
            ifAttributes s x (volts s x), ifAttributes s x (classes.min?.getD 0), if st = .enabled then 1 else 0,
            st.causeByte, st.holdByte, st.latchByte, byteOf (s.sc.reference.getD 0)]).settleTx) ∧
    (asks s 0x53 r rest → ∀ x : Fin 4, r.payload = [BitVec.ofNat 8 x.val] →
      (∀ b, s.sc.strings.get x = .latchedOff b →
        let t := noticed s (State.derive { u with sc.strings := s.sc.strings.set x .idle } false)
        exec .stringRelease s = .next (replied t r .ok [(t.sc.strings.get x).byte]).settleTx) ∧
      ((∀ b, s.sc.strings.get x ≠ .latchedOff b) → refuses .stringRelease s r rest .wrongState))

namespace Sys2Proof.Claims

open Sys2Proof.Machine

/-- The codes of the gate requests (12.3). -/
def requestCodes : List Byte :=
  [0x01, 0x02, 0x03, 0x04, 0x05, 0x06, 0x07, 0x10, 0x11, 0x20, 0x21, 0x30, 0x31, 0x32, 0x33, 0x38, 0x39, 0x3A, 0x3B,
    0x40, 0x41, 0x42, 0x50, 0x51, 0x52, 0x53]

/-- A request without arguments that carries some, or one of a single number that carries another length or a number
above the greatest. -/
def malformed (c : Instr) (code : Byte) (payload : List Byte) : Prop :=
  let single (most : Nat) : Prop := ∀ n : Byte, payload = [n] → most < n.toNat
  (c = .bayQuery ∧ code = 0x10 ∧ single 3) ∨ (c = .bayRetry ∧ code = 0x11 ∧ single 3) ∨
  (c = .keyLoad ∧ code = 0x20 ∧ (payload.length = 17 → ∃ slot key, payload = slot :: key ∧ 7 < slot.toNat)) ∨
  (c = .keyCheck ∧ code = 0x21 ∧ single 7) ∨ (c = .modelGet ∧ code = 0x30 ∧ single 31) ∨
  (c = .revokeGet ∧ code = 0x31 ∧ single 95) ∨ (c = .imageCancel ∧ code = 0x3B ∧ payload ≠ []) ∨
  (c = .filterGet ∧ code = 0x41 ∧ single 15) ∨ (c = .captureTake ∧ code = 0x42 ∧ payload ≠ []) ∨
  (c = .topologySet ∧ code = 0x50 ∧ ∀ assign manual, payload ≠ topologyBytes assign manual) ∨
  (c = .topologyGet ∧ code = 0x51 ∧ payload ≠ []) ∨ (c = .stringQuery ∧ code = 0x52 ∧ single 3) ∨
  (c = .stringRelease ∧ code = 0x53 ∧ single 3)

end Sys2Proof.Claims

/-- R196, R215: a code that no request has is refused UNKNOWN_CODE, and arguments of the wrong length or out of range are
refused RANGE; nothing else changes. The requests with further conditions state their own refusals. -/
def Obligations.BadRequestsAreRefused : Prop :=
  ∀ (s : State) (r : GateRequest) (rest : List GateRequest),
    (∀ code, asks s code r rest → code ∉ requestCodes → refuses .unknownCode s r rest .unknownCode) ∧
    (∀ c code, asks s code r rest → malformed c code r.payload → refuses c s r rest .range)

/-! ## Encodings -/

/-- 12.1, R108, R193, R213, 12.4, 12.5: what is encoded reads back. A pack-line frame of at most 16 payload bytes, whose
TAGGED bit tells whether it carries a tag, is judged good and gives every field back; so does a tool-line frame of at
most 48 payload bytes, with what follows it left over. A filter entry and a model record read back from their bytes. -/
def Obligations.EncodingsReadBack : Prop :=
  (∀ f : PackFrame, f.payload.length ≤ 16 → f.control.getLsbD 1 = f.tag.isSome → parsePack f.bytes = .good f) ∧
  (∀ (f : ToolFrame) (rest : List Byte), f.payload.length ≤ 48 →
    parseTool (f.bytes ++ rest) = .complete f.kindSelector f.tid f.code f.flags f.payload rest ∧
      kindField f.kindSelector = f.kind.num ∧ selectorField f.kindSelector = f.selector) ∧
  (∀ f : FilterEntry, filterField f.bytes = some f) ∧
  (∀ e : ModelEntry, modelRecord e.bytes = e)

/-! ## Invariants that every step keeps -/

namespace Sys2Proof.Claims

open Sys2Proof.Machine

/-- The limits of a bay's context (R22, R100, R112, R122, R130, R131). -/
def bayWithin (x : Bay) : Prop :=
  x.queue.length ≤ 4 ∧ x.strikes ≤ 7 ∧ x.attempts ≤ 3 ∧ x.authRetries ≤ 3 ∧
    (∀ e ∈ x.queue, e.payload.length ≤ 16 ∧ e.retries ≤ 3) ∧ (∀ n, x.linkRun = some n → n ≤ 4)

/-- The capacities of the gate's queues and buffers, and the verdict cache's one entry for a serial (R76, R134, R148,
R182, R195). -/
def withinCapacities (s : State) : Prop :=
  (∀ b, bayWithin (s.bay b)) ∧ s.me.queue.length ≤ 4 ∧ s.ff.table.length = 16 ∧ s.ff.capture.length ≤ 8 ∧
    s.cache.length ≤ 8 ∧ s.cache.Pairwise (fun a b => a.serial ≠ b.serial) ∧
    (∀ l, s.il.load = some l → l.buffer.length ≤ l.declared ∧ l.declared ≤ 1024)

/-- A model table of 32 entries, no model code twice, each non-empty entry with its fields in range (R49, R50). -/
def lawfulModel (t : ModelTable) : Prop :=
  t.entries.length = 32 ∧ t.entries.Pairwise (fun a b => a.code ≠ 0 → a.code ≠ b.code) ∧
    ∀ e ∈ t.entries, e.code = 0 ∨ inRange e

/-- A revocation list of at most 96 ranges, none empty, ascending and apart (R63, R64). -/
def lawfulList (l : RevList) : Prop :=
  l.ranges.length ≤ 96 ∧ (∀ r ∈ l.ranges, r.first.toNat ≤ r.last.toNat) ∧
    l.ranges.Pairwise (fun a b => a.last.toNat < b.first.toNat)

/-- The tables are lawful: live, stored, and in the store write in progress; and an image in COMMITTING has passed its
content check, and waits for the unit or is being written (R175, R188, R189). -/
def lawfulTables (s : State) : Prop :=
  lawfulModel s.ts.model ∧ lawfulModel s.ts.nvModel.content ∧ lawfulList s.ts.revoke ∧
    lawfulList s.ts.nvRevoke.content ∧ s.ts.keys.length = 8 ∧ s.ts.nvKeys.content.length = 8 ∧
    (∀ new, s.ts.write = some (.modelImage new) → lawfulModel new) ∧
    (∀ new, s.ts.write = some (.revokeImage new) ∨ s.ts.write = some (.revokeEdit new) → lawfulList new) ∧
    (∀ slot new, s.ts.write = some (.keyLoad slot new) → new.length = 8) ∧
    (∀ l, s.il.load = some l → l.stage = .committing → l.contentOk = true)

/-- R12, R70, R76: no two bays in CHALLENGING, AUTHORIZED, RENEWING or GRACE hold the same serial, and each holds one; no
bay in AUTHORIZED or RENEWING holds a serial that the live list covers, and no GENUINE cache entry stands for one. -/
def trustworthy (s : State) : Prop :=
  (∀ b, (s.bay b).state = .challenging ∨ (s.bay b).state = .authorized ∨ (s.bay b).state = .renewing ∨
      (s.bay b).state = .grace →
    ∃ id, (s.bay b).identity = some id ∧ ¬ heldElsewhere s b id.serial) ∧
  (∀ b id, (s.bay b).state = .authorized ∨ (s.bay b).state = .renewing → (s.bay b).identity = some id →
    ¬ covered s id.serial) ∧
  (∀ e ∈ s.cache, ∀ i key, e.verdict = .genuine i key → ¬ covered s e.serial)

/-- R153 to R163, R169: BEN is on exactly for the bays of ENABLED strings. An ENABLED string has members, all eligible
and fit, of the reference voltage; two ENABLED strings are both parallel throughout; none is ENABLED in provisioning
mode or in dormant. In dormant every bay is EMPTY or in LOCKOUT, no load is under way and no store write in progress
(R208). -/
def powerGated (s : State) : Prop :=
  (∀ b, s.sc.ben.get b = true ↔ ∃ x, s.sc.assign.get b = some x ∧ s.sc.strings.get x = .enabled) ∧
  (∀ x, s.sc.strings.get x = .enabled →
    membersOf s x ≠ [] ∧ (∀ b ∈ membersOf s x, eligible (s.bay b)) ∧ fit s x ∧ s.sc.reference = some (volts s x) ∧
      s.pw.provision = false ∧ s.pw.dormant = false ∧
      ∀ y, s.sc.strings.get y = .enabled → y ≠ x → parallel s x ∧ parallel s y) ∧
  (s.pw.dormant = true →
    s.ts.write = none ∧ s.il.load = none ∧ ∀ b, (s.bay b).state = .empty ∨ (s.bay b).state = .lockout)

end Sys2Proof.Claims

/-- Every step keeps the capacities of the queues, buffers, counters and the cache. -/
def Obligations.StepsKeepCapacities : Prop :=
  ∀ s t : State, withinCapacities s → step s = .next t → withinCapacities t

/-- R49, R50, R63, R64: every step keeps the tables lawful, live, stored and about to be written. -/
def Obligations.StepsKeepTablesLawful : Prop :=
  ∀ s t : State, lawfulTables s → step s = .next t → lawfulTables t

/-- Every step keeps the authorized bays and the cache clear of duplicate and of revoked serials. -/
def Obligations.StepsKeepTrust : Prop :=
  ∀ s t : State, trustworthy s → step s = .next t → trustworthy t

/-- Every step keeps power off every bay whose string may not be connected. -/
def Obligations.StepsKeepPowerGated : Prop :=
  ∀ s t : State, powerGated s → step s = .next t → powerGated t

/-- The state after reset satisfies the four invariants. -/
def Obligations.ResetSatisfiesTheInvariants : Prop :=
  withinCapacities State.reset ∧ lawfulTables State.reset ∧ trustworthy State.reset ∧ powerGated State.reset
end

