-- ==== Sys2Proof/Laws/Word.lean ====
section
/-! SUPPORT. Reading and replacing one of four. -/

namespace Sys2Proof

@[simp] theorem Four.get_set_same {α : Type} (f : Four α) (i : Fin 4) (x : α) : (f.set i x).get i = x := by
  fin_cases i <;> rfl

theorem Four.get_set_other {α : Type} (f : Four α) {i j : Fin 4} (x : α) (h : j ≠ i) :
    (f.set i x).get j = f.get j := by
  revert h; fin_cases i <;> fin_cases j <;> simp [Four.get, Four.set]

theorem Four.get_set {α : Type} (f : Four α) (i j : Fin 4) (x : α) :
    (f.set i x).get j = if j = i then x else f.get j := by
  split
  · next h => subst h; simp
  · next h => exact f.get_set_other x h

@[simp] theorem Four.set_set {α : Type} (f : Four α) (i : Fin 4) (x y : α) : (f.set i x).set i y = f.set i y := by
  fin_cases i <;> rfl

@[simp] theorem Four.set_get {α : Type} (f : Four α) (i : Fin 4) : f.set i (f.get i) = f := by
  fin_cases i <;> rfl

@[simp] theorem Four.get_fill {α : Type} (x : α) (i : Fin 4) : (Four.fill x).get i = x := by
  fin_cases i <;> rfl

@[simp] theorem Four.get_map {α β : Type} (g : α → β) (f : Four α) (i : Fin 4) : (f.map g).get i = g (f.get i) := by
  fin_cases i <;> rfl

@[simp] theorem Four.get_ofFn {α : Type} (g : Fin 4 → α) (i : Fin 4) : (Four.ofFn g).get i = g i := by
  fin_cases i <;> rfl

/-- Two records of four are equal when each of the four is. -/
theorem Four.ext_get {α : Type} {f g : Four α} (h : ∀ i, f.get i = g.get i) : f = g := by
  obtain ⟨a, b, c, d⟩ := f
  obtain ⟨a', b', c', d'⟩ := g
  have h0 := h 0; have h1 := h 1; have h2 := h 2; have h3 := h 3
  simp [Four.get] at h0 h1 h2 h3
  simp [h0, h1, h2, h3]

/-- Every one of the four numbers is listed. -/
@[simp] theorem Four.mem_indices (i : Fin 4) : i ∈ Four.indices := by fin_cases i <;> decide

end Sys2Proof
end

