-- ==== Sys2Proof/Laws/State.lean ====
section
/-! SUPPORT. The primitive operations over the state: what each writes, and the fields it leaves. -/

namespace Sys2Proof.Machine

/-! ## One bay -/

@[simp] theorem State.bay_setBay_same (s : State) (b : Fin 4) (x : Bay) : (s.setBay b x).bay b = x := by
  simp [State.bay, State.setBay]

theorem State.bay_setBay_other (s : State) {b o : Fin 4} (x : Bay) (h : o ≠ b) : (s.setBay b x).bay o = s.bay o := by
  simp [State.bay, State.setBay, Four.get_set_other _ _ h]

theorem State.bay_setBay (s : State) (b o : Fin 4) (x : Bay) :
    (s.setBay b x).bay o = if o = b then x else s.bay o := by
  simp [State.bay, State.setBay, Four.get_set]

@[simp] theorem State.bays_setBay (s : State) (b : Fin 4) (x : Bay) : (s.setBay b x).bays = s.bays.set b x := rfl

@[simp] theorem State.bays_putBay (s : State) (b : Fin 4) (x : Bay) : (s.putBay b x).bays = s.bays.set b x := by
  unfold State.putBay; split <;> rfl

@[simp] theorem State.bay_putBay_same (s : State) (b : Fin 4) (x : Bay) : (s.putBay b x).bay b = x := by
  simp [State.bay]

theorem State.bay_putBay (s : State) (b o : Fin 4) (x : Bay) :
    (s.putBay b x).bay o = if o = b then x else s.bay o := by
  simp [State.bay, Four.get_set]

/-! ## The values that the primitive operations write -/

@[simp] theorem State.notices_raiseBay (s : State) (b : Fin 4) :
    (s.raiseBay b).tli.notices = { s.tli.notices with bays := s.tli.notices.bays.set b true } := rfl

@[simp] theorem State.notices_raiseStrings (s : State) :
    s.raiseStrings.tli.notices = { s.tli.notices with strings := true } := rfl

@[simp] theorem State.notices_raiseGate (s : State) :
    s.raiseGate.tli.notices = { s.tli.notices with gate := true } := rfl

/-- A bay's source is raised when the change calls for it, and no other (R3). -/
theorem State.notices_putBay (s : State) (b : Fin 4) (x : Bay) :
    (s.putBay b x).tli.notices =
      if (s.bay b).noticed x then { s.tli.notices with bays := s.tli.notices.bays.set b true } else s.tli.notices := by
  unfold State.putBay; split <;> rfl

@[simp] theorem State.responses_answer (s : State) (rs : List Response) :
    (s.answer rs).tli.responses = s.tli.responses ++ rs := rfl

@[simp] theorem State.answer_nil (s : State) : s.answer [] = s := by simp [State.answer]

@[simp] theorem State.answer_answer (s : State) (xs ys : List Response) :
    (s.answer xs).answer ys = s.answer (xs ++ ys) := by simp [State.answer]

@[simp] theorem State.de_withdraw (s : State) (c : Claimant) : (s.withdraw c).de = s.de.withdraw c := rfl

@[simp] theorem State.de_withdrawAuth (s : State) (b : Fin 4) : (s.withdrawAuth b).de = s.de.withdrawAuth b := rfl

@[simp] theorem State.cache_cacheInsert (s : State) (x : Serial) (v : Verdict) (n l : Nat) :
    (s.cacheInsert x v n l).cache = Machine.cacheInsert s.cache ⟨x, v, n, l⟩ := rfl

@[simp] theorem State.flags_raised (s : State) :
    s.setModelLost.flags = { s.flags with modelLost := true } ∧
      s.setRevokeLost.flags = { s.flags with revokeLost := true } ∧
      s.setKeysLost.flags = { s.flags with keysLost := true } ∧
      s.setCaptureOverflow.flags = { s.flags with captureOverflow := true } ∧
      s.setToolFrameError.flags = { s.flags with toolFrameError := true } := ⟨rfl, rfl, rfl, rfl, rfl⟩

@[simp] theorem State.me_popRequest (s : State) : s.popRequest.me = { s.me with queue := s.me.queue.tail } := rfl

@[simp] theorem State.me_hold (s : State) (h : InHand) : (s.hold h).me = { s.me with inHand := some h } := rfl

@[simp] theorem State.rx_setRx (s : State) (r : Receiver) : (s.setRx r).tli.rx = r := rfl

/-- What a derivation leaves is the String Controller's own function of the bays (R156). -/
@[simp] theorem State.sc_derive (s : State) (r : Bool) :
    (s.derive r).sc = s.sc.derive s.bays ⟨r, s.sc.runFiltered, s.pw.provision, s.pw.dormant⟩ := by
  unfold State.derive; dsimp only; split <;> rfl

/-! ## The fields that each operation leaves -/

@[simp] theorem State.raiseBay_frame (s : State) (b : Fin 4) :
      (s.raiseBay b).bays = s.bays ∧ (s.raiseBay b).de = s.de ∧ (s.raiseBay b).ts = s.ts ∧
      (s.raiseBay b).il = s.il ∧ (s.raiseBay b).cache = s.cache ∧ (s.raiseBay b).ff = s.ff ∧
      (s.raiseBay b).sc = s.sc ∧ (s.raiseBay b).me = s.me ∧ (s.raiseBay b).tli.rx = s.tli.rx ∧
      (s.raiseBay b).tli.responses = s.tli.responses ∧ (s.raiseBay b).tli.tx = s.tli.tx ∧
      (s.raiseBay b).tli.woke = s.tli.woke ∧ (s.raiseBay b).pw = s.pw ∧ (s.raiseBay b).cfg = s.cfg ∧
      (s.raiseBay b).flags = s.flags ∧ (s.raiseBay b).pins = s.pins ∧
      (s.raiseBay b).nonceDraws = s.nonceDraws ∧ (s.raiseBay b).pending = s.pending ∧
      ∀ other, (s.raiseBay b).bay other = s.bay other := by
  unfold State.raiseBay; simp [State.bay]

@[simp] theorem State.raiseStrings_frame (s : State) :
      (s.raiseStrings).bays = s.bays ∧ (s.raiseStrings).de = s.de ∧ (s.raiseStrings).ts = s.ts ∧
      (s.raiseStrings).il = s.il ∧ (s.raiseStrings).cache = s.cache ∧ (s.raiseStrings).ff = s.ff ∧
      (s.raiseStrings).sc = s.sc ∧ (s.raiseStrings).me = s.me ∧ (s.raiseStrings).tli.rx = s.tli.rx ∧
      (s.raiseStrings).tli.responses = s.tli.responses ∧ (s.raiseStrings).tli.tx = s.tli.tx ∧
      (s.raiseStrings).tli.woke = s.tli.woke ∧ (s.raiseStrings).pw = s.pw ∧ (s.raiseStrings).cfg = s.cfg ∧
      (s.raiseStrings).flags = s.flags ∧ (s.raiseStrings).pins = s.pins ∧
      (s.raiseStrings).nonceDraws = s.nonceDraws ∧ (s.raiseStrings).pending = s.pending ∧
      ∀ other, (s.raiseStrings).bay other = s.bay other := by
  unfold State.raiseStrings; simp [State.bay]

@[simp] theorem State.raiseGate_frame (s : State) :
      (s.raiseGate).bays = s.bays ∧ (s.raiseGate).de = s.de ∧ (s.raiseGate).ts = s.ts ∧
      (s.raiseGate).il = s.il ∧ (s.raiseGate).cache = s.cache ∧ (s.raiseGate).ff = s.ff ∧
      (s.raiseGate).sc = s.sc ∧ (s.raiseGate).me = s.me ∧ (s.raiseGate).tli.rx = s.tli.rx ∧
      (s.raiseGate).tli.responses = s.tli.responses ∧ (s.raiseGate).tli.tx = s.tli.tx ∧
      (s.raiseGate).tli.woke = s.tli.woke ∧ (s.raiseGate).pw = s.pw ∧ (s.raiseGate).cfg = s.cfg ∧
      (s.raiseGate).flags = s.flags ∧ (s.raiseGate).pins = s.pins ∧ (s.raiseGate).nonceDraws = s.nonceDraws ∧
      (s.raiseGate).pending = s.pending ∧ ∀ other, (s.raiseGate).bay other = s.bay other := by
  unfold State.raiseGate; simp [State.bay]

@[simp] theorem State.setBay_frame (s : State) (b : Fin 4) (x : Bay) :
      (s.setBay b x).de = s.de ∧ (s.setBay b x).ts = s.ts ∧ (s.setBay b x).il = s.il ∧
      (s.setBay b x).cache = s.cache ∧ (s.setBay b x).ff = s.ff ∧ (s.setBay b x).sc = s.sc ∧
      (s.setBay b x).me = s.me ∧ (s.setBay b x).tli = s.tli ∧ (s.setBay b x).pw = s.pw ∧
      (s.setBay b x).cfg = s.cfg ∧ (s.setBay b x).flags = s.flags ∧ (s.setBay b x).pins = s.pins ∧
      (s.setBay b x).nonceDraws = s.nonceDraws ∧ (s.setBay b x).pending = s.pending := by
  unfold State.setBay; simp

@[simp] theorem State.setModelLost_frame (s : State) :
      (s.setModelLost).bays = s.bays ∧ (s.setModelLost).de = s.de ∧ (s.setModelLost).ts = s.ts ∧
      (s.setModelLost).il = s.il ∧ (s.setModelLost).cache = s.cache ∧ (s.setModelLost).ff = s.ff ∧
      (s.setModelLost).sc = s.sc ∧ (s.setModelLost).me = s.me ∧ (s.setModelLost).tli.rx = s.tli.rx ∧
      (s.setModelLost).tli.responses = s.tli.responses ∧ (s.setModelLost).tli.tx = s.tli.tx ∧
      (s.setModelLost).tli.woke = s.tli.woke ∧ (s.setModelLost).pw = s.pw ∧ (s.setModelLost).cfg = s.cfg ∧
      (s.setModelLost).pins = s.pins ∧ (s.setModelLost).nonceDraws = s.nonceDraws ∧
      (s.setModelLost).pending = s.pending ∧ ∀ other, (s.setModelLost).bay other = s.bay other := by
  unfold State.setModelLost; simp [State.raiseGate, State.bay]

@[simp] theorem State.setRevokeLost_frame (s : State) :
      (s.setRevokeLost).bays = s.bays ∧ (s.setRevokeLost).de = s.de ∧ (s.setRevokeLost).ts = s.ts ∧
      (s.setRevokeLost).il = s.il ∧ (s.setRevokeLost).cache = s.cache ∧ (s.setRevokeLost).ff = s.ff ∧
      (s.setRevokeLost).sc = s.sc ∧ (s.setRevokeLost).me = s.me ∧ (s.setRevokeLost).tli.rx = s.tli.rx ∧
      (s.setRevokeLost).tli.responses = s.tli.responses ∧ (s.setRevokeLost).tli.tx = s.tli.tx ∧
      (s.setRevokeLost).tli.woke = s.tli.woke ∧ (s.setRevokeLost).pw = s.pw ∧ (s.setRevokeLost).cfg = s.cfg ∧
      (s.setRevokeLost).pins = s.pins ∧ (s.setRevokeLost).nonceDraws = s.nonceDraws ∧
      (s.setRevokeLost).pending = s.pending ∧ ∀ other, (s.setRevokeLost).bay other = s.bay other := by
  unfold State.setRevokeLost; simp [State.raiseGate, State.bay]

@[simp] theorem State.setKeysLost_frame (s : State) :
      (s.setKeysLost).bays = s.bays ∧ (s.setKeysLost).de = s.de ∧ (s.setKeysLost).ts = s.ts ∧
      (s.setKeysLost).il = s.il ∧ (s.setKeysLost).cache = s.cache ∧ (s.setKeysLost).ff = s.ff ∧
      (s.setKeysLost).sc = s.sc ∧ (s.setKeysLost).me = s.me ∧ (s.setKeysLost).tli.rx = s.tli.rx ∧
      (s.setKeysLost).tli.responses = s.tli.responses ∧ (s.setKeysLost).tli.tx = s.tli.tx ∧
      (s.setKeysLost).tli.woke = s.tli.woke ∧ (s.setKeysLost).pw = s.pw ∧ (s.setKeysLost).cfg = s.cfg ∧
      (s.setKeysLost).pins = s.pins ∧ (s.setKeysLost).nonceDraws = s.nonceDraws ∧
      (s.setKeysLost).pending = s.pending ∧ ∀ other, (s.setKeysLost).bay other = s.bay other := by
  unfold State.setKeysLost; simp [State.raiseGate, State.bay]

@[simp] theorem State.setCaptureOverflow_frame (s : State) :
      (s.setCaptureOverflow).bays = s.bays ∧ (s.setCaptureOverflow).de = s.de ∧
      (s.setCaptureOverflow).ts = s.ts ∧ (s.setCaptureOverflow).il = s.il ∧
      (s.setCaptureOverflow).cache = s.cache ∧ (s.setCaptureOverflow).ff = s.ff ∧
      (s.setCaptureOverflow).sc = s.sc ∧ (s.setCaptureOverflow).me = s.me ∧
      (s.setCaptureOverflow).tli.rx = s.tli.rx ∧ (s.setCaptureOverflow).tli.responses = s.tli.responses ∧
      (s.setCaptureOverflow).tli.tx = s.tli.tx ∧ (s.setCaptureOverflow).tli.woke = s.tli.woke ∧
      (s.setCaptureOverflow).pw = s.pw ∧ (s.setCaptureOverflow).cfg = s.cfg ∧
      (s.setCaptureOverflow).pins = s.pins ∧ (s.setCaptureOverflow).nonceDraws = s.nonceDraws ∧
      (s.setCaptureOverflow).pending = s.pending ∧ ∀ other, (s.setCaptureOverflow).bay other = s.bay other := by
  unfold State.setCaptureOverflow; simp [State.raiseGate, State.bay]

@[simp] theorem State.setToolFrameError_frame (s : State) :
      (s.setToolFrameError).bays = s.bays ∧ (s.setToolFrameError).de = s.de ∧ (s.setToolFrameError).ts = s.ts ∧
      (s.setToolFrameError).il = s.il ∧ (s.setToolFrameError).cache = s.cache ∧
      (s.setToolFrameError).ff = s.ff ∧ (s.setToolFrameError).sc = s.sc ∧ (s.setToolFrameError).me = s.me ∧
      (s.setToolFrameError).tli.rx = s.tli.rx ∧ (s.setToolFrameError).tli.responses = s.tli.responses ∧
      (s.setToolFrameError).tli.tx = s.tli.tx ∧ (s.setToolFrameError).tli.woke = s.tli.woke ∧
      (s.setToolFrameError).pw = s.pw ∧ (s.setToolFrameError).cfg = s.cfg ∧
      (s.setToolFrameError).pins = s.pins ∧ (s.setToolFrameError).nonceDraws = s.nonceDraws ∧
      (s.setToolFrameError).pending = s.pending ∧ ∀ other, (s.setToolFrameError).bay other = s.bay other := by
  unfold State.setToolFrameError; simp [State.raiseGate, State.bay]

@[simp] theorem State.answer_frame (s : State) (rs : List Response) :
      (s.answer rs).bays = s.bays ∧ (s.answer rs).de = s.de ∧ (s.answer rs).ts = s.ts ∧
      (s.answer rs).il = s.il ∧ (s.answer rs).cache = s.cache ∧ (s.answer rs).ff = s.ff ∧
      (s.answer rs).sc = s.sc ∧ (s.answer rs).me = s.me ∧ (s.answer rs).tli.rx = s.tli.rx ∧
      (s.answer rs).tli.tx = s.tli.tx ∧ (s.answer rs).tli.notices = s.tli.notices ∧
      (s.answer rs).tli.woke = s.tli.woke ∧ (s.answer rs).pw = s.pw ∧ (s.answer rs).cfg = s.cfg ∧
      (s.answer rs).flags = s.flags ∧ (s.answer rs).pins = s.pins ∧ (s.answer rs).nonceDraws = s.nonceDraws ∧
      (s.answer rs).pending = s.pending ∧ ∀ other, (s.answer rs).bay other = s.bay other := by
  unfold State.answer; simp [State.bay]

@[simp] theorem State.withdraw_frame (s : State) (c : Claimant) :
      (s.withdraw c).bays = s.bays ∧ (s.withdraw c).ts = s.ts ∧ (s.withdraw c).il = s.il ∧
      (s.withdraw c).cache = s.cache ∧ (s.withdraw c).ff = s.ff ∧ (s.withdraw c).sc = s.sc ∧
      (s.withdraw c).me = s.me ∧ (s.withdraw c).tli = s.tli ∧ (s.withdraw c).pw = s.pw ∧
      (s.withdraw c).cfg = s.cfg ∧ (s.withdraw c).flags = s.flags ∧ (s.withdraw c).pins = s.pins ∧
      (s.withdraw c).nonceDraws = s.nonceDraws ∧ (s.withdraw c).pending = s.pending ∧
      ∀ other, (s.withdraw c).bay other = s.bay other := by
  unfold State.withdraw; simp [State.bay]

@[simp] theorem State.withdrawAuth_frame (s : State) (b : Fin 4) :
      (s.withdrawAuth b).bays = s.bays ∧ (s.withdrawAuth b).ts = s.ts ∧ (s.withdrawAuth b).il = s.il ∧
      (s.withdrawAuth b).cache = s.cache ∧ (s.withdrawAuth b).ff = s.ff ∧ (s.withdrawAuth b).sc = s.sc ∧
      (s.withdrawAuth b).me = s.me ∧ (s.withdrawAuth b).tli = s.tli ∧ (s.withdrawAuth b).pw = s.pw ∧
      (s.withdrawAuth b).cfg = s.cfg ∧ (s.withdrawAuth b).flags = s.flags ∧ (s.withdrawAuth b).pins = s.pins ∧
      (s.withdrawAuth b).nonceDraws = s.nonceDraws ∧ (s.withdrawAuth b).pending = s.pending ∧
      ∀ other, (s.withdrawAuth b).bay other = s.bay other := by
  unfold State.withdrawAuth; simp [State.bay]

@[simp] theorem State.engineFree_frame (s : State) :
      (s.engineFree).bays = s.bays ∧ (s.engineFree).ts = s.ts ∧ (s.engineFree).il = s.il ∧
      (s.engineFree).cache = s.cache ∧ (s.engineFree).ff = s.ff ∧ (s.engineFree).sc = s.sc ∧
      (s.engineFree).me = s.me ∧ (s.engineFree).tli = s.tli ∧ (s.engineFree).pw = s.pw ∧
      (s.engineFree).cfg = s.cfg ∧ (s.engineFree).flags = s.flags ∧ (s.engineFree).pins = s.pins ∧
      (s.engineFree).nonceDraws = s.nonceDraws ∧ (s.engineFree).pending = s.pending ∧
      ∀ other, (s.engineFree).bay other = s.bay other := by
  unfold State.engineFree; simp [State.bay]

@[simp] theorem State.cacheInsert_frame (s : State) (x : Serial) (v : Verdict) (n l : Nat) :
      (s.cacheInsert x v n l).bays = s.bays ∧ (s.cacheInsert x v n l).de = s.de ∧
      (s.cacheInsert x v n l).ts = s.ts ∧ (s.cacheInsert x v n l).il = s.il ∧
      (s.cacheInsert x v n l).ff = s.ff ∧ (s.cacheInsert x v n l).sc = s.sc ∧
      (s.cacheInsert x v n l).me = s.me ∧ (s.cacheInsert x v n l).tli = s.tli ∧
      (s.cacheInsert x v n l).pw = s.pw ∧ (s.cacheInsert x v n l).cfg = s.cfg ∧
      (s.cacheInsert x v n l).flags = s.flags ∧ (s.cacheInsert x v n l).pins = s.pins ∧
      (s.cacheInsert x v n l).nonceDraws = s.nonceDraws ∧ (s.cacheInsert x v n l).pending = s.pending ∧
      ∀ other, (s.cacheInsert x v n l).bay other = s.bay other := by
  unfold State.cacheInsert; simp [State.bay]

@[simp] theorem State.setLineLevel_frame (s : State) (b : Fin 4) (d : Bool) :
      (s.setLineLevel b d).bays = s.bays ∧ (s.setLineLevel b d).de = s.de ∧ (s.setLineLevel b d).ts = s.ts ∧
      (s.setLineLevel b d).il = s.il ∧ (s.setLineLevel b d).cache = s.cache ∧ (s.setLineLevel b d).ff = s.ff ∧
      (s.setLineLevel b d).sc = s.sc ∧ (s.setLineLevel b d).me = s.me ∧ (s.setLineLevel b d).tli = s.tli ∧
      (s.setLineLevel b d).pw = s.pw ∧ (s.setLineLevel b d).cfg = s.cfg ∧
      (s.setLineLevel b d).flags = s.flags ∧ (s.setLineLevel b d).nonceDraws = s.nonceDraws ∧
      (s.setLineLevel b d).pending = s.pending ∧ ∀ other, (s.setLineLevel b d).bay other = s.bay other := by
  unfold State.setLineLevel; simp [State.bay]

@[simp] theorem State.setDet_frame (s : State) (b : Fin 4) (d : Bool) :
      (s.setDet b d).bays = s.bays ∧ (s.setDet b d).de = s.de ∧ (s.setDet b d).ts = s.ts ∧
      (s.setDet b d).il = s.il ∧ (s.setDet b d).cache = s.cache ∧ (s.setDet b d).ff = s.ff ∧
      (s.setDet b d).sc = s.sc ∧ (s.setDet b d).me = s.me ∧ (s.setDet b d).tli = s.tli ∧
      (s.setDet b d).pw = s.pw ∧ (s.setDet b d).cfg = s.cfg ∧ (s.setDet b d).flags = s.flags ∧
      (s.setDet b d).nonceDraws = s.nonceDraws ∧ (s.setDet b d).pending = s.pending ∧
      ∀ other, (s.setDet b d).bay other = s.bay other := by
  unfold State.setDet; simp [State.bay]

@[simp] theorem State.setRx_frame (s : State) (r : Receiver) :
      (s.setRx r).bays = s.bays ∧ (s.setRx r).de = s.de ∧ (s.setRx r).ts = s.ts ∧ (s.setRx r).il = s.il ∧
      (s.setRx r).cache = s.cache ∧ (s.setRx r).ff = s.ff ∧ (s.setRx r).sc = s.sc ∧ (s.setRx r).me = s.me ∧
      (s.setRx r).tli.responses = s.tli.responses ∧ (s.setRx r).tli.tx = s.tli.tx ∧
      (s.setRx r).tli.notices = s.tli.notices ∧ (s.setRx r).tli.woke = s.tli.woke ∧ (s.setRx r).pw = s.pw ∧
      (s.setRx r).cfg = s.cfg ∧ (s.setRx r).flags = s.flags ∧ (s.setRx r).pins = s.pins ∧
      (s.setRx r).nonceDraws = s.nonceDraws ∧ (s.setRx r).pending = s.pending ∧
      ∀ other, (s.setRx r).bay other = s.bay other := by
  unfold State.setRx; simp [State.bay]

@[simp] theorem State.popRequest_frame (s : State) :
      (s.popRequest).bays = s.bays ∧ (s.popRequest).de = s.de ∧ (s.popRequest).ts = s.ts ∧
      (s.popRequest).il = s.il ∧ (s.popRequest).cache = s.cache ∧ (s.popRequest).ff = s.ff ∧
      (s.popRequest).sc = s.sc ∧ (s.popRequest).tli = s.tli ∧ (s.popRequest).pw = s.pw ∧
      (s.popRequest).cfg = s.cfg ∧ (s.popRequest).flags = s.flags ∧ (s.popRequest).pins = s.pins ∧
      (s.popRequest).nonceDraws = s.nonceDraws ∧ (s.popRequest).pending = s.pending ∧
      ∀ other, (s.popRequest).bay other = s.bay other := by
  unfold State.popRequest; simp [State.bay]

@[simp] theorem State.hold_frame (s : State) (h : InHand) :
      (s.hold h).bays = s.bays ∧ (s.hold h).de = s.de ∧ (s.hold h).ts = s.ts ∧ (s.hold h).il = s.il ∧
      (s.hold h).cache = s.cache ∧ (s.hold h).ff = s.ff ∧ (s.hold h).sc = s.sc ∧ (s.hold h).tli = s.tli ∧
      (s.hold h).pw = s.pw ∧ (s.hold h).cfg = s.cfg ∧ (s.hold h).flags = s.flags ∧ (s.hold h).pins = s.pins ∧
      (s.hold h).nonceDraws = s.nonceDraws ∧ (s.hold h).pending = s.pending ∧
      ∀ other, (s.hold h).bay other = s.bay other := by
  unfold State.hold; simp [State.bay]

@[simp] theorem State.takeRun_frame (s : State) (d : Bool) :
      (s.takeRun d).bays = s.bays ∧ (s.takeRun d).de = s.de ∧ (s.takeRun d).ts = s.ts ∧
      (s.takeRun d).il = s.il ∧ (s.takeRun d).cache = s.cache ∧ (s.takeRun d).ff = s.ff ∧
      (s.takeRun d).me = s.me ∧ (s.takeRun d).tli = s.tli ∧ (s.takeRun d).pw = s.pw ∧
      (s.takeRun d).cfg = s.cfg ∧ (s.takeRun d).flags = s.flags ∧ (s.takeRun d).pins = s.pins ∧
      (s.takeRun d).nonceDraws = s.nonceDraws ∧ (s.takeRun d).pending = s.pending ∧
      ∀ other, (s.takeRun d).bay other = s.bay other := by
  unfold State.takeRun; simp [State.bay]

@[simp] theorem State.putBay_frame (s : State) (b : Fin 4) (x : Bay) :
      (s.putBay b x).de = s.de ∧ (s.putBay b x).ts = s.ts ∧ (s.putBay b x).il = s.il ∧
      (s.putBay b x).cache = s.cache ∧ (s.putBay b x).ff = s.ff ∧ (s.putBay b x).sc = s.sc ∧
      (s.putBay b x).me = s.me ∧ (s.putBay b x).tli.rx = s.tli.rx ∧
      (s.putBay b x).tli.responses = s.tli.responses ∧ (s.putBay b x).tli.tx = s.tli.tx ∧
      (s.putBay b x).tli.woke = s.tli.woke ∧ (s.putBay b x).pw = s.pw ∧ (s.putBay b x).cfg = s.cfg ∧
      (s.putBay b x).flags = s.flags ∧ (s.putBay b x).pins = s.pins ∧
      (s.putBay b x).nonceDraws = s.nonceDraws ∧ (s.putBay b x).pending = s.pending := by
  unfold State.putBay; split <;> simp

@[simp] theorem State.transmit_frame (s : State) :
      (s.transmit).bays = s.bays ∧ (s.transmit).de = s.de ∧ (s.transmit).ts = s.ts ∧ (s.transmit).il = s.il ∧
      (s.transmit).cache = s.cache ∧ (s.transmit).ff = s.ff ∧ (s.transmit).sc = s.sc ∧ (s.transmit).me = s.me ∧
      (s.transmit).tli.rx = s.tli.rx ∧ (s.transmit).pw = s.pw ∧ (s.transmit).cfg = s.cfg ∧
      (s.transmit).flags = s.flags ∧ (s.transmit).pins = s.pins ∧ (s.transmit).nonceDraws = s.nonceDraws ∧
      (s.transmit).pending = s.pending ∧ ∀ other, (s.transmit).bay other = s.bay other := by
  unfold State.transmit; (repeat' split) <;> simp [State.bay]

@[simp] theorem State.settleTx_frame (s : State) :
      (s.settleTx).bays = s.bays ∧ (s.settleTx).de = s.de ∧ (s.settleTx).ts = s.ts ∧ (s.settleTx).il = s.il ∧
      (s.settleTx).cache = s.cache ∧ (s.settleTx).ff = s.ff ∧ (s.settleTx).sc = s.sc ∧ (s.settleTx).me = s.me ∧
      (s.settleTx).tli.rx = s.tli.rx ∧ (s.settleTx).pw = s.pw ∧ (s.settleTx).cfg = s.cfg ∧
      (s.settleTx).flags = s.flags ∧ (s.settleTx).pins = s.pins ∧ (s.settleTx).nonceDraws = s.nonceDraws ∧
      (s.settleTx).pending = s.pending ∧ ∀ other, (s.settleTx).bay other = s.bay other := by
  unfold State.settleTx; split <;> simp [State.bay]

@[simp] theorem State.derive_frame (s : State) (r : Bool) :
      (s.derive r).bays = s.bays ∧ (s.derive r).de = s.de ∧ (s.derive r).ts = s.ts ∧ (s.derive r).il = s.il ∧
      (s.derive r).cache = s.cache ∧ (s.derive r).ff = s.ff ∧ (s.derive r).me = s.me ∧
      (s.derive r).tli.rx = s.tli.rx ∧ (s.derive r).tli.responses = s.tli.responses ∧
      (s.derive r).tli.tx = s.tli.tx ∧ (s.derive r).tli.woke = s.tli.woke ∧ (s.derive r).pw = s.pw ∧
      (s.derive r).cfg = s.cfg ∧ (s.derive r).flags = s.flags ∧ (s.derive r).pins = s.pins ∧
      (s.derive r).nonceDraws = s.nonceDraws ∧ (s.derive r).pending = s.pending ∧
      ∀ other, (s.derive r).bay other = s.bay other := by
  unfold State.derive; dsimp only; split <;> simp [State.bay, State.raiseStrings]

@[simp] theorem State.arbitrate_frame (s : State) (b : Fin 4) :
      (s.arbitrate b).de = s.de ∧ (s.arbitrate b).ts = s.ts ∧ (s.arbitrate b).il = s.il ∧
      (s.arbitrate b).cache = s.cache ∧ (s.arbitrate b).ff = s.ff ∧ (s.arbitrate b).sc = s.sc ∧
      (s.arbitrate b).me = s.me ∧ (s.arbitrate b).tli.rx = s.tli.rx ∧ (s.arbitrate b).tli.tx = s.tli.tx ∧
      (s.arbitrate b).tli.notices = s.tli.notices ∧ (s.arbitrate b).tli.woke = s.tli.woke ∧
      (s.arbitrate b).pw = s.pw ∧ (s.arbitrate b).cfg = s.cfg ∧ (s.arbitrate b).flags = s.flags ∧
      (s.arbitrate b).pins = s.pins ∧ (s.arbitrate b).nonceDraws = s.nonceDraws ∧
      (s.arbitrate b).pending = s.pending := by
  simp [State.arbitrate]

@[simp] theorem State.arbitrateAll_frame (s : State) :
      (s.arbitrateAll).de = s.de ∧ (s.arbitrateAll).ts = s.ts ∧ (s.arbitrateAll).il = s.il ∧
      (s.arbitrateAll).cache = s.cache ∧ (s.arbitrateAll).ff = s.ff ∧ (s.arbitrateAll).sc = s.sc ∧
      (s.arbitrateAll).me = s.me ∧ (s.arbitrateAll).tli.rx = s.tli.rx ∧ (s.arbitrateAll).tli.tx = s.tli.tx ∧
      (s.arbitrateAll).tli.notices = s.tli.notices ∧ (s.arbitrateAll).tli.woke = s.tli.woke ∧
      (s.arbitrateAll).pw = s.pw ∧ (s.arbitrateAll).cfg = s.cfg ∧ (s.arbitrateAll).flags = s.flags ∧
      (s.arbitrateAll).pins = s.pins ∧ (s.arbitrateAll).nonceDraws = s.nonceDraws ∧
      (s.arbitrateAll).pending = s.pending := by
  simp [State.arbitrateAll]

@[simp] theorem State.setPresent_frame (s : State) (b : Fin 4) (d : Bool) :
      (s.setPresent b d).de = s.de ∧ (s.setPresent b d).ts = s.ts ∧ (s.setPresent b d).il = s.il ∧
      (s.setPresent b d).cache = s.cache ∧ (s.setPresent b d).ff = s.ff ∧ (s.setPresent b d).sc = s.sc ∧
      (s.setPresent b d).me = s.me ∧ (s.setPresent b d).tli = s.tli ∧ (s.setPresent b d).pw = s.pw ∧
      (s.setPresent b d).cfg = s.cfg ∧ (s.setPresent b d).flags = s.flags ∧ (s.setPresent b d).pins = s.pins ∧
      (s.setPresent b d).nonceDraws = s.nonceDraws ∧ (s.setPresent b d).pending = s.pending := by
  simp [State.setPresent]

@[simp] theorem State.setIdentity_frame (s : State) (b : Fin 4) (i : Identity) :
      (s.setIdentity b i).de = s.de ∧ (s.setIdentity b i).ts = s.ts ∧ (s.setIdentity b i).il = s.il ∧
      (s.setIdentity b i).cache = s.cache ∧ (s.setIdentity b i).ff = s.ff ∧ (s.setIdentity b i).sc = s.sc ∧
      (s.setIdentity b i).me = s.me ∧ (s.setIdentity b i).tli = s.tli ∧ (s.setIdentity b i).pw = s.pw ∧
      (s.setIdentity b i).cfg = s.cfg ∧ (s.setIdentity b i).flags = s.flags ∧
      (s.setIdentity b i).pins = s.pins ∧ (s.setIdentity b i).nonceDraws = s.nonceDraws ∧
      (s.setIdentity b i).pending = s.pending := by
  simp [State.setIdentity]

end Sys2Proof.Machine
end

