-- ==== Sys2Proof/Laws/Loader.lean ====
section
/-! SUPPORT. The fields that the Image Loader and the Digest Engine leave. -/

namespace Sys2Proof.Machine

@[simp] theorem State.endLoad_frame (s : State) (l : Load) (o : LoadOutcome) (st : Status) (p : List Byte) :
      (s.endLoad l o st p).bays = s.bays ∧ (s.endLoad l o st p).ts = s.ts ∧
      (s.endLoad l o st p).cache = s.cache ∧ (s.endLoad l o st p).ff = s.ff ∧ (s.endLoad l o st p).sc = s.sc ∧
      (s.endLoad l o st p).me = s.me ∧ (s.endLoad l o st p).tli.rx = s.tli.rx ∧
      (s.endLoad l o st p).tli.tx = s.tli.tx ∧ (s.endLoad l o st p).tli.woke = s.tli.woke ∧
      (s.endLoad l o st p).pw = s.pw ∧ (s.endLoad l o st p).cfg = s.cfg ∧
      (s.endLoad l o st p).flags = s.flags ∧ (s.endLoad l o st p).pins = s.pins ∧
      (s.endLoad l o st p).nonceDraws = s.nonceDraws ∧ (s.endLoad l o st p).pending = s.pending ∧
      ∀ other, (s.endLoad l o st p).bay other = s.bay other := by
  unfold State.endLoad; dsimp only; split <;> simp [State.bay, State.answer, State.raiseGate, State.withdraw]

@[simp] theorem State.beginImageWrite_frame (s : State) :
      (s.beginImageWrite).bays = s.bays ∧ (s.beginImageWrite).de = s.de ∧ (s.beginImageWrite).il = s.il ∧
      (s.beginImageWrite).cache = s.cache ∧ (s.beginImageWrite).ff = s.ff ∧ (s.beginImageWrite).sc = s.sc ∧
      (s.beginImageWrite).me = s.me ∧ (s.beginImageWrite).tli = s.tli ∧ (s.beginImageWrite).pw = s.pw ∧
      (s.beginImageWrite).cfg = s.cfg ∧ (s.beginImageWrite).flags = s.flags ∧
      (s.beginImageWrite).pins = s.pins ∧ (s.beginImageWrite).nonceDraws = s.nonceDraws ∧
      (s.beginImageWrite).pending = s.pending ∧ ∀ other, (s.beginImageWrite).bay other = s.bay other := by
  unfold State.beginImageWrite; (repeat' split) <;> simp [State.bay]

@[simp] theorem State.jobNoKey_frame (s : State) (j : Job) :
      (s.jobNoKey j).bays = s.bays ∧ (s.jobNoKey j).ts = s.ts ∧ (s.jobNoKey j).cache = s.cache ∧
      (s.jobNoKey j).ff = s.ff ∧ (s.jobNoKey j).sc = s.sc ∧ (s.jobNoKey j).tli.rx = s.tli.rx ∧
      (s.jobNoKey j).tli.tx = s.tli.tx ∧ (s.jobNoKey j).tli.woke = s.tli.woke ∧ (s.jobNoKey j).pw = s.pw ∧
      (s.jobNoKey j).cfg = s.cfg ∧ (s.jobNoKey j).flags = s.flags ∧ (s.jobNoKey j).pins = s.pins ∧
      (s.jobNoKey j).nonceDraws = s.nonceDraws ∧ (s.jobNoKey j).pending = s.pending ∧
      ∀ other, (s.jobNoKey j).bay other = s.bay other := by
  unfold State.jobNoKey; (repeat' split) <;> simp [State.bay, State.answer]

@[simp] theorem State.startJob_frame (s : State) (c : Claimant) (j : Job) :
      (s.startJob c j).bays = s.bays ∧ (s.startJob c j).ts = s.ts ∧ (s.startJob c j).cache = s.cache ∧
      (s.startJob c j).ff = s.ff ∧ (s.startJob c j).sc = s.sc ∧ (s.startJob c j).tli.rx = s.tli.rx ∧
      (s.startJob c j).tli.tx = s.tli.tx ∧ (s.startJob c j).tli.woke = s.tli.woke ∧
      (s.startJob c j).pw = s.pw ∧ (s.startJob c j).cfg = s.cfg ∧ (s.startJob c j).flags = s.flags ∧
      (s.startJob c j).pins = s.pins ∧ (s.startJob c j).nonceDraws = s.nonceDraws ∧
      (s.startJob c j).pending = s.pending ∧ ∀ other, (s.startJob c j).bay other = s.bay other := by
  unfold State.startJob; (repeat' split) <;> simp [State.bay]

@[simp] theorem State.grantJobs_frame (n : Nat) (s : State) :
      (State.grantJobs n s).bays = s.bays ∧ (State.grantJobs n s).ts = s.ts ∧ (State.grantJobs n s).cache = s.cache ∧
      (State.grantJobs n s).ff = s.ff ∧ (State.grantJobs n s).sc = s.sc ∧ (State.grantJobs n s).tli.rx = s.tli.rx ∧
      (State.grantJobs n s).tli.tx = s.tli.tx ∧ (State.grantJobs n s).tli.woke = s.tli.woke ∧ (State.grantJobs n s).pw = s.pw ∧
      (State.grantJobs n s).cfg = s.cfg ∧ (State.grantJobs n s).flags = s.flags ∧ (State.grantJobs n s).pins = s.pins ∧
      (State.grantJobs n s).nonceDraws = s.nonceDraws ∧ (State.grantJobs n s).pending = s.pending ∧
      ∀ other, (State.grantJobs n s).bay other = s.bay other := by
  induction n generalizing s with
  | zero => simp [State.grantJobs]
  | succ n ih =>
    unfold State.grantJobs
    split
    · split
      · simp [ih, State.bay]
      · simp
    · simp

@[simp] theorem State.jobDone_frame (s : State) (c : Claimant) :
      (s.jobDone c).bays = s.bays ∧ (s.jobDone c).ts = s.ts ∧ (s.jobDone c).cache = s.cache ∧
      (s.jobDone c).ff = s.ff ∧ (s.jobDone c).sc = s.sc ∧ (s.jobDone c).tli.rx = s.tli.rx ∧
      (s.jobDone c).tli.tx = s.tli.tx ∧ (s.jobDone c).tli.woke = s.tli.woke ∧ (s.jobDone c).pw = s.pw ∧
      (s.jobDone c).cfg = s.cfg ∧ (s.jobDone c).flags = s.flags ∧ (s.jobDone c).pins = s.pins ∧
      (s.jobDone c).nonceDraws = s.nonceDraws ∧ (s.jobDone c).pending = s.pending ∧
      ∀ other, (s.jobDone c).bay other = s.bay other := by
  unfold State.jobDone; split <;> simp [State.bay]

@[simp] theorem State.submit_frame (s : State) (c : Claimant) (j : Job) :
      (s.submit c j).bays = s.bays ∧ (s.submit c j).ts = s.ts ∧ (s.submit c j).cache = s.cache ∧
      (s.submit c j).ff = s.ff ∧ (s.submit c j).sc = s.sc ∧ (s.submit c j).tli.rx = s.tli.rx ∧
      (s.submit c j).tli.tx = s.tli.tx ∧ (s.submit c j).tli.woke = s.tli.woke ∧ (s.submit c j).pw = s.pw ∧
      (s.submit c j).cfg = s.cfg ∧ (s.submit c j).flags = s.flags ∧ (s.submit c j).pins = s.pins ∧
      (s.submit c j).nonceDraws = s.nonceDraws ∧ (s.submit c j).pending = s.pending ∧
      ∀ other, (s.submit c j).bay other = s.bay other := by
  unfold State.submit; (repeat' split) <;> simp [State.bay]

end Sys2Proof.Machine
end

