-- ==== Sys2Proof/Laws/Bays.lean ====
section
/-! SUPPORT. The fields that the shared transitions of a bay leave. -/

namespace Sys2Proof.Machine

@[simp] theorem State.abandon_frame (s : State) (b : Fin 4) :
      (s.abandon b).ts = s.ts ∧ (s.abandon b).il = s.il ∧ (s.abandon b).cache = s.cache ∧
      (s.abandon b).ff = s.ff ∧ (s.abandon b).sc = s.sc ∧ (s.abandon b).me = s.me ∧ (s.abandon b).tli = s.tli ∧
      (s.abandon b).pw = s.pw ∧ (s.abandon b).cfg = s.cfg ∧ (s.abandon b).flags = s.flags ∧
      (s.abandon b).pins = s.pins ∧ (s.abandon b).nonceDraws = s.nonceDraws ∧ (s.abandon b).pending = s.pending := by
  simp [State.abandon]

@[simp] theorem State.enterSettling_frame (s : State) (b : Fin 4) :
      (s.enterSettling b).de = s.de ∧ (s.enterSettling b).ts = s.ts ∧ (s.enterSettling b).il = s.il ∧
      (s.enterSettling b).cache = s.cache ∧ (s.enterSettling b).ff = s.ff ∧ (s.enterSettling b).sc = s.sc ∧
      (s.enterSettling b).me = s.me ∧ (s.enterSettling b).tli.rx = s.tli.rx ∧
      (s.enterSettling b).tli.responses = s.tli.responses ∧ (s.enterSettling b).tli.tx = s.tli.tx ∧
      (s.enterSettling b).tli.woke = s.tli.woke ∧ (s.enterSettling b).pw = s.pw ∧
      (s.enterSettling b).cfg = s.cfg ∧ (s.enterSettling b).flags = s.flags ∧
      (s.enterSettling b).pins = s.pins ∧ (s.enterSettling b).nonceDraws = s.nonceDraws ∧
      (s.enterSettling b).pending = s.pending := by
  simp [State.enterSettling]

@[simp] theorem State.emptyBay_frame (s : State) (b : Fin 4) :
      (s.emptyBay b).ts = s.ts ∧ (s.emptyBay b).il = s.il ∧ (s.emptyBay b).cache = s.cache ∧
      (s.emptyBay b).ff = s.ff ∧ (s.emptyBay b).sc = s.sc ∧ (s.emptyBay b).me = s.me ∧
      (s.emptyBay b).tli.rx = s.tli.rx ∧ (s.emptyBay b).tli.tx = s.tli.tx ∧
      (s.emptyBay b).tli.woke = s.tli.woke ∧ (s.emptyBay b).pw = s.pw ∧ (s.emptyBay b).cfg = s.cfg ∧
      (s.emptyBay b).flags = s.flags ∧ (s.emptyBay b).pins = s.pins ∧
      (s.emptyBay b).nonceDraws = s.nonceDraws ∧ (s.emptyBay b).pending = s.pending := by
  simp [State.emptyBay]

@[simp] theorem State.enterLockout_frame (s : State) (b : Fin 4) :
      (s.enterLockout b).ts = s.ts ∧ (s.enterLockout b).il = s.il ∧ (s.enterLockout b).cache = s.cache ∧
      (s.enterLockout b).ff = s.ff ∧ (s.enterLockout b).sc = s.sc ∧ (s.enterLockout b).me = s.me ∧
      (s.enterLockout b).tli.rx = s.tli.rx ∧ (s.enterLockout b).tli.tx = s.tli.tx ∧
      (s.enterLockout b).tli.woke = s.tli.woke ∧ (s.enterLockout b).pw = s.pw ∧
      (s.enterLockout b).cfg = s.cfg ∧ (s.enterLockout b).flags = s.flags ∧ (s.enterLockout b).pins = s.pins ∧
      (s.enterLockout b).nonceDraws = s.nonceDraws ∧ (s.enterLockout b).pending = s.pending := by
  simp [State.enterLockout]

@[simp] theorem State.enterLineFault_frame (s : State) (b : Fin 4) :
      (s.enterLineFault b).ts = s.ts ∧ (s.enterLineFault b).il = s.il ∧ (s.enterLineFault b).cache = s.cache ∧
      (s.enterLineFault b).ff = s.ff ∧ (s.enterLineFault b).sc = s.sc ∧ (s.enterLineFault b).me = s.me ∧
      (s.enterLineFault b).tli.rx = s.tli.rx ∧ (s.enterLineFault b).tli.tx = s.tli.tx ∧
      (s.enterLineFault b).tli.woke = s.tli.woke ∧ (s.enterLineFault b).pw = s.pw ∧
      (s.enterLineFault b).cfg = s.cfg ∧ (s.enterLineFault b).flags = s.flags ∧
      (s.enterLineFault b).pins = s.pins ∧ (s.enterLineFault b).nonceDraws = s.nonceDraws ∧
      (s.enterLineFault b).pending = s.pending := by
  simp [State.enterLineFault]

@[simp] theorem State.enterIdentifying_frame (s : State) (b : Fin 4) :
      (s.enterIdentifying b).ts = s.ts ∧ (s.enterIdentifying b).il = s.il ∧
      (s.enterIdentifying b).cache = s.cache ∧ (s.enterIdentifying b).ff = s.ff ∧
      (s.enterIdentifying b).sc = s.sc ∧ (s.enterIdentifying b).me = s.me ∧
      (s.enterIdentifying b).tli.rx = s.tli.rx ∧ (s.enterIdentifying b).tli.responses = s.tli.responses ∧
      (s.enterIdentifying b).tli.tx = s.tli.tx ∧ (s.enterIdentifying b).tli.woke = s.tli.woke ∧
      (s.enterIdentifying b).pw = s.pw ∧ (s.enterIdentifying b).cfg = s.cfg ∧
      (s.enterIdentifying b).flags = s.flags ∧ (s.enterIdentifying b).pins = s.pins ∧
      (s.enterIdentifying b).nonceDraws = s.nonceDraws ∧ (s.enterIdentifying b).pending = s.pending := by
  simp [State.enterIdentifying]

@[simp] theorem State.deny_frame (s : State) (b : Fin 4) (r : DenyReason) :
      (s.deny b r).ts = s.ts ∧ (s.deny b r).il = s.il ∧ (s.deny b r).cache = s.cache ∧ (s.deny b r).ff = s.ff ∧
      (s.deny b r).sc = s.sc ∧ (s.deny b r).me = s.me ∧ (s.deny b r).tli.rx = s.tli.rx ∧
      (s.deny b r).tli.responses = s.tli.responses ∧ (s.deny b r).tli.tx = s.tli.tx ∧
      (s.deny b r).tli.woke = s.tli.woke ∧ (s.deny b r).pw = s.pw ∧ (s.deny b r).cfg = s.cfg ∧
      (s.deny b r).flags = s.flags ∧ (s.deny b r).pins = s.pins ∧ (s.deny b r).nonceDraws = s.nonceDraws ∧
      (s.deny b r).pending = s.pending := by
  simp [State.deny]

@[simp] theorem State.endGrace_frame (s : State) (b : Fin 4) :
      (s.endGrace b).de = s.de ∧ (s.endGrace b).ts = s.ts ∧ (s.endGrace b).il = s.il ∧
      (s.endGrace b).cache = s.cache ∧ (s.endGrace b).ff = s.ff ∧ (s.endGrace b).sc = s.sc ∧
      (s.endGrace b).me = s.me ∧ (s.endGrace b).tli.rx = s.tli.rx ∧
      (s.endGrace b).tli.responses = s.tli.responses ∧ (s.endGrace b).tli.tx = s.tli.tx ∧
      (s.endGrace b).tli.woke = s.tli.woke ∧ (s.endGrace b).pw = s.pw ∧ (s.endGrace b).cfg = s.cfg ∧
      (s.endGrace b).flags = s.flags ∧ (s.endGrace b).pins = s.pins ∧
      (s.endGrace b).nonceDraws = s.nonceDraws ∧ (s.endGrace b).pending = s.pending := by
  simp [State.endGrace]

@[simp] theorem State.loseEligibility_frame (s : State) (b : Fin 4) (r : DenyReason) :
      (s.loseEligibility b r).ts = s.ts ∧ (s.loseEligibility b r).il = s.il ∧
      (s.loseEligibility b r).cache = s.cache ∧ (s.loseEligibility b r).ff = s.ff ∧
      (s.loseEligibility b r).sc = s.sc ∧ (s.loseEligibility b r).me = s.me ∧
      (s.loseEligibility b r).tli.rx = s.tli.rx ∧ (s.loseEligibility b r).tli.responses = s.tli.responses ∧
      (s.loseEligibility b r).tli.tx = s.tli.tx ∧ (s.loseEligibility b r).tli.woke = s.tli.woke ∧
      (s.loseEligibility b r).pw = s.pw ∧ (s.loseEligibility b r).cfg = s.cfg ∧
      (s.loseEligibility b r).flags = s.flags ∧ (s.loseEligibility b r).pins = s.pins ∧
      (s.loseEligibility b r).nonceDraws = s.nonceDraws ∧ (s.loseEligibility b r).pending = s.pending := by
  unfold State.loseEligibility; dsimp only; (repeat' split) <;> simp

@[simp] theorem State.enterExchange_frame (s : State) (b : Fin 4) (st : BayState) (k : ChallengeKind) :
      (s.enterExchange b st k).de = s.de ∧ (s.enterExchange b st k).ts = s.ts ∧
      (s.enterExchange b st k).il = s.il ∧ (s.enterExchange b st k).cache = s.cache ∧
      (s.enterExchange b st k).ff = s.ff ∧ (s.enterExchange b st k).sc = s.sc ∧
      (s.enterExchange b st k).me = s.me ∧ (s.enterExchange b st k).tli.rx = s.tli.rx ∧
      (s.enterExchange b st k).tli.responses = s.tli.responses ∧ (s.enterExchange b st k).tli.tx = s.tli.tx ∧
      (s.enterExchange b st k).tli.woke = s.tli.woke ∧ (s.enterExchange b st k).pw = s.pw ∧
      (s.enterExchange b st k).cfg = s.cfg ∧ (s.enterExchange b st k).flags = s.flags ∧
      (s.enterExchange b st k).pins = s.pins ∧ (s.enterExchange b st k).pending = s.pending := by
  simp [State.enterExchange]

@[simp] theorem State.enterRenewing_frame (s : State) (b : Fin 4) :
      (s.enterRenewing b).de = s.de ∧ (s.enterRenewing b).ts = s.ts ∧ (s.enterRenewing b).il = s.il ∧
      (s.enterRenewing b).cache = s.cache ∧ (s.enterRenewing b).ff = s.ff ∧ (s.enterRenewing b).sc = s.sc ∧
      (s.enterRenewing b).me = s.me ∧ (s.enterRenewing b).tli.rx = s.tli.rx ∧
      (s.enterRenewing b).tli.responses = s.tli.responses ∧ (s.enterRenewing b).tli.tx = s.tli.tx ∧
      (s.enterRenewing b).tli.woke = s.tli.woke ∧ (s.enterRenewing b).pw = s.pw ∧
      (s.enterRenewing b).cfg = s.cfg ∧ (s.enterRenewing b).flags = s.flags ∧
      (s.enterRenewing b).pins = s.pins ∧ (s.enterRenewing b).pending = s.pending := by
  simp [State.enterRenewing]

@[simp] theorem State.strike_frame (s : State) (b : Fin 4) :
      (s.strike b).ts = s.ts ∧ (s.strike b).il = s.il ∧ (s.strike b).cache = s.cache ∧ (s.strike b).ff = s.ff ∧
      (s.strike b).sc = s.sc ∧ (s.strike b).me = s.me ∧ (s.strike b).tli.rx = s.tli.rx ∧
      (s.strike b).tli.tx = s.tli.tx ∧ (s.strike b).tli.woke = s.tli.woke ∧ (s.strike b).pw = s.pw ∧
      (s.strike b).cfg = s.cfg ∧ (s.strike b).flags = s.flags ∧ (s.strike b).pins = s.pins ∧
      (s.strike b).nonceDraws = s.nonceDraws ∧ (s.strike b).pending = s.pending := by
  unfold State.strike; dsimp only; (repeat' split) <;> simp

@[simp] theorem State.tagFailure_frame (s : State) (b : Fin 4) :
      (s.tagFailure b).ts = s.ts ∧ (s.tagFailure b).il = s.il ∧ (s.tagFailure b).cache = s.cache ∧
      (s.tagFailure b).ff = s.ff ∧ (s.tagFailure b).sc = s.sc ∧ (s.tagFailure b).me = s.me ∧
      (s.tagFailure b).tli.rx = s.tli.rx ∧ (s.tagFailure b).tli.tx = s.tli.tx ∧
      (s.tagFailure b).tli.woke = s.tli.woke ∧ (s.tagFailure b).pw = s.pw ∧ (s.tagFailure b).cfg = s.cfg ∧
      (s.tagFailure b).flags = s.flags ∧ (s.tagFailure b).pins = s.pins ∧ (s.tagFailure b).pending = s.pending := by
  unfold State.tagFailure; dsimp only; (repeat' split) <;> simp

@[simp] theorem State.admissionFailure_frame (s : State) (b : Fin 4) (r : DenyReason) :
      (s.admissionFailure b r).ts = s.ts ∧ (s.admissionFailure b r).il = s.il ∧
      (s.admissionFailure b r).cache = s.cache ∧ (s.admissionFailure b r).ff = s.ff ∧
      (s.admissionFailure b r).sc = s.sc ∧ (s.admissionFailure b r).me = s.me ∧
      (s.admissionFailure b r).tli.rx = s.tli.rx ∧ (s.admissionFailure b r).tli.responses = s.tli.responses ∧
      (s.admissionFailure b r).tli.tx = s.tli.tx ∧ (s.admissionFailure b r).tli.woke = s.tli.woke ∧
      (s.admissionFailure b r).pw = s.pw ∧ (s.admissionFailure b r).cfg = s.cfg ∧
      (s.admissionFailure b r).flags = s.flags ∧ (s.admissionFailure b r).pins = s.pins ∧
      (s.admissionFailure b r).nonceDraws = s.nonceDraws ∧ (s.admissionFailure b r).pending = s.pending := by
  simp [State.admissionFailure]

@[simp] theorem State.authFailure_frame (s : State) (b : Fin 4) (r : DenyReason) :
      (s.authFailure b r).ts = s.ts ∧ (s.authFailure b r).il = s.il ∧ (s.authFailure b r).cache = s.cache ∧
      (s.authFailure b r).ff = s.ff ∧ (s.authFailure b r).sc = s.sc ∧ (s.authFailure b r).me = s.me ∧
      (s.authFailure b r).tli.rx = s.tli.rx ∧ (s.authFailure b r).tli.responses = s.tli.responses ∧
      (s.authFailure b r).tli.tx = s.tli.tx ∧ (s.authFailure b r).tli.woke = s.tli.woke ∧
      (s.authFailure b r).pw = s.pw ∧ (s.authFailure b r).cfg = s.cfg ∧ (s.authFailure b r).flags = s.flags ∧
      (s.authFailure b r).pins = s.pins ∧ (s.authFailure b r).nonceDraws = s.nonceDraws ∧
      (s.authFailure b r).pending = s.pending := by
  unfold State.authFailure; (repeat' split) <;> simp

@[simp] theorem State.enterChallenging_frame (s : State) (b : Fin 4) (i : Identity) (h : Option CacheEntry) (n : Fin 32) (e : ModelEntry) :
      (s.enterChallenging b i h n e).ts = s.ts ∧ (s.enterChallenging b i h n e).cache = s.cache ∧
      (s.enterChallenging b i h n e).ff = s.ff ∧ (s.enterChallenging b i h n e).sc = s.sc ∧
      (s.enterChallenging b i h n e).tli.rx = s.tli.rx ∧ (s.enterChallenging b i h n e).tli.tx = s.tli.tx ∧
      (s.enterChallenging b i h n e).tli.woke = s.tli.woke ∧ (s.enterChallenging b i h n e).pw = s.pw ∧
      (s.enterChallenging b i h n e).cfg = s.cfg ∧ (s.enterChallenging b i h n e).flags = s.flags ∧
      (s.enterChallenging b i h n e).pins = s.pins ∧ (s.enterChallenging b i h n e).pending = s.pending := by
  unfold State.enterChallenging; dsimp only; (repeat' split) <;> simp

@[simp] theorem State.admitModel_frame (s : State) (b : Fin 4) (i : Identity) (h : Option CacheEntry) :
      (s.admitModel b i h).ts = s.ts ∧ (s.admitModel b i h).cache = s.cache ∧ (s.admitModel b i h).ff = s.ff ∧
      (s.admitModel b i h).sc = s.sc ∧ (s.admitModel b i h).tli.rx = s.tli.rx ∧
      (s.admitModel b i h).tli.tx = s.tli.tx ∧ (s.admitModel b i h).tli.woke = s.tli.woke ∧
      (s.admitModel b i h).pw = s.pw ∧ (s.admitModel b i h).cfg = s.cfg ∧
      (s.admitModel b i h).flags = s.flags ∧ (s.admitModel b i h).pins = s.pins ∧
      (s.admitModel b i h).pending = s.pending := by
  unfold State.admitModel; dsimp only; (repeat' split) <;> simp

@[simp] theorem State.takeIdReport_frame (s : State) (b : Fin 4) (p : List Byte) :
      (s.takeIdReport b p).ts = s.ts ∧ (s.takeIdReport b p).ff = s.ff ∧ (s.takeIdReport b p).sc = s.sc ∧
      (s.takeIdReport b p).tli.rx = s.tli.rx ∧ (s.takeIdReport b p).tli.tx = s.tli.tx ∧
      (s.takeIdReport b p).tli.woke = s.tli.woke ∧ (s.takeIdReport b p).pw = s.pw ∧
      (s.takeIdReport b p).cfg = s.cfg ∧ (s.takeIdReport b p).flags = s.flags ∧
      (s.takeIdReport b p).pins = s.pins ∧ (s.takeIdReport b p).pending = s.pending := by
  unfold State.takeIdReport; dsimp only; (repeat' split) <;> simp

@[simp] theorem State.insertGenuine_frame (s : State) (i : Identity) (n : Fin 32) (k : PackKey) :
      (s.insertGenuine i n k).bays = s.bays ∧ (s.insertGenuine i n k).de = s.de ∧
      (s.insertGenuine i n k).ts = s.ts ∧ (s.insertGenuine i n k).il = s.il ∧
      (s.insertGenuine i n k).ff = s.ff ∧ (s.insertGenuine i n k).sc = s.sc ∧
      (s.insertGenuine i n k).me = s.me ∧ (s.insertGenuine i n k).tli = s.tli ∧
      (s.insertGenuine i n k).pw = s.pw ∧ (s.insertGenuine i n k).cfg = s.cfg ∧
      (s.insertGenuine i n k).flags = s.flags ∧ (s.insertGenuine i n k).pins = s.pins ∧
      (s.insertGenuine i n k).nonceDraws = s.nonceDraws ∧ (s.insertGenuine i n k).pending = s.pending ∧
      ∀ other, (s.insertGenuine i n k).bay other = s.bay other := by
  simp [State.insertGenuine]

@[simp] theorem State.authorize_frame (s : State) (b : Fin 4) (i : Identity) (k : PackKey) (x : Key) :
      (s.authorize b i k x).ts = s.ts ∧ (s.authorize b i k x).il = s.il ∧ (s.authorize b i k x).ff = s.ff ∧
      (s.authorize b i k x).sc = s.sc ∧ (s.authorize b i k x).me = s.me ∧
      (s.authorize b i k x).tli.rx = s.tli.rx ∧ (s.authorize b i k x).tli.responses = s.tli.responses ∧
      (s.authorize b i k x).tli.tx = s.tli.tx ∧ (s.authorize b i k x).tli.woke = s.tli.woke ∧
      (s.authorize b i k x).pw = s.pw ∧ (s.authorize b i k x).cfg = s.cfg ∧
      (s.authorize b i k x).flags = s.flags ∧ (s.authorize b i k x).pins = s.pins ∧
      (s.authorize b i k x).nonceDraws = s.nonceDraws ∧ (s.authorize b i k x).pending = s.pending := by
  unfold State.authorize; dsimp only; (repeat' split) <;> simp

@[simp] theorem State.renewed_frame (s : State) (b : Fin 4) (i : Identity) (k : PackKey) (o : Session) (x : Key) :
      (s.renewed b i k o x).de = s.de ∧ (s.renewed b i k o x).ts = s.ts ∧ (s.renewed b i k o x).il = s.il ∧
      (s.renewed b i k o x).ff = s.ff ∧ (s.renewed b i k o x).sc = s.sc ∧ (s.renewed b i k o x).me = s.me ∧
      (s.renewed b i k o x).tli.rx = s.tli.rx ∧ (s.renewed b i k o x).tli.responses = s.tli.responses ∧
      (s.renewed b i k o x).tli.tx = s.tli.tx ∧ (s.renewed b i k o x).tli.woke = s.tli.woke ∧
      (s.renewed b i k o x).pw = s.pw ∧ (s.renewed b i k o x).cfg = s.cfg ∧
      (s.renewed b i k o x).flags = s.flags ∧ (s.renewed b i k o x).pins = s.pins ∧
      (s.renewed b i k o x).nonceDraws = s.nonceDraws ∧ (s.renewed b i k o x).pending = s.pending := by
  unfold State.renewed; dsimp only; (repeat' split) <;> simp

@[simp] theorem State.reevaluate_frame (s : State) (b : Fin 4) (i : Identity) :
      (s.reevaluate b i).ts = s.ts ∧ (s.reevaluate b i).il = s.il ∧ (s.reevaluate b i).cache = s.cache ∧
      (s.reevaluate b i).ff = s.ff ∧ (s.reevaluate b i).sc = s.sc ∧ (s.reevaluate b i).me = s.me ∧
      (s.reevaluate b i).tli.rx = s.tli.rx ∧ (s.reevaluate b i).tli.responses = s.tli.responses ∧
      (s.reevaluate b i).tli.tx = s.tli.tx ∧ (s.reevaluate b i).tli.woke = s.tli.woke ∧
      (s.reevaluate b i).pw = s.pw ∧ (s.reevaluate b i).cfg = s.cfg ∧ (s.reevaluate b i).flags = s.flags ∧
      (s.reevaluate b i).pins = s.pins ∧ (s.reevaluate b i).nonceDraws = s.nonceDraws ∧
      (s.reevaluate b i).pending = s.pending := by
  unfold State.reevaluate; dsimp only; (repeat' split) <;> simp

@[simp] theorem State.commitBay_frame (s : State) (r : Bool) (b : Fin 4) :
      (State.commitBay r s b).ts = s.ts ∧ (State.commitBay r s b).il = s.il ∧
      (State.commitBay r s b).cache = s.cache ∧ (State.commitBay r s b).ff = s.ff ∧
      (State.commitBay r s b).sc = s.sc ∧ (State.commitBay r s b).me = s.me ∧
      (State.commitBay r s b).tli.rx = s.tli.rx ∧ (State.commitBay r s b).tli.responses = s.tli.responses ∧
      (State.commitBay r s b).tli.tx = s.tli.tx ∧ (State.commitBay r s b).tli.woke = s.tli.woke ∧
      (State.commitBay r s b).pw = s.pw ∧ (State.commitBay r s b).cfg = s.cfg ∧
      (State.commitBay r s b).flags = s.flags ∧ (State.commitBay r s b).pins = s.pins ∧
      (State.commitBay r s b).nonceDraws = s.nonceDraws ∧ (State.commitBay r s b).pending = s.pending := by
  unfold State.commitBay; dsimp only; (repeat' split) <;> simp

@[simp] theorem State.commitBays_frame (s : State) (r : Bool) :
      (s.commitBays r).ts = s.ts ∧ (s.commitBays r).il = s.il ∧ (s.commitBays r).cache = s.cache ∧
      (s.commitBays r).ff = s.ff ∧ (s.commitBays r).sc = s.sc ∧ (s.commitBays r).me = s.me ∧
      (s.commitBays r).tli.rx = s.tli.rx ∧ (s.commitBays r).tli.responses = s.tli.responses ∧
      (s.commitBays r).tli.tx = s.tli.tx ∧ (s.commitBays r).tli.woke = s.tli.woke ∧
      (s.commitBays r).pw = s.pw ∧ (s.commitBays r).cfg = s.cfg ∧ (s.commitBays r).flags = s.flags ∧
      (s.commitBays r).pins = s.pins ∧ (s.commitBays r).nonceDraws = s.nonceDraws ∧
      (s.commitBays r).pending = s.pending := by
  simp [State.commitBays, Four.indices]

@[simp] theorem State.keyLoadBay_frame (s : State) (f : Nat → Bool) (b : Fin 4) :
      (State.keyLoadBay f s b).ts = s.ts ∧ (State.keyLoadBay f s b).il = s.il ∧
      (State.keyLoadBay f s b).cache = s.cache ∧ (State.keyLoadBay f s b).ff = s.ff ∧
      (State.keyLoadBay f s b).sc = s.sc ∧ (State.keyLoadBay f s b).me = s.me ∧
      (State.keyLoadBay f s b).tli.rx = s.tli.rx ∧ (State.keyLoadBay f s b).tli.responses = s.tli.responses ∧
      (State.keyLoadBay f s b).tli.tx = s.tli.tx ∧ (State.keyLoadBay f s b).tli.woke = s.tli.woke ∧
      (State.keyLoadBay f s b).pw = s.pw ∧ (State.keyLoadBay f s b).cfg = s.cfg ∧
      (State.keyLoadBay f s b).flags = s.flags ∧ (State.keyLoadBay f s b).pins = s.pins ∧
      (State.keyLoadBay f s b).nonceDraws = s.nonceDraws ∧ (State.keyLoadBay f s b).pending = s.pending := by
  unfold State.keyLoadBay; dsimp only; (repeat' split) <;> simp

@[simp] theorem State.keyLoadBays_frame (s : State) (f : Nat → Bool) :
      (s.keyLoadBays f).ts = s.ts ∧ (s.keyLoadBays f).il = s.il ∧ (s.keyLoadBays f).cache = s.cache ∧
      (s.keyLoadBays f).ff = s.ff ∧ (s.keyLoadBays f).sc = s.sc ∧ (s.keyLoadBays f).me = s.me ∧
      (s.keyLoadBays f).tli.rx = s.tli.rx ∧ (s.keyLoadBays f).tli.responses = s.tli.responses ∧
      (s.keyLoadBays f).tli.tx = s.tli.tx ∧ (s.keyLoadBays f).tli.woke = s.tli.woke ∧
      (s.keyLoadBays f).pw = s.pw ∧ (s.keyLoadBays f).cfg = s.cfg ∧ (s.keyLoadBays f).flags = s.flags ∧
      (s.keyLoadBays f).pins = s.pins ∧ (s.keyLoadBays f).nonceDraws = s.nonceDraws ∧
      (s.keyLoadBays f).pending = s.pending := by
  simp [State.keyLoadBays, Four.indices]

end Sys2Proof.Machine
end

