-- ==== Sys2Proof/Laws/Replies.lean ====
section
/-! SUPPORT. The fields that the paths of a pack reply leave. -/

namespace Sys2Proof.Machine

@[simp] theorem State.completeHead_frame (s : State) (b : Fin 4) (c : Byte) (st : Status) (f : RespFlags) (p : List Byte) :
      (s.completeHead b c st f p).de = s.de ∧ (s.completeHead b c st f p).ts = s.ts ∧
      (s.completeHead b c st f p).il = s.il ∧ (s.completeHead b c st f p).cache = s.cache ∧
      (s.completeHead b c st f p).ff = s.ff ∧ (s.completeHead b c st f p).sc = s.sc ∧
      (s.completeHead b c st f p).me = s.me ∧ (s.completeHead b c st f p).tli.rx = s.tli.rx ∧
      (s.completeHead b c st f p).tli.tx = s.tli.tx ∧ (s.completeHead b c st f p).tli.notices = s.tli.notices ∧
      (s.completeHead b c st f p).tli.woke = s.tli.woke ∧ (s.completeHead b c st f p).pw = s.pw ∧
      (s.completeHead b c st f p).cfg = s.cfg ∧ (s.completeHead b c st f p).flags = s.flags ∧
      (s.completeHead b c st f p).pins = s.pins ∧ (s.completeHead b c st f p).nonceDraws = s.nonceDraws ∧
      (s.completeHead b c st f p).pending = s.pending := by
  unfold State.completeHead; (repeat' split) <;> simp

@[simp] theorem State.forwardFailed_frame (s : State) (b : Fin 4) (st : Status) :
      (s.forwardFailed b st).de = s.de ∧ (s.forwardFailed b st).ts = s.ts ∧ (s.forwardFailed b st).il = s.il ∧
      (s.forwardFailed b st).cache = s.cache ∧ (s.forwardFailed b st).ff = s.ff ∧
      (s.forwardFailed b st).sc = s.sc ∧ (s.forwardFailed b st).me = s.me ∧
      (s.forwardFailed b st).tli.rx = s.tli.rx ∧ (s.forwardFailed b st).tli.tx = s.tli.tx ∧
      (s.forwardFailed b st).tli.notices = s.tli.notices ∧ (s.forwardFailed b st).tli.woke = s.tli.woke ∧
      (s.forwardFailed b st).pw = s.pw ∧ (s.forwardFailed b st).cfg = s.cfg ∧
      (s.forwardFailed b st).flags = s.flags ∧ (s.forwardFailed b st).pins = s.pins ∧
      (s.forwardFailed b st).nonceDraws = s.nonceDraws ∧ (s.forwardFailed b st).pending = s.pending := by
  simp [State.forwardFailed]

@[simp] theorem State.capture_frame (s : State) (e : CaptureEntry) :
      (s.capture e).bays = s.bays ∧ (s.capture e).de = s.de ∧ (s.capture e).ts = s.ts ∧
      (s.capture e).il = s.il ∧ (s.capture e).cache = s.cache ∧ (s.capture e).sc = s.sc ∧
      (s.capture e).me = s.me ∧ (s.capture e).tli.rx = s.tli.rx ∧
      (s.capture e).tli.responses = s.tli.responses ∧ (s.capture e).tli.tx = s.tli.tx ∧
      (s.capture e).tli.woke = s.tli.woke ∧ (s.capture e).pw = s.pw ∧ (s.capture e).cfg = s.cfg ∧
      (s.capture e).pins = s.pins ∧ (s.capture e).nonceDraws = s.nonceDraws ∧
      (s.capture e).pending = s.pending ∧ ∀ other, (s.capture e).bay other = s.bay other := by
  unfold State.capture; split <;> simp [State.bay]

@[simp] theorem State.passReply_frame (s : State) (b : Fin 4) (c : Byte) (p : List Byte) (m : Mark) (d : Disposition) :
      (s.passReply b c p m d).de = s.de ∧ (s.passReply b c p m d).ts = s.ts ∧
      (s.passReply b c p m d).il = s.il ∧ (s.passReply b c p m d).cache = s.cache ∧
      (s.passReply b c p m d).sc = s.sc ∧ (s.passReply b c p m d).me = s.me ∧
      (s.passReply b c p m d).tli.rx = s.tli.rx ∧ (s.passReply b c p m d).tli.tx = s.tli.tx ∧
      (s.passReply b c p m d).tli.woke = s.tli.woke ∧ (s.passReply b c p m d).pw = s.pw ∧
      (s.passReply b c p m d).cfg = s.cfg ∧ (s.passReply b c p m d).pins = s.pins ∧
      (s.passReply b c p m d).nonceDraws = s.nonceDraws ∧ (s.passReply b c p m d).pending = s.pending := by
  unfold State.passReply; (repeat' split) <;> simp

@[simp] theorem State.withholdTagFailed_frame (s : State) (b : Fin 4) (c : Byte) :
      (s.withholdTagFailed b c).ts = s.ts ∧ (s.withholdTagFailed b c).il = s.il ∧
      (s.withholdTagFailed b c).cache = s.cache ∧ (s.withholdTagFailed b c).ff = s.ff ∧
      (s.withholdTagFailed b c).sc = s.sc ∧ (s.withholdTagFailed b c).me = s.me ∧
      (s.withholdTagFailed b c).tli.rx = s.tli.rx ∧ (s.withholdTagFailed b c).tli.tx = s.tli.tx ∧
      (s.withholdTagFailed b c).tli.woke = s.tli.woke ∧ (s.withholdTagFailed b c).pw = s.pw ∧
      (s.withholdTagFailed b c).cfg = s.cfg ∧ (s.withholdTagFailed b c).flags = s.flags ∧
      (s.withholdTagFailed b c).pins = s.pins ∧ (s.withholdTagFailed b c).pending = s.pending := by
  simp [State.withholdTagFailed]

@[simp] theorem State.checkTag_frame (s : State) (b : Fin 4) (f : PackFrame) (x : Session) (d : Disposition) :
      (s.checkTag b f x d).ts = s.ts ∧ (s.checkTag b f x d).cache = s.cache ∧ (s.checkTag b f x d).ff = s.ff ∧
      (s.checkTag b f x d).sc = s.sc ∧ (s.checkTag b f x d).tli.rx = s.tli.rx ∧
      (s.checkTag b f x d).tli.tx = s.tli.tx ∧ (s.checkTag b f x d).tli.woke = s.tli.woke ∧
      (s.checkTag b f x d).pw = s.pw ∧ (s.checkTag b f x d).cfg = s.cfg ∧
      (s.checkTag b f x d).flags = s.flags ∧ (s.checkTag b f x d).pins = s.pins ∧
      (s.checkTag b f x d).pending = s.pending := by
  unfold State.checkTag; (repeat' split) <;> simp

@[simp] theorem State.classifyTagging_frame (s : State) (b : Fin 4) (f : PackFrame) (x : Session) (l : VerifyLevel) (d : Disposition) :
      (s.classifyTagging b f x l d).ts = s.ts ∧ (s.classifyTagging b f x l d).cache = s.cache ∧
      (s.classifyTagging b f x l d).sc = s.sc ∧ (s.classifyTagging b f x l d).tli.rx = s.tli.rx ∧
      (s.classifyTagging b f x l d).tli.tx = s.tli.tx ∧ (s.classifyTagging b f x l d).tli.woke = s.tli.woke ∧
      (s.classifyTagging b f x l d).pw = s.pw ∧ (s.classifyTagging b f x l d).cfg = s.cfg ∧
      (s.classifyTagging b f x l d).pins = s.pins ∧ (s.classifyTagging b f x l d).pending = s.pending := by
  unfold State.classifyTagging; (repeat' split) <;> simp

@[simp] theorem State.classifyPlain_frame (s : State) (b : Fin 4) (f : PackFrame) (l : VerifyLevel) (d : Disposition) :
      (s.classifyPlain b f l d).de = s.de ∧ (s.classifyPlain b f l d).ts = s.ts ∧
      (s.classifyPlain b f l d).il = s.il ∧ (s.classifyPlain b f l d).cache = s.cache ∧
      (s.classifyPlain b f l d).sc = s.sc ∧ (s.classifyPlain b f l d).me = s.me ∧
      (s.classifyPlain b f l d).tli.rx = s.tli.rx ∧ (s.classifyPlain b f l d).tli.tx = s.tli.tx ∧
      (s.classifyPlain b f l d).tli.woke = s.tli.woke ∧ (s.classifyPlain b f l d).pw = s.pw ∧
      (s.classifyPlain b f l d).cfg = s.cfg ∧ (s.classifyPlain b f l d).pins = s.pins ∧
      (s.classifyPlain b f l d).nonceDraws = s.nonceDraws ∧ (s.classifyPlain b f l d).pending = s.pending := by
  unfold State.classifyPlain; (repeat' split) <;> simp

@[simp] theorem State.classify_frame (s : State) (b : Fin 4) (f : PackFrame) :
      (s.classify b f).ts = s.ts ∧ (s.classify b f).cache = s.cache ∧ (s.classify b f).sc = s.sc ∧
      (s.classify b f).tli.rx = s.tli.rx ∧ (s.classify b f).tli.tx = s.tli.tx ∧
      (s.classify b f).tli.woke = s.tli.woke ∧ (s.classify b f).pw = s.pw ∧ (s.classify b f).cfg = s.cfg ∧
      (s.classify b f).pins = s.pins ∧ (s.classify b f).pending = s.pending := by
  unfold State.classify; dsimp only; (repeat' split) <;> simp

@[simp] theorem State.transactionFailed_frame (s : State) (b : Fin 4) (k : TxnKind) (st : Status) :
      (s.transactionFailed b k st).ts = s.ts ∧ (s.transactionFailed b k st).il = s.il ∧
      (s.transactionFailed b k st).cache = s.cache ∧ (s.transactionFailed b k st).ff = s.ff ∧
      (s.transactionFailed b k st).sc = s.sc ∧ (s.transactionFailed b k st).me = s.me ∧
      (s.transactionFailed b k st).tli.rx = s.tli.rx ∧ (s.transactionFailed b k st).tli.tx = s.tli.tx ∧
      (s.transactionFailed b k st).tli.woke = s.tli.woke ∧ (s.transactionFailed b k st).pw = s.pw ∧
      (s.transactionFailed b k st).cfg = s.cfg ∧ (s.transactionFailed b k st).flags = s.flags ∧
      (s.transactionFailed b k st).pins = s.pins ∧ (s.transactionFailed b k st).nonceDraws = s.nonceDraws ∧
      (s.transactionFailed b k st).pending = s.pending := by
  unfold State.transactionFailed; (repeat' split) <;> simp

@[simp] theorem State.attemptFailed_frame (s : State) (b : Fin 4) (k : TxnKind) (busy : Bool) :
      (s.attemptFailed b k busy).ts = s.ts ∧ (s.attemptFailed b k busy).il = s.il ∧
      (s.attemptFailed b k busy).cache = s.cache ∧ (s.attemptFailed b k busy).ff = s.ff ∧
      (s.attemptFailed b k busy).sc = s.sc ∧ (s.attemptFailed b k busy).me = s.me ∧
      (s.attemptFailed b k busy).tli.rx = s.tli.rx ∧ (s.attemptFailed b k busy).tli.tx = s.tli.tx ∧
      (s.attemptFailed b k busy).tli.woke = s.tli.woke ∧ (s.attemptFailed b k busy).pw = s.pw ∧
      (s.attemptFailed b k busy).cfg = s.cfg ∧ (s.attemptFailed b k busy).flags = s.flags ∧
      (s.attemptFailed b k busy).pins = s.pins ∧ (s.attemptFailed b k busy).nonceDraws = s.nonceDraws ∧
      (s.attemptFailed b k busy).pending = s.pending := by
  unfold State.attemptFailed; (repeat' split) <;> simp

@[simp] theorem State.idReply_frame (s : State) (b : Fin 4) (p : List Byte) :
      (s.idReply b p).ts = s.ts ∧ (s.idReply b p).ff = s.ff ∧ (s.idReply b p).sc = s.sc ∧
      (s.idReply b p).tli.rx = s.tli.rx ∧ (s.idReply b p).tli.tx = s.tli.tx ∧
      (s.idReply b p).tli.woke = s.tli.woke ∧ (s.idReply b p).pw = s.pw ∧ (s.idReply b p).cfg = s.cfg ∧
      (s.idReply b p).flags = s.flags ∧ (s.idReply b p).pins = s.pins ∧ (s.idReply b p).pending = s.pending := by
  unfold State.idReply; (repeat' split) <;> simp

@[simp] theorem State.takeProof_frame (s : State) (b : Fin 4) (p : List Byte) :
      (s.takeProof b p).ts = s.ts ∧ (s.takeProof b p).cache = s.cache ∧ (s.takeProof b p).ff = s.ff ∧
      (s.takeProof b p).sc = s.sc ∧ (s.takeProof b p).tli.rx = s.tli.rx ∧ (s.takeProof b p).tli.tx = s.tli.tx ∧
      (s.takeProof b p).tli.woke = s.tli.woke ∧ (s.takeProof b p).pw = s.pw ∧ (s.takeProof b p).cfg = s.cfg ∧
      (s.takeProof b p).flags = s.flags ∧ (s.takeProof b p).pins = s.pins ∧
      (s.takeProof b p).nonceDraws = s.nonceDraws ∧ (s.takeProof b p).pending = s.pending := by
  unfold State.takeProof; dsimp only; (repeat' split) <;> simp

@[simp] theorem State.beginSecondHalf_frame (s : State) (b : Fin 4) :
      (s.beginSecondHalf b).de = s.de ∧ (s.beginSecondHalf b).ts = s.ts ∧ (s.beginSecondHalf b).il = s.il ∧
      (s.beginSecondHalf b).cache = s.cache ∧ (s.beginSecondHalf b).ff = s.ff ∧
      (s.beginSecondHalf b).sc = s.sc ∧ (s.beginSecondHalf b).me = s.me ∧ (s.beginSecondHalf b).tli = s.tli ∧
      (s.beginSecondHalf b).pw = s.pw ∧ (s.beginSecondHalf b).cfg = s.cfg ∧
      (s.beginSecondHalf b).flags = s.flags ∧ (s.beginSecondHalf b).pins = s.pins ∧
      (s.beginSecondHalf b).nonceDraws = s.nonceDraws ∧ (s.beginSecondHalf b).pending = s.pending := by
  simp [State.beginSecondHalf]

@[simp] theorem State.takeReply_frame (s : State) (b : Fin 4) (k : TxnKind) (f : PackFrame) :
      (s.takeReply b k f).ts = s.ts ∧ (s.takeReply b k f).sc = s.sc ∧ (s.takeReply b k f).tli.rx = s.tli.rx ∧
      (s.takeReply b k f).tli.tx = s.tli.tx ∧ (s.takeReply b k f).tli.woke = s.tli.woke ∧
      (s.takeReply b k f).pw = s.pw ∧ (s.takeReply b k f).cfg = s.cfg ∧ (s.takeReply b k f).pins = s.pins ∧
      (s.takeReply b k f).pending = s.pending := by
  unfold State.takeReply; (repeat' split) <;> simp

@[simp] theorem State.goodFrame_frame (s : State) (b : Fin 4) (k : TxnKind) (f : PackFrame) :
      (s.goodFrame b k f).ts = s.ts ∧ (s.goodFrame b k f).sc = s.sc ∧ (s.goodFrame b k f).tli.rx = s.tli.rx ∧
      (s.goodFrame b k f).tli.tx = s.tli.tx ∧ (s.goodFrame b k f).tli.woke = s.tli.woke ∧
      (s.goodFrame b k f).pw = s.pw ∧ (s.goodFrame b k f).cfg = s.cfg ∧ (s.goodFrame b k f).pins = s.pins ∧
      (s.goodFrame b k f).pending = s.pending := by
  unfold State.goodFrame; (repeat' split) <;> simp

@[simp] theorem State.abandonedEnd_frame (s : State) (b : Fin 4) :
      (s.abandonedEnd b).de = s.de ∧ (s.abandonedEnd b).ts = s.ts ∧ (s.abandonedEnd b).il = s.il ∧
      (s.abandonedEnd b).cache = s.cache ∧ (s.abandonedEnd b).ff = s.ff ∧ (s.abandonedEnd b).sc = s.sc ∧
      (s.abandonedEnd b).me = s.me ∧ (s.abandonedEnd b).tli = s.tli ∧ (s.abandonedEnd b).pw = s.pw ∧
      (s.abandonedEnd b).cfg = s.cfg ∧ (s.abandonedEnd b).flags = s.flags ∧ (s.abandonedEnd b).pins = s.pins ∧
      (s.abandonedEnd b).nonceDraws = s.nonceDraws ∧ (s.abandonedEnd b).pending = s.pending := by
  simp [State.abandonedEnd]

@[simp] theorem State.recover_frame (s : State) (b : Fin 4) :
      (s.recover b).de = s.de ∧ (s.recover b).ts = s.ts ∧ (s.recover b).il = s.il ∧
      (s.recover b).cache = s.cache ∧ (s.recover b).ff = s.ff ∧ (s.recover b).sc = s.sc ∧
      (s.recover b).me = s.me ∧ (s.recover b).tli.rx = s.tli.rx ∧
      (s.recover b).tli.responses = s.tli.responses ∧ (s.recover b).tli.tx = s.tli.tx ∧
      (s.recover b).tli.woke = s.tli.woke ∧ (s.recover b).pw = s.pw ∧ (s.recover b).cfg = s.cfg ∧
      (s.recover b).flags = s.flags ∧ (s.recover b).pins = s.pins ∧ (s.recover b).nonceDraws = s.nonceDraws ∧
      (s.recover b).pending = s.pending := by
  simp [State.recover]

end Sys2Proof.Machine
end

