-- ==== Sys2Proof/Laws/Jobs.lean ====
section
/-! SUPPORT. The fields that the completions of digest jobs leave. -/

namespace Sys2Proof.Machine

@[simp] theorem State.takePackKey_frame (s : State) (n : Nat) (k : Key) (b : Fin 4) :
      (State.takePackKey n k b s).de = s.de ∧ (State.takePackKey n k b s).ts = s.ts ∧
      (State.takePackKey n k b s).il = s.il ∧ (State.takePackKey n k b s).cache = s.cache ∧
      (State.takePackKey n k b s).ff = s.ff ∧ (State.takePackKey n k b s).sc = s.sc ∧
      (State.takePackKey n k b s).me = s.me ∧ (State.takePackKey n k b s).tli.rx = s.tli.rx ∧
      (State.takePackKey n k b s).tli.responses = s.tli.responses ∧
      (State.takePackKey n k b s).tli.tx = s.tli.tx ∧ (State.takePackKey n k b s).tli.woke = s.tli.woke ∧
      (State.takePackKey n k b s).pw = s.pw ∧ (State.takePackKey n k b s).cfg = s.cfg ∧
      (State.takePackKey n k b s).flags = s.flags ∧ (State.takePackKey n k b s).pins = s.pins ∧
      (State.takePackKey n k b s).pending = s.pending := by
  unfold State.takePackKey; dsimp only; (repeat' split) <;> simp

@[simp] theorem State.proofMatched_frame (s : State) (b : Fin 4) (k : Key) (x y : Nonce) :
      (s.proofMatched b k x y).ts = s.ts ∧ (s.proofMatched b k x y).cache = s.cache ∧
      (s.proofMatched b k x y).ff = s.ff ∧ (s.proofMatched b k x y).sc = s.sc ∧
      (s.proofMatched b k x y).tli.rx = s.tli.rx ∧ (s.proofMatched b k x y).tli.tx = s.tli.tx ∧
      (s.proofMatched b k x y).tli.woke = s.tli.woke ∧ (s.proofMatched b k x y).pw = s.pw ∧
      (s.proofMatched b k x y).cfg = s.cfg ∧ (s.proofMatched b k x y).flags = s.flags ∧
      (s.proofMatched b k x y).pins = s.pins ∧ (s.proofMatched b k x y).nonceDraws = s.nonceDraws ∧
      (s.proofMatched b k x y).pending = s.pending := by
  simp [State.proofMatched]

@[simp] theorem State.insertForged_frame (s : State) (b : Fin 4) (x : Serial) :
      (s.insertForged b x).bays = s.bays ∧ (s.insertForged b x).de = s.de ∧ (s.insertForged b x).ts = s.ts ∧
      (s.insertForged b x).il = s.il ∧ (s.insertForged b x).ff = s.ff ∧ (s.insertForged b x).sc = s.sc ∧
      (s.insertForged b x).me = s.me ∧ (s.insertForged b x).tli = s.tli ∧ (s.insertForged b x).pw = s.pw ∧
      (s.insertForged b x).cfg = s.cfg ∧ (s.insertForged b x).flags = s.flags ∧
      (s.insertForged b x).pins = s.pins ∧ (s.insertForged b x).nonceDraws = s.nonceDraws ∧
      (s.insertForged b x).pending = s.pending ∧ ∀ other, (s.insertForged b x).bay other = s.bay other := by
  unfold State.insertForged; (repeat' split) <;> simp

@[simp] theorem State.forgedAtAdmission_frame (s : State) (b : Fin 4) (x : Serial) :
      (s.forgedAtAdmission b x).ts = s.ts ∧ (s.forgedAtAdmission b x).il = s.il ∧
      (s.forgedAtAdmission b x).ff = s.ff ∧ (s.forgedAtAdmission b x).sc = s.sc ∧
      (s.forgedAtAdmission b x).me = s.me ∧ (s.forgedAtAdmission b x).tli.rx = s.tli.rx ∧
      (s.forgedAtAdmission b x).tli.tx = s.tli.tx ∧ (s.forgedAtAdmission b x).tli.woke = s.tli.woke ∧
      (s.forgedAtAdmission b x).pw = s.pw ∧ (s.forgedAtAdmission b x).cfg = s.cfg ∧
      (s.forgedAtAdmission b x).flags = s.flags ∧ (s.forgedAtAdmission b x).pins = s.pins ∧
      (s.forgedAtAdmission b x).nonceDraws = s.nonceDraws ∧ (s.forgedAtAdmission b x).pending = s.pending := by
  simp [State.forgedAtAdmission]

@[simp] theorem State.forgedAtRenewal_frame (s : State) (b : Fin 4) (x : Serial) :
      (s.forgedAtRenewal b x).ts = s.ts ∧ (s.forgedAtRenewal b x).il = s.il ∧
      (s.forgedAtRenewal b x).ff = s.ff ∧ (s.forgedAtRenewal b x).sc = s.sc ∧
      (s.forgedAtRenewal b x).me = s.me ∧ (s.forgedAtRenewal b x).tli.rx = s.tli.rx ∧
      (s.forgedAtRenewal b x).tli.tx = s.tli.tx ∧ (s.forgedAtRenewal b x).tli.woke = s.tli.woke ∧
      (s.forgedAtRenewal b x).pw = s.pw ∧ (s.forgedAtRenewal b x).cfg = s.cfg ∧
      (s.forgedAtRenewal b x).flags = s.flags ∧ (s.forgedAtRenewal b x).pins = s.pins ∧
      (s.forgedAtRenewal b x).nonceDraws = s.nonceDraws ∧ (s.forgedAtRenewal b x).pending = s.pending := by
  unfold State.forgedAtRenewal; dsimp only; (repeat' split) <;> simp

@[simp] theorem State.takeProofResult_frame (s : State) (k : Key) (x y : Nonce) (z : Serial) (e : Bool) (b : Fin 4) :
      (State.takeProofResult k x y z e b s).ts = s.ts ∧ (State.takeProofResult k x y z e b s).ff = s.ff ∧
      (State.takeProofResult k x y z e b s).sc = s.sc ∧
      (State.takeProofResult k x y z e b s).tli.rx = s.tli.rx ∧
      (State.takeProofResult k x y z e b s).tli.tx = s.tli.tx ∧
      (State.takeProofResult k x y z e b s).tli.woke = s.tli.woke ∧
      (State.takeProofResult k x y z e b s).pw = s.pw ∧ (State.takeProofResult k x y z e b s).cfg = s.cfg ∧
      (State.takeProofResult k x y z e b s).flags = s.flags ∧
      (State.takeProofResult k x y z e b s).pins = s.pins ∧
      (State.takeProofResult k x y z e b s).nonceDraws = s.nonceDraws ∧
      (State.takeProofResult k x y z e b s).pending = s.pending := by
  unfold State.takeProofResult; (repeat' split) <;> simp

@[simp] theorem State.takeSessionKey_frame (s : State) (k : Key) (b : Fin 4) :
      (State.takeSessionKey k b s).ts = s.ts ∧ (State.takeSessionKey k b s).il = s.il ∧
      (State.takeSessionKey k b s).ff = s.ff ∧ (State.takeSessionKey k b s).sc = s.sc ∧
      (State.takeSessionKey k b s).me = s.me ∧ (State.takeSessionKey k b s).tli.rx = s.tli.rx ∧
      (State.takeSessionKey k b s).tli.responses = s.tli.responses ∧
      (State.takeSessionKey k b s).tli.tx = s.tli.tx ∧ (State.takeSessionKey k b s).tli.woke = s.tli.woke ∧
      (State.takeSessionKey k b s).pw = s.pw ∧ (State.takeSessionKey k b s).cfg = s.cfg ∧
      (State.takeSessionKey k b s).flags = s.flags ∧ (State.takeSessionKey k b s).pins = s.pins ∧
      (State.takeSessionKey k b s).nonceDraws = s.nonceDraws ∧ (State.takeSessionKey k b s).pending = s.pending := by
  unfold State.takeSessionKey; (repeat' split) <;> simp

@[simp] theorem State.takeTagResult_frame (s : State) (e : Bool) (b : Fin 4) :
      (State.takeTagResult e b s).ts = s.ts ∧ (State.takeTagResult e b s).il = s.il ∧
      (State.takeTagResult e b s).cache = s.cache ∧ (State.takeTagResult e b s).sc = s.sc ∧
      (State.takeTagResult e b s).me = s.me ∧ (State.takeTagResult e b s).tli.rx = s.tli.rx ∧
      (State.takeTagResult e b s).tli.tx = s.tli.tx ∧ (State.takeTagResult e b s).tli.woke = s.tli.woke ∧
      (State.takeTagResult e b s).pw = s.pw ∧ (State.takeTagResult e b s).cfg = s.cfg ∧
      (State.takeTagResult e b s).pins = s.pins ∧ (State.takeTagResult e b s).pending = s.pending := by
  unfold State.takeTagResult; (repeat' split) <;> simp

@[simp] theorem State.takeImageResult_frame (s : State) (e : Bool) :
      (s.takeImageResult e).bays = s.bays ∧ (s.takeImageResult e).cache = s.cache ∧
      (s.takeImageResult e).ff = s.ff ∧ (s.takeImageResult e).sc = s.sc ∧ (s.takeImageResult e).me = s.me ∧
      (s.takeImageResult e).tli.rx = s.tli.rx ∧ (s.takeImageResult e).tli.tx = s.tli.tx ∧
      (s.takeImageResult e).tli.woke = s.tli.woke ∧ (s.takeImageResult e).pw = s.pw ∧
      (s.takeImageResult e).cfg = s.cfg ∧ (s.takeImageResult e).flags = s.flags ∧
      (s.takeImageResult e).pins = s.pins ∧ (s.takeImageResult e).nonceDraws = s.nonceDraws ∧
      (s.takeImageResult e).pending = s.pending ∧ ∀ other, (s.takeImageResult e).bay other = s.bay other := by
  unfold State.takeImageResult; (repeat' split) <;> simp [State.bay]

@[simp] theorem State.takeCheckValue_frame (s : State) (v : Digest) :
      (s.takeCheckValue v).bays = s.bays ∧ (s.takeCheckValue v).de = s.de ∧ (s.takeCheckValue v).ts = s.ts ∧
      (s.takeCheckValue v).il = s.il ∧ (s.takeCheckValue v).cache = s.cache ∧ (s.takeCheckValue v).ff = s.ff ∧
      (s.takeCheckValue v).sc = s.sc ∧ (s.takeCheckValue v).tli.rx = s.tli.rx ∧
      (s.takeCheckValue v).tli.tx = s.tli.tx ∧ (s.takeCheckValue v).tli.notices = s.tli.notices ∧
      (s.takeCheckValue v).tli.woke = s.tli.woke ∧ (s.takeCheckValue v).pw = s.pw ∧
      (s.takeCheckValue v).cfg = s.cfg ∧ (s.takeCheckValue v).flags = s.flags ∧
      (s.takeCheckValue v).pins = s.pins ∧ (s.takeCheckValue v).nonceDraws = s.nonceDraws ∧
      (s.takeCheckValue v).pending = s.pending ∧ ∀ other, (s.takeCheckValue v).bay other = s.bay other := by
  unfold State.takeCheckValue; split <;> simp [State.bay]

end Sys2Proof.Machine
end

