-- ==== Sys2Proof/Laws/Events.lean ====
section
/-! SUPPORT. The fields that bay events, resets, commits and the tool line leave. -/

namespace Sys2Proof.Machine

@[simp] theorem State.settlePresent_frame (s : State) (b : Fin 4) :
      (s.settlePresent b).de = s.de ∧ (s.settlePresent b).ts = s.ts ∧ (s.settlePresent b).il = s.il ∧
      (s.settlePresent b).cache = s.cache ∧ (s.settlePresent b).ff = s.ff ∧ (s.settlePresent b).sc = s.sc ∧
      (s.settlePresent b).me = s.me ∧ (s.settlePresent b).tli.rx = s.tli.rx ∧
      (s.settlePresent b).tli.responses = s.tli.responses ∧ (s.settlePresent b).tli.tx = s.tli.tx ∧
      (s.settlePresent b).tli.woke = s.tli.woke ∧ (s.settlePresent b).pw = s.pw ∧
      (s.settlePresent b).cfg = s.cfg ∧ (s.settlePresent b).flags = s.flags ∧
      (s.settlePresent b).pins = s.pins ∧ (s.settlePresent b).nonceDraws = s.nonceDraws ∧
      (s.settlePresent b).pending = s.pending := by
  unfold State.settlePresent; (repeat' split) <;> simp

@[simp] theorem State.settleAll_frame (s : State) :
      (s.settleAll).de = s.de ∧ (s.settleAll).ts = s.ts ∧ (s.settleAll).il = s.il ∧
      (s.settleAll).cache = s.cache ∧ (s.settleAll).ff = s.ff ∧ (s.settleAll).sc = s.sc ∧
      (s.settleAll).me = s.me ∧ (s.settleAll).tli.rx = s.tli.rx ∧
      (s.settleAll).tli.responses = s.tli.responses ∧ (s.settleAll).tli.tx = s.tli.tx ∧
      (s.settleAll).tli.woke = s.tli.woke ∧ (s.settleAll).pw = s.pw ∧ (s.settleAll).cfg = s.cfg ∧
      (s.settleAll).flags = s.flags ∧ (s.settleAll).pins = s.pins ∧ (s.settleAll).nonceDraws = s.nonceDraws ∧
      (s.settleAll).pending = s.pending := by
  simp [State.settleAll, Four.indices]

@[simp] theorem State.wake_frame (s : State) :
      (s.wake).de = s.de ∧ (s.wake).ts = s.ts ∧ (s.wake).il = s.il ∧ (s.wake).cache = s.cache ∧
      (s.wake).ff = s.ff ∧ (s.wake).me = s.me ∧ (s.wake).tli.rx = s.tli.rx ∧
      (s.wake).tli.responses = s.tli.responses ∧ (s.wake).tli.tx = s.tli.tx ∧ (s.wake).cfg = s.cfg ∧
      (s.wake).flags = s.flags ∧ (s.wake).pins = s.pins ∧ (s.wake).nonceDraws = s.nonceDraws ∧
      (s.wake).pending = s.pending := by
  simp [State.wake]

@[simp] theorem State.rxdWake_frame (s : State) :
      (s.rxdWake).de = s.de ∧ (s.rxdWake).ts = s.ts ∧ (s.rxdWake).il = s.il ∧ (s.rxdWake).cache = s.cache ∧
      (s.rxdWake).ff = s.ff ∧ (s.rxdWake).me = s.me ∧ (s.rxdWake).tli.responses = s.tli.responses ∧
      (s.rxdWake).tli.tx = s.tli.tx ∧ (s.rxdWake).cfg = s.cfg ∧ (s.rxdWake).flags = s.flags ∧
      (s.rxdWake).pins = s.pins ∧ (s.rxdWake).nonceDraws = s.nonceDraws ∧ (s.rxdWake).pending = s.pending := by
  simp [State.rxdWake]

@[simp] theorem State.sampleDet_frame (s : State) (d : Four Bool) :
      (s.sampleDet d).de = s.de ∧ (s.sampleDet d).ts = s.ts ∧ (s.sampleDet d).il = s.il ∧
      (s.sampleDet d).cache = s.cache ∧ (s.sampleDet d).ff = s.ff ∧ (s.sampleDet d).sc = s.sc ∧
      (s.sampleDet d).me = s.me ∧ (s.sampleDet d).tli = s.tli ∧ (s.sampleDet d).cfg = s.cfg ∧
      (s.sampleDet d).flags = s.flags ∧ (s.sampleDet d).nonceDraws = s.nonceDraws ∧
      (s.sampleDet d).pending = s.pending := by
  simp [State.sampleDet]

@[simp] theorem State.leaveLockout_frame (s : State) (b : Fin 4) :
      (s.leaveLockout b).de = s.de ∧ (s.leaveLockout b).ts = s.ts ∧ (s.leaveLockout b).il = s.il ∧
      (s.leaveLockout b).cache = s.cache ∧ (s.leaveLockout b).ff = s.ff ∧ (s.leaveLockout b).sc = s.sc ∧
      (s.leaveLockout b).me = s.me ∧ (s.leaveLockout b).tli.rx = s.tli.rx ∧
      (s.leaveLockout b).tli.responses = s.tli.responses ∧ (s.leaveLockout b).tli.tx = s.tli.tx ∧
      (s.leaveLockout b).tli.woke = s.tli.woke ∧ (s.leaveLockout b).pw = s.pw ∧
      (s.leaveLockout b).cfg = s.cfg ∧ (s.leaveLockout b).flags = s.flags ∧ (s.leaveLockout b).pins = s.pins ∧
      (s.leaveLockout b).nonceDraws = s.nonceDraws ∧ (s.leaveLockout b).pending = s.pending := by
  simp [State.leaveLockout]

@[simp] theorem State.decayBay_frame (s : State) (b : Fin 4) :
      (s.decayBay b).de = s.de ∧ (s.decayBay b).ts = s.ts ∧ (s.decayBay b).il = s.il ∧
      (s.decayBay b).cache = s.cache ∧ (s.decayBay b).ff = s.ff ∧ (s.decayBay b).me = s.me ∧
      (s.decayBay b).tli.rx = s.tli.rx ∧ (s.decayBay b).tli.responses = s.tli.responses ∧
      (s.decayBay b).tli.tx = s.tli.tx ∧ (s.decayBay b).cfg = s.cfg ∧ (s.decayBay b).flags = s.flags ∧
      (s.decayBay b).pins = s.pins ∧ (s.decayBay b).nonceDraws = s.nonceDraws ∧
      (s.decayBay b).pending = s.pending := by
  unfold State.decayBay; dsimp only; (repeat' split) <;> simp

@[simp] theorem State.removeBay_frame (s : State) (b : Fin 4) :
      (s.removeBay b).ts = s.ts ∧ (s.removeBay b).il = s.il ∧ (s.removeBay b).cache = s.cache ∧
      (s.removeBay b).ff = s.ff ∧ (s.removeBay b).sc = s.sc ∧ (s.removeBay b).me = s.me ∧
      (s.removeBay b).tli.rx = s.tli.rx ∧ (s.removeBay b).tli.tx = s.tli.tx ∧
      (s.removeBay b).tli.woke = s.tli.woke ∧ (s.removeBay b).pw = s.pw ∧ (s.removeBay b).cfg = s.cfg ∧
      (s.removeBay b).flags = s.flags ∧ (s.removeBay b).pins = s.pins ∧
      (s.removeBay b).nonceDraws = s.nonceDraws ∧ (s.removeBay b).pending = s.pending := by
  unfold State.removeBay; (repeat' split) <;> simp

@[simp] theorem State.deriveAwake_frame (s : State) :
      (s.deriveAwake).bays = s.bays ∧ (s.deriveAwake).de = s.de ∧ (s.deriveAwake).ts = s.ts ∧
      (s.deriveAwake).il = s.il ∧ (s.deriveAwake).cache = s.cache ∧ (s.deriveAwake).ff = s.ff ∧
      (s.deriveAwake).me = s.me ∧ (s.deriveAwake).tli.rx = s.tli.rx ∧
      (s.deriveAwake).tli.responses = s.tli.responses ∧ (s.deriveAwake).tli.tx = s.tli.tx ∧
      (s.deriveAwake).tli.woke = s.tli.woke ∧ (s.deriveAwake).pw = s.pw ∧ (s.deriveAwake).cfg = s.cfg ∧
      (s.deriveAwake).flags = s.flags ∧ (s.deriveAwake).pins = s.pins ∧
      (s.deriveAwake).nonceDraws = s.nonceDraws ∧ (s.deriveAwake).pending = s.pending ∧
      ∀ other, (s.deriveAwake).bay other = s.bay other := by
  unfold State.deriveAwake; split <;> simp

@[simp] theorem State.runFallBay_frame (s : State) (b : Fin 4) :
      (s.runFallBay b).de = s.de ∧ (s.runFallBay b).ts = s.ts ∧ (s.runFallBay b).il = s.il ∧
      (s.runFallBay b).cache = s.cache ∧ (s.runFallBay b).ff = s.ff ∧ (s.runFallBay b).sc = s.sc ∧
      (s.runFallBay b).me = s.me ∧ (s.runFallBay b).tli.rx = s.tli.rx ∧
      (s.runFallBay b).tli.responses = s.tli.responses ∧ (s.runFallBay b).tli.tx = s.tli.tx ∧
      (s.runFallBay b).tli.woke = s.tli.woke ∧ (s.runFallBay b).pw = s.pw ∧ (s.runFallBay b).cfg = s.cfg ∧
      (s.runFallBay b).flags = s.flags ∧ (s.runFallBay b).pins = s.pins ∧
      (s.runFallBay b).nonceDraws = s.nonceDraws ∧ (s.runFallBay b).pending = s.pending := by
  unfold State.runFallBay; (repeat' split) <;> simp

@[simp] theorem State.completeStartup_frame (s : State) :
      (s.completeStartup).de = s.de ∧ (s.completeStartup).ts = s.ts ∧ (s.completeStartup).il = s.il ∧
      (s.completeStartup).cache = s.cache ∧ (s.completeStartup).ff = s.ff ∧ (s.completeStartup).sc = s.sc ∧
      (s.completeStartup).me = s.me ∧ (s.completeStartup).tli.rx = s.tli.rx ∧
      (s.completeStartup).tli.responses = s.tli.responses ∧ (s.completeStartup).tli.tx = s.tli.tx ∧
      (s.completeStartup).tli.woke = s.tli.woke ∧ (s.completeStartup).cfg = s.cfg ∧
      (s.completeStartup).flags = s.flags ∧ (s.completeStartup).pins = s.pins ∧
      (s.completeStartup).nonceDraws = s.nonceDraws ∧ (s.completeStartup).pending = s.pending := by
  simp [State.completeStartup]

@[simp] theorem State.nextRewrite_frame (s : State) (l : List RecordKind) :
      (s.nextRewrite l).de = s.de ∧ (s.nextRewrite l).il = s.il ∧ (s.nextRewrite l).cache = s.cache ∧
      (s.nextRewrite l).ff = s.ff ∧ (s.nextRewrite l).sc = s.sc ∧ (s.nextRewrite l).me = s.me ∧
      (s.nextRewrite l).tli.rx = s.tli.rx ∧ (s.nextRewrite l).tli.responses = s.tli.responses ∧
      (s.nextRewrite l).tli.tx = s.tli.tx ∧ (s.nextRewrite l).tli.woke = s.tli.woke ∧
      (s.nextRewrite l).cfg = s.cfg ∧ (s.nextRewrite l).flags = s.flags ∧ (s.nextRewrite l).pins = s.pins ∧
      (s.nextRewrite l).nonceDraws = s.nonceDraws ∧ (s.nextRewrite l).pending = s.pending := by
  unfold State.nextRewrite; split <;> simp

@[simp] theorem State.flagLost_frame (s : State) (k : RecordKind) :
      (s.flagLost k).bays = s.bays ∧ (s.flagLost k).de = s.de ∧ (s.flagLost k).ts = s.ts ∧
      (s.flagLost k).il = s.il ∧ (s.flagLost k).cache = s.cache ∧ (s.flagLost k).ff = s.ff ∧
      (s.flagLost k).sc = s.sc ∧ (s.flagLost k).me = s.me ∧ (s.flagLost k).tli.rx = s.tli.rx ∧
      (s.flagLost k).tli.responses = s.tli.responses ∧ (s.flagLost k).tli.tx = s.tli.tx ∧
      (s.flagLost k).tli.woke = s.tli.woke ∧ (s.flagLost k).pw = s.pw ∧ (s.flagLost k).cfg = s.cfg ∧
      (s.flagLost k).pins = s.pins ∧ (s.flagLost k).nonceDraws = s.nonceDraws ∧
      (s.flagLost k).pending = s.pending ∧ ∀ other, (s.flagLost k).bay other = s.bay other := by
  cases k <;> simp [State.flagLost]

@[simp] theorem State.endCommit_frame (s : State) (r : WriteResult) (g : Word16) :
      (s.endCommit r g).bays = s.bays ∧ (s.endCommit r g).ts = s.ts ∧ (s.endCommit r g).cache = s.cache ∧
      (s.endCommit r g).ff = s.ff ∧ (s.endCommit r g).sc = s.sc ∧ (s.endCommit r g).me = s.me ∧
      (s.endCommit r g).tli.rx = s.tli.rx ∧ (s.endCommit r g).tli.tx = s.tli.tx ∧
      (s.endCommit r g).tli.woke = s.tli.woke ∧ (s.endCommit r g).pw = s.pw ∧ (s.endCommit r g).cfg = s.cfg ∧
      (s.endCommit r g).flags = s.flags ∧ (s.endCommit r g).pins = s.pins ∧
      (s.endCommit r g).nonceDraws = s.nonceDraws ∧ (s.endCommit r g).pending = s.pending ∧
      ∀ other, (s.endCommit r g).bay other = s.bay other := by
  unfold State.endCommit; (repeat' split) <;> simp

@[simp] theorem State.endEdit_frame (s : State) (l : RevList) (r : WriteResult) :
      (s.endEdit l r).bays = s.bays ∧ (s.endEdit l r).de = s.de ∧ (s.endEdit l r).ts = s.ts ∧
      (s.endEdit l r).il = s.il ∧ (s.endEdit l r).cache = s.cache ∧ (s.endEdit l r).ff = s.ff ∧
      (s.endEdit l r).sc = s.sc ∧ (s.endEdit l r).tli.rx = s.tli.rx ∧ (s.endEdit l r).tli.tx = s.tli.tx ∧
      (s.endEdit l r).tli.notices = s.tli.notices ∧ (s.endEdit l r).tli.woke = s.tli.woke ∧
      (s.endEdit l r).pw = s.pw ∧ (s.endEdit l r).cfg = s.cfg ∧ (s.endEdit l r).flags = s.flags ∧
      (s.endEdit l r).pins = s.pins ∧ (s.endEdit l r).nonceDraws = s.nonceDraws ∧
      (s.endEdit l r).pending = s.pending ∧ ∀ other, (s.endEdit l r).bay other = s.bay other := by
  unfold State.endEdit; (repeat' split) <;> simp [State.bay]

@[simp] theorem State.endKeyLoad_frame (s : State) (r : WriteResult) :
      (s.endKeyLoad r).bays = s.bays ∧ (s.endKeyLoad r).de = s.de ∧ (s.endKeyLoad r).ts = s.ts ∧
      (s.endKeyLoad r).il = s.il ∧ (s.endKeyLoad r).cache = s.cache ∧ (s.endKeyLoad r).ff = s.ff ∧
      (s.endKeyLoad r).sc = s.sc ∧ (s.endKeyLoad r).tli.rx = s.tli.rx ∧ (s.endKeyLoad r).tli.tx = s.tli.tx ∧
      (s.endKeyLoad r).tli.notices = s.tli.notices ∧ (s.endKeyLoad r).tli.woke = s.tli.woke ∧
      (s.endKeyLoad r).pw = s.pw ∧ (s.endKeyLoad r).cfg = s.cfg ∧ (s.endKeyLoad r).flags = s.flags ∧
      (s.endKeyLoad r).pins = s.pins ∧ (s.endKeyLoad r).nonceDraws = s.nonceDraws ∧
      (s.endKeyLoad r).pending = s.pending ∧ ∀ other, (s.endKeyLoad r).bay other = s.bay other := by
  unfold State.endKeyLoad; split <;> simp [State.bay]

@[simp] theorem State.passThrough_frame (s : State) (b : Fin 4) (t c f : Byte) (p : List Byte) :
      (s.passThrough b t c f p).de = s.de ∧ (s.passThrough b t c f p).ts = s.ts ∧
      (s.passThrough b t c f p).il = s.il ∧ (s.passThrough b t c f p).cache = s.cache ∧
      (s.passThrough b t c f p).ff = s.ff ∧ (s.passThrough b t c f p).sc = s.sc ∧
      (s.passThrough b t c f p).me = s.me ∧ (s.passThrough b t c f p).tli.rx = s.tli.rx ∧
      (s.passThrough b t c f p).tli.tx = s.tli.tx ∧ (s.passThrough b t c f p).tli.notices = s.tli.notices ∧
      (s.passThrough b t c f p).tli.woke = s.tli.woke ∧ (s.passThrough b t c f p).pw = s.pw ∧
      (s.passThrough b t c f p).cfg = s.cfg ∧ (s.passThrough b t c f p).flags = s.flags ∧
      (s.passThrough b t c f p).pins = s.pins ∧ (s.passThrough b t c f p).nonceDraws = s.nonceDraws ∧
      (s.passThrough b t c f p).pending = s.pending := by
  unfold State.passThrough; split <;> simp

@[simp] theorem State.enqueue_frame (s : State) (r : GateRequest) :
      (s.enqueue r).bays = s.bays ∧ (s.enqueue r).de = s.de ∧ (s.enqueue r).ts = s.ts ∧
      (s.enqueue r).il = s.il ∧ (s.enqueue r).cache = s.cache ∧ (s.enqueue r).ff = s.ff ∧
      (s.enqueue r).sc = s.sc ∧ (s.enqueue r).tli.rx = s.tli.rx ∧ (s.enqueue r).tli.tx = s.tli.tx ∧
      (s.enqueue r).tli.notices = s.tli.notices ∧ (s.enqueue r).tli.woke = s.tli.woke ∧
      (s.enqueue r).pw = s.pw ∧ (s.enqueue r).cfg = s.cfg ∧ (s.enqueue r).flags = s.flags ∧
      (s.enqueue r).pins = s.pins ∧ (s.enqueue r).nonceDraws = s.nonceDraws ∧
      (s.enqueue r).pending = s.pending ∧ ∀ other, (s.enqueue r).bay other = s.bay other := by
  unfold State.enqueue; split <;> simp [State.bay]

@[simp] theorem State.route_frame (s : State) (k t c f : Byte) (p : List Byte) :
      (s.route k t c f p).de = s.de ∧ (s.route k t c f p).ts = s.ts ∧ (s.route k t c f p).il = s.il ∧
      (s.route k t c f p).cache = s.cache ∧ (s.route k t c f p).ff = s.ff ∧ (s.route k t c f p).sc = s.sc ∧
      (s.route k t c f p).tli.rx = s.tli.rx ∧ (s.route k t c f p).tli.tx = s.tli.tx ∧
      (s.route k t c f p).tli.woke = s.tli.woke ∧ (s.route k t c f p).pw = s.pw ∧
      (s.route k t c f p).cfg = s.cfg ∧ (s.route k t c f p).pins = s.pins ∧
      (s.route k t c f p).nonceDraws = s.nonceDraws ∧ (s.route k t c f p).pending = s.pending := by
  unfold State.route; (repeat' split) <;> simp

@[simp] theorem State.receive_frame (s : State) (l : List Byte) :
      (s.receive l).de = s.de ∧ (s.receive l).ts = s.ts ∧ (s.receive l).il = s.il ∧
      (s.receive l).cache = s.cache ∧ (s.receive l).ff = s.ff ∧ (s.receive l).sc = s.sc ∧
      (s.receive l).tli.tx = s.tli.tx ∧ (s.receive l).tli.woke = s.tli.woke ∧ (s.receive l).pw = s.pw ∧
      (s.receive l).cfg = s.cfg ∧ (s.receive l).pins = s.pins ∧ (s.receive l).nonceDraws = s.nonceDraws ∧
      (s.receive l).pending = s.pending := by
  unfold State.receive; (repeat' split) <;> simp

@[simp] theorem State.reply_frame (s : State) (r : GateRequest) (st : Status) (p : List Byte) :
      (s.reply r st p).bays = s.bays ∧ (s.reply r st p).de = s.de ∧ (s.reply r st p).ts = s.ts ∧
      (s.reply r st p).il = s.il ∧ (s.reply r st p).cache = s.cache ∧ (s.reply r st p).ff = s.ff ∧
      (s.reply r st p).sc = s.sc ∧ (s.reply r st p).me = s.me ∧ (s.reply r st p).tli.rx = s.tli.rx ∧
      (s.reply r st p).tli.tx = s.tli.tx ∧ (s.reply r st p).tli.notices = s.tli.notices ∧
      (s.reply r st p).tli.woke = s.tli.woke ∧ (s.reply r st p).pw = s.pw ∧ (s.reply r st p).cfg = s.cfg ∧
      (s.reply r st p).flags = s.flags ∧ (s.reply r st p).pins = s.pins ∧
      (s.reply r st p).nonceDraws = s.nonceDraws ∧ (s.reply r st p).pending = s.pending ∧
      ∀ other, (s.reply r st p).bay other = s.bay other := by
  simp [State.reply]

@[simp] theorem State.refuse_frame (s : State) (r : GateRequest) (st : Status) :
      (s.refuse r st).bays = s.bays ∧ (s.refuse r st).de = s.de ∧ (s.refuse r st).ts = s.ts ∧
      (s.refuse r st).il = s.il ∧ (s.refuse r st).cache = s.cache ∧ (s.refuse r st).ff = s.ff ∧
      (s.refuse r st).sc = s.sc ∧ (s.refuse r st).me = s.me ∧ (s.refuse r st).tli.rx = s.tli.rx ∧
      (s.refuse r st).tli.tx = s.tli.tx ∧ (s.refuse r st).tli.notices = s.tli.notices ∧
      (s.refuse r st).tli.woke = s.tli.woke ∧ (s.refuse r st).pw = s.pw ∧ (s.refuse r st).cfg = s.cfg ∧
      (s.refuse r st).flags = s.flags ∧ (s.refuse r st).pins = s.pins ∧
      (s.refuse r st).nonceDraws = s.nonceDraws ∧ (s.refuse r st).pending = s.pending ∧
      ∀ other, (s.refuse r st).bay other = s.bay other := by
  simp [State.refuse]

/-! ## What decides an event that may come late, a retry, a refusal -/

/-- A retry of a forwarded request is one whole frame, whatever NARROW says by then (R55, R109, R115). -/
theorem Bay.forwardKind_retry (bay : Bay) (e : ForwardEntry) (h : e.retries ≠ 0) : bay.forwardKind e = .forward := by
  simp [Bay.forwardKind, h]

/-- The decay period has run out exactly when the timer stands in its last millisecond (R101). -/
theorem Bay.decayDue_iff (bay : Bay) : bay.decayDue = true ↔ ∃ n, bay.decay = some n ∧ n ≤ 1 := by
  simp [Bay.decayDue, Option.any_eq_true]

/-- An expiry keeps the entries of other serials, and those with life left (R80). -/
theorem mem_cacheExpire (cache : List CacheEntry) (x : Serial) (e : CacheEntry) :
    e ∈ cacheExpire cache x ↔ e ∈ cache ∧ (e.serial ≠ x ∨ 1 < e.life) := by
  simp [cacheExpire]

/-- A refused edit carries the live generation and count (12.3). -/
theorem State.rejectionPayload_edit (s : State) (code : Byte) (h : code = 0x32 ∨ code = 0x33) :
    s.rejectionPayload code = editPayload s.ts.revoke [] := by
  simp only [State.rejectionPayload, if_pos h]

/-- No other refused or cancelled gate request carries a payload (12.3). -/
theorem State.rejectionPayload_other (s : State) (code : Byte) (h : ¬ (code = 0x32 ∨ code = 0x33)) :
    s.rejectionPayload code = [] := by
  simp only [State.rejectionPayload, if_neg h]

/-- What the reset event of GATE_RESET keeps (R211). -/
@[simp] theorem State.gateReset_frame (s : State) (tid : Byte) (det : Four Bool) :
    (s.gateReset tid det).ts = s.ts ∧ (s.gateReset tid det).ff.table = s.ff.table ∧
      (s.gateReset tid det).sc.assign = s.sc.assign ∧ (s.gateReset tid det).sc.manual = s.sc.manual ∧
      (s.gateReset tid det).cfg = s.cfg ∧ (s.gateReset tid det).flags = s.flags ∧
      (s.gateReset tid det).pins = s.pins ∧ (s.gateReset tid det).tli.rx = s.tli.rx ∧
      (s.gateReset tid det).tli.tx = s.tli.tx ∧ (s.gateReset tid det).nonceDraws = s.nonceDraws ∧
      (s.gateReset tid det).pending = s.pending := by
  simp [State.gateReset, State.gateCleared, StringController.gateReset]

/-- What a GATE_RESET that waited keeps, when one is carried out: the DET levels are those sampled then. -/
@[simp] theorem State.finishReset_frame (s : State) (det : Four Bool) :
    (s.finishReset det).ts = s.ts ∧ (s.finishReset det).ff.table = s.ff.table ∧
      (s.finishReset det).sc.assign = s.sc.assign ∧ (s.finishReset det).sc.manual = s.sc.manual ∧
      (s.finishReset det).cfg = s.cfg ∧ (s.finishReset det).flags = s.flags ∧
      (s.finishReset det).tli.rx = s.tli.rx ∧ (s.finishReset det).tli.tx = s.tli.tx ∧
      (s.finishReset det).nonceDraws = s.nonceDraws ∧ (s.finishReset det).pending = s.pending := by
  unfold State.finishReset; split <;> simp

end Sys2Proof.Machine
end

