-- ==== Sys2Proof/Laws/Nonces.lean ====
section
/-! SUPPORT. Gate nonces: the draws differ, and the operations that may draw one never take the count of draws back.
Every other operation leaves the count as it is, which its frame lemma says. -/

namespace Sys2Proof

/-- Two draws among the first 2^64 give two values (R14). -/
theorem Config.freshNonce_injOn {m n : Nat} (hm : m < 2 ^ 64) (hn : n < 2 ^ 64)
    (h : Config.freshNonce m = Config.freshNonce n) : m = n := by
  have e : BitVec.ofNat 64 m = BitVec.ofNat 64 n := Config.nonceOrder.injective h
  have v := congrArg BitVec.toNat e
  rwa [BitVec.toNat_ofNat, BitVec.toNat_ofNat, Nat.mod_eq_of_lt hm, Nat.mod_eq_of_lt hn] at v

/-- A later draw gives another value (R14). -/
theorem Config.freshNonce_ne {m n : Nat} (h : m < n) (hn : n < 2 ^ 64) :
    Config.freshNonce m ≠ Config.freshNonce n :=
  fun e => absurd (Config.freshNonce_injOn (h.trans hn) hn e) (Nat.ne_of_lt h)

namespace Machine

@[simp] theorem State.nonceDraws_enterExchange (s : State) (b : Fin 4) (st : BayState) (k : ChallengeKind) :
    (s.enterExchange b st k).nonceDraws = s.nonceDraws + 1 := by
  simp [State.enterExchange]

@[simp] theorem State.nonceDraws_enterRenewing (s : State) (b : Fin 4) :
    (s.enterRenewing b).nonceDraws = s.nonceDraws + 1 := by
  simp [State.enterRenewing]

@[simp] theorem State.le_nonceDraws_tagFailure (s : State) (b : Fin 4) :
    s.nonceDraws ≤ (s.tagFailure b).nonceDraws := by
  unfold State.tagFailure; dsimp only; split <;> simp

@[simp] theorem State.le_nonceDraws_enterChallenging (s : State) (b : Fin 4) (i : Identity) (h : Option CacheEntry)
    (n : Fin 32) (e : ModelEntry) : s.nonceDraws ≤ (s.enterChallenging b i h n e).nonceDraws := by
  unfold State.enterChallenging; split <;> simp

@[simp] theorem State.le_nonceDraws_admitModel (s : State) (b : Fin 4) (i : Identity) (h : Option CacheEntry) :
    s.nonceDraws ≤ (s.admitModel b i h).nonceDraws := by
  unfold State.admitModel; dsimp only; (repeat' split)
  · simp
  · simp
  · exact Nat.le_trans (by simp) (State.le_nonceDraws_enterChallenging _ b i h _ _)

@[simp] theorem State.le_nonceDraws_takeIdReport (s : State) (b : Fin 4) (p : List Byte) :
    s.nonceDraws ≤ (s.takeIdReport b p).nonceDraws := by
  unfold State.takeIdReport; dsimp only; (repeat' split)
  · simp
  · simp
  · exact Nat.le_trans (by simp) (State.le_nonceDraws_admitModel _ b _ _)

@[simp] theorem State.le_nonceDraws_takePackKey (s : State) (n : Nat) (k : Key) (b : Fin 4) :
    s.nonceDraws ≤ (State.takePackKey n k b s).nonceDraws := by
  unfold State.takePackKey; split <;> simp

@[simp] theorem State.le_nonceDraws_withholdTagFailed (s : State) (b : Fin 4) (c : Byte) :
    s.nonceDraws ≤ (s.withholdTagFailed b c).nonceDraws :=
  Nat.le_trans (by simp) (State.le_nonceDraws_tagFailure _ b)

@[simp] theorem State.le_nonceDraws_checkTag (s : State) (b : Fin 4) (f : PackFrame) (x : Session) (d : Disposition) :
    s.nonceDraws ≤ (s.checkTag b f x d).nonceDraws := by
  unfold State.checkTag; (repeat' split) <;> simp

@[simp] theorem State.le_nonceDraws_classifyTagging (s : State) (b : Fin 4) (f : PackFrame) (x : Session)
    (l : VerifyLevel) (d : Disposition) : s.nonceDraws ≤ (s.classifyTagging b f x l d).nonceDraws := by
  unfold State.classifyTagging; (repeat' split) <;> simp

@[simp] theorem State.le_nonceDraws_classify (s : State) (b : Fin 4) (f : PackFrame) :
    s.nonceDraws ≤ (s.classify b f).nonceDraws := by
  unfold State.classify; dsimp only; (repeat' split) <;> simp

@[simp] theorem State.le_nonceDraws_takeTagResult (s : State) (e : Bool) (b : Fin 4) :
    s.nonceDraws ≤ (State.takeTagResult e b s).nonceDraws := by
  unfold State.takeTagResult; (repeat' split) <;> simp

@[simp] theorem State.le_nonceDraws_idReply (s : State) (b : Fin 4) (p : List Byte) :
    s.nonceDraws ≤ (s.idReply b p).nonceDraws := by
  unfold State.idReply; (repeat' split) <;> simp

@[simp] theorem State.le_nonceDraws_takeReply (s : State) (b : Fin 4) (k : TxnKind) (f : PackFrame) :
    s.nonceDraws ≤ (s.takeReply b k f).nonceDraws := by
  unfold State.takeReply; (repeat' split) <;> first | simp | exact State.le_nonceDraws_idReply (s.setBay b _) b _

@[simp] theorem State.le_nonceDraws_goodFrame (s : State) (b : Fin 4) (k : TxnKind) (f : PackFrame) :
    s.nonceDraws ≤ (s.goodFrame b k f).nonceDraws := by
  unfold State.goodFrame; (repeat' split) <;> simp

end Machine

end Sys2Proof
end

