-- ==== Sys2Proof/Laws/PerInstr.lean ====
section
/-! SUPPORT. For every command: what its well-formedness says of the bytes it carries. -/

namespace Sys2Proof.Laws.OperandShape

/-- The bytes of a well-formed command begin with the start byte of their line, and are no longer than that
line's longest frame (R108, R193). A command that carries no bytes has nothing to satisfy. -/
def Statement (i : Instr) : Prop :=
  i.wellFormed = true →
    match i with
    | .toolFrame bytes => bytes.head? = some 0x5A#8 ∧ bytes.length ≤ 57
    | .packReply _ bytes => bytes.head? = some 0xC3#8 ∧ bytes.length ≤ 27
    | _ => True

theorem powerOn (levels : Pins) (torn : TornWrite) : Statement (.powerOn levels torn) := fun _ => trivial

theorem resetnAssert (torn : TornWrite) : Statement (.resetnAssert torn) := fun _ => trivial

theorem resetnRelease (levels : Pins) (torn : TornWrite) : Statement (.resetnRelease levels torn) := fun _ => trivial

theorem startupRewriteComplete (ok : Bool) : Statement (.startupRewriteComplete ok) := fun _ => trivial

theorem insertion (bay : Fin 4) : Statement (.insertion bay) := fun _ => trivial

theorem removal (bay : Fin 4) : Statement (.removal bay) := fun _ => trivial

theorem settleExpiry (bay : Fin 4) (det : Bool) : Statement (.settleExpiry bay det) := fun _ => trivial

theorem reattemptExpiry (bay : Fin 4) : Statement (.reattemptExpiry bay) := fun _ => trivial

theorem renewExpiry (bay : Fin 4) : Statement (.renewExpiry bay) := fun _ => trivial

theorem graceExpiry (bay : Fin 4) : Statement (.graceExpiry bay) := fun _ => trivial

theorem decayExpiry (bay : Fin 4) : Statement (.decayExpiry bay) := fun _ => trivial

theorem cacheExpiry (serial : Serial) : Statement (.cacheExpiry serial) := fun _ => trivial

theorem runInputChange (level : Bool) : Statement (.runInputChange level) := fun _ => trivial

theorem runRise : Statement (.runRise) := fun _ => trivial

theorem runFall : Statement (.runFall) := fun _ => trivial

theorem bayLineLevelChange (bay : Fin 4) (dominant : Bool) : Statement (.bayLineLevelChange bay dominant) := fun _ => trivial

theorem stuckLine (bay : Fin 4) : Statement (.stuckLine bay) := fun _ => trivial

theorem lineFaultRecovery (bay : Fin 4) : Statement (.lineFaultRecovery bay) := fun _ => trivial

theorem packFrameSent (bay : Fin 4) : Statement (.packFrameSent bay) := fun _ => trivial

theorem collision (bay : Fin 4) : Statement (.collision bay) := fun _ => trivial

theorem packReply (bay : Fin 4) (bytes : List Byte) : Statement (.packReply bay bytes) := by
  intro h
  cases bytes with
  | nil => simp [Instr.wellFormed, packFrameShape] at h
  | cons x xs =>
    simp [Instr.wellFormed, packFrameShape] at h
    obtain ⟨⟨hx, hn⟩, hl⟩ := h
    refine ⟨by simp [hx], ?_⟩
    simp only [List.length_cons]
    split at hl <;> omega

theorem packRxGapExpiry (bay : Fin 4) : Statement (.packRxGapExpiry bay) := fun _ => trivial

theorem responseTimeout (bay : Fin 4) : Statement (.responseTimeout bay) := fun _ => trivial

theorem retryWaitExpiry (bay : Fin 4) : Statement (.retryWaitExpiry bay) := fun _ => trivial

theorem linkHoldExpiry (bay : Fin 4) : Statement (.linkHoldExpiry bay) := fun _ => trivial

theorem derivePackKeyComplete : Statement (.derivePackKeyComplete) := fun _ => trivial

theorem checkProofComplete : Statement (.checkProofComplete) := fun _ => trivial

theorem deriveSessionComplete : Statement (.deriveSessionComplete) := fun _ => trivial

theorem checkTagComplete : Statement (.checkTagComplete) := fun _ => trivial

theorem checkImageComplete : Statement (.checkImageComplete) := fun _ => trivial

theorem keyCheckComplete : Statement (.keyCheckComplete) := fun _ => trivial

theorem keyLoadComplete (result : WriteResult) : Statement (.keyLoadComplete result) := fun _ => trivial

theorem modelCommit (result : CommitEvent) : Statement (.modelCommit result) := fun _ => trivial

theorem revocationCommit (result : CommitEvent) : Statement (.revocationCommit result) :=
  fun _ => trivial

theorem toolFrame (bytes : List Byte) : Statement (.toolFrame bytes) := by
  intro h
  cases bytes with
  | nil => simp [Instr.wellFormed, toolFrameShape] at h
  | cons x xs =>
    simp [Instr.wellFormed, toolFrameShape] at h
    obtain ⟨⟨hx, hn⟩, hl⟩ := h
    refine ⟨by simp [hx], ?_⟩
    simp only [List.length_cons]
    omega

theorem toolRxGapExpiry : Statement (.toolRxGapExpiry) := fun _ => trivial

theorem frameSent : Statement (.frameSent) := fun _ => trivial

theorem dormantDetSample (det : Four Bool) : Statement (.dormantDetSample det) := fun _ => trivial

theorem rxdWake : Statement (.rxdWake) := fun _ => trivial

theorem unknownCode : Statement (.unknownCode) := fun _ => trivial

theorem gateStatus : Statement (.gateStatus) := fun _ => trivial

theorem configSet : Statement (.configSet) := fun _ => trivial

theorem configGet : Statement (.configGet) := fun _ => trivial

theorem snapLatch : Statement (.snapLatch) := fun _ => trivial

theorem snapRead : Statement (.snapRead) := fun _ => trivial

theorem dormant : Statement (.dormant) := fun _ => trivial

theorem gateReset (det : Four Bool) : Statement (.gateReset det) := fun _ => trivial

theorem bayQuery : Statement (.bayQuery) := fun _ => trivial

theorem bayRetry : Statement (.bayRetry) := fun _ => trivial

theorem keyLoad : Statement (.keyLoad) := fun _ => trivial

theorem keyCheck : Statement (.keyCheck) := fun _ => trivial

theorem modelGet : Statement (.modelGet) := fun _ => trivial

theorem revokeGet : Statement (.revokeGet) := fun _ => trivial

theorem revokeAdd : Statement (.revokeAdd) := fun _ => trivial

theorem revokeDrop : Statement (.revokeDrop) := fun _ => trivial

theorem imageBegin : Statement (.imageBegin) := fun _ => trivial

theorem imageData : Statement (.imageData) := fun _ => trivial

theorem imageEnd : Statement (.imageEnd) := fun _ => trivial

theorem imageCancel : Statement (.imageCancel) := fun _ => trivial

theorem filterSet : Statement (.filterSet) := fun _ => trivial

theorem filterGet : Statement (.filterGet) := fun _ => trivial

theorem captureTake : Statement (.captureTake) := fun _ => trivial

theorem topologySet : Statement (.topologySet) := fun _ => trivial

theorem topologyGet : Statement (.topologyGet) := fun _ => trivial

theorem stringQuery : Statement (.stringQuery) := fun _ => trivial

theorem stringRelease : Statement (.stringRelease) := fun _ => trivial

theorem powerLoss (torn : TornWrite) : Statement (.powerLoss torn) := fun _ => trivial

theorem packRxFrameError (bay : Fin 4) : Statement (.packRxFrameError bay) := fun _ => trivial

theorem toolFramingError : Statement (.toolFramingError) := fun _ => trivial

theorem toolRxIdleResync : Statement (.toolRxIdleResync) := fun _ => trivial

end Sys2Proof.Laws.OperandShape
end

