-- ==== Sys2Proof/Laws/Transitions.lean ====
section
/-! SUPPORT. What each shared operation makes of a bay context: the bay it names, and the other bays. -/

namespace Sys2Proof.Machine

/-! ## The line side -/

@[simp] theorem Bay.attempt_keeps (bay : Bay) (k : TxnKind) (d : Bool) :
      (bay.attempt k d).state = bay.state ∧ (bay.attempt k d).reason = bay.reason ∧
      (bay.attempt k d).present = bay.present ∧ (bay.attempt k d).identity = bay.identity ∧
      (bay.attempt k d).packKey = bay.packKey ∧ (bay.attempt k d).phase = bay.phase ∧
      (bay.attempt k d).gateNonce = bay.gateNonce ∧ (bay.attempt k d).packNonce = bay.packNonce ∧
      (bay.attempt k d).session = bay.session ∧ (bay.attempt k d).claim = bay.claim ∧
      (bay.attempt k d).strikes = bay.strikes ∧ (bay.attempt k d).clean = bay.clean ∧
      (bay.attempt k d).attempts = bay.attempts ∧ (bay.attempt k d).settle = bay.settle ∧
      (bay.attempt k d).reattempt = bay.reattempt ∧ (bay.attempt k d).renew = bay.renew ∧
      (bay.attempt k d).grace = bay.grace ∧ (bay.attempt k d).decay = bay.decay ∧
      (bay.attempt k d).watch = bay.watch ∧ (bay.attempt k d).queue = bay.queue ∧
      (bay.attempt k d).linkRun = bay.linkRun ∧ (bay.attempt k d).linkHold = bay.linkHold ∧
      (bay.attempt k d).heldReply = bay.heldReply ∧ (bay.attempt k d).authRetries = bay.authRetries := by
  simp [Bay.attempt]

@[simp] theorem Bay.idleLine_keeps (bay : Bay) :
      (bay.idleLine).state = bay.state ∧ (bay.idleLine).reason = bay.reason ∧
      (bay.idleLine).present = bay.present ∧ (bay.idleLine).identity = bay.identity ∧
      (bay.idleLine).packKey = bay.packKey ∧ (bay.idleLine).phase = bay.phase ∧
      (bay.idleLine).gateNonce = bay.gateNonce ∧ (bay.idleLine).packNonce = bay.packNonce ∧
      (bay.idleLine).session = bay.session ∧ (bay.idleLine).claim = bay.claim ∧
      (bay.idleLine).strikes = bay.strikes ∧ (bay.idleLine).clean = bay.clean ∧
      (bay.idleLine).attempts = bay.attempts ∧ (bay.idleLine).settle = bay.settle ∧
      (bay.idleLine).reattempt = bay.reattempt ∧ (bay.idleLine).renew = bay.renew ∧
      (bay.idleLine).grace = bay.grace ∧ (bay.idleLine).decay = bay.decay ∧ (bay.idleLine).watch = bay.watch ∧
      (bay.idleLine).queue = bay.queue ∧ (bay.idleLine).linkRun = bay.linkRun ∧
      (bay.idleLine).linkHold = bay.linkHold ∧ (bay.idleLine).authRetries = bay.authRetries := by
  simp [Bay.idleLine]

@[simp] theorem Bay.clearLine_keeps (bay : Bay) :
      (bay.clearLine).state = bay.state ∧ (bay.clearLine).reason = bay.reason ∧
      (bay.clearLine).present = bay.present ∧ (bay.clearLine).identity = bay.identity ∧
      (bay.clearLine).packKey = bay.packKey ∧ (bay.clearLine).phase = bay.phase ∧
      (bay.clearLine).gateNonce = bay.gateNonce ∧ (bay.clearLine).packNonce = bay.packNonce ∧
      (bay.clearLine).session = bay.session ∧ (bay.clearLine).claim = bay.claim ∧
      (bay.clearLine).strikes = bay.strikes ∧ (bay.clearLine).clean = bay.clean ∧
      (bay.clearLine).attempts = bay.attempts ∧ (bay.clearLine).settle = bay.settle ∧
      (bay.clearLine).reattempt = bay.reattempt ∧ (bay.clearLine).renew = bay.renew ∧
      (bay.clearLine).grace = bay.grace ∧ (bay.clearLine).decay = bay.decay ∧ (bay.clearLine).watch = bay.watch := by
  simp [Bay.clearLine]

@[simp] theorem Bay.abandonLine_keeps (bay : Bay) :
      (bay.abandonLine).state = bay.state ∧ (bay.abandonLine).reason = bay.reason ∧
      (bay.abandonLine).present = bay.present ∧ (bay.abandonLine).identity = bay.identity ∧
      (bay.abandonLine).packKey = bay.packKey ∧ (bay.abandonLine).phase = bay.phase ∧
      (bay.abandonLine).gateNonce = bay.gateNonce ∧ (bay.abandonLine).packNonce = bay.packNonce ∧
      (bay.abandonLine).session = bay.session ∧ (bay.abandonLine).claim = bay.claim ∧
      (bay.abandonLine).strikes = bay.strikes ∧ (bay.abandonLine).clean = bay.clean ∧
      (bay.abandonLine).attempts = bay.attempts ∧ (bay.abandonLine).settle = bay.settle ∧
      (bay.abandonLine).reattempt = bay.reattempt ∧ (bay.abandonLine).renew = bay.renew ∧
      (bay.abandonLine).grace = bay.grace ∧ (bay.abandonLine).decay = bay.decay ∧
      (bay.abandonLine).watch = bay.watch ∧ (bay.abandonLine).queue = bay.queue ∧
      (bay.abandonLine).linkRun = bay.linkRun ∧ (bay.abandonLine).linkHold = bay.linkHold := by
  unfold Bay.abandonLine; split <;> simp

@[simp] theorem Bay.afterEntry_keeps (bay : Bay) (e : ForwardEntry) (h : Nat) :
      (bay.afterEntry e h).state = bay.state ∧ (bay.afterEntry e h).reason = bay.reason ∧
      (bay.afterEntry e h).present = bay.present ∧ (bay.afterEntry e h).identity = bay.identity ∧
      (bay.afterEntry e h).packKey = bay.packKey ∧ (bay.afterEntry e h).phase = bay.phase ∧
      (bay.afterEntry e h).gateNonce = bay.gateNonce ∧ (bay.afterEntry e h).packNonce = bay.packNonce ∧
      (bay.afterEntry e h).session = bay.session ∧ (bay.afterEntry e h).claim = bay.claim ∧
      (bay.afterEntry e h).strikes = bay.strikes ∧ (bay.afterEntry e h).clean = bay.clean ∧
      (bay.afterEntry e h).attempts = bay.attempts ∧ (bay.afterEntry e h).settle = bay.settle ∧
      (bay.afterEntry e h).reattempt = bay.reattempt ∧ (bay.afterEntry e h).renew = bay.renew ∧
      (bay.afterEntry e h).grace = bay.grace ∧ (bay.afterEntry e h).decay = bay.decay ∧
      (bay.afterEntry e h).watch = bay.watch ∧ (bay.afterEntry e h).queue = bay.queue ∧
      (bay.afterEntry e h).line = bay.line ∧ (bay.afterEntry e h).frame = bay.frame ∧
      (bay.afterEntry e h).retryWait = bay.retryWait ∧ (bay.afterEntry e h).response = bay.response ∧
      (bay.afterEntry e h).heldReply = bay.heldReply ∧ (bay.afterEntry e h).authRetries = bay.authRetries := by
  unfold Bay.afterEntry; (repeat' split) <;> simp

@[simp] theorem Bay.popHead_keeps (bay : Bay) (h : Nat) :
      (bay.popHead h).state = bay.state ∧ (bay.popHead h).reason = bay.reason ∧
      (bay.popHead h).present = bay.present ∧ (bay.popHead h).identity = bay.identity ∧
      (bay.popHead h).packKey = bay.packKey ∧ (bay.popHead h).phase = bay.phase ∧
      (bay.popHead h).gateNonce = bay.gateNonce ∧ (bay.popHead h).packNonce = bay.packNonce ∧
      (bay.popHead h).session = bay.session ∧ (bay.popHead h).claim = bay.claim ∧
      (bay.popHead h).strikes = bay.strikes ∧ (bay.popHead h).clean = bay.clean ∧
      (bay.popHead h).attempts = bay.attempts ∧ (bay.popHead h).settle = bay.settle ∧
      (bay.popHead h).reattempt = bay.reattempt ∧ (bay.popHead h).renew = bay.renew ∧
      (bay.popHead h).grace = bay.grace ∧ (bay.popHead h).decay = bay.decay ∧
      (bay.popHead h).watch = bay.watch ∧ (bay.popHead h).authRetries = bay.authRetries := by
  simp [Bay.popHead]

@[simp] theorem Bay.queue_popHead (bay : Bay) (h : Nat) : (bay.popHead h).queue = bay.queue.tail := by
  simp [Bay.popHead]

@[simp] theorem Bay.grants_keeps (b : Fin 4) (d : Bool) (h n : Nat) (bay : Bay) :
      ((Bay.grants b d h n bay).1).state = bay.state ∧ ((Bay.grants b d h n bay).1).reason = bay.reason ∧
      ((Bay.grants b d h n bay).1).present = bay.present ∧
      ((Bay.grants b d h n bay).1).identity = bay.identity ∧
      ((Bay.grants b d h n bay).1).packKey = bay.packKey ∧ ((Bay.grants b d h n bay).1).phase = bay.phase ∧
      ((Bay.grants b d h n bay).1).gateNonce = bay.gateNonce ∧
      ((Bay.grants b d h n bay).1).packNonce = bay.packNonce ∧
      ((Bay.grants b d h n bay).1).session = bay.session ∧ ((Bay.grants b d h n bay).1).claim = bay.claim ∧
      ((Bay.grants b d h n bay).1).strikes = bay.strikes ∧ ((Bay.grants b d h n bay).1).clean = bay.clean ∧
      ((Bay.grants b d h n bay).1).attempts = bay.attempts ∧ ((Bay.grants b d h n bay).1).settle = bay.settle ∧
      ((Bay.grants b d h n bay).1).reattempt = bay.reattempt ∧ ((Bay.grants b d h n bay).1).renew = bay.renew ∧
      ((Bay.grants b d h n bay).1).grace = bay.grace ∧ ((Bay.grants b d h n bay).1).decay = bay.decay ∧
      ((Bay.grants b d h n bay).1).watch = bay.watch ∧
      ((Bay.grants b d h n bay).1).authRetries = bay.authRetries := by
  induction n generalizing bay with
  | zero => simp [Bay.grants]
  | succ n ih =>
    unfold Bay.grants
    split
    · simp
    · split
      · simp
      · split
        · split
          · simp
          · dsimp only
            split <;> simp [ih]
        · simp

/-- A grant takes entries from the front of the queue only. -/
theorem Bay.queue_grants (b : Fin 4) (d : Bool) (h n : Nat) (bay : Bay) :
    ∃ k, (Bay.grants b d h n bay).1.queue = bay.queue.drop k := by
  induction n generalizing bay with
  | zero => exact ⟨0, by simp [Bay.grants]⟩
  | succ n ih =>
    unfold Bay.grants
    split
    · exact ⟨0, rfl⟩
    · split
      · exact ⟨0, by simp⟩
      · split
        · split
          · exact ⟨0, rfl⟩
          · next e rest heq =>
            dsimp only
            split
            · exact ⟨0, by simp⟩
            · obtain ⟨k, hk⟩ := ih (Bay.popHead { bay with linkRun := runAtGrant bay.linkRun e, linkHold := none } h)
              exact ⟨k + 1, by rw [hk]; simp [heq]⟩
        · exact ⟨0, rfl⟩

/-- The arbiter of one bay leaves the other bays. -/
theorem State.bay_arbitrate_other (s : State) {b o : Fin 4} (h : o ≠ b) : (s.arbitrate b).bay o = s.bay o := by
  simp [State.arbitrate, State.bay_setBay_other _ _ h]

@[simp] theorem State.bay_arbitrate_same (s : State) (b : Fin 4) :
    (s.arbitrate b).bay b =
      (Bay.grants b (s.pins.lineDominant.get b) s.cfg.linkHold ((s.bay b).queue.length + 1) (s.bay b)).1 := by
  simp [State.arbitrate]

/-- The arbiter moves nothing of any bay but its line side. -/
@[simp] theorem State.arbitrate_keeps (s : State) (b o : Fin 4) :
      ((s.arbitrate b).bay o).state = (s.bay o).state ∧ ((s.arbitrate b).bay o).reason = (s.bay o).reason ∧
      ((s.arbitrate b).bay o).present = (s.bay o).present ∧
      ((s.arbitrate b).bay o).identity = (s.bay o).identity ∧
      ((s.arbitrate b).bay o).packKey = (s.bay o).packKey ∧ ((s.arbitrate b).bay o).phase = (s.bay o).phase ∧
      ((s.arbitrate b).bay o).gateNonce = (s.bay o).gateNonce ∧
      ((s.arbitrate b).bay o).packNonce = (s.bay o).packNonce ∧
      ((s.arbitrate b).bay o).session = (s.bay o).session ∧ ((s.arbitrate b).bay o).claim = (s.bay o).claim ∧
      ((s.arbitrate b).bay o).strikes = (s.bay o).strikes ∧ ((s.arbitrate b).bay o).clean = (s.bay o).clean ∧
      ((s.arbitrate b).bay o).attempts = (s.bay o).attempts ∧
      ((s.arbitrate b).bay o).settle = (s.bay o).settle ∧
      ((s.arbitrate b).bay o).reattempt = (s.bay o).reattempt ∧
      ((s.arbitrate b).bay o).renew = (s.bay o).renew ∧ ((s.arbitrate b).bay o).grace = (s.bay o).grace ∧
      ((s.arbitrate b).bay o).decay = (s.bay o).decay ∧ ((s.arbitrate b).bay o).watch = (s.bay o).watch := by
  by_cases h : o = b
  · subst h; simp
  · simp [State.bay_arbitrate_other s h]

@[simp] theorem State.arbitrateAll_keeps (s : State) (o : Fin 4) :
      (s.arbitrateAll.bay o).state = (s.bay o).state ∧ (s.arbitrateAll.bay o).reason = (s.bay o).reason ∧
      (s.arbitrateAll.bay o).present = (s.bay o).present ∧
      (s.arbitrateAll.bay o).identity = (s.bay o).identity ∧
      (s.arbitrateAll.bay o).packKey = (s.bay o).packKey ∧ (s.arbitrateAll.bay o).phase = (s.bay o).phase ∧
      (s.arbitrateAll.bay o).gateNonce = (s.bay o).gateNonce ∧
      (s.arbitrateAll.bay o).packNonce = (s.bay o).packNonce ∧
      (s.arbitrateAll.bay o).session = (s.bay o).session ∧ (s.arbitrateAll.bay o).claim = (s.bay o).claim ∧
      (s.arbitrateAll.bay o).strikes = (s.bay o).strikes ∧ (s.arbitrateAll.bay o).clean = (s.bay o).clean ∧
      (s.arbitrateAll.bay o).attempts = (s.bay o).attempts ∧ (s.arbitrateAll.bay o).settle = (s.bay o).settle ∧
      (s.arbitrateAll.bay o).reattempt = (s.bay o).reattempt ∧ (s.arbitrateAll.bay o).renew = (s.bay o).renew ∧
      (s.arbitrateAll.bay o).grace = (s.bay o).grace ∧ (s.arbitrateAll.bay o).decay = (s.bay o).decay ∧
      (s.arbitrateAll.bay o).watch = (s.bay o).watch := by
  simp [State.arbitrateAll]

/-! ## The transitions -/

theorem State.bay_abandon (s : State) (b o : Fin 4) :
    (s.abandon b).bay o = if o = b then (s.bay b).abandonLine else s.bay o := by
  simp [State.abandon, State.bay_setBay]

theorem State.bay_enterSettling (s : State) (b o : Fin 4) :
    (s.enterSettling b).bay o = if o = b then (s.bay b).toSettling s.cfg.settle (s.pins.lineDominant.get b) else s.bay o := by
  simp [State.enterSettling, State.bay_putBay]

theorem State.bay_emptyBay (s : State) (b o : Fin 4) :
    (s.emptyBay b).bay o = if o = b then (s.bay b).toEmpty else s.bay o := by
  simp [State.emptyBay, State.bay_putBay]

theorem State.bay_enterLockout (s : State) (b o : Fin 4) :
    (s.enterLockout b).bay o = if o = b then (s.bay b).toLockout else s.bay o := by
  simp [State.enterLockout, State.bay_putBay]

theorem State.bay_enterLineFault (s : State) (b o : Fin 4) :
    (s.enterLineFault b).bay o = if o = b then (s.bay b).toLineFault s.cfg.settle (s.pins.lineDominant.get b) else s.bay o := by
  simp [State.enterLineFault, State.bay_putBay]

theorem State.bay_enterIdentifying (s : State) (b o : Fin 4) :
    (s.enterIdentifying b).bay o = if o = b then (s.bay b).abandonLine.toIdentifying else s.bay o := by
  by_cases h : o = b
  · subst h; simp [State.enterIdentifying, State.bay_abandon]
  · simp [State.enterIdentifying, State.bay_putBay, State.bay_abandon, h]

theorem State.bay_deny (s : State) (b o : Fin 4) (r : DenyReason) :
    (s.deny b r).bay o = if o = b then (s.bay b).abandonLine.standDown .denied (some r) none else s.bay o := by
  by_cases h : o = b
  · subst h; simp [State.deny, State.bay_abandon]
  · simp [State.deny, State.bay_putBay, State.bay_abandon, h]

theorem State.bay_endGrace (s : State) (b o : Fin 4) :
    (s.endGrace b).bay o = if o = b then (s.bay b).standDown .denied (s.bay b).reason none else s.bay o := by
  simp [State.endGrace, State.bay_putBay]

theorem State.bay_enterExchange (s : State) (b o : Fin 4) (st : BayState) (k : ChallengeKind) :
    (s.enterExchange b st k).bay o = if o = b then (s.bay b).toExchange st k (Config.freshNonce s.nonceDraws) else s.bay o := by
  simp [State.enterExchange, State.bay_putBay]; rfl

theorem State.bay_enterRenewing (s : State) (b o : Fin 4) :
    (s.enterRenewing b).bay o = if o = b then (s.bay b).toExchange .renewing .renewal (Config.freshNonce s.nonceDraws) else s.bay o := by
  simp [State.enterRenewing, State.bay_enterExchange]

theorem State.bay_loseEligibility (s : State) (b o : Fin 4) (r : DenyReason) :
    (s.loseEligibility b r).bay o = if o = b then (if s.sc.runFiltered && s.stringEnabled b then (s.bay b).abandonLine.standDown .grace (some r) (some s.cfg.grace)
      else (s.bay b).abandonLine.standDown .denied (some r) none) else s.bay o := by
  unfold State.loseEligibility
  split
  · by_cases h : o = b
    · subst h; simp [State.bay_abandon]
    · simp [State.bay_putBay, State.bay_abandon, h]
  · simp [State.bay_deny]

theorem State.bay_setIdentity (s : State) (b o : Fin 4) (i : Identity) :
    (s.setIdentity b i).bay o = if o = b then { s.bay b with identity := some i } else s.bay o := by
  simp [State.setIdentity, State.bay_setBay]

/-- A strike: six or fewer leave the bay in its state, the seventh locks it out (R100, R104). -/
theorem State.bay_strike (s : State) (b o : Fin 4) :
    (s.strike b).bay o = if o = b then (if 7 ≤ (s.bay b).struck.strikes then (s.bay b).struck.toLockout else (s.bay b).struck) else s.bay o := by
  unfold State.strike
  dsimp only
  by_cases h : o = b
  · subst h; simp; split <;> simp [State.bay_enterLockout]
  · split <;> simp [State.bay_enterLockout, State.bay_putBay, h]

theorem State.bay_completeHead (s : State) (b o : Fin 4) (c : Byte) (st : Status) (f : RespFlags) (p : List Byte) :
    (s.completeHead b c st f p).bay o = if o = b then (if (s.bay b).queue = [] then (s.bay b).idleLine else (s.bay b).popHead s.cfg.linkHold) else s.bay o := by
  unfold State.completeHead
  split <;> simp [State.bay_setBay, *]

/-! ## Operations on one bay leave the other bays -/

theorem State.tagFailure_other (s : State) {b o : Fin 4} (h : o ≠ b) :
    (s.tagFailure b).bay o = s.bay o := by
  unfold State.tagFailure
  try dsimp only
  repeat' split
  all_goals simp [State.bay_strike, State.bay_enterRenewing, h]

theorem State.admissionFailure_other (s : State) {b o : Fin 4} (r : DenyReason) (h : o ≠ b) :
    (s.admissionFailure b r).bay o = s.bay o := by
  unfold State.admissionFailure
  try dsimp only
  repeat' split
  all_goals simp [State.bay_setBay, State.bay_deny, h]

theorem State.authFailure_other (s : State) {b o : Fin 4} (r : DenyReason) (h : o ≠ b) :
    (s.authFailure b r).bay o = s.bay o := by
  unfold State.authFailure
  try dsimp only
  repeat' split
  all_goals simp [State.admissionFailure_other, State.bay_loseEligibility, h]

theorem State.enterChallenging_other (s : State) {b o : Fin 4} (i : Identity) (hit : Option CacheEntry) (n : Fin 32) (e : ModelEntry) (h : o ≠ b) :
    (s.enterChallenging b i hit n e).bay o = s.bay o := by
  unfold State.enterChallenging
  try dsimp only
  repeat' split
  all_goals simp [State.bay_enterExchange, State.bay_setBay, State.bay_putBay, h]

theorem State.admitModel_other (s : State) {b o : Fin 4} (i : Identity) (hit : Option CacheEntry) (h : o ≠ b) :
    (s.admitModel b i hit).bay o = s.bay o := by
  unfold State.admitModel
  try dsimp only
  repeat' split
  all_goals simp [State.bay_deny, State.enterChallenging_other, State.bay_setIdentity, h]

theorem State.takeIdReport_other (s : State) {b o : Fin 4} (p : List Byte) (h : o ≠ b) :
    (s.takeIdReport b p).bay o = s.bay o := by
  unfold State.takeIdReport
  try dsimp only
  repeat' split
  all_goals
    simp [State.bay_deny, State.admitModel_other, State.bay_setIdentity, State.bay_strike, h]
    rfl

theorem State.authorize_other (s : State) {b o : Fin 4} (i : Identity) (k : PackKey) (x : Key) (h : o ≠ b) :
    (s.authorize b i k x).bay o = s.bay o := by
  unfold State.authorize
  try dsimp only
  repeat' split
  all_goals simp [State.bay_deny, State.bay_setIdentity, State.bay_putBay, State.bay_enterIdentifying, h]

theorem State.renewed_other (s : State) {b o : Fin 4} (i : Identity) (k : PackKey) (x : Session) (y : Key) (h : o ≠ b) :
    (s.renewed b i k x y).bay o = s.bay o := by
  unfold State.renewed
  try dsimp only
  repeat' split
  all_goals simp [State.bay_putBay, h]

theorem State.reevaluate_other (s : State) {b o : Fin 4} (i : Identity) (h : o ≠ b) :
    (s.reevaluate b i).bay o = s.bay o := by
  unfold State.reevaluate
  try dsimp only
  repeat' split
  all_goals simp [State.bay_loseEligibility, State.bay_setIdentity, State.bay_enterIdentifying, h]

theorem State.commitBay_other (s : State) {b o : Fin 4} (r : Bool) (h : o ≠ b) :
    (State.commitBay r s b).bay o = s.bay o := by
  unfold State.commitBay
  try dsimp only
  repeat' split
  all_goals simp [State.reevaluate_other, State.bay_putBay, State.bay_enterIdentifying, h]

theorem State.keyLoadBay_other (s : State) {b o : Fin 4} (f : Nat → Bool) (h : o ≠ b) :
    (State.keyLoadBay f s b).bay o = s.bay o := by
  unfold State.keyLoadBay
  try dsimp only
  repeat' split
  all_goals simp [State.bay_enterIdentifying, h]

theorem State.passReply_other (s : State) {b o : Fin 4} (c : Byte) (p : List Byte) (m : Mark) (d : Disposition) (h : o ≠ b) :
    (s.passReply b c p m d).bay o = s.bay o := by
  unfold State.passReply
  try dsimp only
  repeat' split
  all_goals simp [State.bay_completeHead, h]

theorem State.withholdTagFailed_other (s : State) {b o : Fin 4} (c : Byte) (h : o ≠ b) :
    (s.withholdTagFailed b c).bay o = s.bay o := by
  unfold State.withholdTagFailed
  try dsimp only
  simp [State.tagFailure_other, State.bay_completeHead, h]

theorem State.checkTag_other (s : State) {b o : Fin 4} (f : PackFrame) (x : Session) (d : Disposition) (h : o ≠ b) :
    (s.checkTag b f x d).bay o = s.bay o := by
  unfold State.checkTag
  try dsimp only
  repeat' split
  all_goals simp [State.withholdTagFailed_other, State.bay_setBay, h]

theorem State.classifyTagging_other (s : State) {b o : Fin 4} (f : PackFrame) (x : Session) (l : VerifyLevel) (d : Disposition) (h : o ≠ b) :
    (s.classifyTagging b f x l d).bay o = s.bay o := by
  unfold State.classifyTagging
  try dsimp only
  repeat' split
  all_goals simp [State.checkTag_other, State.passReply_other, State.bay_setBay, h]

theorem State.classifyPlain_other (s : State) {b o : Fin 4} (f : PackFrame) (l : VerifyLevel) (d : Disposition) (h : o ≠ b) :
    (s.classifyPlain b f l d).bay o = s.bay o := by
  unfold State.classifyPlain
  try dsimp only
  repeat' split
  all_goals simp [State.passReply_other, State.bay_completeHead, h]

theorem State.classify_other (s : State) {b o : Fin 4} (f : PackFrame) (h : o ≠ b) :
    (s.classify b f).bay o = s.bay o := by
  unfold State.classify
  try dsimp only
  repeat' split
  all_goals simp [State.classifyTagging_other, State.classifyPlain_other, h]

theorem State.transactionFailed_other (s : State) {b o : Fin 4} (k : TxnKind) (st : Status) (h : o ≠ b) :
    (s.transactionFailed b k st).bay o = s.bay o := by
  unfold State.transactionFailed
  try dsimp only
  repeat' split
  all_goals simp [State.authFailure_other, State.bay_setBay, State.forwardFailed, State.bay_completeHead, h]

theorem State.attemptFailed_other (s : State) {b o : Fin 4} (k : TxnKind) (busy : Bool) (h : o ≠ b) :
    (s.attemptFailed b k busy).bay o = s.bay o := by
  unfold State.attemptFailed
  try dsimp only
  repeat' split
  all_goals simp [State.transactionFailed_other, State.bay_setBay, h]

theorem State.idReply_other (s : State) {b o : Fin 4} (p : List Byte) (h : o ≠ b) :
    (s.idReply b p).bay o = s.bay o := by
  unfold State.idReply
  try dsimp only
  repeat' split
  all_goals simp [State.takeIdReport_other, h]

theorem State.takeProof_other (s : State) {b o : Fin 4} (p : List Byte) (h : o ≠ b) :
    (s.takeProof b p).bay o = s.bay o := by
  unfold State.takeProof
  try dsimp only
  repeat' split
  all_goals simp [State.bay_setBay, h]

theorem State.takeReply_other (s : State) {b o : Fin 4} (k : TxnKind) (f : PackFrame) (h : o ≠ b) :
    (s.takeReply b k f).bay o = s.bay o := by
  unfold State.takeReply
  try dsimp only
  repeat' split
  all_goals simp [State.transactionFailed_other, State.idReply_other, State.takeProof_other, State.classify_other, State.beginSecondHalf, State.bay_setBay, h]

theorem State.goodFrame_other (s : State) {b o : Fin 4} (k : TxnKind) (f : PackFrame) (h : o ≠ b) :
    (s.goodFrame b k f).bay o = s.bay o := by
  unfold State.goodFrame
  try dsimp only
  repeat' split
  all_goals simp [State.attemptFailed_other, State.transactionFailed_other, State.takeReply_other, h]

theorem State.abandonedEnd_other (s : State) {b o : Fin 4} (h : o ≠ b) :
    (s.abandonedEnd b).bay o = s.bay o := by
  unfold State.abandonedEnd
  try dsimp only
  simp [State.bay_setBay, h]

theorem State.recover_other (s : State) {b o : Fin 4} (h : o ≠ b) :
    (s.recover b).bay o = s.bay o := by
  unfold State.recover
  try dsimp only
  simp [State.bay_enterSettling, State.bay_setBay, h]

theorem State.settlePresent_other (s : State) {b o : Fin 4} (h : o ≠ b) :
    (s.settlePresent b).bay o = s.bay o := by
  unfold State.settlePresent
  try dsimp only
  repeat' split
  all_goals simp [State.bay_enterSettling, h]

theorem State.leaveLockout_other (s : State) {b o : Fin 4} (h : o ≠ b) :
    (s.leaveLockout b).bay o = s.bay o := by
  unfold State.leaveLockout
  try dsimp only
  simp [State.settlePresent_other, State.bay_putBay, h]

theorem State.removeBay_other (s : State) {b o : Fin 4} (h : o ≠ b) :
    (s.removeBay b).bay o = s.bay o := by
  unfold State.removeBay
  try dsimp only
  repeat' split
  all_goals simp [State.setPresent, State.bay_emptyBay, State.bay_setBay, h]

theorem State.runFallBay_other (s : State) {b o : Fin 4} (h : o ≠ b) :
    (State.runFallBay s b).bay o = s.bay o := by
  unfold State.runFallBay
  try dsimp only
  repeat' split
  all_goals simp [State.bay_endGrace, h]

end Sys2Proof.Machine
end

