-- ==== Sys2Proof/Safety.lean ====
section
/-! DEFINITION. What counts as a safe run: the gate never stops, whatever command reaches it. -/

namespace Sys2Proof

/-- A step that goes on. -/
def Machine.State.goesOn (s : Machine.State) : Prop := ∃ t, Machine.step s = .next t

end Sys2Proof
end

