-- ==== Sys2Proof/Tests/Slice0.lean ====
section
/-! SUPPORT. The model's own tests: the well-formedness smoke, the published check values of both CRCs, small events
with their results, and, for every statement with hypotheses, states and operands that meet them (test_meets_…). -/

namespace Sys2Proof.Tests

open Sys2Proof Sys2Proof.Machine Sys2Proof.Claims

/-! ## Well-formedness: an ill-formed term for each check, refused, beside a well-formed one -/

theorem test_refuses_tool_frame_with_another_start :
  (Instr.toolFrame [0x5B, 7, 1, 1, 0, 0, 0, 0, 0]).wellFormed = false := by
  decide

theorem test_refuses_tool_frame_longer_than_48 :
    (Instr.toolFrame ([0x5A, 7, 1, 1, 0, 0, 49] ++ List.replicate 51 0)).wellFormed = false := by decide

theorem test_refuses_tool_frame_cut_short :
  (Instr.toolFrame [0x5A, 7, 1, 1, 0, 0, 1, 0, 0]).wellFormed = false := by decide

theorem test_refuses_pack_frame_with_another_start :
  (Instr.packReply 0 [0xC2, 0xF4, 0, 0, 0, 0, 0]).wellFormed = false := by
  decide

theorem test_refuses_pack_frame_longer_than_16 :
    (Instr.packReply 0 ([0xC3, 0x10, 0, 0, 17] ++ List.replicate 19 0)).wellFormed = false := by decide

theorem test_refuses_tagged_pack_frame_without_tag :
  (Instr.packReply 0 [0xC3, 0x10, 2, 0, 0, 0, 0]).wellFormed = false := by
  decide

theorem test_admits_whole_frames :
    (Instr.toolFrame [0x5A, 7, 1, 1, 0, 0, 0, 0, 0]).wellFormed = true ∧
      (Instr.packReply 0 [0xC3, 0xF4, 0, 0, 0, 0, 0]).wellFormed = true := by decide

/-! ## CRC (R213, R214): the values for the nine characters 123456789 -/

def nineDigits : List Byte := [0x31, 0x32, 0x33, 0x34, 0x35, 0x36, 0x37, 0x38, 0x39]

set_option maxRecDepth 100000 in
theorem test_crc16_of_the_nine_digits : crc16 nineDigits = 0x29B1 := by decide

set_option maxRecDepth 100000 in
theorem test_crc32_of_the_nine_digits : crc32 nineDigits = 0xFC891918 := by decide

/-! ## Small states -/

/-- A running gate with every input inactive and nothing to send. -/
def quiet : State := { State.reset with tli.tx := none }

/-- The state that an outcome goes on to. -/
def after : Out → State
  | .next t => t
  | .fault _ => quiet
  | .refused _ => quiet

/-- A model of 5 cells under slot 2: series, parallel, tagging. -/
def entry : ModelEntry := ⟨0x1234, 2, 1, 1, 5, 3, 2, 0x0B⟩

/-- A gate with one model and the keys of slots 0 and 2. -/
def stocked : State :=
  { quiet with
    ts.model := ⟨entry :: List.replicate 31 ModelEntry.none, 0⟩
    ts.keys := [some 0xA0, none, some 0xA2, none, none, none, none, none] }

/-- The identity of a pack of that model. -/
def pack : Identity := ⟨0x42, 0x1234, 1, some 0, some ⟨2, 1, 5, 3, 2, 0x0B⟩⟩

/-- A bay in a state, with a pack present. -/
def inState (st : BayState) : Bay := { Bay.afterReset true with state := st }

/-- A bay in AUTHORIZED. -/
def admitted : Bay :=
  { inState .authorized with
    identity := some pack, packKey := some ⟨0x77, 2⟩, session := some ⟨0x99, 1, 0⟩, gateNonce := 5, renew := some 30000 }

/-- A forwarded request. -/
def wish : ForwardEntry := ⟨9, 0x20, false, [1, 2], false, 0⟩

/-- The gate with bay 0 as given. -/
def withBay (x : Bay) : State := stocked.setBay 0 x

/-- The gate with a string of bay 0 ENABLED, with bay 0 as given. -/
def powered (x : Bay) : State :=
  { withBay x with sc :=
      { StringController.afterReset true with
        assign := ⟨some 0, none, none, none⟩, strings := ⟨.enabled, .unused, .unused, .unused⟩, reference := some 5
        ben := ⟨true, false, false, false⟩ } }

/-- The gate with gate requests waiting. -/
def asked (code : Byte) (payload : List Byte) (s : State) : State := { s with me.queue := [⟨3, code, payload⟩] }

/-! ## Hypotheses met: the machine, transmitter, arbiter -/

theorem test_meets_idle_step :
    quiet.pending = [] ∧ quiet.pw.power = .running ∧
      ({ quiet with pw.power := .off } : State).pending = [] := by decide

/-- A response to bay 0 and two notice sources wait. -/
def talking : State :=
  { quiet with tli := { quiet.tli with
      responses := [⟨0, 9, 0x20, .noPack, RespFlags.none, []⟩], notices := ⟨⟨false, true, true, false⟩, true, true⟩ } }

theorem test_meets_transmitter :
    let none_ready : State := { talking with tli.responses := [] }
    let strings_next : State := { quiet with tli.notices := ⟨Four.fill false, true, true⟩ }
    let gate_next : State := { quiet with tli.notices := ⟨Four.fill false, false, true⟩ }
    State.reset.tli.tx ≠ none ∧ (talking.tli.tx = none ∧ talking.tli.responses ≠ []) ∧
      (none_ready.tli.responses = [] ∧ none_ready.tli.notices.bays.get 1 = true ∧
        ∀ o < (1 : Fin 4), none_ready.tli.notices.bays.get o = false) ∧
      ((∀ b, strings_next.tli.notices.bays.get b = false) ∧ strings_next.tli.notices.strings = true) ∧
      ((∀ b, gate_next.tli.notices.bays.get b = false) ∧ gate_next.tli.notices.strings = false ∧
        gate_next.tli.notices.gate = true) ∧ quiet.tli.notices.gate = false := by decide

/-- A bay in RENEWING with its claim and two requests waiting. -/
def busyBay (run : Option Nat) : Bay :=
  { admitted with state := .renewing, phase := some .exchange, claim := .challenge .renewal, queue := [wish, wish], linkRun := run }

theorem test_meets_arbiter :
    (quiet.bay 0).state = .empty ∧ ((inState .identifying).line = .idle) ∧
      claimWaits { inState .identifying with claim := .idQuery } ∧
      (claimWaits (busyBay none) ∧ (busyBay none).linkRun = none) ∧
      (headWaits (busyBay (some 3)) ∧ (busyBay (some 3)).linkRun ≠ none) ∧
      (headWaits { admitted with queue := [wish] } ∧ ¬ claimWaits { admitted with queue := [wish] }) ∧
      (headWaits { inState .grace with queue := [{ wish with needsAuth := true }] }) ∧
      (claimWaits { busyBay (some 1) with queue := [] } ∧ ¬ headWaits { busyBay (some 1) with queue := [] }) := by
  refine ⟨by decide, by decide, .inl ⟨rfl, rfl⟩, ⟨.inr ⟨.inr rfl, rfl, .renewal, rfl⟩, rfl⟩, ?_, ?_, ?_, ?_⟩
  · exact ⟨⟨.inr (.inr (.inr ⟨rfl, by decide⟩)), by decide⟩, by decide⟩
  · exact ⟨⟨.inl rfl, by decide⟩, by rintro (⟨h, -⟩ | ⟨h | h, -⟩) <;> exact absurd h (by decide)⟩
  · exact ⟨.inr (.inl rfl), by decide⟩
  · exact ⟨.inr ⟨.inr rfl, rfl, .renewal, rfl⟩, fun h => h.2 rfl⟩

/-- The narrow split begins at nine payload bytes (R125). -/
theorem test_narrow_split_begins_at_nine_bytes :
    let narrow (n : Nat) : Bay :=
      { admitted with
        identity := some { pack with attrs := some ⟨2, 1, 5, 3, 2, 0x0F⟩ }, queue := [{ wish with payload := List.replicate n 0 }] }
    (((withBay (narrow 8)).arbitrate 0).bay 0).line = .inTransaction .forward .sending false ∧
      (((withBay (narrow 9)).arbitrate 0).bay 0).line = .inTransaction .splitFirst .sending false := by decide

/-- A retry of nine bytes stays one whole frame though NARROW has come meanwhile (R55, R109, R115). -/
theorem test_narrow_retry_keeps_its_frame :
    let x : Bay := { admitted with
      identity := some { pack with attrs := some ⟨2, 1, 5, 3, 2, 0x0F⟩ }
      queue := [{ wish with payload := List.replicate 9 0, retries := 1 }] }
    let t := (withBay x).arbitrate 0
    (t.bay 0).line = .inTransaction .forward .sending false ∧
      (t.bay 0).frame = some ⟨0x20, 0, 1, List.replicate 9 0, none⟩ ∧ ¬ ((1 : Nat) = 0 ∧ 9 ≤ 9) := by decide

/-! ## Hypotheses met: Digest Engine, derivation -/

/-- The engine at work for bay 1. -/
def engineBusy (discarded : Bool) (s : State) : State :=
  { s with de.running := some ⟨.bay 1, .deriveSession 0 0 0, none, discarded⟩ }

theorem test_meets_digest_submission :
    stocked.de.running = none ∧ (Job.deriveSession 0 0 0).namedSlot = none ∧ (Job.keyCheck 2).namedSlot = some 2 ∧
      stocked.ts.keys.slot 2 = some 0xA2 ∧
        (engineBusy true stocked).de.running = some ⟨.bay 1, .deriveSession 0 0 0, none, true⟩ ∧
      Claimant.bay 1 ≠ .management := by decide

/-- A load whose image is being checked. -/
def checking : Load := ⟨.checking, .revoke, 2, 0, some 0, [2, 0], some 4⟩

theorem test_meets_digest_submission_without_a_key :
    let s : State := { quiet with il.load := some checking }
    s.de.running = none ∧ s.ts.keys.slot 0 = none ∧ s.il.load = some checking ∧
      checking.stage = .checking := by decide

theorem test_meets_digest_rotation :
    let s : State := { engineBusy false stocked with
      de.waiting := ⟨⟨some (.derivePackKey 2 0 0), none, none, some (.derivePackKey 3 0 0)⟩, none⟩, de.pointer := .bay 1 }
    s.de.waiting.get (.bay 3) = some (.derivePackKey 3 0 0) ∧
      (∀ b, s.de.waiting.get (.bay b) ≠ none → behind s.de.pointer (.bay 3) ≤ behind s.de.pointer (.bay b)) ∧
      s.ts.keys.slot 3 = none ∧ s.ts.keys.slot 2 = some 0xA2 ∧
        (∀ b, stocked.de.waiting.get (.bay b) = none) := by decide

/-- The engine goes round from the pointer: behind bay 1 come bays 2 and 3, management, bay 0. -/
theorem test_engine_goes_round :
    let s : State := { engineBusy false stocked with
      de.waiting := ⟨⟨some (.deriveSession 1 0 0), some (.deriveSession 2 0 0), none, none⟩, some (.keyCheck 2)⟩, de.pointer := .bay 1 }
    (s.jobDone (.bay 1)).de.running = some ⟨.management, .keyCheck 2, some 0xA2, false⟩ ∧
      ((s.jobDone (.bay 1)).jobDone .management).de.running = some ⟨.bay 0, .deriveSession 1 0 0, none, false⟩ := by decide

/-- Four bays with a pack of the model, and strings as assigned. -/
def wired (states : Four BayState) (assign : Four (Option (Fin 4))) (manual : Bool) (strings :
  Four StringState) (run : Bool) :
    State :=
  { stocked with
    bays := states.map (fun st => { admitted with state := st })
    sc := { StringController.afterReset run with assign := assign, manual := Four.fill manual, strings := strings } }

theorem test_meets_string_sorting :
    let s := wired ⟨.authorized, .grace, .denied, .authorized⟩ ⟨some 0, some 0, some 1, none⟩ true
      ⟨.idle, .enabled, .latchedOff 3, .unused⟩ true
    membersOf s 2 = [] ∧ membersOf s 0 = [0, 1] ∧ membersOf s 1 = [2] ∧ s.sc.strings.get 1 = .enabled := by decide

theorem test_meets_string_sorting_by_eligibility :
    let s := wired ⟨.authorized, .grace, .denied, .authorized⟩ ⟨some 0, some 0, some 1, none⟩ true (Four.fill .idle) true
    ¬ eligible (s.bay 2) ∧ eligible (s.bay 1) := by
  refine ⟨?_, .inr (.inr rfl)⟩
  rintro (h | h | h) <;> exact absurd h (by decide)

/-- A removal leaves a MANUAL string IDLE; a loss of eligibility latches it (R159). -/
theorem test_manual_strings_latch :
    let s := wired ⟨.authorized, .denied, .empty, .empty⟩ ⟨some 0, some 0, none, none⟩ true ⟨.enabled, .unused, .unused, .unused⟩ true
    (s.derive false).sc.strings.get 0 = .latchedOff 1 ∧ (s.derive true).sc.strings.get 0 = .idle := by decide

/-- Two fit strings of one voltage, both parallel, are both ENABLED; RUN at its active level holds them PENDING. -/
theorem test_strings_are_admitted :
    let s := wired (Four.fill .authorized) ⟨some 0, some 0, some 1, some 1⟩ false (Four.fill .idle)
    ((s false).derive false).sc.strings = ⟨.enabled, .enabled, .unused, .unused⟩ ∧
      ((s false).derive false).sc.reference = some 10 ∧
      ((s false).derive false).sc.ben = Four.fill true ∧
      ((s true).derive false).sc.strings = ⟨.pending true false, .pending true false, .unused, .unused⟩ := by decide

theorem test_meets_string_matching :
    let s := wired (Four.fill .authorized) ⟨some 0, some 0, some 1, none⟩ false (Four.fill .idle) false
    candidate s 0 ∧ candidate s 1 ∧ ¬ candidate s 2 ∧ volts s 0 = 10 ∧ volts s 1 = 5 ∧ ¬ wasOn s 0 ∧
      parallel s 0 := by
  have fits : ∀ x, fit (wired (Four.fill .authorized) ⟨some 0, some 0, some 1, none⟩ false (Four.fill .idle) false) x := by
    intro x b _
    refine ⟨⟨2, 1, 5, 3, 2, 0x0B⟩, ?_, ?_, fun _ => by decide⟩
    · fin_cases b <;> rfl
    · intro o _
      exact ⟨⟨2, 1, 5, 3, 2, 0x0B⟩, by fin_cases o <;> rfl, rfl, rfl, rfl⟩
  refine ⟨⟨by decide, ?_, ?_, fits 0⟩, ⟨by decide, ?_, ?_, fits 1⟩, fun h => h.1 (by decide), by decide, by decide,
    by unfold wasOn; decide, ?_⟩
  · intro b h; exact absurd h (by revert b; decide)
  · intro b _; exact .inl (by revert b; decide)
  · intro b h; exact absurd h (by revert b; decide)
  · intro b _; exact .inl (by revert b; decide)
  · intro b _; exact ⟨⟨2, 1, 5, 3, 2, 0x0B⟩, by fin_cases b <;> rfl, by decide⟩

/-! ## Hypotheses met: resets, presence, timers, RUN, dormant -/

set_option maxRecDepth 100000 in
theorem test_empty_model_record_agrees :
  NvRecord.agrees ModelTable.bytes (NvRecord.intact ModelTable.bytes ModelTable.none) = true := by
  decide

theorem test_meets_restart_with_good_records (torn : TornWrite) :
    let ts := quiet.ts.abandonWrite torn
    recordGood ModelTable.bytes ts.nvModel ∧ recordGood RevList.bytes ts.nvRevoke ∧
      recordGood KeyStore.bytes ts.nvKeys ∧
      quiet.pw.power ≠ .off := ⟨rfl, rfl, rfl, by decide⟩

/-- Bitwise complement leaves no value as it is. -/
theorem not_ne (x : BitVec 32) : x ≠ ~~~ x := by
  intro h
  have h0 := congrArg (fun (y : BitVec 32) => y.getLsbD 0) h
  simp at h0

/-- A Table Store whose revocation record is damaged. -/
def damagedStore : TableStore := { quiet.ts with nvRevoke := NvRecord.damaged RevList.bytes RevList.none }

theorem test_meets_restart_with_a_damaged_record (torn : TornWrite) :
    let ts := damagedStore.abandonWrite torn
    (false = false ↔ recordGood ModelTable.bytes ts.nvModel) ∧ (true = false ↔ recordGood RevList.bytes ts.nvRevoke) ∧
      (false = false ↔ recordGood KeyStore.bytes ts.nvKeys) ∧
      (if false then [RecordKind.model] else []) ++ (if true then [RecordKind.revoke] else []) ++
        (if false then [RecordKind.keys] else []) = .revoke :: [] :=
  ⟨⟨fun _ => rfl, fun _ => rfl⟩, ⟨fun h => absurd h (by decide), fun h => absurd h (not_ne _)⟩, ⟨fun _ => rfl, fun _ => rfl⟩, rfl⟩

/-- A start-up check with one rewrite in progress. -/
def startingUp (rest : List RecordKind) : State :=
  { quiet with pw.power := .startup rest, ts.write := some (.rewrite .model), bays := ⟨Bay.afterReset true, Bay.afterReset false,
      Bay.afterReset false, Bay.afterReset false⟩ }

theorem test_meets_startup_rewrite :
    (startingUp []).pw.power = .startup [] ∧ (startingUp [.keys]).pw.power = .startup [.keys] ∧
      (startingUp []).ts.write = some (.rewrite .model) := by decide

/-- Behind the last rewrite the gate runs, and the bay with a pack settles. -/
theorem test_startup_completes :
    let t := after (exec (.startupRewriteComplete true) (startingUp []))
    t.pw.power = .running ∧ (t.bay 0).state = .settling ∧ (t.bay 1).state = .empty ∧ t.ts.write = none := by
  exact ⟨rfl, rfl, rfl, rfl⟩

theorem test_meets_interrupted_write :
    let ts : TableStore := { quiet.ts with write := some (.keyLoad 2 noKeys) }
    ts.write = some (.keyLoad 2 noKeys) ∧ quiet.ts.write = none ∧ quiet.pw.power ≠ .off := by decide

theorem test_meets_insertion :
    quiet.live = true ∧ quiet.pw.dormant = false ∧ (quiet.bay 0).present = false ∧ quiet.pw.power = .running ∧
      (quiet.bay 0).state = .empty ∧ (withBay { inState .lockout with present := false }).live = true ∧
      (startingUp []).live = true ∧ (startingUp []).pw.power ≠ .running ∧
        ((startingUp []).bay 1).present = false := by decide

theorem test_meets_removal :
    (withBay admitted).live = true ∧ (withBay admitted).pw.dormant = false ∧
      ((withBay admitted).bay 0).present = true ∧
      ((withBay admitted).bay 0).state ≠ .lockout ∧ ((withBay (inState .lockout)).bay 0).state = .lockout := by decide

/-- An insertion starts the settle timer and sends the bay's notice (R5, R199). -/
theorem test_insertion_settles :
    let t := after (exec (.insertion 2) quiet)
    (t.bay 2).state = .settling ∧ (t.bay 2).settle = some 50 ∧ (t.bay 2).present = true ∧
      t.tli.tx = some ⟨.notice, 2, 0, 0x80, 0, 0, [1, 0, 0]⟩ := by decide

/-- A removal answers the requests CANCELLED in queue order and keeps the strikes (R7, R8). -/
theorem test_removal_cancels :
    let t := after (exec (.removal 0) (withBay { admitted with queue := [wish, { wish with tid := 10 }], strikes := 2 }))
    (t.bay 0).state = .empty ∧ (t.bay 0).strikes = 2 ∧ t.tli.tx = some ⟨.response, 0, 9, 0x20, 0x0A, 0, []⟩ ∧
      t.tli.responses = [⟨0, 10, 0x20, .cancelled, RespFlags.none, []⟩] := by decide

theorem test_meets_bay_timers :
    (quiet.awake = true ∧ (withBay { inState .settling with settle := some 1 }).awake = true) ∧
      ({ inState .settling with settle := some 1 } : Bay).settle ≠ none ∧
      ({ inState .denied with reattempt := some 1 } : Bay).reattempt ≠ none ∧ admitted.state = .authorized ∧
      admitted.renew ≠ none ∧ ({ inState .grace with grace := some 1 } : Bay).grace ≠ none := by decide

/-- With DET active the bay asks for the identity at once; with DET inactive the settle timer starts again (R6). -/
theorem test_settle_expiry :
    let s := withBay { inState .settling with settle := some 1 }
    let t := after (exec (.settleExpiry 0 true) s)
    (t.bay 0).state = .identifying ∧ (t.bay 0).frame = some ⟨0xF0, 0, 0, [], none⟩ ∧
      (t.bay 0).line = .inTransaction .ident .sending false ∧
      ((after (exec (.settleExpiry 0 false) s)).bay 0).settle = some 50 := by decide

/-- A renewal claims the line with CHALLENGE, kind RENEW (R90). -/
theorem test_renew_expiry :
    let t := after (exec (.renewExpiry 0) (withBay admitted))
    (t.bay 0).state = .renewing ∧ (t.bay 0).line = .inTransaction .challenge .sending false ∧ t.nonceDraws = 1 ∧
      (t.bay 0).session = admitted.session := ⟨rfl, rfl, rfl, rfl⟩

/-- Grace ends in DENIED with the recorded reason, and the string's power goes (R97, R163). -/
theorem test_grace_expiry :
    let s := powered { admitted with state := .grace, session := none, reason := some .revoked, grace := some 1, renew := none }
    let t := after (exec (.graceExpiry 0) s)
    (t.bay 0).state = .denied ∧ (t.bay 0).reason = some .revoked ∧ s.sc.ben.get 0 = true ∧ t.sc.ben.get 0 = false ∧
      t.sc.strings.get 0 = .idle := by decide

theorem test_meets_run_filter :
    ({ quiet with sc.runFilter := some 1 } : State).sc.runFilter ≠ none ∧ quiet.sc.runFiltered = false ∧
      (powered admitted).sc.runFiltered = true ∧ quiet.live = true := by decide

/-- A fall of RUN denies every bay in GRACE (R166). -/
theorem test_run_fall :
    let s := powered { admitted with state := .grace, session := none, reason := some .noAnswer, grace := some 9, renew := none }
    ((after (exec .runFall { s with sc.runFilter := some 1 })).bay 0).state = .denied ∧
      (after (exec (.runInputChange false) s)).sc.runFilter = some 1 := by decide

theorem test_meets_strike_decay :
    (withBay { inState .lockout with strikes := 1, decay := some 1 }).live = true ∧
      ({ inState .lockout with strikes := 1, decay := some 1 } : Bay).decay = some 1 ∧ (1 : Nat) ≤ 1 ∧ 1 < (2 : Nat) ∧
      ((withBay { inState .lockout with strikes := 1, decay := some 60000 }).bay 0).decay = some 60000 := by decide

/-- The decay to 0 in LOCKOUT ends it; one above 1 only counts down (R101, R106). -/
theorem test_decay_ends_lockout :
    let s (n : Nat) := withBay { inState .lockout with strikes := n, decay := some 1 }
    ((after (exec (.decayExpiry 0) (s 1))).bay 0).state = .settling ∧
      ((after (exec (.decayExpiry 0) (s 2))).bay 0).state = .lockout ∧
      ((after (exec (.decayExpiry 0) (s 2))).bay 0).decay = some 60000 := by decide

/-- A period that a strike has just begun is not over (R101); a cache entry leaves when its life has run down, and stays
when it was just inserted (R80). -/
theorem test_fresh_periods_are_not_over :
    let s : State := { withBay { admitted with strikes := 2, decay := some 60000 } with
      cache := [⟨0x42, .forged, 2, 30000⟩, ⟨0x43, .forged, 2, 1⟩] }
    exec (.decayExpiry 0) s = .next s ∧ (after (exec (.cacheExpiry 0x42) s)).cache = s.cache ∧
      (after (exec (.cacheExpiry 0x43) s)).cache = [⟨0x42, .forged, 2, 30000⟩] := ⟨rfl, rfl, rfl⟩

/-- A gate in dormant, after a first DET sample. -/
def dormantGate : State := { quiet with pw.dormant := true, pw.detSample := Four.fill (some false) }

theorem test_meets_wake :
    dormantGate.pw.power = .running ∧ dormantGate.pw.dormant = true ∧
      dormantGate.pw.detSample.get 1 = some false ∧
        false ≠ (⟨false, true, false, false⟩ : Four Bool).get 1 := by decide

theorem test_meets_sample_without_change :
    ∀ b x, dormantGate.pw.detSample.get b = some x → x = (Four.fill false).get b := by decide

/-- A pack put in wakes a dormant gate and settles; the first sample after dormant entry wakes nothing (R209, log
17). -/
theorem test_det_sample_wakes :
    let t := after (exec (.dormantDetSample ⟨false, true, false, false⟩) dormantGate)
    t.pw.dormant = false ∧ t.tli.woke = true ∧ (t.bay 1).state = .settling ∧
      (after (exec (.dormantDetSample (Four.fill true)) { dormantGate with pw.detSample := Four.fill none })).pw.dormant = true := by
  decide

/-- A start bit wakes it too, and its frame is discarded (R209). -/
theorem test_rxd_wakes :
    let t := after (exec .rxdWake dormantGate)
    t.pw.dormant = false ∧ t.tli.rx = .discarding ∧
      t.tli.tx = some ⟨.notice, 7, 0, 0x82, 0, 0, [1, 1, 0, 0, 0, 0, 0, 0]⟩ := by
  decide

/-- The gap of a frame begun before dormant entry sets TOOL_FRAME_ERROR and wakes nothing (R193, R209). -/
theorem test_gap_in_dormant_wakes_nothing :
    let t := after (exec .toolRxGapExpiry { dormantGate with tli.rx := .assembling [0x5A, 7] })
    t.pw.dormant = true ∧ t.flags.toolFrameError = true ∧ t.tli.rx = .assembling [] ∧ t.tli.woke = false := by decide

theorem quiet_records_agree : (quiet.ts.abandonWrite .old).damaged = [] := by
  simp [TableStore.abandonWrite, TableStore.damaged, NvRecord.agrees, NvRecord.intact, quiet, State.reset, TableStore.asManufactured]

/-- Power-on sets COLD and RESETn does not; both settle the bays with DET active (R212). -/
theorem test_restarts :
    let levels : Pins := ⟨⟨true, false, false, false⟩, Four.fill false, true, true⟩
    let t := after (exec (.powerOn levels .old) quiet)
    t.flags.cold = true ∧ (t.bay 0).state = .settling ∧ t.pw.provision = true ∧ t.sc.runFiltered = true ∧
      (after (exec (.resetnRelease levels .old) quiet)).flags.cold = false := by
  simp only [exec, execPowerOn, execResetnRelease, State.restart, quiet_records_agree]
  exact ⟨rfl, rfl, rfl, rfl, rfl⟩

/-! ## Hypotheses met: pack lines and admission -/

/-- A bay with a transaction on its line. -/
def onLine (x : Bay) (k : TxnKind) (st : AttemptStage) :
  Bay := { x with line := .inTransaction k st false, response := some 12 }

theorem test_meets_line_levels :
    quiet.live = true ∧ quiet.pins.lineDominant.get 0 ≠ true ∧ (quiet.bay 0).state = .empty ∧
      (inState .lineFault).state = .lineFault ∧
      ({ quiet with pins.lineDominant := Four.fill true } : State).pins.lineDominant.get 0 ≠ false ∧
      (onLine admitted .forward .waiting).line = .inTransaction .forward .waiting false ∧
      (onLine admitted .forward .awaiting).line = .inTransaction .forward .awaiting false ∧
      (onLine admitted .forward .awaiting).state = .authorized ∧
      (∀ k ab, admitted.line ≠ .inTransaction k .waiting ab) ∧
        (∀ k ab, admitted.line ≠ .inTransaction k .awaiting ab) := by
  refine ⟨by decide, by decide, by decide, by decide, by decide, by decide, by decide, by decide, ?_, ?_⟩ <;>
    exact fun k ab h => nomatch h

/-- A dominant line starts the 20 ms watch; a recessive one begins a waiting frame (R107, R116). -/
theorem test_line_levels :
    ((after (exec (.bayLineLevelChange 0 true) (withBay admitted))).bay 0).watch = some 20 ∧
      ((after (exec (.bayLineLevelChange 0 false)
        { withBay (onLine admitted .forward .waiting) with pins.lineDominant := Four.fill true })).bay 0).line =
          .inTransaction .forward .sending false := by decide

theorem test_meets_stuck_line :
    (withBay { admitted with watch := some 1 }).awake = true ∧
      ({ admitted with watch := some 1 } : Bay).watch ≠ none ∧
      admitted.state ≠ .empty ∧ admitted.state ≠ .lockout ∧ admitted.state ≠ .lineFault ∧
      ({ inState .lineFault with settle := some 1 } : Bay).settle ≠ none := by decide

/-- A stuck line flushes the requests with LINE_FAULT and keeps the identity; its recovery drops it (R117, R118). -/
theorem test_stuck_line :
    let t := after (exec (.stuckLine 0) (withBay { admitted with watch := some 1, queue := [wish] }))
    let u := after (exec (.lineFaultRecovery 0) t)
    (t.bay 0).state = .lineFault ∧ (t.bay 0).identity = some pack ∧
      t.tli.tx = some ⟨.response, 0, 9, 0x20, 0x0E, 0, []⟩ ∧
      (u.bay 0).state = .settling ∧ (u.bay 0).identity = none := by decide

/-- A reply's characters. -/
def reply (code : Byte) (payload : List Byte) : List Byte := PackFrame.bytes ⟨code, 0, 0, payload, none⟩

theorem reads (b : Fin 4) (code : Byte) (payload : List Byte) (k : TxnKind) (s : State)
    (hl : (s.bay b).line = .inTransaction k .receiving false)
    (hp : parsePack (reply code payload) = .good ⟨code, 0, 0, payload, none⟩) :
    attemptEnds s b (.packReply b (reply code payload)) k false (some ⟨code, 0, 0, payload, none⟩) :=
  .inr ⟨.inr hl, .inr ⟨_, rfl, .inr ⟨_, rfl, hp⟩⟩⟩

theorem test_meets_attempt_ends_without_a_frame :
    let sending := withBay (onLine admitted .forward .sending)
    let awaiting := withBay (onLine admitted .forward .awaiting)
    attemptEnds sending 0 (.collision 0) .forward false none ∧
      attemptEnds awaiting 0 (.packRxGapExpiry 0) .forward false none ∧
      attemptEnds awaiting 0 (.packRxFrameError 0) .forward false none ∧
      attemptEnds awaiting 0 (.responseTimeout 0) .forward false none ∧
      attemptEnds awaiting 0 (.packReply 0 [0xC2]) .forward false none ∧ retryable none :=
  ⟨.inl ⟨rfl, rfl, rfl⟩, .inr ⟨.inl rfl, .inl ⟨rfl, .inl rfl⟩⟩, .inr ⟨.inl rfl, .inl ⟨rfl, .inr (.inl rfl)⟩⟩,
    .inr ⟨.inl rfl, .inl ⟨rfl, .inr (.inr ⟨rfl, by decide⟩)⟩⟩, .inr ⟨.inl rfl, .inr ⟨_, rfl, .inl ⟨rfl, .inl rfl⟩⟩⟩,
    fun _ h => nomatch h⟩

set_option maxRecDepth 10000 in
theorem test_meets_attempt_ends_with_a_frame :
    attemptEnds (withBay (onLine admitted .forward .receiving)) 0 (.packReply 0 (reply 0xF4 [])) .forward false
        (some ⟨0xF4, 0, 0, [], none⟩) ∧
      attemptEnds (withBay (onLine (inState .identifying) .ident .receiving)) 0 (.packReply 0 (reply 0xF5 [])) .ident false
        (some ⟨0xF5, 0, 0, [], none⟩) ∧
      attemptEnds (withBay (onLine admitted .splitFirst .receiving)) 0 (.packReply 0 (reply 0xF6 [])) .splitFirst false
        (some ⟨0xF6, 0, 0, [], none⟩) ∧
      attemptEnds (withBay { admitted with line := .inTransaction .ident .receiving true }) 0 (.packRxGapExpiry 0) .ident true none :=
  ⟨reads 0 _ _ _ _ rfl (by decide), reads 0 _ _ _ _ rfl (by decide), reads 0 _ _ _ _ rfl (by decide),
    .inr ⟨.inr rfl, .inl ⟨rfl, .inl rfl⟩⟩⟩

theorem test_meets_retry_budgets :
    authKind .ident ∧ authKind .challenge ∧ carriesRequest .splitSecond ∧
      (onLine (inState .identifying) .ident .awaiting).authRetries < 3 ∧
      3 ≤ ({ onLine (inState .identifying) .ident .awaiting with authRetries := 3 } : Bay).authRetries ∧
      ({ wish with retries := 2 } : ForwardEntry).retries < 3 ∧
        3 ≤ ({ wish with retries := 3 } : ForwardEntry).retries :=
  ⟨.inl rfl, .inr rfl, .inr (.inr rfl), by decide, by decide, by decide, by decide⟩

/-- The third retry is made; the fourth failure ends the request NO_ANSWER (R112, R113). -/
theorem test_retry_budget :
    let s (n : Nat) := withBay { onLine admitted .forward .awaiting with queue := [{ wish with retries := n }] }
    ((after (exec (.responseTimeout 0) (s 2))).bay 0).line = .retryWait .forward ∧
      ((after (exec (.responseTimeout 0) (s 2))).bay 0).retryWait = some 5 ∧
      (after (exec (.responseTimeout 0) (s 3))).tli.tx = some ⟨.response, 0, 9, 0x20, 0x0B, 0, []⟩ ∧
      ((after (exec (.responseTimeout 0) (s 3))).bay 0).queue = [] := by decide

theorem test_meets_line_waits :
    (onLine admitted .forward .sending).line = .inTransaction .forward .sending false ∧
      ({ admitted with line := .retryWait .splitFirst, retryWait := some 5, queue := [wish] } :
        Bay).retryWait ≠ none ∧
      ({ admitted with line := .retryWait .ident, retryWait := some 5 } : Bay).line = .retryWait .ident ∧
      ({ admitted with linkRun := some 1, linkHold := some 1 } : Bay).linkHold ≠ none := by decide

/-- The seventh strike locks the bay out (R104). -/
theorem test_seventh_strike :
    (((withBay { admitted with strikes := 5 }).strike 0).bay 0).state = .authorized ∧
      (((withBay { admitted with strikes := 6 }).strike 0).bay 0).state = .lockout := by decide

/-- A bay that awaits an ID_REPORT, and the report of the pack. -/
def identifyingGate : State := withBay { onLine (inState .identifying) .ident .receiving with claim := .idQuery }

def report : List Byte := [0, 0, 0, 0, 0, 0x42, 0x12, 0x34, 0, 1]

set_option maxRecDepth 10000 in
theorem test_meets_id_report :
    attemptEnds identifyingGate 0 (.packReply 0 (reply 0xF1 report)) .ident false (some ⟨0xF1, 0, 0, report, none⟩) ∧
      report.length = 10 ∧ (identifyingGate.bay 0).state = .identifying ∧ modelAt identifyingGate 0x1234 0 ∧
      (∀ i, ¬ modelAt identifyingGate 0x1235 i) ∧ failsDtoG identifyingGate entry pack none := by
  refine ⟨reads 0 _ _ _ _ rfl (by decide), by decide, by decide, by unfold modelAt; decide, by unfold modelAt; decide, ?_⟩
  unfold failsDtoG covered
  decide

theorem test_meets_id_report_failures :
    let s (e : CacheEntry) : State := { identifyingGate with cache := [e] }
    (∃ e, (s ⟨0x42, .forged, 2, 9⟩).cache.find? (fun e => e.serial == 0x42) = some e ∧ e.verdict = .forged) ∧
      heldElsewhere (identifyingGate.setBay 1 admitted) 0 0x42 ∧
      supplies (s ⟨0x42, .genuine 0 0x77, 2, 9⟩) 0x42 0 entry 0x77 ∧
      failsDtoG identifyingGate { entry with flags := 0x10 } pack (some .withdrawn) ∧
      failsDtoG identifyingGate { entry with minFirmware := 2 } pack (some .oldFirmware) ∧
      failsDtoG { identifyingGate with ts.revoke := ⟨[⟨0x42, 0x42⟩], 1⟩ } entry pack (some .revoked) ∧
      failsDtoG identifyingGate { entry with keySlot := 3 } pack (some .noKey) := by
  refine ⟨⟨_, rfl, rfl⟩, ⟨1, by decide, .inr (.inl rfl), pack, rfl, rfl⟩, ⟨_, rfl, rfl, rfl⟩, ?_, ?_, ?_, ?_⟩ <;>
    (unfold failsDtoG covered; decide)

set_option maxRecDepth 10000 in
/-- A report that passes: CHALLENGING in phase KEY, with a DERIVE_PACK_KEY job at work (R13, R14). -/
theorem test_id_report_passes :
    let t := after (exec (.packReply 0 (reply 0xF1 report)) identifyingGate)
    (t.bay 0).state = .challenging ∧ (t.bay 0).phase = some .key ∧ (t.bay 0).identity = some pack ∧
      t.de.running = some ⟨.bay 0, .derivePackKey 2 0x42 0x1234, some 0xA2, false⟩ := by decide

set_option maxRecDepth 10000 in
/-- A serial held elsewhere: DENIED, with a strike (R12). -/
theorem test_duplicate_serial :
    let t := after (exec (.packReply 0 (reply 0xF1 report)) (identifyingGate.setBay 1 admitted))
    (t.bay 0).state = .denied ∧ (t.bay 0).reason = some .duplicateSerial ∧ (t.bay 0).strikes = 1 := by decide

/-- A bay in CHALLENGING, in a phase. -/
def challenged (ph : ChallengePhase) : Bay :=
  { inState .challenging with identity := some pack, packKey := some ⟨0x77, 2⟩, phase := some ph, gateNonce := 5 }

set_option maxRecDepth 10000 in
theorem test_meets_proof :
    let x : Bay := { onLine (challenged .exchange) .challenge .receiving with claim := .challenge .admission }
    let y : Bay := onLine admitted .challenge .receiving
    attemptEnds (withBay x) 0 (.packReply 0 (reply 0xF3 (List.replicate 16 1))) .challenge false
        (some ⟨0xF3, 0, 0, List.replicate 16 1, none⟩) ∧
      attemptEnds (withBay y) 0 (.packReply 0 (reply 0xF3 (List.replicate 16 1))) .challenge false
        (some ⟨0xF3, 0, 0, List.replicate 16 1, none⟩) ∧
      (lineOver x).state = .challenging ∧ (lineOver x).phase = some .exchange ∧
        (lineOver x).packKey = some ⟨0x77, 2⟩ ∧
      (lineOver y).state = .authorized :=
  ⟨reads 0 _ _ _ _ rfl (by decide), reads 0 _ _ _ _ rfl (by decide), rfl, rfl, rfl, rfl⟩

/-! ## Hypotheses met: replies -/

/-- The lowest bay and no other. -/
def bay0Only : Four Bool := ⟨true, false, false, false⟩

theorem test_meets_filter_lookups :
    let f : FilterEntry := .toPack 0x20 0xFE bay0Only .forward
    let g : FilterEntry := .toTool 0x20 0xFE bay0Only .verify .copy
    givesToPack f 0 0x21 .forward ∧ givesToTool g 0 0x21 .verify .copy ∧ (∀ a, ¬ givesToPack g 0 0x21 a) ∧
      (∀ a, ¬ givesToPack f 0 0x22 a) ∧ (∀ a, ¬ givesToPack f 1 0x21 a) ∧
        ([f, g] : List FilterEntry) = [] ++ f :: [g] := by
  refine ⟨⟨_, _, _, rfl, rfl, rfl⟩, ⟨_, _, _, rfl, rfl, rfl⟩, ?_, ?_, ?_, rfl⟩
  · rintro a ⟨v, m, bays, h, -⟩; exact FilterEntry.noConfusion h
  · rintro a ⟨v, m, bays, h, c, -⟩; cases h; exact absurd c (by decide)
  · rintro a ⟨v, m, bays, h, -, c⟩; cases h; exact absurd c (by decide)

/-- The first match decides (R135). -/
theorem test_first_match_decides :
    let s : State := { quiet with ff.table := [.toPack 0x20 0xFF bay0Only .block, .toPack 0 0 bay0Only .forward] }
    s.toPackLookup 0 0x20 = .block ∧ s.toPackLookup 0 0x21 = .forward ∧
      s.toPackLookup 1 0x20 = quiet.cfg.defaultToPack := by
  decide

/-- A bay whose forwarded request awaits its reply. -/
def replying (x : Bay) : State := withBay { onLine x .forward .receiving with queue := [wish] }

/-- A bay of a model without tags. -/
def untagged : Bay := { admitted with identity := some { pack with attrs := some ⟨2, 1, 5, 3, 2, 3⟩ } }

set_option maxRecDepth 10000 in
theorem test_meets_reply_classes :
    let c := Instr.packReply 0 (PackFrame.bytes ⟨0x21, 2, 0, [7], some 0xABCD⟩)
    attemptEnds (replying admitted) 0 c .forward false (some ⟨0x21, 2, 0, [7], some 0xABCD⟩) ∧
      attemptEnds (replying untagged) 0 (.packReply 0 (reply 0x21 [7])) .forward false (some ⟨0x21, 0, 0, [7], none⟩) ∧
      admitted.session = some ⟨0x99, 1, 0⟩ ∧ admitted.tagging = true ∧ untagged.tagging = false ∧
      ((replying admitted).bay 0).queue = wish :: [] ∧ (replying admitted).toToolLookup 0 0x21 = (.none, .pass) := by
  refine ⟨.inr ⟨.inr rfl, .inr ⟨_, rfl, .inr ⟨_, rfl, by decide⟩⟩⟩, reads 0 _ _ _ _ rfl (by decide), ?_⟩
  decide

/-- The filter table asks one level of bay 0's replies. -/
def asking (l : VerifyLevel) (d : Disposition) (s : State) : State :=
  { s with ff.table := .toTool 0 0 bay0Only l d :: List.replicate 15 .invalid }

theorem test_meets_reply_levels :
    (asking .verify .copy quiet).toToolLookup 0 0x21 = (.verify, .copy) ∧
      (asking .strict .divert quiet).toToolLookup 0 0x21 = (.strict, .divert) := by decide

set_option maxRecDepth 10000 in
/-- Without a tag, STRICT withholds, VERIFY passes UNVERIFIED, and a copy joins the capture queue (R140, R146). -/
theorem test_untagged_replies :
    (after (exec (.packReply 0 (reply 0x21 [7])) (asking .strict .pass (replying untagged)))).tli.tx =
        some ⟨.response, 0, 9, 0x21, 0x08, 0, []⟩ ∧
      (let t := after (exec (.packReply 0 (reply 0x21 [7])) (asking .verify .copy (replying untagged)))
       t.tli.tx = some ⟨.response, 0, 9, 0x21, 0, 0x0C, [7]⟩ ∧
         t.ff.capture = [⟨0, 0x21, .unverified, [7]⟩]) := by decide

set_option maxRecDepth 10000 in
/-- A tagging pack that leaves its tag out is a tag failure: TAG_FAILED, a strike, and RENEWING (R99, R145). -/
theorem test_missing_tag :
    let t := after (exec (.packReply 0 (reply 0x21 [7])) (asking .verify .pass (replying admitted)))
    (t.bay 0).state = .renewing ∧ (t.bay 0).strikes = 1 ∧ t.tli.tx = some ⟨.response, 0, 9, 0x21, 0x09, 0, []⟩ :=
  ⟨rfl, rfl, rfl⟩

/-! ## Hypotheses met: completions of digest jobs and of store writes -/

/-- The engine at work for bay 0, with bay 0 as given. -/
def working (x : Bay) (j : Job) (key : Option Key) :
  State := { withBay x with de.running := some ⟨.bay 0, j, key, false⟩ }

/-- A digest value that differs from a given one. -/
theorem flip_ne (x : Digest) : x ≠ ~~~ x := by
  intro h
  have h0 := congrArg (fun (y : Digest) => y.getLsbD 0) h
  simp at h0

theorem test_meets_pack_key :
    (working (challenged .key) (.derivePackKey 2 0x42 0x1234) (some 0xA2)).de.running =
        some ⟨.bay 0, .derivePackKey 2 0x42 0x1234, some 0xA2, false⟩ ∧
      (challenged .key).state = .challenging ∧ (challenged .key).phase = some .key ∧
      (challenged .check).phase ≠ some .key := by decide

/-- The pack key is at hand: CHALLENGE goes out, kind ADMIT (R14). -/
theorem test_pack_key :
    let t := after (exec .derivePackKeyComplete (working (challenged .key) (.derivePackKey 2 0x42 0x1234) (some 0xA2)))
    (t.bay 0).phase = some .exchange ∧ (t.bay 0).claim = .challenge .admission ∧
      (t.bay 0).line = .inTransaction .challenge .sending false ∧ t.de.running = none := ⟨rfl, rfl, rfl, rfl⟩

/-- No two of the first draws agree (R14). -/
theorem test_nonces_differ : (0 : Nat) < 1 ∧ 1 < 2 ^ 64 ∧ Config.freshNonce 0 ≠ Config.freshNonce 1 :=
  ⟨by decide, by decide, Config.freshNonce_ne (by decide) (by decide)⟩

theorem test_meets_proof_compared :
    let right := working (challenged .check) (.checkProof 0x77 5 6 0x42 (proofValue 0x77 5 6 0x42)) none
    let wrong := working { challenged .check with state := .renewing }
      (.checkProof 0x77 5 6 0x42 (~~~ proofValue 0x77 5 6 0x42)) none
    (right.bay 0).phase = some .check ∧ (right.bay 0).state = .challenging ∧ (wrong.bay 0).state = .renewing ∧
      (wrong.bay 0).packKey = some ⟨0x77, 2⟩ ∧ proofValue 0x77 5 6 0x42 ≠ ~~~ proofValue 0x77 5 6 0x42 ∧
      admitted.phase ≠ some .check := ⟨rfl, rfl, rfl, rfl, flip_ne _, by decide⟩

/-- A false proof: DENIED, FORGED, a strike, and a FORGED entry of 30 s (R16, R79, R100). -/
theorem test_false_proof :
    let t := after (exec .checkProofComplete
      (working (challenged .check) (.checkProof 0x77 5 6 0x42 (~~~ proofValue 0x77 5 6 0x42)) none))
    (t.bay 0).state = .denied ∧ (t.bay 0).reason = some .forged ∧ (t.bay 0).strikes = 1 ∧
      t.cache = [⟨0x42, .forged, 2, 30000⟩] := by
  have h : (proofValue 0x77 5 6 0x42 == ~~~ proofValue 0x77 5 6 0x42) = false := beq_eq_false_iff_ne.mpr (flip_ne _)
  simp only [exec, execCheckProofComplete, working, h]
  exact ⟨rfl, rfl, rfl, rfl⟩

theorem test_meets_authorization :
    let s := working (challenged .session) (.deriveSession 0x77 5 6) none
    (s.bay 0).phase = some .session ∧ (s.bay 0).identity = some pack ∧ (s.bay 0).packKey = some ⟨0x77, 2⟩ ∧
      modelAt s pack.code 0 ∧ failsDtoG s entry pack none ∧ entry.keySlot.toNat = 2 ∧ (2 : Nat) ≠ 3 ∧
      failsDtoG s { entry with flags := 0x10 } pack (some .withdrawn) ∧ (∀ i, ¬ modelAt quiet pack.code i) := by
  refine ⟨rfl, rfl, rfl, by unfold modelAt; decide, ?_, by decide, by decide, ?_, by unfold modelAt; decide⟩ <;>
    (unfold failsDtoG covered; decide)

/-- The authorization point: AUTHORIZED, session 1, a renew period of 30 s, a GENUINE entry of 600 s (R17, R79,
R88). -/
theorem test_authorization :
    let t := after (exec .deriveSessionComplete (working (challenged .session) (.deriveSession 0x77 5 6) none))
    (t.bay 0).state = .authorized ∧ (t.bay 0).session = some ⟨sessionKeyValue 0x77 5 6, 1, 0⟩ ∧
      (t.bay 0).renew = some 30000 ∧
      (t.bay 0).clean = true ∧ t.cache = [⟨0x42, .genuine 0 0x77, 2, 600000⟩] := ⟨rfl, rfl, rfl, rfl, rfl⟩

theorem test_meets_renewal :
    let s := working { admitted with state := .renewing, phase := some .session } (.deriveSession 0x77 5 6) none
    (s.bay 0).phase = some .session ∧ (s.bay 0).state = .renewing ∧ (s.bay 0).session = some ⟨0x99, 1, 0⟩ ∧
      pack.index = some 0 ∧ ((255 : Byte) = 255 ∧ (254 : Byte) ≠ 255) := by decide

/-- The session number ends at 255 (R94). -/
theorem test_renewal_numbers :
    let t (n : Byte) := after (exec .deriveSessionComplete
      (working { admitted with state := .renewing, phase := some .session, session := some ⟨0x99, n, 7⟩ }
        (.deriveSession 0x77 5 6) none))
    ((t 254).bay 0).session = some ⟨sessionKeyValue 0x77 5 6, 255, 0⟩ ∧
      ((t 255).bay 0).session = some ⟨sessionKeyValue 0x77 5 6, 255, 0⟩ := ⟨rfl, rfl⟩

/-- A bay whose reply awaits its CHECK_TAG. -/
def held : Bay := { admitted with line := .awaitDigest, heldReply := some ⟨0x21, [7], .pass⟩, queue := [wish] }

theorem test_meets_tag :
    let v := tagValue 0x99 0 0x21 [7]
    (working held (.checkTag 0x99 0 0x21 [7] v) none).de.running = some ⟨.bay 0, .checkTag 0x99 0 0x21 [7] v, none, false⟩ ∧
      held.heldReply = some ⟨0x21, [7], .pass⟩ ∧ held.queue = wish :: [] ∧ v ≠ ~~~ v := ⟨rfl, rfl, rfl, not_ne _⟩

/-- A right tag: the reply goes out VERIFIED and the expected sequence advances (R142, R143, R146). -/
theorem test_right_tag :
    let t := after (exec .checkTagComplete (working held (.checkTag 0x99 0 0x21 [7] (tagValue 0x99 0 0x21 [7])) none))
    t.tli.tx = some ⟨.response, 0, 9, 0x21, 0, 2, [7]⟩ ∧ (t.bay 0).session = some ⟨0x99, 1, 1⟩ ∧
      (t.bay 0).line = .idle := by
  simp only [exec, execCheckTagComplete, working, beq_self_eq_true]
  exact ⟨rfl, rfl, rfl⟩

/-- A CHECK_IMAGE at work for a load in CHECKING. -/
def imageAtWork (digest : Digest) (l : Load) : State :=
  { stocked with de.running := some ⟨.management, .checkImage l.buffer digest, some 0xA0, false⟩, il.load := some l }

theorem test_meets_image_check :
    let d := imageValue 0xA0 [2, 0]
    let bad : Load := { checking with buffer := [3, 0] }
    (imageAtWork d checking).il.load = some checking ∧
      ((imageAtWork d checking).jobDone .management).il.load = some checking ∧
      checking.stage = .checking ∧ checking.contentOk = true ∧ bad.contentOk = false ∧ d ≠ ~~~ d := by
  refine ⟨rfl, rfl, rfl, by decide, by decide, flip_ne _⟩

/-- A right image begins its store write (R187, R189). -/
theorem test_right_image :
    let t := after (exec .checkImageComplete (imageAtWork (imageValue 0xA0 [2, 0]) checking))
    t.il.load = some { checking with stage := .committing } ∧ t.ts.write = some (.revokeImage ⟨[], 1⟩) := by
  simp only [exec, execCheckImageComplete, imageAtWork, checking, beq_self_eq_true]
  exact ⟨rfl, rfl⟩

theorem test_meets_image_content :
    let l : Load := ⟨.checking, .model, 12, 0, some 0, 1 :: 1 :: [entry.bytes].flatten, some 4⟩
    l.buffer = 1 :: 1 :: [entry.bytes].flatten ∧ (∀ r ∈ [entry.bytes], r.length = 10) ∧
      [entry.bytes].length = (1 : Byte).toNat ∧
      l.contentOk = true := by decide

theorem test_meets_key_check :
    let s : State := { stocked with de.running := some ⟨.management, .keyCheck 2, some 0xA2, false⟩, me.inHand := some (.keyCheck 4) }
    (s.jobDone .management).me.inHand = some (.keyCheck 4) ∧
      s.de.running = some ⟨.management, .keyCheck 2, some 0xA2, false⟩ := by
  decide

theorem test_meets_discarded_job :
  (engineBusy true stocked).de.running = some ⟨.bay 1, .deriveSession 0 0 0, none, true⟩ := by decide

/-- A store write in progress. -/
def storingGate (w : StoreWrite) (x : Bay) : State := { withBay x with ts := { stocked.ts with write := some w } }

theorem test_meets_key_load_complete :
    let s : State := { storingGate (.keyLoad 2 noKeys) admitted with me.inHand := some (.keyLoad 4) }
    s.ts.write = some (.keyLoad 2 noKeys) ∧ s.me.inHand = some (.keyLoad 4) := by decide

/-- A key load sends the bay that stands on the slot to IDENTIFYING, and is answered OK (R26, R35). -/
theorem test_key_load_complete :
    let s : State := { storingGate (.keyLoad 2 stocked.ts.keys) admitted with me.inHand := some (.keyLoad 4) }
    let t := after (exec (.keyLoadComplete .written) s)
    (t.bay 0).state = .identifying ∧ t.tli.tx = some ⟨.response, 7, 4, 0x20, 0, 0, []⟩ ∧
      t.ts.write = none := ⟨rfl, rfl, rfl⟩

/-- A load in COMMITTING. -/
def committing (target : ImageTarget) : Load := { checking with stage := .committing, target := target }

theorem test_meets_model_commit :
    let s : State := { storingGate (.modelImage ModelTable.none) admitted with il.load := some (committing .model) }
    s.ts.write = some (.modelImage ModelTable.none) ∧ s.il.load = some (committing .model) ∧
      (committing .model).stage = .committing := by decide

/-- A commit that withdraws the bay's model denies it UNKNOWN_MODEL; with its string ENABLED and RUN active it has
grace
(R25, R95). -/
theorem test_model_commit :
    let s : State := { storingGate (.modelImage ⟨List.replicate 32 ModelEntry.none, 1⟩) admitted with il.load := some (committing .model) }
    let t := after (exec (.modelCommit ⟨.written, Four.fill true⟩) s)
    (t.bay 0).state = .denied ∧ (t.bay 0).reason = some .unknownModel ∧ t.il = ⟨none, some .committed⟩ ∧
      t.tli.tx = some ⟨.response, 7, 4, 0x3A, 0, 0, [0, 1]⟩ ∧
      ((after (exec (.modelCommit ⟨.written, Four.fill true⟩) { s with sc := (powered admitted).sc })).bay 0).state = .grace := by
  refine ⟨?_, ?_, ?_, ?_, ?_⟩ <;> rfl

/-- A GATE_RESET that waited samples DET as the commit brings it: bay 0 settles, bay 1, shown present before, is EMPTY
(R2, R178, R211). -/
theorem test_waiting_gate_reset :
    let s : State := { storingGate (.modelImage ModelTable.none) admitted with
      il.load := some (committing .model), me.inHand := some (.gateReset 4), pins.det := ⟨true, true, false, false⟩ }
    let t := after (exec (.modelCommit ⟨.written, ⟨true, false, false, false⟩⟩) s)
    (t.bay 0).state = .settling ∧ (t.bay 1).state = .empty ∧ (t.bay 1).present = false ∧
      t.pins.det = ⟨true, false, false, false⟩ ∧ t.me.inHand = none := by
  refine ⟨?_, ?_, ?_, ?_, ?_⟩ <;> rfl

theorem test_meets_revocation_commit :
    let s : State := { storingGate (.revokeEdit ⟨[⟨0x42, 0x42⟩], 1⟩) admitted with me.inHand := some (.revokeAdd 4 0) }
    let u : State := { storingGate (.revokeImage RevList.none) admitted with il.load := some (committing .revoke) }
    s.ts.write = some (.revokeEdit ⟨[⟨0x42, 0x42⟩], 1⟩) ∧ s.me.inHand = some (.revokeAdd 4 0) ∧
      ({ s with me.inHand := some (.revokeDrop 4) } : State).me.inHand = some (.revokeDrop 4) ∧
      u.il.load = some (committing .revoke) ∧ u.ts.write = some (.revokeImage RevList.none) := by decide

/-- An added range revokes the bay it covers, and the edit is answered with generation, count and index (R69, R71,
R180). -/
theorem test_revocation_commit :
    let s : State := { storingGate (.revokeEdit ⟨[⟨0x42, 0x42⟩], 1⟩) admitted with me.inHand := some (.revokeAdd 4 0) }
    let t := after (exec (.revocationCommit ⟨.written, Four.fill true⟩) s)
    (t.bay 0).state = .denied ∧ (t.bay 0).reason = some .revoked ∧
      t.tli.tx = some ⟨.response, 7, 4, 0x32, 0, 0, [0, 1, 1, 0]⟩ := by
  refine ⟨?_, ?_, ?_⟩ <;> rfl

/-- An edit whose write fails, and one that finds the management queue full or cancelled, carry generation and count
(12.3; log 21). -/
theorem test_refused_edits_carry_the_list :
    let s : State := { storingGate (.revokeEdit ⟨[⟨0x42, 0x42⟩], 1⟩) admitted with me.inHand := some (.revokeAdd 4 0) }
    let full : State := { quiet with
      ts.revoke := ⟨[⟨0x42, 0x42⟩], 3⟩, me.queue := List.replicate 4 ⟨9, 0x33, []⟩ }
    (after (exec (.revocationCommit ⟨.failed, Four.fill true⟩) s)).tli.tx =
        some ⟨.response, 7, 4, 0x32, 0x19, 0, [0, 0, 0]⟩ ∧
      (full.enqueue ⟨5, 0x32, []⟩).tli.responses = [rejected full 5 0x32 .queueFull] ∧
      rejected full 5 0x32 .queueFull = ⟨7, 5, 0x32, .queueFull, RespFlags.none, [0, 3, 1]⟩ ∧
      rejected full 5 0x01 .queueFull = ⟨7, 5, 0x01, .queueFull, RespFlags.none, []⟩ := by
  refine ⟨?_, ?_, ?_, ?_⟩ <;> rfl

theorem test_meets_table_changes :
    let lost : Bay := { inState .denied with reason := some .noKey, identity := some pack }
    admitted.identity = some pack ∧ modelAt (withBay admitted) pack.code 0 ∧
      failsDtoG (withBay admitted) entry pack none ∧
      admitted.packKey = some ⟨0x77, 2⟩ ∧ lost.reason = some .noKey ∧ lost.identity = some pack ∧
      ({ admitted with state := .grace } : Bay).identity = some pack ∧
      covered { stocked with ts.revoke := ⟨[⟨0x42, 0x42⟩], 1⟩ } 0x42 ∧ ¬ covered stocked 0x42 := by
  refine ⟨rfl, by unfold modelAt; decide, ?_, rfl, rfl, rfl, rfl, ?_, ?_⟩
  · unfold failsDtoG covered; decide
  · unfold covered; decide
  · unfold covered; decide

/-! ## Hypotheses met: the tool line -/

/-- A request's characters. -/
def request (selector : BitVec 3) (code : Byte) (flags : Byte) (payload : List Byte) : List Byte :=
  ToolFrame.bytes ⟨.request, selector, 9, code, 0, flags, payload⟩

theorem heard (s : State) (hl : s.live = true) (hd : s.pw.dormant = false) (hr : s.tli.rx = .assembling [])
    (selector : BitVec 3) (code flags : Byte) (payload : List Byte)
    (hp : parseTool (request selector code flags payload) = .complete (byteOf selector.toNat) 9 code flags payload []) :
    toolHears s (request selector code flags payload) (byteOf selector.toNat) 9 code flags payload { s with tli.rx := .assembling [] } :=
  ⟨hl, hd, [], [], hr, hp, rfl⟩

set_option maxRecDepth 100000 in
theorem test_meets_pass_through :
    (∃ v, toolHears quiet (request 0 0x20 0 (List.replicate 17 0)) 0 9 0x20 0 (List.replicate 17 0) v) ∧
      (∃ v, toolHears quiet (request 3 0xF0 1 (List.replicate 16 0)) 3 9 0xF0 1 (List.replicate 16 0) v) ∧
      (∃ v, toolHears quiet (request 0 0xEF 0 []) 0 9 0xEF 0 [] v) ∧ kindField 3 = 0 ∧
      selectorField 3 = BitVec.ofNat 3 (3 : Fin 4).val ∧ quiet.toPackLookup 0 0xEF = .block ∧
      ({ quiet with cfg.defaultToPack := .forward } : State).toPackLookup 0 0xEF ≠ .block := by
  refine ⟨⟨_, heard _ rfl rfl rfl 0 _ _ _ (by decide)⟩, ⟨_, heard _ rfl rfl rfl 3 _ _ _ (by decide)⟩,
    ⟨_, heard _ rfl rfl rfl 0 _ _ _ (by decide)⟩, ?_⟩
  decide

set_option maxRecDepth 100000 in
/-- A request that nothing refuses goes straight to an idle line; a full queue refuses it (R130, R131). -/
theorem test_pass_through :
    let s (n : Nat) : State := { withBay { admitted with queue := List.replicate n wish } with cfg.defaultToPack := .forward }
    ((after (exec (.toolFrame (request 0 0x20 0 [1, 2])) (s 0))).bay 0).frame = some ⟨0x20, 0, 0, [1, 2], none⟩ ∧
      ((after (exec (.toolFrame (request 0 0x20 0 [])) (s 3))).bay 0).queue.length = 4 ∧
      (after (exec (.toolFrame (request 0 0x20 0 [])) (s 4))).tli.tx = some ⟨.response, 0, 9, 0x20, 0x02, 0, []⟩ := by decide

set_option maxRecDepth 100000 in
theorem test_meets_routing :
    (∃ v, toolHears quiet (request 7 1 0 [0]) 7 9 1 0 [0] v) ∧
      (∃ v, toolHears quiet (request 4 1 0 [0]) 4 9 1 0 [0] v) ∧
      (∃ v, toolHears quiet (ToolFrame.bytes ⟨.notice, 7, 9, 1, 0, 0, []⟩) 0x27 9 1 0 [] v) ∧ kindField 0x27 ≠ 0 ∧
      kindField 7 = 0 ∧ selectorField 7 = 7 ∧ (selectorField 4).toNat = 4 ∧ quiet.me.queue.length < 4 ∧
      parseTool [0x5A, 7, 9, 1, 0, 0, 0, 0, 0] = .crcError [] ∧ parseTool [0x5B] = .framingError ∧
      parseTool [0x5A, 7] = .incomplete := by
  refine ⟨⟨_, heard _ rfl rfl rfl 7 _ _ _ (by decide)⟩, ⟨_, heard _ rfl rfl rfl 4 _ _ _ (by decide)⟩,
    ⟨_, rfl, rfl, [], [], rfl, by decide, rfl⟩, ?_⟩
  decide

/-- The judgement at its bounds: a length of 48 waits for its characters, one of 49 is a framing error (R193). -/
theorem test_judgement_at_its_bounds :
    parseTool [0x5A, 7, 9, 1, 0, 0, 48] = .incomplete ∧
      parseTool [0x5A, 7, 9, 1, 0, 0, 49] = .framingError := by decide

set_option maxRecDepth 100000 in
/-- Two frames back to back: what follows a frame begins the next (R193). -/
theorem test_frames_back_to_back :
    let t := after (exec (.toolFrame (request 7 1 0 [0] ++ [0x5A])) quiet)
    t.me.queue = [⟨9, 1, [0]⟩] ∧ t.tli.rx = .assembling [0x5A] := by decide

theorem test_meets_tool_line_events :
    quiet.live = true ∧ quiet.pw.dormant = false ∧ quiet.tli.rx = .assembling [] ∧
      ({ quiet with tli.rx := .discarding } : State).tli.rx = .discarding ∧ dormantGate.pw.power = .running ∧
      State.reset.tli.tx ≠ none := by decide

/-- A framing error discards until the line has been idle (R193). -/
theorem test_framing_error :
    let t := after (exec .toolFramingError quiet)
    t.tli.rx = .discarding ∧ t.flags.toolFrameError = true ∧
      (after (exec .toolRxIdleResync t)).tli.rx = .assembling [] ∧
      (after (exec .toolRxGapExpiry quiet)).tli.rx = .assembling [] := by decide

/-- Behind the reset's notice the transmitter falls idle (R198). -/
theorem test_frame_sent : (after (exec .frameSent State.reset)).tli.tx = none := by decide

/-! ## Hypotheses met: gate requests -/

theorem asks_of (code : Byte) (payload : List Byte) (s : State) (h : s.pw.power = .running ∧ s.pw.dormant = false ∧
  s.me.inHand = none) :
    asks (asked code payload s) code ⟨3, code, payload⟩ [] := ⟨h.1, h.2.1, h.2.2, rfl, rfl⟩

/-- Every request can be asked of a quiet gate and of a stocked one. -/
theorem test_meets_asks (code : Byte) (payload : List Byte) :
    asks (asked code payload quiet) code ⟨3, code, payload⟩ [] ∧
      asks (asked code payload stocked) code ⟨3, code, payload⟩ [] :=
  ⟨asks_of code payload quiet ⟨rfl, rfl, rfl⟩, asks_of code payload stocked ⟨rfl, rfl, rfl⟩⟩

/-- The response in the transmitter after a request: its status and payload. -/
def answered (c : Instr) (s : State) :
  Option (Byte × List Byte) := (after (exec c s)).tli.tx.map (fun f => (f.status, f.payload))

theorem test_meets_configuration :
    configured quiet 1 10 { quiet.cfg with settle := 10 } ∧ configured quiet 5 20 { quiet.cfg with linkHold := 20 } ∧
      configured quiet 6 2 { quiet.cfg with defaultToPack := .block } ∧ (∀ cfg, ¬ configured quiet 1 251 cfg) ∧
      (∀ cfg, ¬ configured quiet 6 3 cfg) ∧ configValue quiet 6 2 ∧ (7 : Byte).toNat = 7 ∧ 6 < 7 := by
  refine ⟨.inl ⟨rfl, by decide, by decide, rfl⟩, .inr (.inr (.inr (.inr (.inl ⟨rfl, by decide, by decide, rfl⟩)))),
    .inr (.inr (.inr (.inr (.inr ⟨rfl, .inr (.inr ⟨rfl, rfl⟩)⟩)))), ?_, ?_,
    .inr (.inr (.inr (.inr (.inr ⟨rfl, .inr (.inr ⟨rfl, rfl⟩)⟩)))), by decide, by decide⟩
  · intro cfg h; unfold configured at h; omega
  · intro cfg h; unfold configured at h; omega

/-- The item ranges at their bounds, and the value read back (R203 to R205). -/
theorem test_configuration :
    answered .configSet (asked 2 [1, 0, 250] quiet) = some (0, [0, 250]) ∧
      answered .configSet (asked 2 [1, 0, 251] quiet) = some (3, []) ∧
      answered .configGet (asked 3 [4] quiet) = some (0, [7, 208]) ∧
        answered .configGet (asked 3 [0] quiet) = some (3, []) := by decide

/-- Clear = 1 clears the flags behind the status (R202). -/
theorem test_gate_status :
    answered .gateStatus (asked 1 [1] quiet) = some (0, [1, 0, 0, 0, 0, 0, 0, 0]) ∧
      (after (exec .gateStatus (asked 1 [1] quiet))).flags.cold = false := by decide

theorem test_meets_snapshot :
    quiet.me.snapshot = none ∧
      ({ quiet with me.snapshot := some (picture quiet 0) } : State).me.snapshot = some (picture quiet 0) ∧
      ([0] : List Byte) ≠ [] ∧ ([2] : List Byte) ≠ [0] ∧ ([2] : List Byte) ≠ [1] := by decide

/-- The second page read releases the picture (R207). -/
theorem test_snapshot :
    let t := after (exec .snapLatch (asked 4 [] quiet))
    let u := after (exec .snapRead (asked 5 [0] { t with tli.tx := none }))
    t.me.snapshot ≠ none ∧ u.me.snapshot ≠ none ∧ (after (exec .snapRead (asked 5 [1] u))).me.snapshot = none ∧
      answered .snapRead (asked 5 [0] quiet) = some (0x1E, []) := by decide

theorem test_meets_dormant_entry :
    quiet.sc.runFiltered = false ∧ (powered admitted).sc.runFiltered = true ∧ ¬ storing quiet ∧
      storing { quiet with il.load := some (committing .model) } ∧ storing (startingUp []) := by
  refine ⟨rfl, rfl, ?_, .inr ⟨_, rfl, rfl⟩, .inl (by decide)⟩
  rintro (h | ⟨l, h, -⟩)
  · exact h rfl
  · exact nomatch h

/-- Dormant entry empties the bay, keeps present, and answers first (R208, log 17). -/
theorem test_dormant_entry :
    let t := after (exec .dormant (asked 6 [] (withBay { admitted with queue := [wish] })))
    t.pw.dormant = true ∧ (t.bay 0).state = .empty ∧ (t.bay 0).present = true ∧
      t.tli.tx = some ⟨.response, 7, 3, 6, 0, 0, []⟩ ∧
      t.tli.responses = [⟨0, 9, 0x20, .cancelled, RespFlags.none, []⟩] := by decide

theorem test_meets_gate_reset :
    (committing .model).stage = .committing ∧ (∀ l, quiet.il.load = some l → l.stage ≠ .committing) ∧
      ({ quiet with il.load := some checking } : State).il.load = some checking :=
  ⟨rfl, fun _ h => absurd h (by simp [quiet, State.reset]), rfl⟩

/-- GATE_RESET keeps the configuration and settles the bays with DET active (R211). -/
theorem test_gate_reset :
    let t := after (exec (.gateReset ⟨true, false, false, false⟩) (asked 7 [] { withBay admitted with cfg.renew := 31 }))
    (t.bay 0).state = .settling ∧ (t.bay 0).identity = none ∧ t.cfg.renew = 31 ∧ t.ts.model = stocked.ts.model ∧
      t.tli.tx = some ⟨.response, 7, 3, 7, 0, 0, []⟩ := by decide

theorem test_meets_bay_requests :
    ([3] : List Byte) = [BitVec.ofNat 8 (3 : Fin 4).val] ∧ (inState .denied).state = .denied ∧
      admitted.state ≠ .denied := by decide

/-- BAY_QUERY of a bay in AUTHORIZED, and BAY_RETRY refused there (R28, R29). -/
theorem test_bay_requests :
    answered .bayQuery (asked 0x10 [0] (withBay admitted)) =
        some (0, [4, 0, 1, 3, 0, 0, 0, 0, 0, 0x42, 0x12, 0x34, 0, 1, 0, 0, 0, 0, 0, 0, 1, 0, 0]) ∧
      answered .bayRetry (asked 0x11 [0] (withBay admitted)) = some (0x1A, []) ∧
      ((after (exec .bayRetry (asked 0x11 [0] (withBay (inState .denied))))).bay 0).state = .identifying := by decide

theorem test_meets_keys_and_models :
    let key := List.replicate 16 (1 : Byte)
    key.length = 16 ∧ (7 : Byte).toNat ≤ 7 ∧ ({ quiet with pw.provision := true } : State).pw.provision = true ∧
      quiet.pw.provision = false ∧ stocked.ts.keys.slot 2 ≠ none ∧ stocked.ts.keys.slot 7 = none ∧
      ({ stocked with de.waiting.management := some (.keyCheck 2) } : State).de.waiting.management ≠ none ∧
      (stocked.ts.model.entry 0).code ≠ 0 ∧ (stocked.ts.model.entry 31).code = 0 ∧ (31 : Byte).toNat ≤ 31 := by decide

/-- KEY_LOAD is LOCKED outside provisioning mode; MODEL_GET reports an entry (R34, R58). -/
theorem test_keys_and_models :
    answered .keyLoad (asked 0x20 (7 :: List.replicate 16 1) stocked) = some (0x14, []) ∧
      (after (exec .keyLoad (asked 0x20 (7 :: List.replicate 16 1) { stocked with pw.provision := true }))).me.inHand =
        some (.keyLoad 3) ∧
      (after (exec .keyCheck (asked 0x21 [2] stocked))).de.running = some ⟨.management, .keyCheck 2, some 0xA2, false⟩ ∧
      answered .modelGet (asked 0x30 [0] stocked) = some (0, [0, 0x12, 0x34, 2, 0, 1, 1, 5, 3, 2, 0x0B, 0, 0]) ∧
      answered .modelGet (asked 0x30 [31] stocked) = some (0x13, [0, 0]) := by decide

/-- A revocation list of one range, of generation 1. -/
def listed : State := { quiet with ts.revoke := ⟨[⟨16, 31⟩], 1⟩ }

/-- The arguments of an edit. -/
def edit (gen : Nat) (serials : List Nat) : List Byte := bytesBE 2 gen ++ serials.flatMap (bytesBE 6)

theorem test_meets_revocations :
    (bytesBE 2 1).length = 2 ∧ natBE (bytesBE 2 1) = listed.ts.revoke.gen.toNat ∧
      natBE (bytesBE 2 2) ≠ listed.ts.revoke.gen.toNat ∧
      listed.ts.revoke.ranges[(0 : Byte).toNat]? = some ⟨16, 31⟩ ∧ listed.ts.revoke.ranges.length ≤ (1 : Byte).toNat ∧
      (edit 1 [32, 40]).length = 14 ∧ (edit 1 [16]).length = 8 ∧ ¬ storing listed := by
  refine ⟨by decide, by decide, by decide, by decide, by decide, by decide, by decide, ?_⟩
  rintro (h | ⟨l, h, -⟩)
  · exact h rfl
  · exact nomatch h

/-- The conditions of an edit, at their bounds (R180, R181). -/
theorem test_revocations :
    answered .revokeAdd (asked 0x32 (edit 1 [31, 40]) listed) = some (0x12, [0, 1, 1]) ∧
      (after (exec .revokeAdd (asked 0x32 (edit 1 [32, 40]) listed))).ts.write = some (.revokeEdit ⟨[⟨16, 31⟩, ⟨32, 40⟩], 2⟩) ∧
      answered .revokeAdd (asked 0x32 (edit 1 [41, 40]) listed) = some (0x03, [0, 1, 1]) ∧
      answered .revokeAdd (asked 0x32 (edit 2 [32, 40]) listed) = some (0x10, [0, 1, 1]) ∧
      (after (exec .revokeDrop (asked 0x33 (edit 1 [16]) listed))).ts.write = some (.revokeEdit ⟨[], 2⟩) ∧
      answered .revokeDrop (asked 0x33 (edit 1 [17]) listed) = some (0x13, [0, 1, 1]) ∧
      answered .revokeGet (asked 0x31 [1] listed) = some (0x13, [1, 0, 1]) := by decide

/-- A load that has received its first byte of two. -/
def loading : Load := ⟨.loading, .revoke, 2, 0, none, [2], none⟩

/-- A stocked gate with a load. -/
def loadingGate (l : Load) : State := { stocked with il.load := some l }

theorem test_meets_image_load :
    stocked.il.load = none ∧ loading.stage = .loading ∧ (loadingGate checking).il.load = some checking ∧
      checking.stage ≠ .loading ∧
      checking.stage ≠ .committing ∧ natBE (bytesBE 2 1024) = 1024 ∧
        natBE (bytesBE 2 0) = stocked.ts.revoke.gen.toNat ∧
      natBE (bytesBE 2 1) = loading.buffer.length ∧ stocked.ts.keys.slot 0 ≠ none ∧ listed.ts.keys.slot 0 = none ∧
      ({ loading with buffer := [2, 0] } : Load).buffer.length = loading.declared := by decide

/-- A load from its opening to its check, and the abort that a wrong offset brings (R183 to R185, R190). -/
theorem test_image_load :
    answered .imageBegin (asked 0x38 [2, 0, 2, 0, 0] stocked) = some (0, []) ∧
      answered .imageBegin (asked 0x38 [2, 4, 1, 0, 0] stocked) = some (3, []) ∧
      answered .imageData (asked 0x39 [0, 1, 0] (loadingGate loading)) = some (0, [0, 2]) ∧
      (after (exec .imageData (asked 0x39 [0, 0, 0] (loadingGate loading)))).il = ⟨none, some (.status .order)⟩ ∧
      (after (exec .imageEnd (asked 0x3A (List.replicate 8 1) (loadingGate { loading with buffer := [2, 0] })))).de.running =
        some ⟨.management, .checkImage [2, 0] 0x0101010101010101, some 0xA0, false⟩ ∧
      (after (exec .imageCancel (asked 0x3B [] (loadingGate checking)))).il = ⟨none, some .cancelled⟩ := by decide

theorem test_meets_filters_and_captures :
    givesEntry 1 0x20 0xFF 1 0 (.toPack 0x20 0xFF bay0Only .forward) ∧ givesEntry 2 9 9 99 99 .invalid ∧
      givesEntry 3 0x20 0xFF 1 0xED (.toTool 0x20 0xFF bay0Only .verify .divert) ∧
      quiet.ff.table[(15 : Fin 16).val]? = some .invalid ∧ quiet.ff.capture = [] ∧
      ({ quiet with ff.capture := [⟨0, 0x21, .none, [7]⟩] } :
        State).ff.capture = ⟨0, 0x21, .none, [7]⟩ :: [] := by
  unfold givesEntry; decide

/-- No entry is given by a first byte 5. -/
theorem test_meets_filter_refusal : ∀ f : FilterEntry, ¬ givesEntry 5 0 0 0 0 f := by
  intro f h
  cases f with
  | invalid => exact Bool.noConfusion h
  | toPack => exact absurd h.1 (by decide)
  | toTool => exact absurd h.1 (by decide)

/-- A filter entry reads back; one of another kind is refused; the oldest capture is taken (R137, R138, R150). -/
theorem test_filters_and_captures :
    let t := after (exec .filterSet (asked 0x40 [3, 3, 0x20, 0xFE, 5, 0x12] quiet))
    answered .filterGet (asked 0x41 [3] { t with tli.tx := none }) = some (0, [3, 0x20, 0xFE, 5, 0x12]) ∧
      answered .filterSet (asked 0x40 [0, 5, 0, 0, 0, 0] quiet) = some (3, []) ∧
      answered .filterSet (asked 0x40 [0, 0, 9, 9, 99, 99] quiet) = some (0, []) ∧
      (after (exec .filterSet (asked 0x40 [0, 3, 0x20, 0xFE, 5, 0xDE] quiet))).ff.table[0]? = t.ff.table[3]? ∧
      answered .captureTake (asked 0x42 [] { quiet with ff.capture := [⟨2, 0x21, .verified, [7, 8]⟩] }) =
        some (0, [2, 0x21, 1, 0, 2, 7, 8]) := by decide

theorem test_meets_topology :
    ([0, 0, 0x0F, 0x0F, 1] : List Byte) = topologyBytes ⟨some 0, some 0, none, none⟩ ⟨true, false, false, false⟩ ∧
      (powered admitted).sc.runFiltered = true ∧ quiet.sc.runFiltered = false ∧ (∀ b, quiet.sc.ben.get b = false) ∧
      (({ quiet with sc.strings := Four.fill (.latchedOff 2) } : State).sc.strings.get 3 = .latchedOff 2) ∧
      (∀ b, quiet.sc.strings.get 0 ≠ .latchedOff b) := by decide

/-- A topology of an authorized bay is ENABLED at once; a latched string is released (R171, R174). -/
theorem test_topology :
    let t := after (exec .topologySet (asked 0x50 [0, 15, 15, 15, 0] (withBay admitted)))
    t.sc.strings.get 0 = .enabled ∧ t.sc.ben.get 0 = true ∧
      answered .topologyGet (asked 0x51 [] { t with tli.tx := none }) =
        some (0, [0, 15, 15, 15, 0]) ∧
      answered .stringQuery (asked 0x52 [0] { t with tli.tx := none }) = some (0, [3, 0, 1, 1, 5, 2, 1, 0, 0, 0xFF, 5]) ∧
      answered .stringRelease (asked 0x53 [0] { t with tli.tx := none, sc.strings := ⟨.latchedOff 0, .unused, .unused, .unused⟩ }) =
        some (0, [3]) := by decide

theorem test_meets_bad_requests :
    (0x08 : Byte) ∉ requestCodes ∧ malformed .bayQuery 0x10 [4] ∧ malformed .keyLoad 0x20 (8 :: List.replicate 16 0) ∧
      malformed .modelGet 0x30 [32] ∧ malformed .filterGet 0x41 [] ∧ malformed .captureTake 0x42 [0] := by
  have one : ∀ (m : Nat) (x : Byte), m < x.toNat → ∀ n : Byte, [x] = [n] → m < n.toNat := by
    intro m x h n e; cases e; exact h
  refine ⟨by decide, .inl ⟨rfl, rfl, one 3 4 (by decide)⟩, .inr (.inr (.inl ⟨rfl, rfl, fun _ => ⟨_, _, rfl, by decide⟩⟩)),
    .inr (.inr (.inr (.inr (.inl ⟨rfl, rfl, one 31 32 (by decide)⟩)))), ?_, ?_⟩
  · exact .inr (.inr (.inr (.inr (.inr (.inr (.inr (.inl ⟨rfl, rfl, fun n h => nomatch h⟩)))))))
  · exact .inr (.inr (.inr (.inr (.inr (.inr (.inr (.inr (.inl ⟨rfl, rfl, by decide⟩))))))))

/-- Codes and arguments out of range (R196, R215). -/
theorem test_bad_requests :
    answered .unknownCode (asked 0x08 [] quiet) = some (0x1B, []) ∧
      answered .bayQuery (asked 0x10 [4] quiet) = some (3, []) ∧
      answered .topologySet (asked 0x50 [0, 15, 15, 4, 0] quiet) = some (3, []) := by decide

/-! ## Hypotheses met: encodings and invariants -/

theorem test_meets_encodings :
    let f : PackFrame := ⟨0x21, 2, 0, List.replicate 16 7, some 0xABCD⟩
    f.payload.length ≤ 16 ∧ f.control.getLsbD 1 = f.tag.isSome ∧
      (⟨.response, 7, 1, 1, 0, 0, List.replicate 48 7⟩ : ToolFrame).payload.length ≤ 48 := by decide

/-- A gate at work: bay 0 AUTHORIZED, its string ENABLED, a GENUINE entry for its pack, and a removal waiting. -/
def atWork : State := { powered admitted with cache := [⟨0x42, .genuine 0 0x77, 2, 600000⟩], pending := [.removal 0] }

theorem test_meets_steps : ∃ t, step atWork = .next t ∧ (t.bay 0).state = .empty ∧
  t.sc.ben.get 0 = false := ⟨_, rfl, rfl, rfl⟩

theorem test_meets_capacities : withinCapacities atWork := by
  refine ⟨?_, by decide, by decide, by decide, by decide, by decide, fun l h => absurd h (by simp [atWork, powered, withBay, stocked, quiet, State.reset, State.setBay])⟩
  intro b
  refine ⟨?_, ?_, ?_, ?_, ?_, ?_⟩ <;> fin_cases b <;> decide

theorem test_meets_lawful_tables : lawfulTables atWork := by
  have none_model : lawfulModel ModelTable.none := ⟨by decide, by decide, fun e he => .inl (by rw [List.eq_of_mem_replicate he]; rfl)⟩
  have none_list : lawfulList RevList.none := ⟨by decide, by decide, by decide⟩
  refine ⟨⟨by decide, by decide, ?_⟩, none_model, none_list, none_list, by decide, by decide, (fun _ h => nomatch h), ?_,
    (fun _ _ h => nomatch h), (fun _ h => nomatch h)⟩
  · intro e he
    have h : e = entry ∨ e = ModelEntry.none := by
      simp only [atWork, powered, withBay, State.setBay, stocked, List.mem_cons, List.mem_replicate] at he
      tauto
    rcases h with rfl | rfl
    · exact .inr ⟨by decide, by decide, by decide, by decide, by decide, by decide, by decide, by decide, by decide⟩
    · exact .inl rfl
  · rintro _ (h | h) <;> exact nomatch h

theorem test_meets_trustworthy : trustworthy atWork := by
  have none_covered : ∀ x, ¬ covered atWork x := by rintro x ⟨r, h, -⟩; exact nomatch h
  refine ⟨?_, fun _ _ _ _ => none_covered _, fun _ _ _ _ _ => none_covered _⟩
  have others : ∀ o : Fin 4, o ≠ 0 → (atWork.bay o).state = .empty := by decide
  intro b hb
  have b0 : b = 0 := by
    by_contra h
    rw [others b h] at hb
    revert hb; decide
  subst b0
  refine ⟨pack, rfl, ?_⟩
  rintro ⟨o, ho, hs, -⟩
  rw [others o ho] at hs
  revert hs; decide

theorem test_meets_power_gated : powerGated atWork := by
  have bays : ∀ x, ∀ b ∈ membersOf atWork x, b = 0 := by decide
  have on : ∀ x, atWork.sc.strings.get x = .enabled → x = 0 := by decide
  refine ⟨by decide, ?_, fun h => nomatch h⟩
  intro x hx
  have x0 := on x hx
  subst x0
  refine ⟨by decide, fun b hb => .inl ?_, ?_, by decide, by decide, by decide, fun y hy h => absurd (on y hy) h⟩
  · rw [bays 0 b hb]; rfl
  · intro b hb
    rw [bays 0 b hb]
    refine ⟨⟨2, 1, 5, 3, 2, 0x0B⟩, rfl, fun o ho => ?_, fun _ => by decide⟩
    rw [bays 0 o ho]
    exact ⟨_, rfl, rfl, rfl, rfl⟩

end Sys2Proof.Tests
end

