-- ==== Sys2Proof/Proofs/PassThrough.lean ====
section
/-! PROOF. TOOL_FRAME with a request to a bay (R130, R131): the frame reaches the bay's pass-through, whose first failing
check refuses it, and which takes it into the forward queue when no check fails. -/

namespace Sys2Proof.Machine

open Sys2Proof.Claims

/-! ## From the frame to the bay -/

/-- The selector field of bay `b` reads back as its number (R194). -/
theorem fourNumber_baySelector (b : Fin 4) : fourNumber (BitVec.ofNat 3 b.val).toNat = some b := by
  have fits : b.val < 2 ^ 3 := by omega
  rw [BitVec.toNat_ofNat, Nat.mod_eq_of_lt fits]
  exact dif_pos b.isLt

/-- A request to a bay's selector is routed to that bay's pass-through (R194). -/
theorem State.route_bay (s : State) {ks : Byte} {b : Fin 4} (tid code flags : Byte) (payload : List Byte)
    (kind : kindField ks = 0) (selector : selectorField ks = BitVec.ofNat 3 b.val) :
    s.route ks tid code flags payload = s.passThrough b tid code flags payload := by
  simp only [State.route, kind, selector, fourNumber_baySelector, ne_eq, not_true_eq_false, if_false]

/-- A receive assembler that completes a good frame hands it on, and keeps the characters behind it (R193). -/
theorem State.receive_complete (s : State) {chars rest payload : List Byte} {ks tid code flags : Byte}
    (parsed : parseTool chars = .complete ks tid code flags payload rest) :
    s.receive chars = (s.setRx (.assembling rest)).route ks tid code flags payload := by
  simp only [State.receive, parsed]

/-- TOOL_FRAME at an awake, live gate whose assembler is receiving: its characters go behind those in assembly (R193). -/
theorem exec_toolFrame_awake {s : State} {chars : List Byte} (bytes : List Byte) (live : s.live = true)
    (awake : s.pw.dormant = false) (assembling : s.tli.rx = .assembling chars) :
    exec (.toolFrame bytes) s = .next (s.receive (chars ++ bytes)).settleTx := by
  simp [exec, execToolFrame, State.asleep, State.hears, taken, done, live, awake, assembling]

/-- A heard frame is routed from the state with the characters behind it in assembly (R193). -/
theorem exec_toolFrame_heard {s v : State} {bytes payload : List Byte} {ks tid code flags : Byte}
    (heard : toolHears s bytes ks tid code flags payload v) :
    exec (.toolFrame bytes) s = .next (v.route ks tid code flags payload).settleTx := by
  obtain ⟨live, awake, chars, rest, assembling, parsed, rfl⟩ := heard
  rw [exec_toolFrame_awake bytes live awake assembling, s.receive_complete parsed]
  rfl

/-- Hearing a frame changes only the receive assembler, which neither the checks of R130 nor the bay read. -/
theorem toolHears_keeps_checks {s v : State} {bytes payload : List Byte} {ks tid code flags : Byte}
    (heard : toolHears s bytes ks tid code flags payload v) (b : Fin 4) :
    v.bay b = s.bay b ∧ v.toPackLookup b code = s.toPackLookup b code ∧
      v.passThroughRefusal b code payload = s.passThroughRefusal b code payload := by
  obtain ⟨-, -, -, rest, -, -, rfl⟩ := heard
  exact ⟨rfl, rfl, rfl⟩

/-! ## The two ends of a pass-through request -/

/-- A check that refuses answers the request with its status and nothing else (R130). -/
theorem State.passThrough_refused {s : State} {b : Fin 4} {code : Byte} {payload : List Byte} {st : Status}
    (tid flags : Byte) (refused : s.passThroughRefusal b code payload = some st) :
    s.passThrough b tid code flags payload =
      s.answer [⟨BitVec.ofNat 3 b.val, tid, code, st, RespFlags.none, []⟩] := by
  simp only [State.passThrough, refused]

/-- A request that no check refuses joins the bay's forward queue, with the bay's arbiter behind it (R130, R131). -/
theorem State.passThrough_accepted {s : State} {b : Fin 4} {code : Byte} {payload : List Byte}
    (tid flags : Byte) (accepted : s.passThroughRefusal b code payload = none) :
    s.passThrough b tid code flags payload =
      (s.setBay b
        { s.bay b with
          queue := (s.bay b).queue ++
            [⟨tid, code, flags.getLsbD 0, payload, decide (s.toPackLookup b code = .forwardAuth), 0⟩] }).arbitrate b := by
  simp only [State.passThrough, accepted]
  rfl

/-- A heard request to a bay that a check refuses is answered at once with that check's status (R130). -/
theorem exec_toolFrame_refused {s v : State} {bytes payload : List Byte} {ks tid code flags : Byte} {b : Fin 4}
    {st : Status} (heard : toolHears s bytes ks tid code flags payload v) (kind : kindField ks = 0)
    (selector : selectorField ks = BitVec.ofNat 3 b.val) (refused : s.passThroughRefusal b code payload = some st) :
    exec (.toolFrame bytes) s =
      .next (v.answer [⟨BitVec.ofNat 3 b.val, tid, code, st, RespFlags.none, []⟩]).settleTx := by
  obtain ⟨-, -, sameChecks⟩ := toolHears_keeps_checks heard b
  rw [exec_toolFrame_heard heard, v.route_bay tid code flags payload kind selector,
    State.passThrough_refused tid flags (sameChecks.trans refused)]

/-- A heard request to a bay that no check refuses is taken into the bay's forward queue (R130, R131). -/
theorem exec_toolFrame_accepted {s v : State} {bytes payload : List Byte} {ks tid code flags : Byte} {b : Fin 4}
    (heard : toolHears s bytes ks tid code flags payload v) (kind : kindField ks = 0)
    (selector : selectorField ks = BitVec.ofNat 3 b.val) (accepted : s.passThroughRefusal b code payload = none) :
    exec (.toolFrame bytes) s =
      .next ((v.setBay b
        { s.bay b with
          queue := (s.bay b).queue ++
            [⟨tid, code, flags.getLsbD 0, payload, decide (s.toPackLookup b code = .forwardAuth), 0⟩] }).arbitrate
        b).settleTx := by
  obtain ⟨sameBay, sameLookup, sameChecks⟩ := toolHears_keeps_checks heard b
  rw [exec_toolFrame_heard heard, v.route_bay tid code flags payload kind selector,
    State.passThrough_accepted tid flags (sameChecks.trans accepted), sameBay, sameLookup]

/-! ## The checks of R130, in their order -/

section
variable {s : State} {b : Fin 4} {code : Byte} {payload : List Byte}

theorem State.passThroughRefusal_range (long : 16 < payload.length) :
    s.passThroughRefusal b code payload = some .range := if_pos long

theorem State.passThroughRefusal_reserved (short : payload.length ≤ 16) (reserved : 240 ≤ code.toNat) :
    s.passThroughRefusal b code payload = some .reserved := by
  simp [State.passThroughRefusal, Nat.not_lt.mpr short, reserved]

/-- Behind the two checks of the frame stand the filter's and the bay's. -/
theorem State.passThroughRefusal_wellFormed (short : payload.length ≤ 16) (unreserved : code.toNat < 240) :
    s.passThroughRefusal b code payload =
      if s.toPackLookup b code = .block then some .blocked
      else if (s.bay b).state = .empty then some .noPack
      else if (s.bay b).state = .lockout then some .lockout
      else if (s.bay b).state = .lineFault then some .lineFault
      else if 4 ≤ (s.bay b).queue.length then some .queueFull
      else none := by
  simp [State.passThroughRefusal, Nat.not_lt.mpr short, Nat.not_le.mpr unreserved]

end

end Sys2Proof.Machine

open Sys2Proof Sys2Proof.Machine Sys2Proof.Claims in
/-- Settles O41: the heard request reaches the bay's pass-through, and each row of R130 is the value of
`passThroughRefusal` there. -/
theorem passThroughRequestsAreTaken : Obligations.PassThroughRequestsAreTaken := by
  intro s v bytes ks tid code flags payload b heard kind selector x ends act
  have refuses {st : Status} (h : s.passThroughRefusal b code payload = some st) : ends st :=
    exec_toolFrame_refused heard kind selector h
  refine ⟨fun long => refuses (State.passThroughRefusal_range long), fun short =>
    ⟨fun reserved => refuses (State.passThroughRefusal_reserved short reserved), fun unreserved => ?_⟩⟩
  have checks := State.passThroughRefusal_wellFormed (s := s) (b := b) short unreserved
  refine ⟨fun blocked => refuses (checks.trans (if_pos blocked)), fun unblocked => ?_⟩
  rw [if_neg unblocked] at checks
  refine ⟨fun empty => refuses ?_, fun lockout => refuses ?_, fun fault => refuses ?_,
    fun notEmpty notLockout notFault => ?_⟩
  · rw [checks, if_pos empty]
  · have inLockout : (s.bay b).state = .lockout := lockout
    rw [checks, if_neg (by simp [inLockout]), if_pos inLockout]
  · have inFault : (s.bay b).state = .lineFault := fault
    rw [checks, if_neg (by simp [inFault]), if_neg (by simp [inFault]), if_pos inFault]
  · rw [if_neg notEmpty, if_neg notLockout, if_neg notFault] at checks
    refine ⟨fun full => refuses (checks.trans (if_pos full)), fun room => ?_⟩
    exact exec_toolFrame_accepted heard kind selector (checks.trans (if_neg (Nat.not_le.mpr room)))
end

