-- ==== Sys2Proof/Proofs/StringRequests.lean ====
section
/-! PROOF. TOPOLOGY_SET, TOPOLOGY_GET, STRING_QUERY and STRING_RELEASE (R171 to R174): the argument fields read back, the
meaning of each request on a payload of its form, and the answers in the statement's words. -/

namespace Sys2Proof.Machine

open Sys2Proof.Claims

/-! ## Taking a request (R195, R196) -/

/-- The Management Engine carries the oldest request out on the state without it, and the transmitter ends the event. -/
theorem takeRequest_asked {s t : State} {code : Byte} {r : GateRequest} {rest : List GateRequest}
    {act : GateRequest → State → State} (asked : asks s code r rest) (carried : act r (without s rest) = t) :
    takeRequest code s act = .next t.settleTx := by
  obtain ⟨running, awake, free, queued, ofCode⟩ := asked
  have next : s.nextRequest = some r := by
    simp [State.nextRequest, State.meReady, State.awake, State.isRunning, running, awake, free, queued]
  have popped : s.popRequest = without s rest := by simp only [State.popRequest, without, queued, List.tail_cons]
  simp only [takeRequest, next, ofCode, if_true, popped, carried, done]

/-! ## The argument fields read back (12.3, 12.4) -/

theorem byteField_cons_zero (x : Byte) (xs : List Byte) : byteField (x :: xs) 0 = x.toNat := by
  simp [byteField, field, natBE]

theorem byteField_cons_succ (x : Byte) (xs : List Byte) (n : Nat) : byteField (x :: xs) (n + 1) = byteField xs n := rfl

/-- A payload that is the number of a bay or a string names it (R215). -/
theorem oneNumber_ofNat (x : Fin 4) : oneNumber [BitVec.ofNat 8 x.val] = some x := by
  revert x; decide

theorem assignField_assignByte (a : Option (Fin 4)) : assignField (assignByte a).toNat = some a := by
  cases a with
  | none => rfl
  | some x => revert x; decide

theorem bitSetField_fourBits (f : Four Bool) : bitSetField (fourBits f).toNat = some f := by
  obtain ⟨b0, b1, b2, b3⟩ := f
  revert b0 b1 b2 b3; decide

/-- The five bytes of a topology read back as its assignments and policies (R171). -/
theorem topologyFields_topologyBytes (assign : Four (Option (Fin 4))) (manual : Four Bool) :
    topologyFields (topologyBytes assign manual) = some (assign, manual) := by
  simp [topologyFields, topologyBytes, byteField_cons_zero, byteField_cons_succ, assignField_assignByte,
    bitSetField_fourBits, Four.get]

/-! ## The strings source (R163) -/

theorem stringsNoticed_iff (old new : Four StringState) :
    stringsNoticed old new = true ↔
      ∃ x, (new.get x).byte ≠ (old.get x).byte ∨ (new.get x).latchBay ≠ (old.get x).latchBay := by
  simp [stringsNoticed, StringState.noticed, ne_comm]

theorem noticed_eq_noticeStrings (old t : State) : noticed old t = t.noticeStrings old.sc.strings := by
  simp only [noticed, State.noticeStrings, stringsNoticed_iff]

/-! ## TOPOLOGY_SET (R171) -/

theorem anyOn_iff (f : Four Bool) : anyOn f = true ↔ ∃ b, f.get b = true := by
  obtain ⟨b0, b1, b2, b3⟩ := f
  revert b0 b1 b2 b3; decide

theorem settledLatch_latched {old new : StringController} {x b : Fin 4} (latched : old.strings.get x = .latchedOff b) :
    settledLatch old new x =
      if new.members x = old.members x ∧ new.manual.get x = old.manual.get x then .latchedOff b else .idle := by
  simp only [settledLatch, latched, eq_comm]

theorem settledLatch_unlatched {old new : StringController} {x : Fin 4}
    (unlatched : ∀ b, old.strings.get x ≠ .latchedOff b) : settledLatch old new x = old.strings.get x := by
  unfold settledLatch
  split
  · next b latched => exact absurd latched (unlatched b)
  · rfl

section
variable {s : State} {r : GateRequest} {assign : Four (Option (Fin 4))} {manual : Four Bool}

/-- A topology is refused while power flows or may flow. -/
theorem State.topologySet_busy (given : r.payload = topologyBytes assign manual)
    (power : s.sc.runFiltered = true ∨ ∃ b, s.sc.ben.get b = true) : State.topologySet r s = s.refuse r .busy := by
  rw [← anyOn_iff] at power
  simp [State.topologySet, given, topologyFields_topologyBytes, power]

/-- With RUN inactive and every BEN off, the topology is installed and the four string states are answered. -/
theorem State.topologySet_installed (given : r.payload = topologyBytes assign manual)
    (inactive : s.sc.runFiltered = false) (off : ∀ b, s.sc.ben.get b = false) :
    State.topologySet r s =
      (s.installTopology assign manual).reply r .ok (s.installTopology assign manual).stringBytes := by
  have noneOn : ¬ anyOn s.sc.ben = true := by simp [anyOn_iff, off]
  simp [State.topologySet, given, topologyFields_topologyBytes, inactive, noneOn]

end

/-! ## TOPOLOGY_GET (R172) -/

/-- The answer is the five bytes that would set the same topology. -/
theorem State.topologyGet_empty {s : State} {r : GateRequest} (empty : r.payload = []) :
    State.topologyGet r s = s.reply r .ok (topologyBytes s.sc.assign s.sc.manual) := by
  rw [State.topologyGet, if_neg (not_not_intro empty)]; rfl

/-! ## STRING_QUERY (R173) -/

/-- A sum over the present values among some options takes an absent one as 0. -/
theorem sum_map_filterMap {α β : Type} (f : α → Option β) (g : β → Nat) (xs : List α) :
    ((xs.filterMap f).map g).sum = (xs.map (fun x => ((f x).map g).getD 0)).sum := by
  induction xs with
  | nil => rfl
  | cons x xs ih => cases h : f x <;> simp [h, ih]

theorem voltage_eq_volts (s : State) (x : Fin 4) : voltage s.bays (s.sc.members x) = volts s x := by
  refine (sum_map_filterMap _ _ _).trans (congrArg List.sum (List.map_congr_left fun b _ => ?_))
  change ((s.bay b).attrs.map _).getD 0 = _
  cases (s.bay b).attrs <;> rfl

theorem memberBits_eq_bayBits (ms : List (Fin 4)) : memberBits ms = bayBits (fun b => ms.contains b) := rfl

/-- The members of which something holds, as a bit-set. -/
theorem memberBits_filter (ms : List (Fin 4)) (p : Fin 4 → Bool) :
    memberBits (ms.filter p) = bayBits (fun b => ms.contains b && p b) := by
  have both : ∀ b, (ms.filter p).contains b = (ms.contains b && p b) := fun b => by
    rw [Bool.eq_iff_iff]; simp
  simp only [memberBits_eq_bayBits, both]

/-- A number of a string stands in the report when every member holds attributes (R54). -/
theorem ifAttributes_eq (s : State) (x : Fin 4) (n : Nat) :
    ifAttributes s x n = byteOf (if allAttrs s.bays (s.sc.members x) then n else 0) := by
  rw [apply_ite byteOf]; rfl

theorem currentClass_eq_ifAttributes (s : State) (x : Fin 4) :
    currentClass s.bays (s.sc.members x) =
      ifAttributes s x
        (((membersOf s x).filterMap (fun b => (s.bay b).attrs.map (fun a => a.current.toNat))).min?.getD 0) := by
  rw [currentClass, memberAttrs, List.map_filterMap]; rfl

/-- The eleven bytes of STRING_QUERY, field by field. -/
theorem State.stringReport_eq (s : State) (x : Fin 4) :
    s.stringReport x =
      [(s.sc.strings.get x).byte, if s.sc.manual.get x then 1 else 0, bayBits (fun b => (membersOf s x).contains b),
        bayBits (fun b => (membersOf s x).contains b && (s.bay b).state.eligible),
        ifAttributes s x (volts s x),
        ifAttributes s x
          (((membersOf s x).filterMap (fun b => (s.bay b).attrs.map (fun a => a.current.toNat))).min?.getD 0),
        if s.sc.strings.get x = .enabled then 1 else 0, (s.sc.strings.get x).causeByte, (s.sc.strings.get x).holdByte,
        (s.sc.strings.get x).latchByte, byteOf (s.sc.reference.getD 0)] := by
  rw [State.stringReport, memberBits_filter, currentClass_eq_ifAttributes, ifAttributes_eq s x (volts s x),
    voltage_eq_volts]
  simp only [boolByte, beq_iff_eq]
  rfl

theorem State.stringQuery_named {s : State} {r : GateRequest} {x : Fin 4} (given : r.payload = [BitVec.ofNat 8 x.val]) :
    State.stringQuery r s = s.reply r .ok (s.stringReport x) := by
  simp only [State.stringQuery, given, oneNumber_ofNat]

/-! ## STRING_RELEASE (R174) -/

theorem State.stringRelease_latched {s : State} {r : GateRequest} {x b : Fin 4}
    (given : r.payload = [BitVec.ofNat 8 x.val]) (latched : s.sc.strings.get x = .latchedOff b) :
    State.stringRelease r s = (s.releaseString x).reply r .ok [((s.releaseString x).sc.strings.get x).byte] := by
  simp only [State.stringRelease, given, oneNumber_ofNat, latched, StringState.latchBay]

theorem State.stringRelease_unlatched {s : State} {r : GateRequest} {x : Fin 4}
    (given : r.payload = [BitVec.ofNat 8 x.val]) (unlatched : ∀ b, s.sc.strings.get x ≠ .latchedOff b) :
    State.stringRelease r s = s.refuse r .wrongState := by
  have noLatchBay : (s.sc.strings.get x).latchBay = none := by
    cases h : s.sc.strings.get x with
    | latchedOff b => exact absurd h (unlatched b)
    | _ => rfl
  simp only [State.stringRelease, given, oneNumber_ofNat, noLatchBay]

end Sys2Proof.Machine

open Sys2Proof Sys2Proof.Machine Sys2Proof.Claims in
/-- Settles O53: each request is taken by `takeRequest_asked`, its meaning on a payload of its form is one of the lemmas
above, and a latch settled at a TOPOLOGY_SET is `settledLatch`. -/
theorem topologiesAndStringsAreServed : Obligations.TopologiesAndStringsAreServed := by
  intro s r rest u
  refine ⟨fun asked assign manual given => ⟨fun power => ?_, fun inactive off => ?_⟩, fun asked empty => ?_,
    fun asked x given => ?_, fun asked x given => ⟨fun b latched => ?_, fun unlatched => ?_⟩⟩
  · exact takeRequest_asked asked (State.topologySet_busy given power)
  · intro v kept t
    have settled : kept = settledLatch s.sc v.sc := by
      funext x
      cases h : s.sc.strings.get x with
      | latchedOff b => rw [settledLatch_latched h]; simp only [kept, h]; rfl
      | _ => rw [settledLatch_unlatched (by simp [h])]; simp only [kept, h]
    have installed : u.installTopology assign manual = t := by
      simp only [t, noticed_eq_noticeStrings, settled]; rfl
    have answered := State.topologySet_installed (s := u) given inactive off
    rw [installed] at answered
    exact takeRequest_asked asked answered
  · exact takeRequest_asked asked (State.topologyGet_empty empty)
  · exact takeRequest_asked asked ((State.stringQuery_named given).trans (congrArg _ (State.stringReport_eq _ x)))
  · intro t
    have released : u.releaseString x = t := (noticed_eq_noticeStrings s _).symm
    have answered := State.stringRelease_latched (s := u) given latched
    rw [released] at answered
    exact takeRequest_asked asked answered
  · exact takeRequest_asked asked (State.stringRelease_unlatched given unlatched)
end

