-- ==== Sys2Proof/Proofs/ImageLoads.lean ====
section
/-! PROOF. IMAGE_BEGIN, IMAGE_DATA, IMAGE_END and IMAGE_CANCEL (R183 to R186, R190): the argument fields as numbers, the
end of a load in the statement's words, and each request's meaning in each state of the Image Loader. -/

namespace Sys2Proof.Machine

open Sys2Proof.Claims

/-! ## Numbers in a payload (12) -/

theorem natBE_concat (bytes : List Byte) (x : Byte) : natBE (bytes ++ [x]) = natBE bytes * 256 + x.toNat := by
  simp [natBE]

theorem natBE_lt (bytes : List Byte) : natBE bytes < 256 ^ bytes.length := by
  induction bytes using List.reverseRecOn with
  | nil => simp [natBE]
  | append_singleton bytes x ih =>
    have byte : x.toNat < 256 := x.isLt
    rw [natBE_concat, List.length_append, List.length_singleton, pow_succ]
    omega

/-- The field that stands behind some bytes and before others spells its own bytes. -/
theorem field_append (pre mid post : List Byte) : field (pre ++ (mid ++ post)) pre.length mid.length = natBE mid := by
  simp [field]

/-- The field of a whole payload spells the payload. -/
theorem field_whole (payload : List Byte) : field payload 0 payload.length = natBE payload := by
  simp [field]

/-- Two bytes are another 16-bit word than `x` when they spell another number. -/
theorem word_ne_iff {g : List Byte} (two : g.length = 2) (x : Word16) :
    BitVec.ofNat 16 (natBE g) ≠ x ↔ natBE g ≠ x.toNat := by
  have small : natBE g < 2 ^ 16 := by simpa [two] using natBE_lt g
  rw [ne_eq, ← BitVec.toNat_inj, BitVec.toNat_ofNat, Nat.mod_eq_of_lt small]

/-! ## The end of a load (R190) -/

/-- A load that a request ends without a payload for its held IMAGE_END, the request being answered with a status. -/
theorem State.endLoad_refuse (u : State) (l : Load) (o : LoadOutcome) (r : GateRequest) (st : Status) :
    (u.endLoad l o .cancelled []).refuse r st =
      replied (loadEnded (if l.stage = .checking then { u with de := u.de.withdraw .management } else u) l o .cancelled
        []) r st [] := rfl

/-! ## IMAGE_BEGIN (R183) -/

theorem targetField_toNat (k : Byte) :
    targetField k.toNat = if k = 1 ∨ k = 2 then some (if k = 1 then .model else .revoke) else none := by
  have one : k.toNat = 1 ↔ k = 1 := BitVec.toNat_inj (x := k) (y := 1)
  have two : k.toNat = 2 ↔ k = 2 := BitVec.toNat_inj (x := k) (y := 2)
  simp only [targetField, one, two]
  by_cases first : k = 1
  · rw [if_pos first, if_pos (.inl first), if_pos first]
  · by_cases second : k = 2
    · rw [if_neg first, if_pos second, if_pos (.inr second), if_neg first]
    · rw [if_neg first, if_neg second, if_neg (not_or.mpr ⟨first, second⟩)]

theorem beginFields_of_length_ne {payload : List Byte} (h : payload.length ≠ 5) : beginFields payload = none :=
  if_neg fun fits => h fits.1

/-- IMAGE_BEGIN's target and length, when the kind byte names a target and the length is 1 to 1024. -/
theorem beginFields_parts (k : Byte) {n g : List Byte} (nTwo : n.length = 2) (gTwo : g.length = 2) :
    beginFields (k :: (n ++ g)) =
      if (k = 1 ∨ k = 2) ∧ 1 ≤ natBE n ∧ natBE n ≤ 1024 then some (if k = 1 then .model else .revoke, natBE n)
      else none := by
  have length : (k :: (n ++ g)).length = 5 := by simp [nTwo, gTwo]
  have number : field (k :: (n ++ g)) 1 2 = natBE n := by simpa [nTwo] using field_append [k] n g
  simp only [beginFields, length, number, byteField_cons_zero, targetField_toNat, true_and]
  by_cases target : k = 1 ∨ k = 2
  · simp only [target, true_and, if_true, Option.map_some]
  · simp only [target, false_and, if_false, Option.map_none, ite_self]

theorem wordField_generation (k : Byte) {n g : List Byte} (nTwo : n.length = 2) (gTwo : g.length = 2) :
    wordField (k :: (n ++ g)) 3 = BitVec.ofNat 16 (natBE g) := by
  have number : field (k :: (n ++ g)) 3 2 = natBE g := by simpa [nTwo, gTwo] using field_append (k :: n) g []
  rw [wordField, number]

theorem State.targetGen_kind (s : State) (k : Byte) :
    s.targetGen (if k = 1 then .model else .revoke) = if k = 1 then s.ts.model.gen else s.ts.revoke.gen :=
  apply_ite s.targetGen _ _ _

section
variable {s : State} {r : GateRequest} {l : Load}

/-- In IDLE the store is busy exactly with a store write. -/
theorem State.storeBusy_idle (idle : s.il.load = none) : s.storeBusy = true ↔ s.ts.write ≠ none := by
  simp [State.storeBusy, idle, Option.isSome_iff_ne_none]

theorem State.imageBegin_idle (idle : s.il.load = none) : State.imageBegin r s = s.openLoad r := by
  simp only [State.imageBegin, idle]

theorem State.imageBegin_loaded (held : s.il.load = some l) :
    State.imageBegin r s =
      if l.stage = .committing then s.refuse r .busy else (s.endLoad l .aborted .cancelled []).refuse r .busy := by
  simp only [State.imageBegin, held]

theorem State.openLoad_malformed (bad : beginFields r.payload = none) : s.openLoad r = s.refuse r .range := by
  simp only [State.openLoad, bad]

/-- A well-formed IMAGE_BEGIN in IDLE is judged by the store and then by the target's live generation (R183). -/
theorem State.openLoad_formed {k : Byte} {n g : List Byte} (given : r.payload = k :: (n ++ g)) (nTwo : n.length = 2)
    (gTwo : g.length = 2) (formed : (k = 1 ∨ k = 2) ∧ 1 ≤ natBE n ∧ natBE n ≤ 1024) (idle : s.il.load = none) :
    let live := if k = 1 then s.ts.model.gen else s.ts.revoke.gen
    s.openLoad r =
      if s.ts.write ≠ none then s.refuse r .busy
      else if natBE g ≠ live.toNat then s.reply r .stale (bytesBE 2 live.toNat)
      else
        ({ s with il.load := some ⟨.loading, if k = 1 then .model else .revoke, natBE n, live, none, [], none⟩ } :
          State).reply r .ok [] := by
  intro live
  have fields := (beginFields_parts k nTwo gTwo).trans (if_pos formed)
  simp only [State.openLoad, given, fields, State.storeBusy_idle idle, wordField_generation k nTwo gTwo,
    State.targetGen_kind, word_ne_iff gTwo]
  by_cases same : natBE g = live.toNat
  · have current : BitVec.ofNat 16 (natBE g) = live := by rw [same, BitVec.ofNat_toNat, BitVec.setWidth_eq]
    rw [current]
  · simp only [live, if_pos same]

/-! ## IMAGE_DATA (R184) -/

theorem State.imageData_idle (idle : s.il.load = none) : State.imageData r s = s.refuse r .order := by
  simp only [State.imageData, idle]

theorem State.imageData_loaded (held : s.il.load = some l) :
    State.imageData r s = if l.stage = .loading then s.appendData l r else s.refuse r .busy := by
  simp only [State.imageData, held]

theorem State.appendData_fails {st : Status} (failure : l.dataFailure r.payload = some st) :
    s.appendData l r = s.failLoad l r st := by
  simp only [State.appendData, failure]

theorem State.appendData_appends (fits : l.dataFailure r.payload = none) :
    s.appendData l r =
      ({ s with il.load := some { l with buffer := l.buffer ++ dataBytes r.payload } } : State).reply r .ok
        (bytesBE 2 (l.buffer ++ dataBytes r.payload).length) := by
  simp only [State.appendData, fits]

theorem Load.dataFailure_length {payload : List Byte} (h : payload.length < 3 ∨ 42 < payload.length) :
    l.dataFailure payload = some .range := if_pos h

theorem dataBytes_append {o : List Byte} (two : o.length = 2) (bytes : List Byte) : dataBytes (o ++ bytes) = bytes :=
  List.drop_left' two

/-- Of 1 to 40 bytes behind an offset, the offset is judged and then the end (R184). -/
theorem Load.dataFailure_parts {o bytes : List Byte} (two : o.length = 2) (nonempty : 1 ≤ bytes.length)
    (most : bytes.length ≤ 40) :
    l.dataFailure (o ++ bytes) =
      if natBE o ≠ l.buffer.length then some .order
      else if l.declared < natBE o + bytes.length then some .range else none := by
  have offset : field (o ++ bytes) 0 2 = natBE o := by simpa [two] using field_append [] o bytes
  have length : ¬ ((o ++ bytes).length < 3 ∨ 42 < (o ++ bytes).length) := by
    rw [List.length_append]; omega
  rw [Load.dataFailure, if_neg length, offset, dataBytes_append two]

/-! ## IMAGE_END (R185) -/

theorem State.imageEnd_idle (idle : s.il.load = none) : State.imageEnd r s = s.refuse r .order := by
  simp only [State.imageEnd, idle]

theorem State.imageEnd_loaded (held : s.il.load = some l) :
    State.imageEnd r s = if l.stage = .loading then s.closeTransfer l r else s.refuse r .busy := by
  simp only [State.imageEnd, held]

theorem State.endFailure_length {payload : List Byte} (h : payload.length ≠ 8) :
    s.endFailure l payload = some .range := if_pos h

/-- With eight bytes, the bytes received are judged and then the key of slot 0 (R185). -/
theorem State.endFailure_eight {payload : List Byte} (eight : payload.length = 8) :
    s.endFailure l payload =
      if l.buffer.length ≠ l.declared then some .order else if s.ts.keys.slot 0 = none then some .noKey else none := by
  simp only [State.endFailure, eight, ne_eq, not_true_eq_false, if_false, Option.isNone_iff_eq_none]

theorem State.closeTransfer_fails {st : Status} (failure : s.endFailure l r.payload = some st) :
    s.closeTransfer l r = s.failLoad l r st := by
  simp only [State.closeTransfer, failure]

/-- An IMAGE_END that nothing refuses holds the request and submits CHECK_IMAGE with its eight bytes. -/
theorem State.closeTransfer_checks (fits : s.endFailure l r.payload = none) (eight : r.payload.length = 8) :
    s.closeTransfer l r =
      ({ s with
        il.load := some { l with
          stage := .checking, digest := some (BitVec.ofNat 64 (natBE r.payload)), endTid := some r.tid } } :
        State).submit .management (.checkImage l.buffer (BitVec.ofNat 64 (natBE r.payload))) := by
  have digest : field r.payload 0 8 = natBE r.payload := by simpa [eight] using field_whole r.payload
  simp only [State.closeTransfer, fits, digest]

/-! ## IMAGE_CANCEL (R186) -/

theorem State.imageCancel_idle (empty : r.payload = []) (idle : s.il.load = none) :
    State.imageCancel r s = s.refuse r .wrongState := by
  simp only [State.imageCancel, empty, idle, ne_eq, not_true_eq_false, if_false]

theorem State.imageCancel_loaded (empty : r.payload = []) (held : s.il.load = some l) :
    State.imageCancel r s =
      if l.stage = .committing then s.refuse r .busy else (s.endLoad l .cancelled .cancelled []).refuse r .ok := by
  simp only [State.imageCancel, empty, held, ne_eq, not_true_eq_false, if_false]

end

end Sys2Proof.Machine

open Sys2Proof Sys2Proof.Machine Sys2Proof.Claims in
/-- Settles O51: each request is taken by `takeRequest_asked`, its meaning follows the stage of the load, and a load
that it ends is `State.endLoad_refuse`. -/
theorem imageLoadsProceed : Obligations.ImageLoadsProceed := by
  intro s r rest u aborted
  refine ⟨fun asked => ⟨fun l held => ?beginLoaded, fun idle => ?beginIdle⟩,
    fun asked => ⟨fun idle => ?dataIdle, fun l held => ?dataLoaded⟩,
    fun asked => ⟨fun idle => ?endIdle, fun l held => ?endLoaded⟩,
    fun asked empty => ⟨fun idle => ?cancelIdle, fun l held => ?cancelLoaded⟩⟩
  case beginLoaded =>
    have carried := State.imageBegin_loaded (s := u) (r := r) held
    refine ⟨fun committing => takeRequest_asked asked (carried.trans (if_pos committing)), fun early => ?_⟩
    rw [if_neg early, State.endLoad_refuse] at carried
    exact takeRequest_asked asked carried
  case beginIdle =>
    have carried := State.imageBegin_idle (s := u) (r := r) idle
    have malformed (bad : beginFields r.payload = none) : refuses .imageBegin s r rest .range :=
      takeRequest_asked asked (carried.trans (State.openLoad_malformed bad))
    refine ⟨fun length => malformed (beginFields_of_length_ne length), ?_⟩
    intro k n g given nTwo gTwo target live formed
    have fields := beginFields_parts k nTwo gTwo
    rw [← given] at fields
    refine ⟨fun bad => malformed (fields.trans (if_neg bad)), fun good => ?_, fun good free => ?_, fun good free => ?_⟩
    all_goals replace carried := carried.trans (State.openLoad_formed given nTwo gTwo good idle)
    · exact fun writing => takeRequest_asked asked (carried.trans (if_pos writing))
    all_goals replace carried := carried.trans (if_neg (not_not_intro free))
    · exact fun differs => takeRequest_asked asked (carried.trans (if_pos differs))
    · exact fun same => takeRequest_asked asked (carried.trans (if_neg (not_not_intro same)))
  case dataIdle => exact takeRequest_asked asked (State.imageData_idle idle)
  case dataLoaded =>
    have carried := State.imageData_loaded (s := u) (r := r) held
    refine ⟨fun later => takeRequest_asked asked (carried.trans (if_neg later)), fun loading => ?_⟩
    intro fails
    rw [if_pos loading] at carried
    have failing {st : Status} (failure : l.dataFailure r.payload = some st) : fails st :=
      takeRequest_asked asked
        ((carried.trans (State.appendData_fails failure)).trans (u.endLoad_refuse l (.status st) r st))
    refine ⟨fun length => failing (Load.dataFailure_length length), ?_⟩
    intro o bytes given two nonempty most
    have checks := Load.dataFailure_parts (l := l) two nonempty most
    rw [← given] at checks
    refine ⟨fun elsewhere => failing (checks.trans (if_pos elsewhere)), fun next => ?_⟩
    rw [if_neg (not_not_intro next), next] at checks
    refine ⟨fun past => failing (checks.trans (if_pos past)), fun inside => ?_⟩
    rw [State.appendData_appends (checks.trans (if_neg (Nat.not_lt.mpr inside))), given, dataBytes_append two,
      List.length_append] at carried
    exact takeRequest_asked asked carried
  case endIdle => exact takeRequest_asked asked (State.imageEnd_idle idle)
  case endLoaded =>
    have carried := State.imageEnd_loaded (s := u) (r := r) held
    refine ⟨fun later => takeRequest_asked asked (carried.trans (if_neg later)), fun loading => ?_⟩
    intro fails
    rw [if_pos loading] at carried
    have failing {st : Status} (failure : u.endFailure l r.payload = some st) : fails st :=
      takeRequest_asked asked
        ((carried.trans (State.closeTransfer_fails failure)).trans (u.endLoad_refuse l (.status st) r st))
    refine ⟨fun length => failing (State.endFailure_length length), fun eight => ?_, fun eight whole => ?_⟩
    all_goals have checks := State.endFailure_eight (s := u) (l := l) eight
    · exact fun part => failing (checks.trans (if_pos part))
    · rw [if_neg (not_not_intro whole)] at checks
      refine ⟨fun noKey => failing (checks.trans (if_pos noKey)), fun key => ?_⟩
      exact takeRequest_asked asked (carried.trans (State.closeTransfer_checks (checks.trans (if_neg key)) eight))
  case cancelIdle => exact takeRequest_asked asked (State.imageCancel_idle empty idle)
  case cancelLoaded =>
    have carried := State.imageCancel_loaded (s := u) empty held
    refine ⟨fun committing => takeRequest_asked asked (carried.trans (if_pos committing)), fun early => ?_⟩
    rw [if_neg early, State.endLoad_refuse] at carried
    exact takeRequest_asked asked carried
end

