-- ==== Sys2Proof/Proofs/Status.lean ====
section
/-! PROOF. GATE_STATUS, CONFIG_SET and CONFIG_GET (R202 to R205): the status byte, the statement's item ranges and values
as the model's `Settings.assign` and `Settings.read`, and each request's meaning on a payload of its form. -/

namespace Sys2Proof.Machine

open Sys2Proof.Claims

/-! ## GATE_STATUS (R202) -/

/-- The two levels of the status as bits 0 and 1 of one byte (12.3). -/
theorem levelsByte_eq (provision run : Bool) :
    byteOf (bitOf provision 0 + bitOf run 1) = (if provision then 1 else 0) + (if run then 2 else 0) := by
  revert provision run; decide

theorem State.statusPayload_eq (s : State) :
    s.statusPayload =
      [s.flags.byte, (if s.pw.provision then 1 else 0) + (if s.sc.runFiltered then 2 else 0)] ++
        bytesBE 2 s.ts.model.gen.toNat ++ bytesBE 2 s.ts.revoke.gen.toNat ++
        [s.il.stateByte, outcomeByte s.il.lastOutcome] := by
  rw [State.statusPayload, levelsByte_eq]

section
variable {s : State} {r : GateRequest}

theorem State.gateStatus_keep (keep : r.payload = [0]) : State.gateStatus r s = s.reply r .ok s.statusPayload :=
  if_pos keep

/-- The status answered with clear = 1 is that of before the clearing. -/
theorem State.gateStatus_clear (clear : r.payload = [1]) :
    State.gateStatus r s = ({ s with flags := StickyFlags.none } : State).reply r .ok s.statusPayload := by
  rw [State.gateStatus, if_neg (by rw [clear]; decide), if_pos clear]

theorem State.gateStatus_malformed (notZero : r.payload ≠ [0]) (notOne : r.payload ≠ [1]) :
    State.gateStatus r s = s.refuse r .range := by
  rw [State.gateStatus, if_neg notZero, if_neg notOne]

end

/-! ## The configuration items (R203) -/

/-- An action byte sets DEFAULT_TO_PACK when it is 0, 1 or 2 (12.4). -/
theorem map_toPackField_eq_some {α : Type} (f : ToPackAction → α) (n : Nat) (x : α) :
    (toPackField n).map f = some x ↔
      (n = 0 ∧ x = f .forward) ∨ (n = 1 ∧ x = f .forwardAuth) ∨ (n = 2 ∧ x = f .block) := by
  match n with
  | 0 | 1 | 2 => simp [toPackField, eq_comm]
  | n + 3 => simp [toPackField]

theorem toPackAction_byte_eq (a : ToPackAction) (n : Nat) :
    a.byte.toNat = n ↔ (n = 0 ∧ a = .forward) ∨ (n = 1 ∧ a = .forwardAuth) ∨ (n = 2 ∧ a = .block) := by
  cases a <;> simp [ToPackAction.byte, eq_comm]

/-- A number names no item, or DEFAULT_TO_PACK, or one of the five times. -/
theorem item_cases (item : Nat) :
    (item = 0 ∨ 6 < item) ∨ item = 6 ∨ item = 1 ∨ item = 2 ∨ item = 3 ∨ item = 4 ∨ item = 5 := by
  omega

theorem noItem_cases {item : Nat} (noItem : item = 0 ∨ 6 < item) : item = 0 ∨ ∃ n, item = n + 7 :=
  noItem.imp_right fun above => ⟨item - 7, by omega⟩

theorem Settings.assign_noItem {item : Nat} (cfg : Settings) (value : Nat) (noItem : item = 0 ∨ 6 < item) :
    cfg.assign item value = none := by
  obtain rfl | ⟨n, rfl⟩ := noItem_cases noItem <;> rfl

theorem Settings.read_noItem {item : Nat} (cfg : Settings) (noItem : item = 0 ∨ 6 < item) :
    cfg.read item = none := by
  obtain rfl | ⟨n, rfl⟩ := noItem_cases noItem <;> rfl

/-- The ranges and meanings of R203 are those that the model assigns by. -/
theorem configured_iff_assign (s : State) (item value : Nat) (cfg : Settings) :
    configured s item value cfg ↔ s.cfg.assign item value = some cfg := by
  obtain noItem | rfl | rfl | rfl | rfl | rfl | rfl := item_cases item
  · rw [s.cfg.assign_noItem value noItem]
    simp only [configured, reduceCtorEq, iff_false]
    omega
  · rw [Settings.assign, map_toPackField_eq_some]
    simp [configured]
  all_goals simp [configured, Settings.assign, eq_comm, and_assoc]

/-- The value that an item holds is the one that the model reads. -/
theorem configValue_iff_read (s : State) (item value : Nat) :
    configValue s item value ↔ s.cfg.read item = some value := by
  obtain noItem | rfl | rfl | rfl | rfl | rfl | rfl := item_cases item
  · rw [s.cfg.read_noItem noItem]
    simp only [configValue, reduceCtorEq, iff_false]
    omega
  · rw [Settings.read, Option.some_inj, toPackAction_byte_eq]
    simp [configValue]
  all_goals simp [configValue, Settings.read, eq_comm]

/-! ## CONFIG_SET and CONFIG_GET (R204, R205) -/

/-- The value of CONFIG_SET, the 16-bit field behind its item. -/
theorem field_value (item hi lo : Byte) : field [item, hi, lo] 1 2 = hi.toNat * 256 + lo.toNat := by
  simp [field, natBE]

/-- Two bytes come back from the number that they spell. -/
theorem bytesBE_two (hi lo : Byte) : bytesBE 2 (hi.toNat * 256 + lo.toNat) = [hi, lo] := by
  have high : BitVec.ofNat 8 ((hi.toNat * 256 + lo.toNat) >>> 8) = hi := by
    apply BitVec.eq_of_toNat_eq
    simp only [BitVec.toNat_ofNat, Nat.shiftRight_eq_div_pow]
    omega
  have low : BitVec.ofNat 8 (hi.toNat * 256 + lo.toNat) = lo := by
    apply BitVec.eq_of_toNat_eq
    simp only [BitVec.toNat_ofNat]
    omega
  simp only [bytesBE, Nat.mul_one, Nat.mul_zero, Nat.shiftRight_zero, high, low]

section
variable {s : State} {r : GateRequest} {item hi lo : Byte}

theorem State.configSet_length (length : r.payload.length ≠ 3) : State.configSet r s = s.refuse r .range :=
  if_neg length

theorem State.configSet_stored {cfg : Settings} (given : r.payload = [item, hi, lo])
    (inRange : configured s item.toNat (hi.toNat * 256 + lo.toNat) cfg) :
    State.configSet r s = ({ s with cfg := cfg } : State).reply r .ok [hi, lo] := by
  rw [configured_iff_assign] at inRange
  simp [State.configSet, given, byteField_cons_zero, field_value, inRange, bytesBE_two]

theorem State.configSet_outOfRange (given : r.payload = [item, hi, lo])
    (outOfRange : ∀ cfg, ¬ configured s item.toNat (hi.toNat * 256 + lo.toNat) cfg) :
    State.configSet r s = s.refuse r .range := by
  have unassigned : s.cfg.assign item.toNat (hi.toNat * 256 + lo.toNat) = none :=
    Option.eq_none_iff_forall_ne_some.mpr fun cfg assigned =>
      outOfRange cfg ((configured_iff_assign ..).mpr assigned)
  simp [State.configSet, given, byteField_cons_zero, field_value, unassigned]

theorem State.configGet_length (length : r.payload.length ≠ 1) : State.configGet r s = s.refuse r .range :=
  if_neg length

theorem State.configGet_held {value : Nat} (given : r.payload = [item]) (held : configValue s item.toNat value) :
    State.configGet r s = s.reply r .ok (bytesBE 2 value) := by
  rw [configValue_iff_read] at held
  simp [State.configGet, given, byteField_cons_zero, held]

theorem State.configGet_noItem (given : r.payload = [item]) (noItem : item.toNat = 0 ∨ 6 < item.toNat) :
    State.configGet r s = s.refuse r .range := by
  simp [State.configGet, given, byteField_cons_zero, s.cfg.read_noItem noItem]

end

end Sys2Proof.Machine

open Sys2Proof Sys2Proof.Machine Sys2Proof.Claims in
/-- Settles O44: each request is taken by `takeRequest_asked`, the status is `State.statusPayload_eq`, and the statement's
items are the model's by `configured_iff_assign` and `configValue_iff_read`. -/
theorem statusAndConfigurationAreServed : Obligations.StatusAndConfigurationAreServed := by
  intro s r rest u status
  have reported : u.statusPayload = status := u.statusPayload_eq
  refine ⟨fun asked => ⟨fun keep => ?_, fun clear => ?_, fun notZero notOne => ?_⟩,
    fun asked => ⟨fun item hi lo given => ⟨fun cfg inRange => ?_, fun outOfRange => ?_⟩, fun length => ?_⟩,
    fun asked => ⟨fun item given => ⟨fun value held => ?_, fun noItem => ?_⟩, fun length => ?_⟩⟩
  · rw [← reported]
    exact takeRequest_asked asked (State.gateStatus_keep keep)
  · rw [← reported]
    exact takeRequest_asked asked (State.gateStatus_clear clear)
  · exact takeRequest_asked asked (State.gateStatus_malformed notZero notOne)
  · exact takeRequest_asked asked (State.configSet_stored given inRange)
  · exact takeRequest_asked asked (State.configSet_outOfRange given outOfRange)
  · exact takeRequest_asked asked (State.configSet_length length)
  · exact takeRequest_asked asked (State.configGet_held given held)
  · exact takeRequest_asked asked (State.configGet_noItem given noItem)
  · exact takeRequest_asked asked (State.configGet_length length)
end

