-- ==== Sys2Proof/Proofs/Snapshots.lean ====
section
/-! PROOF. SNAP_LATCH and SNAP_READ (R206, R207): the picture in the statement's words, and each request's meaning with
and without a picture held. -/

namespace Sys2Proof.Machine

open Sys2Proof.Claims

/-! ## The picture (R206) -/

/-- Rounding a remaining time up to whole units, in the model's words and the statement's. -/
theorem unitsLeft_eq_remaining (t : Option Nat) {unit : Nat} (positive : 0 < unit) :
    unitsLeft t unit = remaining t unit := by
  cases t with
  | none => rfl
  | some ms => exact congrArg (· / unit) (Nat.add_sub_assoc positive ms).symm

theorem Bay.picture_eq_bayPicture (x : Bay) : x.picture = bayPicture x := by
  simp only [Bay.picture, bayPicture, boolByte, unitsLeft_eq_remaining _ (Nat.zero_lt_succ _)]
  rfl

/-- The picture counts the requests that wait in the management queue at the moment of taking. -/
theorem State.picture_without (s : State) (rest : List GateRequest) :
    (without s rest).picture = Claims.picture s rest.length := by
  have page0 : s.bays.toList.flatMap Bay.picture =
      bayPicture (s.bay 0) ++ (bayPicture (s.bay 1) ++ (bayPicture (s.bay 2) ++ bayPicture (s.bay 3))) := by
    simp [Four.toList, Bay.picture_eq_bayPicture, State.bay, Four.get]
  simp only [State.picture, without, page0]
  rfl

/-! ## SNAP_LATCH (R206) -/

section
variable {s : State} {r : GateRequest} {p : Snapshot}

theorem State.snapLatch_malformed (argument : r.payload ≠ []) : State.snapLatch r s = s.refuse r .range :=
  if_neg argument

theorem State.snapLatch_taken (empty : r.payload = []) (free : s.me.snapshot = none) :
    State.snapLatch r s = ({ s with me.snapshot := some s.picture } : State).reply r .ok [] := by
  simp only [State.snapLatch, empty, if_true, free]

/-- With a picture held, the answer alone tells of the request: OK with ALREADY_HELD. -/
theorem State.snapLatch_held (empty : r.payload = []) (held : s.me.snapshot ≠ none) :
    State.snapLatch r s = s.answer [⟨7, r.tid, r.code, .ok, ⟨false, false, false, true⟩, []⟩] := by
  obtain ⟨p, picture⟩ := Option.ne_none_iff_exists'.mp held
  simp only [State.snapLatch, empty, if_true, picture]
  rfl

/-! ## SNAP_READ (R207) -/

/-- A payload is one byte of at most 1 exactly when it names page 0 or page 1. -/
theorem pageNamed_iff (payload : List Byte) :
    payload.length = 1 ∧ byteField payload 0 ≤ 1 ↔ payload = [0] ∨ payload = [1] := by
  constructor
  · rintro ⟨single, atMost⟩
    obtain ⟨page, rfl⟩ := List.length_eq_one_iff.mp single
    rw [byteField_cons_zero] at atMost
    rcases Nat.le_one_iff_eq_zero_or_eq_one.mp atMost with zero | one
    · exact .inl (congrArg (fun x => [x]) (BitVec.eq_of_toNat_eq zero))
    · exact .inr (congrArg (fun x => [x]) (BitVec.eq_of_toNat_eq one))
  · rintro (rfl | rfl) <;> decide

theorem State.snapRead_malformed (notZero : r.payload ≠ [0]) (notOne : r.payload ≠ [1]) :
    State.snapRead r s = s.refuse r .range :=
  if_neg fun named => ((pageNamed_iff _).mp named).elim notZero notOne

theorem State.snapRead_noneHeld (named : r.payload = [0] ∨ r.payload = [1]) (free : s.me.snapshot = none) :
    State.snapRead r s = s.refuse r .noneHeld := by
  rw [State.snapRead, if_pos ((pageNamed_iff _).mpr named), free]

/-- A page of the held picture is answered, and the record is what the read leaves of it. -/
theorem State.snapRead_page (named : r.payload = [0] ∨ r.payload = [1]) (held : s.me.snapshot = some p) :
    State.snapRead r s =
      ({ s with me.snapshot := p.afterRead (byteField r.payload 0) } : State).reply r .ok
        (p.page (byteField r.payload 0)) := by
  rw [State.snapRead, if_pos ((pageNamed_iff _).mpr named), held]

end

/-- The read of page 0 sets its mark, and releases the picture when page 1 has been read. -/
theorem Snapshot.afterRead_zero (p : Snapshot) :
    p.afterRead 0 = if p.read1 then none else some { p with read0 := true } := by
  simp [Snapshot.afterRead]

/-- The read of page 1 sets its mark, and releases the picture when page 0 has been read. -/
theorem Snapshot.afterRead_one (p : Snapshot) :
    p.afterRead 1 = if p.read0 then none else some { p with read1 := true } := by
  simp [Snapshot.afterRead]

end Sys2Proof.Machine

open Sys2Proof Sys2Proof.Machine Sys2Proof.Claims in
/-- Settles O45: each request is taken by `takeRequest_asked`; the picture is `State.picture_without`, and what a read
leaves of it is `Snapshot.afterRead_zero` and `Snapshot.afterRead_one`. -/
theorem snapshotsAreLatchedAndRead : Obligations.SnapshotsAreLatchedAndRead := by
  intro s r rest u
  refine ⟨fun asked => ⟨fun empty free => ?_, fun empty held => ?_, fun argument => ?_⟩,
    fun asked => ⟨fun notZero notOne => ?_, fun named free => ?_, fun p held => ⟨fun page0 => ?_, fun page1 => ?_⟩⟩⟩
  · rw [← s.picture_without rest]
    exact takeRequest_asked asked (State.snapLatch_taken (s := u) empty free)
  · exact takeRequest_asked asked (State.snapLatch_held (s := u) empty held)
  · exact takeRequest_asked asked (State.snapLatch_malformed argument)
  · exact takeRequest_asked asked (State.snapRead_malformed notZero notOne)
  · exact takeRequest_asked asked (State.snapRead_noneHeld (s := u) named free)
  · have carried := State.snapRead_page (s := u) (.inl page0) held
    rw [page0, byteField_cons_zero] at carried
    rw [← p.afterRead_zero]
    exact takeRequest_asked asked carried
  · have carried := State.snapRead_page (s := u) (.inr page1) held
    rw [page1, byteField_cons_zero] at carried
    rw [← p.afterRead_one]
    exact takeRequest_asked asked carried
end

