-- ==== Sys2Proof/Proofs/Steps.lean ====
section
/-! PROOF. One step: the command at the front, or 1 ms of every running timer (log 1); and the commands whose whole
effect is one filter of the verdict cache. The digest messages byte by byte (R38 to R41). -/

namespace Sys2Proof.Machine

/-- A running timer passes 1 ms, and waits at its last. -/
theorem tickTimer_eq (t : Option Nat) : tickTimer t = t.map (fun n => if n ≤ 2 then 1 else n - 1) := by
  have one (n : Nat) : max 1 (n - 1) = if n ≤ 2 then 1 else n - 1 := by split <;> omega
  simp only [tickTimer, one]

theorem CacheEntry.tick_eq (e : CacheEntry) : e.tick = { e with life := if e.life ≤ 2 then 1 else e.life - 1 } := by
  have one : max 1 (e.life - 1) = if e.life ≤ 2 then 1 else e.life - 1 := by split <;> omega
  simp only [CacheEntry.tick, one]

/-- The gate is live exactly with supply and RESETn released (R212). -/
theorem State.live_eq_false_iff (s : State) : s.live = false ↔ s.pw.power = .off ∨ s.pw.power = .resetHeld := by
  unfold State.live
  cases s.pw.power <;> simp

/-- The upper half of a 64-bit value is its quotient by 2^32. -/
theorem toNat_upperHalf (d : Digest) : (d.extractLsb' 32 32).toNat = d.toNat / 2 ^ 32 := by
  have wide : d.toNat / 2 ^ 32 < 2 ^ 32 := by have := d.isLt; omega
  rw [BitVec.extractLsb'_toNat, Nat.shiftRight_eq_div_pow, Nat.mod_eq_of_lt wide]

end Sys2Proof.Machine

open Sys2Proof Sys2Proof.Machine Sys2Proof.Claims

/-- Settles O1: `step` reads the queue of waiting commands only to take its front. -/
theorem stepRunsTheFrontCommand : Obligations.StepRunsTheFrontCommand := fun _ _ _ => rfl

/-- Settles O2: without a waiting command a step is the tick, which a gate that is not live does not take. -/
theorem idleStepPassesOneMillisecond : Obligations.IdleStepPassesOneMillisecond := by
  intro s idle
  have ticks : step s = .next s.tick := by simp only [step, idle]
  rw [ticks]
  split
  · next dead => rw [State.tick, if_neg (by simp [s.live_eq_false_iff.mpr dead])]
  · next alive =>
    have live : s.live = true := by rw [← Bool.not_eq_false, s.live_eq_false_iff]; exact alive
    simp only [State.tick, live, if_true, ← tickTimer_eq, ← CacheEntry.tick_eq]
    rfl

/-- Settles O9: each digest value is the model's message, whose fields are already in the order of R38 to R41. -/
theorem digestMessagesAreComposed : Obligations.DigestMessagesAreComposed := by
  refine ⟨fun k serial code => rfl, fun k g p serial => ?_, fun k g p => rfl, fun k seq code payload => ?_,
    fun k image => rfl, fun k => rfl⟩
  · simp [proofValue, nonceBytes, serialBytes]
  · exact toNat_upperHalf _

/-- Settles O19: the expiry is the model's `cacheExpire`. -/
theorem cacheExpiryRemovesOneEntry : Obligations.CacheExpiryRemovesOneEntry := fun _ _ => rfl
end

