-- ==== Sys2Proof/Proofs/Keeps.lean ====
section
/-! PROOF. What every step keeps, said of one operation at a time. `Keeps s t` collects the invariants as implications
from `s` to `t`, so that it composes; every shared operation of the model is shown to keep them once. -/

namespace Sys2Proof.Machine

open Sys2Proof.Claims

/-- A list of checks, each with its refusal, refuses nothing when no check applies. -/
theorem check_eq_none_iff {α : Type} {c : Prop} [Decidable c] {x : α} {rest : Option α} :
    (if c then some x else rest) = none ↔ ¬ c ∧ rest = none := by
  split <;> simp [*]

/-! ## The invariants, taken apart -/

/-- AUTHORIZED or RENEWING: the states in which a bay's serial may not be revoked (R70). -/
def BayState.renewable : BayState → Bool
  | .authorized | .renewing => true
  | _ => false

/-- EMPTY or LOCKOUT: the states that a bay may have in dormant (R208). -/
def BayState.sleeps : BayState → Bool
  | .empty | .lockout => true
  | _ => false

theorem BayState.holdsSerial_iff (st : BayState) :
    st.holdsSerial = true ↔ st = .challenging ∨ st = .authorized ∨ st = .renewing ∨ st = .grace := by
  cases st <;> simp [BayState.holdsSerial]

theorem BayState.renewable_iff (st : BayState) : st.renewable = true ↔ st = .authorized ∨ st = .renewing := by
  cases st <;> simp [BayState.renewable]

theorem BayState.sleeps_iff (st : BayState) : st.sleeps = true ↔ st = .empty ∨ st = .lockout := by
  cases st <;> simp [BayState.sleeps]

theorem BayState.holdsSerial_of_renewable {st : BayState} (h : st.renewable = true) : st.holdsSerial = true := by
  obtain rfl | rfl := st.renewable_iff.mp h <;> rfl

theorem BayState.not_sleeps_of_holdsSerial {st : BayState} (h : st.holdsSerial = true) : st.sleeps = false := by
  obtain rfl | rfl | rfl | rfl := st.holdsSerial_iff.mp h <;> rfl

/-- The share of `withinCapacities` beside the bays and the cache. -/
def restWithin (s : State) : Prop :=
  s.me.queue.length ≤ 4 ∧ s.ff.table.length = 16 ∧ s.ff.capture.length ≤ 8 ∧
    ∀ l, s.il.load = some l → l.buffer.length ≤ l.declared ∧ l.declared ≤ 1024

/-- The cache's share of `withinCapacities`. -/
def cacheWithin (cache : List CacheEntry) : Prop :=
  cache.length ≤ 8 ∧ cache.Pairwise (fun a b => a.serial ≠ b.serial)

theorem withinCapacities_iff (s : State) :
    withinCapacities s ↔ (∀ b, bayWithin (s.bay b)) ∧ restWithin s ∧ cacheWithin s.cache := by
  unfold withinCapacities restWithin cacheWithin; tauto

/-- The first clause of `trustworthy` (R12). -/
def apart (s : State) : Prop :=
  ∀ b, (s.bay b).state.holdsSerial = true → ∃ id, (s.bay b).identity = some id ∧ ¬ heldElsewhere s b id.serial

/-- The second clause of `trustworthy` (R70), of one bay. -/
def bayUnrevoked (s : State) (b : Fin 4) : Prop :=
  (s.bay b).state.renewable = true → ∀ id, (s.bay b).identity = some id → ¬ covered s id.serial

/-- The third clause of `trustworthy` (R69). -/
def cacheUnrevoked (s : State) : Prop := ∀ e ∈ s.cache, e.isGenuine = true → ¬ covered s e.serial

theorem CacheEntry.isGenuine_iff (e : CacheEntry) : e.isGenuine = true ↔ ∃ i key, e.verdict = .genuine i key := by
  cases h : e.verdict <;> simp [CacheEntry.isGenuine, h]

theorem trustworthy_iff (s : State) : trustworthy s ↔ apart s ∧ (∀ b, bayUnrevoked s b) ∧ cacheUnrevoked s := by
  simp only [trustworthy, apart, bayUnrevoked, cacheUnrevoked, BayState.holdsSerial_iff, BayState.renewable_iff,
    CacheEntry.isGenuine_iff]
  refine and_congr Iff.rfl (and_congr ?_ ?_)
  · exact forall_congr' fun b => forall_comm
  · exact ⟨fun h e m ⟨i, key, v⟩ => h e m i key v, fun h e m i key v => h e m ⟨i, key, v⟩⟩

/-- Dormant, with no load, no store write, and every bay EMPTY or in LOCKOUT (R208). -/
def State.resting (s : State) : Prop :=
  s.pw.dormant = true ∧ s.ts.write = none ∧ s.il.load = none ∧ ∀ b, (s.bay b).state.sleeps = true

/-- A dormant gate is at rest. -/
def State.rests (s : State) : Prop := s.pw.dormant = true → s.resting

theorem State.not_resting_of_bay {s : State} {b : Fin 4} (h : (s.bay b).state.sleeps = false) : ¬ s.resting :=
  fun ⟨_, _, _, bays⟩ => absurd (bays b) (by simp [h])

theorem State.not_resting_of_awake {s : State} (h : s.pw.dormant = false) : ¬ s.resting :=
  fun ⟨dormant, _⟩ => absurd dormant (by simp [h])

/-- The serial that a bay holds with its identity. -/
def Bay.serial (x : Bay) : Option Serial := x.identity.map (·.serial)

/-! ## The relation -/

/-- What every step keeps: the waiting commands, the draws already made, the invariants of the claims, and the rest of a
dormant gate. -/
structure Keeps (s t : State) : Prop where
  pending : t.pending = s.pending
  draws : s.nonceDraws ≤ t.nonceDraws
  capacities : withinCapacities s → withinCapacities t
  tables : lawfulTables s → lawfulTables t
  apart : Machine.apart s → Machine.apart t
  unrevoked : (∀ b, bayUnrevoked s b) ∧ cacheUnrevoked s → (∀ b, bayUnrevoked t b) ∧ cacheUnrevoked t
  rests : s.rests → t.rests

theorem Keeps.refl (s : State) : Keeps s s := ⟨rfl, le_rfl, id, id, id, id, id⟩

theorem Keeps.trans {s t u : State} (h : Keeps s t) (k : Keeps t u) : Keeps s u where
  pending := k.pending.trans h.pending
  draws := h.draws.trans k.draws
  capacities := k.capacities ∘ h.capacities
  tables := k.tables ∘ h.tables
  apart := k.apart ∘ h.apart
  unrevoked := k.unrevoked ∘ h.unrevoked
  rests := k.rests ∘ h.rests

/-! ## What a bay may become -/

/-- What bay `b` may become in an event that leaves every other bay. -/
structure BayMove (s : State) (b : Fin 4) (y : Bay) : Prop where
  within : bayWithin (s.bay b) → bayWithin y
  apart : Machine.apart s → y.state.holdsSerial = true → ∃ id, y.identity = some id ∧ ¬ heldElsewhere s b id.serial
  unrevoked : bayUnrevoked s b → y.state.renewable = true → ∀ id, y.identity = some id → ¬ covered s id.serial
  still : s.resting → y.state.sleeps = true

/-- A bay that keeps its state and its serial. -/
theorem BayMove.stay {s : State} {b : Fin 4} {y : Bay} (state : y.state = (s.bay b).state)
    (serial : y.serial = (s.bay b).serial) (within : bayWithin (s.bay b) → bayWithin y) : BayMove s b y where
  within := within
  apart := by
    rw [state]
    intro apart held
    obtain ⟨id, identity, free⟩ := apart b held
    rw [Bay.serial, Bay.serial, identity] at serial
    obtain ⟨id', identity', same⟩ := Option.map_eq_some_iff.mp serial
    exact ⟨id', identity', same ▸ free⟩
  unrevoked := by
    rw [state]
    intro clear now id' identity'
    rw [Bay.serial, Bay.serial, identity'] at serial
    obtain ⟨id, identity, same⟩ := Option.map_eq_some_iff.mp serial.symm
    dsimp only at same
    exact same ▸ clear now id identity
  still := fun ⟨_, _, _, sleeps⟩ => state ▸ sleeps b

/-- A bay that goes to a state in which its serial does not count. -/
theorem BayMove.leave {s : State} {b : Fin 4} {y : Bay} (away : y.state.holdsSerial = false)
    (within : bayWithin (s.bay b) → bayWithin y) (still : s.resting → y.state.sleeps = true) : BayMove s b y where
  within := within
  apart := fun _ h => absurd h (by simp [away])
  unrevoked := fun _ h => absurd (BayState.holdsSerial_of_renewable h) (by simp [away])
  still := still

/-- A bay that holds on to its serial, and is AUTHORIZED or RENEWING only if it was or if the serial is not revoked. -/
theorem BayMove.keep {s : State} {b : Fin 4} {y : Bay} (held : (s.bay b).state.holdsSerial = true)
    (serial : y.serial = (s.bay b).serial)
    (renewable : y.state.renewable = true →
      (s.bay b).state.renewable = true ∨ ∀ x, (s.bay b).serial = some x → ¬ covered s x)
    (within : bayWithin (s.bay b) → bayWithin y) : BayMove s b y where
  within := within
  apart := by
    intro apart _
    obtain ⟨id, identity, free⟩ := apart b held
    rw [Bay.serial, Bay.serial, identity] at serial
    obtain ⟨id', identity', same⟩ := Option.map_eq_some_iff.mp serial
    exact ⟨id', identity', same ▸ free⟩
  unrevoked := by
    intro clear now id' identity'
    rw [Bay.serial, Bay.serial, identity'] at serial
    obtain ⟨id, identity, same⟩ := Option.map_eq_some_iff.mp serial.symm
    dsimp only at same
    rw [← same]
    rcases renewable now with was | free
    · exact clear was id identity
    · exact free _ (by simp [Bay.serial, identity])
  still := fun rest => absurd rest (State.not_resting_of_bay (BayState.not_sleeps_of_holdsSerial held))

theorem heldElsewhere_congr {s t : State} {b : Fin 4} (other : ∀ o, o ≠ b → t.bay o = s.bay o) (x : Serial) :
    heldElsewhere t b x ↔ heldElsewhere s b x := by
  refine exists_congr fun o => and_congr_right fun h => ?_
  rw [other o h]

theorem covered_congr {s t : State} (revoke : t.ts.revoke = s.ts.revoke) (x : Serial) : covered t x ↔ covered s x := by
  unfold covered; rw [revoke]

/-! ## Operations on one bay -/

theorem State.setBay_keeps {s : State} {b : Fin 4} {y : Bay} (move : BayMove s b y) : Keeps s (s.setBay b y) where
  pending := by simp
  draws := by simp
  capacities := by
    intro h
    obtain ⟨bays, rest, cache⟩ := (withinCapacities_iff s).mp h
    refine (withinCapacities_iff _).mpr ⟨fun o => ?_, by simpa [restWithin] using rest, by simpa using cache⟩
    rw [State.bay_setBay]
    split
    · exact move.within (bays b)
    · exact bays o
  tables := by simp [lawfulTables]
  apart := by
    intro h o held
    have covers : ∀ x, heldElsewhere (s.setBay b y) b x ↔ heldElsewhere s b x :=
      heldElsewhere_congr fun o ne => s.bay_setBay_other y ne
    by_cases hob : o = b
    · subst hob
      simp only [State.bay_setBay_same] at held ⊢
      obtain ⟨id, identity, free⟩ := move.apart h held
      exact ⟨id, identity, fun e => free ((covers _).mp e)⟩
    · rw [s.bay_setBay_other y hob] at held ⊢
      obtain ⟨id, identity, free⟩ := h o held
      refine ⟨id, identity, fun ⟨p, ne, inSet, id', identity', same⟩ => ?_⟩
      by_cases hpb : p = b
      · subst hpb
        simp only [State.bay_setBay_same] at inSet identity'
        obtain ⟨id'', identity'', free''⟩ := move.apart h (y.state.holdsSerial_iff.mpr inSet)
        obtain rfl : id' = id'' := Option.some.inj (identity'.symm.trans identity'')
        exact free'' ⟨o, hob, (s.bay o).state.holdsSerial_iff.mp held, id, identity, same.symm⟩
      · rw [s.bay_setBay_other y hpb] at inSet identity'
        exact free ⟨p, ne, inSet, id', identity', same⟩
  unrevoked := by
    intro ⟨bays, cache⟩
    refine ⟨fun o => ?_, by simpa [cacheUnrevoked, covered] using cache⟩
    unfold bayUnrevoked
    simp only [covered, State.setBay_frame]
    rw [State.bay_setBay]
    split
    · exact move.unrevoked (bays b)
    · exact bays o
  rests := by
    intro h d
    have rest := h (by simpa using d)
    obtain ⟨_, write, load, bays⟩ := id rest
    refine ⟨d, by simpa using write, by simpa using load, fun o => ?_⟩
    rw [State.bay_setBay]
    split
    · exact move.still rest
    · exact bays o

/-! ## Operations that touch no bay -/

/-- An operation that leaves every bay's state and identity. -/
theorem Keeps.of_calm {s t : State}
    (bays : ∀ b, (t.bay b).state = (s.bay b).state ∧ (t.bay b).identity = (s.bay b).identity ∧
      (bayWithin (s.bay b) → bayWithin (t.bay b)))
    (pending : t.pending = s.pending) (draws : s.nonceDraws ≤ t.nonceDraws) (revoke : t.ts.revoke = s.ts.revoke)
    (rest : restWithin s → restWithin t) (within : cacheWithin s.cache → cacheWithin t.cache)
    (cache : (∀ b, bayUnrevoked s b) → cacheUnrevoked s → cacheUnrevoked t)
    (tables : lawfulTables s → lawfulTables t)
    (rests : t.pw.dormant = true → s.pw.dormant = true ∧
      (s.ts.write = none → s.il.load = none → t.ts.write = none ∧ t.il.load = none)) : Keeps s t where
  pending := pending
  draws := draws
  capacities := by
    simp only [withinCapacities_iff]
    exact fun ⟨h, r, c⟩ => ⟨fun b => (bays b).2.2 (h b), rest r, within c⟩
  tables := tables
  apart := by
    have state (b : Fin 4) := (bays b).1
    have identity (b : Fin 4) := (bays b).2.1
    simp only [Machine.apart, heldElsewhere, state, identity]; exact id
  unrevoked := by
    have state (b : Fin 4) := (bays b).1
    have identity (b : Fin 4) := (bays b).2.1
    intro ⟨h, c⟩
    refine ⟨?_, cache h c⟩
    simpa only [bayUnrevoked, state, identity, covered_congr revoke] using h
  rests := by
    intro h d
    obtain ⟨dormant, still⟩ := rests d
    obtain ⟨_, write, load, sleeps⟩ := h dormant
    obtain ⟨write', load'⟩ := still write load
    exact ⟨d, write', load', fun b => (bays b).1 ▸ sleeps b⟩

theorem Keeps.of_bays {s t : State} (bays : ∀ b, t.bay b = s.bay b) (pending : t.pending = s.pending)
    (draws : s.nonceDraws ≤ t.nonceDraws) (revoke : t.ts.revoke = s.ts.revoke)
    (rest : restWithin s → restWithin t) (within : cacheWithin s.cache → cacheWithin t.cache)
    (cache : (∀ b, bayUnrevoked s b) → cacheUnrevoked s → cacheUnrevoked t)
    (tables : lawfulTables s → lawfulTables t)
    (rests : t.pw.dormant = true → s.pw.dormant = true ∧
      (s.ts.write = none → s.il.load = none → t.ts.write = none ∧ t.il.load = none)) : Keeps s t :=
  .of_calm (fun b => by rw [bays]; exact ⟨rfl, rfl, id⟩) pending draws revoke rest within cache tables rests

/-- A reset of every bay and of the cache, whatever becomes of the revocation list. -/
theorem Keeps.of_cold {s t : State} (bays : ∀ b, (t.bay b).state = .empty ∧ bayWithin (t.bay b)) (cache : t.cache = [])
    (pending : t.pending = s.pending) (draws : s.nonceDraws ≤ t.nonceDraws) (rest : restWithin s → restWithin t)
    (tables : lawfulTables s → lawfulTables t)
    (rests : t.pw.dormant = true → s.pw.dormant = true ∧
      (s.ts.write = none → s.il.load = none → t.ts.write = none ∧ t.il.load = none)) : Keeps s t where
  pending := pending
  draws := draws
  capacities := by
    simp only [withinCapacities_iff, cache]
    exact fun ⟨_, r, _⟩ => ⟨fun b => (bays b).2, rest r, by simp [cacheWithin]⟩
  tables := tables
  apart := fun _ b held => by rw [(bays b).1] at held; cases held
  unrevoked := fun _ => ⟨fun b held => absurd held (by simp [(bays b).1, BayState.renewable]),
    by simp [cacheUnrevoked, cache]⟩
  rests := by
    intro h d
    obtain ⟨dormant, still⟩ := rests d
    obtain ⟨_, write, load, _⟩ := h dormant
    obtain ⟨write', load'⟩ := still write load
    exact ⟨d, write', load', fun b => by rw [(bays b).1]; rfl⟩

theorem restWithin_congr {s t : State} (queue : t.me.queue = s.me.queue) (ff : t.ff = s.ff)
    (load : t.il.load = s.il.load ∨ t.il.load = none) (h : restWithin s) : restWithin t := by
  obtain ⟨hq, ht, hc, hl⟩ := h
  refine ⟨queue ▸ hq, ff ▸ ht, ff ▸ hc, ?_⟩
  rcases load with same | none
  · rw [same]; exact hl
  · simp [none]

theorem lawfulTables_congr {s t : State} (ts : t.ts = s.ts)
    (load : t.il.load = s.il.load ∨ t.il.load = none) (h : lawfulTables s) : lawfulTables t := by
  obtain ⟨model, nvModel, revoke, nvRevoke, keys, nvKeys, image, list, slots, loads⟩ := h
  unfold lawfulTables
  rw [ts]
  refine ⟨model, nvModel, revoke, nvRevoke, keys, nvKeys, image, list, slots, ?_⟩
  rcases load with same | none
  · rw [same]; exact loads
  · simp [none]

/-- An operation that leaves bays, cache, tables, filter, management queue and load, or takes the load away. -/
theorem Keeps.of_frame {s t : State}
    (frame : (∀ b, t.bay b = s.bay b) ∧ t.pending = s.pending ∧ t.nonceDraws = s.nonceDraws ∧ t.ts = s.ts ∧
      t.cache = s.cache ∧ t.me.queue = s.me.queue ∧ t.ff = s.ff ∧ (t.il.load = s.il.load ∨ t.il.load = none) ∧
      t.pw = s.pw) : Keeps s t := by
  obtain ⟨bays, pending, draws, ts, cache, queue, ff, load, pw⟩ := frame
  refine .of_bays bays pending draws.ge (by rw [ts]) (restWithin_congr queue ff load) (by rw [cache]; exact id) ?_
    (lawfulTables_congr ts load) ?_
  · simp only [cacheUnrevoked, cache, covered_congr (by rw [ts] : t.ts.revoke = s.ts.revoke)]
    exact fun _ => id
  · rw [pw, ts]
    exact fun d => ⟨d, fun write none => ⟨write, by rcases load with h | h <;> simp [h, none]⟩⟩

/-! ## The shared primitives -/

section
variable (s : State)

theorem State.answer_keeps (rs : List Response) : Keeps s (s.answer rs) := .of_frame (by simp [State.bay])
theorem State.raiseBay_keeps (b : Fin 4) : Keeps s (s.raiseBay b) := .of_frame (by simp [State.bay])
theorem State.raiseGate_keeps : Keeps s s.raiseGate := .of_frame (by simp [State.bay])
theorem State.withdraw_keeps (c : Claimant) : Keeps s (s.withdraw c) := .of_frame (by simp [State.bay])
theorem State.withdrawAuth_keeps (b : Fin 4) : Keeps s (s.withdrawAuth b) := .of_frame (by simp [State.bay])
theorem State.settleTx_keeps : Keeps s s.settleTx := .of_frame (by simp [State.bay])
theorem State.transmit_keeps : Keeps s s.transmit := .of_frame (by simp [State.bay])
theorem State.derive_keeps (r : Bool) : Keeps s (s.derive r) := .of_frame (by simp [State.bay])
theorem State.setDet_keeps (b : Fin 4) (d : Bool) : Keeps s (s.setDet b d) := .of_frame (by simp [State.bay])
theorem State.setLineLevel_keeps (b : Fin 4) (d : Bool) : Keeps s (s.setLineLevel b d) :=
  .of_frame (by simp [State.bay])
theorem State.takeRun_keeps (d : Bool) : Keeps s (s.takeRun d) := .of_frame (by simp [State.bay])
theorem State.deriveAwake_keeps : Keeps s s.deriveAwake := .of_frame (by simp [State.bay])
theorem State.setRx_keeps (r : Receiver) : Keeps s (s.setRx r) := .of_frame (by simp [State.bay])
theorem State.setToolFrameError_keeps : Keeps s s.setToolFrameError := .of_frame (by simp [State.bay])
theorem State.setModelLost_keeps : Keeps s s.setModelLost := .of_frame (by simp [State.bay])
theorem State.setRevokeLost_keeps : Keeps s s.setRevokeLost := .of_frame (by simp [State.bay])
theorem State.setKeysLost_keeps : Keeps s s.setKeysLost := .of_frame (by simp [State.bay])
theorem State.reply_keeps (r : GateRequest) (st : Status) (p : List Byte) : Keeps s (s.reply r st p) :=
  .of_frame (by simp [State.bay])
theorem State.refuse_keeps (r : GateRequest) (st : Status) : Keeps s (s.refuse r st) := .of_frame (by simp [State.bay])
theorem State.hold_keeps (h : InHand) : Keeps s (s.hold h) := .of_frame (by simp [State.bay])

theorem State.endLoad_keeps (l : Load) (o : LoadOutcome) (st : Status) (p : List Byte) :
    Keeps s (s.endLoad l o st p) :=
  .of_frame (by simp [State.bay, show (s.endLoad l o st p).il.load = none from rfl])

variable {s} in
theorem State.putBay_keeps {b : Fin 4} {y : Bay} (move : BayMove s b y) : Keeps s (s.putBay b y) := by
  unfold State.putBay
  split
  · exact (State.setBay_keeps move).trans (State.raiseBay_keeps _ b)
  · exact State.setBay_keeps move

/-! ## The Digest Engine -/

theorem State.jobNoKey_keeps (j : Job) : Keeps s (s.jobNoKey j) := by
  unfold State.jobNoKey
  split
  · split
    · split
      · exact s.endLoad_keeps _ _ _ _
      · exact .refl s
    · exact .refl s
  · split
    · exact .of_frame (by simp [State.bay])
    · exact .refl s
  · exact .refl s

theorem State.startJob_keeps (c : Claimant) (j : Job) : Keeps s (s.startJob c j) := by
  have engine (de : DigestEngine) : Keeps s { s with de := de } := .of_frame (by simp [State.bay])
  unfold State.startJob
  split
  · exact engine _
  · split
    · exact engine _
    · exact (engine _).trans (State.jobNoKey_keeps _ j)

theorem State.grantJobs_keeps (n : Nat) (s : State) : Keeps s (State.grantJobs n s) := by
  induction n generalizing s with
  | zero => exact .refl s
  | succ n ih =>
    unfold State.grantJobs
    split
    · split
      · next _ c _ _ _ j _ =>
        have granted : Keeps s { s with de.waiting := s.de.waiting.set c none } := .of_frame (by simp [State.bay])
        exact (granted.trans (State.startJob_keeps _ c j)).trans (ih _)
      · exact .refl s
    · exact .refl s

theorem State.jobDone_keeps (c : Claimant) : Keeps s (s.jobDone c) := by
  unfold State.jobDone
  split <;> refine Keeps.trans ?_ (State.grantJobs_keeps 6 _) <;> exact .of_frame (by simp [State.bay])

theorem State.submit_keeps (c : Claimant) (j : Job) : Keeps s (s.submit c j) := by
  unfold State.submit
  split
  · exact s.startJob_keeps c j
  · split <;> exact .of_frame (by simp [State.bay])

end

end Sys2Proof.Machine
end

