-- ==== Sys2Proof/Proofs/BayKeeps.lean ====
section
/-! PROOF. The transitions of a bay keep what every step keeps (chapters 1 and 6). A guard says where the transition
is taken: a bay that is neither EMPTY nor in LOCKOUT shows that the gate is not at rest. -/

namespace Sys2Proof.Machine

open Sys2Proof.Claims

/-! ## The limits of a bay under the line's operations -/

theorem Bay.abandonLine_within {x : Bay} (h : bayWithin x) : bayWithin x.abandonLine := by
  obtain ⟨queue, strikes, attempts, _, entries, run⟩ := h
  refine ⟨by simpa using queue, by simpa using strikes, by simpa using attempts, ?_, by simpa using entries,
    by simpa using run⟩
  unfold Bay.abandonLine
  split <;> simp

theorem Bay.clearLine_within {x : Bay} (h : bayWithin x) : bayWithin x.clearLine := by
  obtain ⟨_, strikes, attempts, _, _, _⟩ := h
  exact ⟨by simp [Bay.clearLine], strikes, attempts, by simp [Bay.clearLine], by simp [Bay.clearLine],
    by simp [Bay.clearLine]⟩

theorem Bay.afterEntry_within {x : Bay} (e : ForwardEntry) (hold : Nat) (h : bayWithin x) :
    bayWithin (x.afterEntry e hold) := by
  obtain ⟨queue, strikes, attempts, retries, entries, run⟩ := h
  unfold Bay.afterEntry
  split
  · exact ⟨queue, strikes, attempts, retries, entries, run⟩
  · split
    · exact ⟨queue, strikes, attempts, retries, entries, by simp⟩
    · split <;> exact ⟨queue, strikes, attempts, retries, entries, run⟩

theorem Bay.idleLine_within {x : Bay} (h : bayWithin x) : bayWithin x.idleLine := h

theorem Bay.popHead_within {x : Bay} (hold : Nat) (h : bayWithin x) : bayWithin (x.popHead hold) := by
  obtain ⟨queue, strikes, attempts, retries, entries, run⟩ := h
  refine Bay.afterEntry_within _ _ ⟨?_, strikes, attempts, retries, fun e m => entries e (List.mem_of_mem_tail m), run⟩
  exact (List.length_tail (l := x.queue)).trans_le (Nat.le_trans (Nat.sub_le _ _) queue)

theorem runAtGrant_le {run : Option Nat} {e : ForwardEntry} (h : ∀ n, run = some n → n ≤ 4) {n : Nat}
    (grant : runAtGrant run e = some n) : n ≤ 4 := by
  cases run with
  | none =>
    simp only [runAtGrant, Option.ite_none_right_eq_some, Option.some.injEq] at grant
    omega
  | some m =>
    have := h m rfl
    simp only [runAtGrant] at grant
    split at grant <;> obtain rfl := Option.some.inj grant <;> omega

theorem Bay.grants_within (b : Fin 4) (d : Bool) (hold n : Nat) {x : Bay} (h : bayWithin x) :
    bayWithin (Bay.grants b d hold n x).1 := by
  induction n generalizing x with
  | zero => exact h
  | succ n ih =>
    unfold Bay.grants
    obtain ⟨queue, strikes, attempts, retries, entries, run⟩ := id h
    split
    · exact h
    · split
      · exact h
      · split
        · split
          · exact h
          · next e _ _ =>
            have granted : bayWithin { x with linkRun := runAtGrant x.linkRun e, linkHold := none } :=
              ⟨queue, strikes, attempts, retries, entries, fun _ => runAtGrant_le run⟩
            dsimp only
            split
            · exact granted
            · exact ih (Bay.popHead_within hold granted)
        · exact h

section
variable {s : State} {b : Fin 4}

/-- A bay whose context a transition rewrites without touching state, identity and limits. -/
theorem State.setBay_keeps_stay {y : Bay} (state : y.state = (s.bay b).state) (serial : y.serial = (s.bay b).serial)
    (within : bayWithin (s.bay b) → bayWithin y) : Keeps s (s.setBay b y) :=
  State.setBay_keeps (.stay state serial within)

theorem State.setPresent_keeps (d : Bool) : Keeps s (s.setPresent b d) := State.setBay_keeps_stay rfl rfl id

theorem State.arbitrate_keeps_all (s : State) (b : Fin 4) : Keeps s (s.arbitrate b) :=
  (State.setBay_keeps_stay (by simp) (by simp [Bay.serial]) (Bay.grants_within _ _ _ _)).trans (State.answer_keeps _ _)

theorem State.arbitrateAll_keeps_all (s : State) : Keeps s s.arbitrateAll :=
  (((s.arbitrate_keeps_all 0).trans (State.arbitrate_keeps_all _ 1)).trans (State.arbitrate_keeps_all _ 2)).trans
    (State.arbitrate_keeps_all _ 3)

theorem State.abandon_keeps (s : State) (b : Fin 4) : Keeps s (s.abandon b) :=
  (State.setBay_keeps_stay (by simp) (by simp [Bay.serial]) Bay.abandonLine_within).trans
    (State.withdrawAuth_keeps _ b)

/-! ## Entering a state -/

theorem State.enterSettling_keeps (guard : ¬ s.resting) : Keeps s (s.enterSettling b) :=
  State.putBay_keeps (.leave rfl id (absurd · guard))

theorem Bay.toEmpty_within {x : Bay} (h : bayWithin x) : bayWithin x.toEmpty := by
  obtain ⟨queue, strikes, _, retries, entries, run⟩ := Bay.clearLine_within h
  exact ⟨queue, strikes, Nat.zero_le _, retries, entries, run⟩

theorem State.emptyBay_keeps (s : State) (b : Fin 4) : Keeps s (s.emptyBay b) := by
  refine ((s.answer_keeps _).trans (State.putBay_keeps ?_)).trans (State.withdraw_keeps _ _)
  exact .leave rfl Bay.toEmpty_within fun _ => rfl

theorem State.enterLockout_keeps (s : State) (b : Fin 4) : Keeps s (s.enterLockout b) := by
  refine ((s.answer_keeps _).trans (State.putBay_keeps ?_)).trans (State.withdraw_keeps _ _)
  exact .leave rfl Bay.clearLine_within fun _ => rfl

theorem State.enterLineFault_keeps (guard : ¬ s.resting) : Keeps s (s.enterLineFault b) := by
  refine ((s.answer_keeps _).trans (State.putBay_keeps ?_)).trans (State.withdraw_keeps _ _)
  exact .leave rfl Bay.clearLine_within fun rest => absurd rest guard

/-- The guard of a transition that first abandons the work of the state left. -/
theorem State.not_resting_abandon (guard : (s.bay b).state.sleeps = false) : ¬ (s.abandon b).resting :=
  State.not_resting_of_bay (b := b) (by simpa [State.bay_abandon] using guard)

theorem State.enterIdentifying_keeps (guard : (s.bay b).state.sleeps = false) : Keeps s (s.enterIdentifying b) :=
  (s.abandon_keeps b).trans (State.putBay_keeps (.leave rfl
    (fun ⟨queue, strikes, attempts, retries, entries, _⟩ => ⟨queue, strikes, attempts, retries, entries, by
      simp [Bay.toIdentifying]⟩)
    (absurd · (State.not_resting_abandon guard))))

theorem State.deny_keeps (r : DenyReason) (guard : (s.bay b).state.sleeps = false) : Keeps s (s.deny b r) :=
  (s.abandon_keeps b).trans (State.putBay_keeps (.leave rfl id (absurd · (State.not_resting_abandon guard))))

theorem State.endGrace_keeps (guard : (s.bay b).state.sleeps = false) : Keeps s (s.endGrace b) :=
  State.putBay_keeps (.leave rfl id (absurd · (State.not_resting_of_bay guard)))

theorem State.loseEligibility_keeps (r : DenyReason) (renewable : (s.bay b).state.renewable = true) :
    Keeps s (s.loseEligibility b r) := by
  have held := BayState.holdsSerial_of_renewable renewable
  unfold State.loseEligibility
  split
  · refine (s.abandon_keeps b).trans (State.putBay_keeps (.keep ?_ rfl (fun h => absurd h ?_) id))
    · simpa [State.bay_abandon] using held
    · simp [Bay.standDown, BayState.renewable]
  · exact State.deny_keeps r (BayState.not_sleeps_of_holdsSerial held)

/-! ## Challenges -/

theorem State.enterExchange_keeps {st : BayState} {k : ChallengeKind}
    (move : BayMove s b ((s.bay b).toExchange st k (Config.freshNonce s.nonceDraws))) :
    Keeps s (s.enterExchange b st k) := by
  have draw : Keeps s { s with nonceDraws := s.nonceDraws + 1 } :=
    ⟨rfl, Nat.le_succ _, id, id, id, id, id⟩
  exact draw.trans (State.putBay_keeps ⟨move.within, move.apart, move.unrevoked, move.still⟩)

theorem Bay.toExchange_within {x : Bay} {st : BayState} {k : ChallengeKind} {n : Nonce} (h : bayWithin x) :
    bayWithin (x.toExchange st k n) := by
  obtain ⟨queue, strikes, attempts, _, entries, run⟩ := h
  exact ⟨queue, strikes, attempts, Nat.zero_le _, entries, run⟩

theorem State.enterRenewing_keeps (renewable : (s.bay b).state.renewable = true) : Keeps s (s.enterRenewing b) :=
  State.enterExchange_keeps (.keep (BayState.holdsSerial_of_renewable renewable) rfl (fun _ => .inl renewable)
    Bay.toExchange_within)

/-! ## Strikes and failures -/

theorem State.strike_keeps (s : State) (b : Fin 4) : Keeps s (s.strike b) := by
  have struck : Keeps s (s.putBay b (s.bay b).struck) := State.putBay_keeps (.stay rfl rfl
    fun ⟨queue, _, attempts, retries, entries, run⟩ => ⟨queue, Nat.min_le_left _ _, attempts, retries, entries, run⟩)
  unfold State.strike
  dsimp only
  split
  · exact (struck.trans (State.raiseBay_keeps _ b)).trans (State.enterLockout_keeps _ b)
  · exact struck.trans (State.raiseBay_keeps _ b)

theorem State.tagFailure_keeps (s : State) (b : Fin 4) : Keeps s (s.tagFailure b) := by
  unfold State.tagFailure
  dsimp only
  split
  · next authorized => exact (s.strike_keeps b).trans (State.enterRenewing_keeps (by rw [authorized]; rfl))
  · exact s.strike_keeps b

theorem State.admissionFailure_keeps (r : DenyReason) (guard : (s.bay b).state.sleeps = false) :
    Keeps s (s.admissionFailure b r) :=
  (State.deny_keeps r guard).trans (State.setBay_keeps_stay rfl rfl
    fun ⟨queue, strikes, _, retries, entries, run⟩ => ⟨queue, strikes, Nat.min_le_left _ _, retries, entries, run⟩)

theorem State.authFailure_keeps (s : State) (b : Fin 4) (r : DenyReason) : Keeps s (s.authFailure b r) := by
  unfold State.authFailure
  split
  · next h => exact State.admissionFailure_keeps r (by rw [h]; rfl)
  · next h => exact State.admissionFailure_keeps r (by rw [h]; rfl)
  · next h => exact State.loseEligibility_keeps r (by rw [h]; rfl)
  · exact .refl s

/-! ## The ID_REPORT -/

theorem State.duplicateSerial_iff (s : State) (b : Fin 4) (x : Serial) :
    s.duplicateSerial b x = true ↔ heldElsewhere s b x := by
  simp only [State.duplicateSerial, List.any_eq_true, Bool.and_eq_true, bne_iff_ne, ne_eq, beq_iff_eq,
    Option.map_eq_some_iff, BayState.holdsSerial_iff, heldElsewhere, and_assoc]
  exact ⟨fun ⟨o, _, h⟩ => ⟨o, h⟩, fun ⟨o, h⟩ => ⟨o, Four.mem_indices o, h⟩⟩

theorem RevList.covers_iff (s : State) (x : Serial) : s.ts.revoke.covers x = true ↔ covered s x := by
  simp [RevList.covers, Range.covers, covered]

theorem TableStore.not_covered_of_checksDG {s : State} {e : ModelEntry} {f : Word16} {x : Serial}
    (pass : s.ts.checksDG e f x = none) : ¬ covered s x := by
  simp only [TableStore.checksDG, check_eq_none_iff] at pass
  obtain ⟨_, _, free, _⟩ := pass
  rwa [RevList.covers_iff] at free

theorem State.enterChallenging_keeps {named shown : Identity} {hit : Option CacheEntry} {i : Fin 32} {e : ModelEntry}
    (guard : (s.bay b).state.sleeps = false) (identity : (s.bay b).identity = some shown)
    (free : ¬ heldElsewhere s b shown.serial) : Keeps s (s.enterChallenging b named hit i e) := by
  have still {y : Bay} {t : State} (h : t.bay b = s.bay b) : t.resting → y.state.sleeps = true :=
    fun rest => absurd rest (State.not_resting_of_bay (h ▸ guard))
  unfold State.enterChallenging
  split
  · next key _ =>
    have keyed : Keeps s (s.setBay b { s.bay b with packKey := some key }) := State.setBay_keeps_stay rfl rfl id
    refine keyed.trans
      (State.enterExchange_keeps ⟨Bay.toExchange_within, fun _ _ => ⟨shown, ?_, ?_⟩, fun _ h => ?_, ?_⟩)
    · simpa [Bay.toExchange] using identity
    · rwa [heldElsewhere_congr fun o ne => s.bay_setBay_other _ ne]
    · simp [Bay.toExchange, BayState.renewable] at h
    · exact fun rest => absurd rest (State.not_resting_of_bay (b := b) (by simpa using guard))
  · refine Keeps.trans (State.putBay_keeps ?_) (State.submit_keeps _ _ _)
    exact ⟨id, fun _ _ => ⟨shown, identity, free⟩, fun _ h => absurd h (by simp [BayState.renewable]), still rfl⟩

/-- A bay that is not among those whose serial counts takes an identity (R11). -/
theorem State.setIdentity_keeps_new {named : Identity} (away : (s.bay b).state.holdsSerial = false) :
    Keeps s (s.setIdentity b named) :=
  State.setBay_keeps (.leave away id fun ⟨_, _, _, sleeps⟩ => sleeps b)

/-- A bay's identity is replaced by one of the same serial (R53). -/
theorem State.setIdentity_keeps_same {named old : Identity} (identity : (s.bay b).identity = some old)
    (serial : named.serial = old.serial) : Keeps s (s.setIdentity b named) :=
  State.setBay_keeps_stay rfl (by simp [Bay.serial, identity, serial]) id

theorem State.admitModel_keeps {named : Identity} {hit : Option CacheEntry}
    (identifying : (s.bay b).state = .identifying)
    (free : ¬ heldElsewhere s b named.serial) : Keeps s (s.admitModel b named hit) := by
  unfold State.admitModel
  split
  · exact State.deny_keeps _ (by rw [identifying]; rfl)
  · next i _ =>
    dsimp only
    have identified : Keeps s (s.setIdentity b (named.withModel i (s.ts.model.entry i.val))) :=
      State.setIdentity_keeps_new (by rw [identifying]; rfl)
    have guard : ((s.setIdentity b (named.withModel i (s.ts.model.entry i.val))).bay b).state.sleeps = false := by
      simp [State.bay_setIdentity, identifying, BayState.sleeps]
    refine identified.trans ?_
    split
    · exact State.deny_keeps _ guard
    · refine State.enterChallenging_keeps guard (by rw [State.bay_setIdentity, if_pos rfl]) ?_
      have others (o : Fin 4) (ne : o ≠ b) :
          (s.setIdentity b (named.withModel i (s.ts.model.entry i.val))).bay o = s.bay o := by
        rw [State.bay_setIdentity, if_neg ne]
      exact fun held => free ((heldElsewhere_congr others _).mp held)

end

/-! ## The verdict cache -/

theorem mem_cacheWithout {cache : List CacheEntry} {x : Serial} {e : CacheEntry} :
    e ∈ cacheWithout cache x ↔ e ∈ cache ∧ e.serial ≠ x := by
  simp [cacheWithout]

/-- Taking out a serial that the cache holds makes room for one entry. -/
theorem length_cacheWithout_lt {cache : List CacheEntry} {x : Serial} {e : CacheEntry}
    (found : cacheFind cache x = some e) : (cacheWithout cache x).length < cache.length := by
  have serial : e.serial = x := by simpa using List.find?_some found
  exact List.length_filter_lt_length_iff_exists.mpr ⟨e, List.mem_of_find?_eq_some found, by simp [serial]⟩

theorem cacheWithin_cons_without {cache : List CacheEntry} {e found : CacheEntry}
    (hit : cacheFind cache e.serial = some found) (h : cacheWithin cache) :
    cacheWithin (e :: cacheWithout cache e.serial) := by
  obtain ⟨room, distinct⟩ := h
  have := length_cacheWithout_lt hit
  refine ⟨by simp only [List.length_cons]; omega, List.pairwise_cons.mpr ⟨fun o m => ?_, distinct.filter _⟩⟩
  exact (mem_cacheWithout.mp m).2.symm

theorem cacheTouch_within {cache : List CacheEntry} (x : Serial) (h : cacheWithin cache) :
    cacheWithin (cacheTouch cache x) := by
  unfold cacheTouch
  split
  · next e found =>
    have serial : e.serial = x := by simpa using List.find?_some found
    rw [← serial] at found ⊢
    exact cacheWithin_cons_without found h
  · exact h

theorem mem_of_mem_cacheTouch {cache : List CacheEntry} {x : Serial} {e : CacheEntry} (h : e ∈ cacheTouch cache x) :
    e ∈ cache := by
  unfold cacheTouch at h
  split at h
  · next found =>
    rcases List.mem_cons.mp h with rfl | m
    · exact List.mem_of_find?_eq_some found
    · exact (mem_cacheWithout.mp m).1
  · exact h

theorem cacheInsert_within {cache : List CacheEntry} (e : CacheEntry) (h : cacheWithin cache) :
    cacheWithin (cacheInsert cache e) := by
  unfold cacheInsert
  split
  · next found => exact cacheWithin_cons_without found h
  · next absent =>
    refine ⟨by simp only [List.length_cons, List.length_take]; omega,
      List.pairwise_cons.mpr ⟨fun o m same => ?_, h.2.sublist (List.take_sublist _ _)⟩⟩
    have := List.find?_eq_none.mp absent o (List.mem_of_mem_take m)
    simp [same] at this

theorem mem_cacheInsert {cache : List CacheEntry} {e o : CacheEntry} (h : o ∈ cacheInsert cache e) :
    o = e ∨ o ∈ cache := by
  unfold cacheInsert at h
  split at h <;> rcases List.mem_cons.mp h with rfl | m
  · exact .inl rfl
  · exact .inr (mem_cacheWithout.mp m).1
  · exact .inl rfl
  · exact .inr (List.mem_of_mem_take m)

/-- An operation that replaces the verdict cache alone. -/
theorem State.setCache_keeps {s : State} {cache : List CacheEntry}
    (within : cacheWithin s.cache → cacheWithin cache)
    (genuine : (∀ b, bayUnrevoked s b) → ∀ e ∈ cache, e.isGenuine = true → e ∈ s.cache ∨ ¬ covered s e.serial) :
    Keeps s { s with cache := cache } :=
  .of_bays (fun _ => rfl) rfl le_rfl rfl id within
    (fun clear old e m g => (genuine clear e m g).elim (fun was => old e was g) id) id fun d => ⟨d, fun w l => ⟨w, l⟩⟩

section
variable {s : State} {b : Fin 4}

theorem State.cacheInsert_keeps (x : Serial) (v : Verdict) (slot life : Nat)
    (genuine : (∀ b, bayUnrevoked s b) → v ≠ .forged → ¬ covered s x) : Keeps s (s.cacheInsert x v slot life) := by
  refine State.setCache_keeps (cacheInsert_within _) fun clear e m g => ?_
  rcases mem_cacheInsert m with rfl | was
  · exact .inr (genuine clear (by rintro rfl; cases g))
  · exact .inl was

theorem State.takeIdReport_keeps (payload : List Byte) (identifying : (s.bay b).state = .identifying) :
    Keeps s (s.takeIdReport b payload) := by
  unfold State.takeIdReport
  dsimp only
  set new : Identity := ⟨serialField payload 0, wordField payload 6, wordField payload 8, none, none⟩
  have touched : Keeps s { s with cache := cacheTouch s.cache (serialField payload 0) } :=
    State.setCache_keeps (cacheTouch_within _) fun _ e m _ => .inl (mem_of_mem_cacheTouch m)
  set touch : State := { s with cache := cacheTouch s.cache (serialField payload 0) }
  have before : (touch.bay b).state = .identifying := identifying
  have identified : Keeps touch (touch.setIdentity b new) := State.setIdentity_keeps_new (by rw [before]; rfl)
  have state : ((touch.setIdentity b new).bay b).state = .identifying := by
    rw [State.bay_setIdentity, if_pos rfl]; exact before
  have guard : ((touch.setIdentity b new).bay b).state.sleeps = false := by rw [state]; rfl
  refine (touched.trans identified).trans ?_
  split
  · exact State.deny_keeps _ guard
  · split
    · exact (State.deny_keeps _ guard).trans (State.strike_keeps _ b)
    · next free => exact State.admitModel_keeps state (by rw [← State.duplicateSerial_iff]; exact free)

end

end Sys2Proof.Machine
end

