-- ==== Sys2Proof/Proofs/ReplyKeeps.lean ====
section
/-! PROOF. Authorization, the pack line, the replies and the digest results keep what every step keeps (chapters 1, 2,
7 and 8). -/

namespace Sys2Proof.Machine

open Sys2Proof.Claims

section
variable {s : State} {b : Fin 4}

/-! ## Authorization -/

theorem Bay.toAuthorized_within {x : Bay} {session : Session} {renew attempts : Nat} (three : attempts ≤ 3)
    (h : bayWithin x) : bayWithin (x.toAuthorized session renew attempts) := by
  obtain ⟨queue, strikes, _, retries, entries, run⟩ := h
  unfold Bay.toAuthorized Bay.cleanRule
  split
  · exact ⟨queue, Nat.zero_le _, three, retries, entries, run⟩
  · exact ⟨queue, strikes, three, retries, entries, run⟩

@[simp] theorem Bay.state_toAuthorized (x : Bay) (session : Session) (renew attempts : Nat) :
    (x.toAuthorized session renew attempts).state = .authorized := by
  unfold Bay.toAuthorized Bay.cleanRule; split <;> rfl

@[simp] theorem Bay.identity_toAuthorized (x : Bay) (session : Session) (renew attempts : Nat) :
    (x.toAuthorized session renew attempts).identity = x.identity := by
  unfold Bay.toAuthorized Bay.cleanRule; split <;> rfl

theorem State.insertGenuine_keeps (id : Identity) (i : Fin 32) (key : PackKey)
    (free : (∀ b, bayUnrevoked s b) → ¬ covered s id.serial) : Keeps s (s.insertGenuine id i key) :=
  State.cacheInsert_keeps _ _ _ _ fun clear _ => free clear

theorem State.authorize_keeps {id : Identity} (key : PackKey) (sessionKey : Key)
    (challenging : (s.bay b).state = .challenging) (identity : (s.bay b).identity = some id) :
    Keeps s (s.authorize b id key sessionKey) := by
  unfold State.authorize
  have named (id' : Identity) (serial : id'.serial = id.serial) : Keeps s (s.setIdentity b id') :=
    State.setIdentity_keeps_same identity serial
  have state (id' : Identity) : ((s.setIdentity b id').bay b).state = .challenging := by
    rw [State.bay_setIdentity, if_pos rfl]; exact challenging
  have guard (id' : Identity) : ((s.setIdentity b id').bay b).state.sleeps = false := by rw [state]; rfl
  split
  · refine Keeps.trans ?_ (State.deny_keeps _ (guard _))
    exact named _ rfl
  · next i _ =>
    dsimp only
    refine (named (id.withModel i (s.ts.model.entry i.val)) rfl).trans ?_
    split
    · exact State.deny_keeps _ (guard _)
    · next pass =>
      split
      · have free := TableStore.not_covered_of_checksDG pass
        refine (State.insertGenuine_keeps _ _ _ fun _ => free).trans (State.putBay_keeps ?_)
        refine .keep ?_ ?_ (fun _ => .inr fun x serial => ?_) ?_
        · simp [state, BayState.holdsSerial]
        · simp [Bay.serial]
        · have : x = id.serial := by simpa [Bay.serial, State.bay_setIdentity, Identity.withModel] using serial.symm
          subst this
          simpa [covered] using free
        · simpa using Bay.toAuthorized_within (by decide)
      · exact State.enterIdentifying_keeps (guard _)

theorem State.renewed_keeps {id : Identity} (key : PackKey) (old : Session) (sessionKey : Key)
    (renewing : (s.bay b).state = .renewing) (identity : (s.bay b).identity = some id) :
    Keeps s (s.renewed b id key old sessionKey) := by
  have renewable : (s.bay b).state.renewable = true := by rw [renewing]; rfl
  have move (t : State) (bays : t.bay b = s.bay b) (session : Session) :
      BayMove t b ((t.bay b).toAuthorized session t.cfg.renew (t.bay b).attempts) := by
    refine .keep ?_ (by simp [Bay.serial]) (fun _ => .inl ?_) fun h => Bay.toAuthorized_within h.2.2.1 h
    · rw [bays]; exact BayState.holdsSerial_of_renewable renewable
    · rw [bays]; exact renewable
  unfold State.renewed
  dsimp only
  split
  · next i _ =>
    exact (State.insertGenuine_keeps id i key fun clear => clear b renewable id identity).trans
      (State.putBay_keeps (move _ (by simp) _))
  · exact State.putBay_keeps (move _ rfl _)

/-! ## Commits and key loads at a bay -/

theorem State.reevaluate_keeps {id : Identity} (renewable : (s.bay b).state.renewable = true)
    (identity : (s.bay b).identity = some id) : Keeps s (s.reevaluate b id) := by
  have named (id' : Identity) (serial : id'.serial = id.serial) : Keeps s (s.setIdentity b id') :=
    State.setIdentity_keeps_same identity serial
  have still (id' : Identity) : ((s.setIdentity b id').bay b).state.renewable = true := by
    rw [State.bay_setIdentity, if_pos rfl]; exact renewable
  unfold State.reevaluate
  split
  · refine Keeps.trans ?_ (State.loseEligibility_keeps _ (still _))
    exact named _ rfl
  · dsimp only
    split
    · refine Keeps.trans ?_ (State.loseEligibility_keeps _ (still _))
      exact named _ rfl
    · split
      · exact named _ rfl
      · exact State.enterIdentifying_keeps
          (BayState.not_sleeps_of_holdsSerial (BayState.holdsSerial_of_renewable renewable))

theorem State.commitBay_keeps (revocation : Bool) (s : State) (b : Fin 4) :
    Keeps s (State.commitBay revocation s b) := by
  unfold State.commitBay
  split
  · next state identity => exact State.reevaluate_keeps (by rw [state]; rfl) identity
  · next state identity => exact State.reevaluate_keeps (by rw [state]; rfl) identity
  · split
    · exact State.putBay_keeps (.stay rfl rfl id)
    · exact .refl s
  · next _ state =>
    split
    · exact State.enterIdentifying_keeps (by rw [state]; rfl)
    · exact .refl s
  · exact .refl s

theorem State.keyLoadBay_keeps (slots : Nat → Bool) (s : State) (b : Fin 4) : Keeps s (State.keyLoadBay slots s b) := by
  have act (c : Prop) [Decidable c] (guard : (s.bay b).state.sleeps = false) :
      Keeps s (if c then s.enterIdentifying b else s) := by
    split
    · exact State.enterIdentifying_keeps guard
    · exact .refl s
  unfold State.keyLoadBay
  dsimp only
  split
  case h_6 => exact .refl s
  all_goals next state => exact act _ (by rw [state]; rfl)

/-- An event that reaches the bays in their order. -/
theorem Keeps.foldl {f : State → Fin 4 → State} (each : ∀ s b, Keeps s (f s b)) (l : List (Fin 4)) (s : State) :
    Keeps s (l.foldl f s) := by
  induction l generalizing s with
  | nil => exact .refl s
  | cons b l ih => exact (each s b).trans (ih _)

theorem State.commitBays_keeps (s : State) (revocation : Bool) : Keeps s (s.commitBays revocation) :=
  .foldl (State.commitBay_keeps revocation) _ s

theorem State.keyLoadBays_keeps (s : State) (slots : Nat → Bool) : Keeps s (s.keyLoadBays slots) :=
  .foldl (State.keyLoadBay_keeps slots) _ s

/-! ## Replies -/

theorem State.completeHead_keeps (s : State) (b : Fin 4) (c : Byte) (st : Status) (f : RespFlags) (p : List Byte) :
    Keeps s (s.completeHead b c st f p) := by
  unfold State.completeHead
  split
  · exact State.setBay_keeps_stay rfl rfl id
  · exact (s.answer_keeps _).trans
      (State.setBay_keeps_stay (by simp) (by simp [Bay.serial]) (by simpa using Bay.popHead_within _))

theorem State.capture_keeps (s : State) (e : CaptureEntry) : Keeps s (s.capture e) := by
  unfold State.capture
  split
  · next room =>
    have room : s.ff.capture.length < 8 := by simpa [State.captureRoom] using room
    refine .of_bays (fun _ => rfl) rfl le_rfl rfl (fun ⟨queue, table, _, load⟩ => ⟨queue, table, ?_, load⟩) id
      (fun _ => id) id fun d => ⟨d, fun w l => ⟨w, l⟩⟩
    simp only [List.length_append, List.length_singleton]
    omega
  · exact .of_frame (by simp [State.bay])

theorem State.passReply_keeps (s : State) (b : Fin 4) (c : Byte) (p : List Byte) (m : Mark) (d : Disposition) :
    Keeps s (s.passReply b c p m d) := by
  cases d with
  | pass => exact s.completeHead_keeps b _ _ _ _
  | copy => exact (s.capture_keeps _).trans (State.completeHead_keeps _ b _ _ _ _)
  | divert => exact (s.capture_keeps _).trans (State.completeHead_keeps _ b _ _ _ _)

theorem State.withholdTagFailed_keeps (s : State) (b : Fin 4) (c : Byte) : Keeps s (s.withholdTagFailed b c) :=
  (s.completeHead_keeps b _ _ _ _).trans (State.tagFailure_keeps _ b)

theorem State.checkTag_keeps (s : State) (b : Fin 4) (f : PackFrame) (x : Session) (d : Disposition) :
    Keeps s (s.checkTag b f x d) := by
  unfold State.checkTag
  split
  · exact s.withholdTagFailed_keeps b _
  · split
    · refine Keeps.trans ?_ (State.submit_keeps _ _ _)
      exact State.setBay_keeps_stay rfl rfl id
    · exact s.withholdTagFailed_keeps b _

theorem State.advance_keeps (s : State) (b : Fin 4) : Keeps s (s.setBay b (s.bay b).advance) :=
  State.setBay_keeps_stay rfl rfl id

theorem State.classify_keeps (s : State) (b : Fin 4) (f : PackFrame) : Keeps s (s.classify b f) := by
  unfold State.classify
  dsimp only
  split
  · unfold State.classifyTagging
    split
    · split
      · exact (s.advance_keeps b).trans (State.passReply_keeps _ b _ _ _ _)
      · exact s.passReply_keeps b _ _ _ _
    · exact s.checkTag_keeps b f _ _
    · exact s.checkTag_keeps b f _ _
  · unfold State.classifyPlain
    split
    · exact s.passReply_keeps b _ _ _ _
    · exact s.passReply_keeps b _ _ _ _
    · exact s.completeHead_keeps b _ _ _ _

/-! ## Attempts on the pack line -/

theorem Bay.authOver_within {x : Bay} (h : bayWithin x) : bayWithin x.authOver := by
  obtain ⟨queue, strikes, attempts, _, entries, run⟩ := h
  exact ⟨queue, strikes, attempts, Nat.zero_le _, entries, run⟩

theorem State.authOver_keeps (s : State) (b : Fin 4) : Keeps s (s.setBay b (s.bay b).authOver) :=
  State.setBay_keeps_stay rfl rfl Bay.authOver_within

/-- The head of the queue takes another retry count. -/
theorem Bay.recount_within {x : Bay} {n : Nat} (three : n ≤ 3) (h : bayWithin x) :
    bayWithin { x with queue := { x.head with retries := n } :: x.queue.tail } := by
  obtain ⟨queue, strikes, attempts, retries, entries, run⟩ := h
  refine ⟨?_, strikes, attempts, retries, fun e m => ?_, run⟩
  · simp only [List.length_cons, List.length_tail]; omega
  · rcases List.mem_cons.mp m with rfl | m
    · refine ⟨?_, three⟩
      unfold Bay.head
      cases hq : x.queue with
      | nil => simp
      | cons e rest => exact (entries e (by simp [hq])).1
    · exact entries e (List.mem_of_mem_tail m)

theorem Bay.waitRetry_within {x : Bay} {kind : TxnKind} (budget : x.retriesOf kind < 3) (h : bayWithin x) :
    bayWithin (x.waitRetry kind) := by
  have counted (k : TxnKind) (budget : x.retriesOf k < 3) : bayWithin (x.countRetry k) := by
    cases k with
    | ident | challenge =>
      obtain ⟨queue, strikes, attempts, _, entries, run⟩ := h
      exact ⟨queue, strikes, attempts, budget, entries, run⟩
    | forward | splitFirst | splitSecond => exact Bay.recount_within budget h
  exact counted kind budget

theorem Bay.countRetry_keeps (x : Bay) (kind : TxnKind) :
    (x.countRetry kind).state = x.state ∧ (x.countRetry kind).identity = x.identity := by
  cases kind <;> exact ⟨rfl, rfl⟩

theorem State.transactionFailed_keeps (s : State) (b : Fin 4) (kind : TxnKind) (st : Status) :
    Keeps s (s.transactionFailed b kind st) := by
  unfold State.transactionFailed
  split
  · exact (s.authOver_keeps b).trans (State.authFailure_keeps _ b _)
  · exact (s.authOver_keeps b).trans (State.authFailure_keeps _ b _)
  all_goals exact s.completeHead_keeps b _ _ _ _

theorem State.attemptFailed_keeps (s : State) (b : Fin 4) (kind : TxnKind) (busy : Bool) :
    Keeps s (s.attemptFailed b kind busy) := by
  unfold State.attemptFailed
  split
  · next budget =>
    obtain ⟨state, identity⟩ := (s.bay b).countRetry_keeps kind
    exact State.setBay_keeps_stay state (congrArg (Option.map Identity.serial) identity) (Bay.waitRetry_within budget)
  · exact s.transactionFailed_keeps b kind _

theorem State.idReply_keeps (s : State) (b : Fin 4) (p : List Byte) : Keeps s (s.idReply b p) := by
  unfold State.idReply
  split
  · next identifying => exact State.takeIdReport_keeps p identifying
  · exact .refl s

theorem State.takeProof_keeps (s : State) (b : Fin 4) (p : List Byte) : Keeps s (s.takeProof b p) := by
  unfold State.takeProof
  dsimp only
  split
  · refine Keeps.trans ?_ (State.submit_keeps _ _ _)
    exact State.setBay_keeps_stay rfl rfl id
  · exact .refl s

theorem State.beginSecondHalf_keeps (s : State) (b : Fin 4) : Keeps s (s.beginSecondHalf b) :=
  State.setBay_keeps_stay rfl rfl fun h => Bay.recount_within (by decide) h

theorem State.takeReply_keeps (s : State) (b : Fin 4) (kind : TxnKind) (f : PackFrame) :
    Keeps s (s.takeReply b kind f) := by
  unfold State.takeReply
  split <;> split
  · exact (s.authOver_keeps b).trans (State.idReply_keeps _ b _)
  · exact s.transactionFailed_keeps b _ _
  · exact (s.authOver_keeps b).trans (State.takeProof_keeps _ b _)
  · exact s.transactionFailed_keeps b _ _
  · exact s.beginSecondHalf_keeps b
  · exact s.transactionFailed_keeps b _ _
  · exact s.transactionFailed_keeps b _ _
  · exact s.classify_keeps b f
  · exact s.transactionFailed_keeps b _ _
  · exact s.classify_keeps b f

theorem State.goodFrame_keeps (s : State) (b : Fin 4) (kind : TxnKind) (f : PackFrame) :
    Keeps s (s.goodFrame b kind f) := by
  unfold State.goodFrame
  split
  · exact s.attemptFailed_keeps b kind true
  · split
    · exact s.transactionFailed_keeps b kind _
    · exact s.takeReply_keeps b kind f

theorem State.abandonedEnd_keeps (s : State) (b : Fin 4) : Keeps s (s.abandonedEnd b) := s.authOver_keeps b

theorem State.recover_keeps (lineFault : (s.bay b).state = .lineFault) : Keeps s (s.recover b) := by
  have guard : (s.bay b).state.sleeps = false := by rw [lineFault]; rfl
  have forgotten : BayMove s b { s.bay b with identity := none, packKey := none, attempts := 0 } :=
    .leave (by simp [lineFault, BayState.holdsSerial])
      (fun ⟨queue, strikes, _, retries, entries, run⟩ => ⟨queue, strikes, Nat.zero_le _, retries, entries, run⟩)
      (absurd · (State.not_resting_of_bay guard))
  exact (State.setBay_keeps forgotten).trans
    (State.enterSettling_keeps (State.not_resting_of_bay (b := b) (by simpa using guard)))

/-! ## Digest results -/

theorem State.takePackKey_keeps (slot : Nat) (key : Key) (b : Fin 4) (s : State) :
    Keeps s (State.takePackKey slot key b s) := by
  unfold State.takePackKey
  split
  · next here =>
    obtain ⟨state, _⟩ := here
    have keyed : Keeps s (s.setBay b { s.bay b with packKey := some ⟨key, slot⟩ }) :=
      State.setBay_keeps_stay rfl rfl id
    refine keyed.trans (State.enterExchange_keeps (.keep ?_ rfl (fun h => ?_) Bay.toExchange_within))
    · simp [state, BayState.holdsSerial]
    · simp [Bay.toExchange, BayState.renewable] at h
  · exact .refl s

theorem State.proofMatched_keeps (s : State) (b : Fin 4) (k : Key) (x y : Nonce) :
    Keeps s (s.proofMatched b k x y) := by
  refine Keeps.trans ?_ (State.submit_keeps _ _ _)
  exact State.setBay_keeps_stay rfl rfl id

theorem State.insertForged_keeps (s : State) (b : Fin 4) (x : Serial) : Keeps s (s.insertForged b x) := by
  unfold State.insertForged
  split
  · exact State.cacheInsert_keeps _ _ _ _ fun _ h => absurd rfl h
  · exact .refl s

theorem State.forgedAtAdmission_keeps (x : Serial) (challenging : (s.bay b).state = .challenging) :
    Keeps s (s.forgedAtAdmission b x) :=
  ((s.insertForged_keeps b x).trans (State.deny_keeps _ (by simp [challenging, BayState.sleeps]))).trans
    (State.strike_keeps _ b)

/-- A strike leaves a bay in its state, or locks it out (R100). -/
theorem State.state_strike (s : State) (b : Fin 4) :
    ((s.strike b).bay b).state = .lockout ∨ ((s.strike b).bay b).state = (s.bay b).state := by
  rw [State.bay_strike, if_pos rfl]
  split
  · exact .inl rfl
  · exact .inr rfl

theorem State.forgedAtRenewal_keeps (x : Serial) (renewing : (s.bay b).state = .renewing) :
    Keeps s (s.forgedAtRenewal b x) := by
  have dropped : Keeps (s.insertForged b x)
      ((s.insertForged b x).setBay b { s.bay b with packNonce := none }) :=
    State.setBay_keeps_stay (by simp) (by simp [Bay.serial]) (fun h => (by simpa using h : bayWithin (s.bay b)))
  have struck := ((s.insertForged_keeps b x).trans dropped).trans (State.strike_keeps _ b)
  have state := State.state_strike ((s.insertForged b x).setBay b { s.bay b with packNonce := none }) b
  unfold State.forgedAtRenewal
  dsimp only
  split
  · exact struck
  · next unlocked =>
    refine struck.trans (State.loseEligibility_keeps _ ?_)
    rw [state.resolve_left unlocked]
    simp [renewing, BayState.renewable]

theorem State.takeProofResult_keeps (k : Key) (x y : Nonce) (z : Serial) (equal : Bool) (b : Fin 4) (s : State) :
    Keeps s (State.takeProofResult k x y z equal b s) := by
  unfold State.takeProofResult
  split
  · split
    · next state =>
      split
      · exact s.proofMatched_keeps b k x y
      · exact State.forgedAtAdmission_keeps z state
    · next state =>
      split
      · exact s.proofMatched_keeps b k x y
      · exact State.forgedAtRenewal_keeps z state
    · exact .refl s
  · exact .refl s

theorem State.takeSessionKey_keeps (k : Key) (b : Fin 4) (s : State) : Keeps s (State.takeSessionKey k b s) := by
  unfold State.takeSessionKey
  split
  · split
    · next state identity _ => exact State.authorize_keeps _ k state identity
    · next state identity _ _ => exact State.renewed_keeps _ _ k state identity
    · exact .refl s
  · exact .refl s

theorem State.takeTagResult_keeps (equal : Bool) (b : Fin 4) (s : State) : Keeps s (State.takeTagResult equal b s) := by
  unfold State.takeTagResult
  split
  · split
    · exact (s.advance_keeps b).trans (State.passReply_keeps _ b _ _ _ _)
    · exact s.withholdTagFailed_keeps b _
  · exact .refl s

theorem State.takeCheckValue_keeps (s : State) (v : Digest) : Keeps s (s.takeCheckValue v) := by
  unfold State.takeCheckValue
  split
  · exact .of_frame (by simp [State.bay])
  · exact .refl s

end

end Sys2Proof.Machine
end

