-- ==== Sys2Proof/Proofs/ImageContent.lean ====
section
/-! PROOF. The content check of an image and the edits of the revocation list give lawful tables (R49, R50, R63, R64,
R180, R181, R188). -/

namespace Sys2Proof.Machine

open Sys2Proof.Claims

/-! ## Model images -/

theorem ModelEntry.acceptable_iff (e : ModelEntry) : e.acceptable = true ↔ e.code = 0 ∨ inRange e := by
  simp only [ModelEntry.acceptable, ModelEntry.isEmpty, byteIn, inRange, Bool.or_eq_true, beq_iff_eq, Bool.and_eq_true,
    decide_eq_true_eq, Nat.zero_le, true_and, and_assoc]
  exact Iff.rfl

theorem distinct_iff_nodup (l : List Word16) : distinct l = true ↔ l.Nodup := by
  induction l with
  | nil => simp [distinct]
  | cons x rest ih => simp [distinct, ih]

/-- No code of a non-empty entry stands twice. -/
theorem distinct_codes_iff (es : List ModelEntry) :
    distinct ((es.filter (fun e => !e.isEmpty)).map (·.code)) = true ↔
      es.Pairwise (fun a b => a.code ≠ 0 → a.code ≠ b.code) := by
  rw [distinct_iff_nodup, List.Nodup, List.pairwise_map, List.pairwise_filter]
  refine List.Pairwise.iff fun a b => ?_
  simp only [ModelEntry.isEmpty, Bool.not_eq_true', beq_eq_false_iff_ne, ne_eq]
  refine forall_congr' fun nonempty => ⟨fun h same => h (same ▸ nonempty) same, fun h _ => h⟩

theorem modelContentOk_iff (image : List Byte) :
    modelContentOk image = true ↔
      byteField image 1 ≤ 32 ∧ (∀ e ∈ imageEntries image, e.code = 0 ∨ inRange e) ∧
        (imageEntries image).Pairwise (fun a b => a.code ≠ 0 → a.code ≠ b.code) := by
  simp only [modelContentOk, Bool.and_eq_true, decide_eq_true_eq, List.all_eq_true, ModelEntry.acceptable_iff,
    distinct_codes_iff, and_assoc]

@[simp] theorem length_imageRecords (image : List Byte) : (imageRecords image).length = byteField image 1 := by
  simp [imageRecords]

/-- The indices from the count up are empty (R188). -/
theorem lawfulModel_newModel {l : Load} (ok : modelContentOk l.buffer = true) : lawfulModel l.newModel := by
  obtain ⟨count, ranges, apart⟩ := (modelContentOk_iff _).mp ok
  refine ⟨?_, ?_, fun e m => ?_⟩
  · simp only [Load.newModel, List.length_append, List.length_replicate, imageEntries, List.length_map,
      length_imageRecords]
    omega
  · refine List.pairwise_append.mpr ⟨apart, List.pairwise_replicate.mpr (.inr fun h => absurd rfl h), ?_⟩
    intro a _ b m nonempty
    rw [List.eq_of_mem_replicate m]
    exact nonempty
  · rcases List.mem_append.mp m with m | m
    · exact ranges e m
    · exact .inl (by rw [List.eq_of_mem_replicate m]; rfl)

/-! ## Revocation images -/

theorem ascending_iff (rs : List (Nat × Nat)) (forward : ∀ r ∈ rs, r.1 ≤ r.2) :
    ascending rs = true ↔ rs.Pairwise (fun a b => a.2 < b.1) := by
  induction rs with
  | nil => simp [ascending]
  | cons a rest ih =>
    cases rest with
    | nil => simp [ascending]
    | cons b rest =>
      rw [List.pairwise_cons, ← ih fun r m => forward r (List.mem_cons_of_mem _ m), ascending, Bool.and_eq_true,
        decide_eq_true_eq]
      refine and_congr_left fun later => ⟨fun first r m => ?_, fun all => all b List.mem_cons_self⟩
      rcases List.mem_cons.mp m with rfl | m
      · exact first
      · have sorted := (ih fun r m => forward r (List.mem_cons_of_mem _ m)).mp later
        have := (List.pairwise_cons.mp sorted).1 r m
        have := forward b (by simp)
        omega

theorem revokeContentOk_iff (image : List Byte) :
    revokeContentOk image = true ↔
      byteField image 1 ≤ 96 ∧ (∀ r ∈ imageRecords image, (revokeRecord r).2 < 2 ^ 48) ∧
        (imageRecords image).Pairwise (fun a b => (revokeRecord a).2 < (revokeRecord b).1) := by
  have forward : ∀ r ∈ (imageRecords image).map revokeRecord, r.1 ≤ r.2 := by
    intro r m
    obtain ⟨x, _, rfl⟩ := List.mem_map.mp m
    exact Nat.le_add_right _ _
  simp only [revokeContentOk, Bool.and_eq_true, decide_eq_true_eq, ascending_iff _ forward, List.pairwise_map,
    List.all_map, List.all_eq_true, Function.comp_apply, and_assoc]
  refine and_congr_right fun _ => and_congr_left fun _ => forall_congr' fun r => forall_congr' fun _ => ?_
  omega

theorem lawfulList_newRevoke {l : Load} (ok : revokeContentOk l.buffer = true) : lawfulList l.newRevoke := by
  obtain ⟨count, small, apart⟩ := (revokeContentOk_iff _).mp ok
  have exact_last {r : List Byte} (m : r ∈ imageRecords l.buffer) :
      (BitVec.ofNat 48 (revokeRecord r).2).toNat = (revokeRecord r).2 := by
    rw [BitVec.toNat_ofNat, Nat.mod_eq_of_lt (small r m)]
  have exact_first {r : List Byte} (m : r ∈ imageRecords l.buffer) :
      (BitVec.ofNat 48 (revokeRecord r).1).toNat = (revokeRecord r).1 := by
    have : (revokeRecord r).1 ≤ (revokeRecord r).2 := Nat.le_add_right _ _
    rw [BitVec.toNat_ofNat, Nat.mod_eq_of_lt (this.trans_lt (small r m))]
  refine ⟨by simpa [Load.newRevoke] using count, fun x m => ?_, ?_⟩
  · obtain ⟨r, listed, rfl⟩ := List.mem_map.mp m
    rw [exact_first listed, exact_last listed]
    exact Nat.le_add_right _ _
  · refine List.pairwise_map.mpr (List.Pairwise.imp_of_mem ?_ apart)
    intro a b ma mb lt
    rwa [exact_last ma, exact_first mb]

/-! ## Edits of the revocation list -/

theorem lawfulList_none : lawfulList RevList.none := ⟨by simp [RevList.none], by simp [RevList.none], .nil⟩

theorem lawfulModel_none : lawfulModel ModelTable.none := by
  refine ⟨by simp [ModelTable.none], ?_, fun e m => .inl ?_⟩
  · exact List.pairwise_replicate.mpr (.inr fun h => absurd rfl h)
  · rw [List.eq_of_mem_replicate m]; rfl

theorem lawfulList_remove {l : RevList} (first : Serial) (h : lawfulList l) : lawfulList (l.remove first) := by
  obtain ⟨room, forward, apart⟩ := h
  exact ⟨(List.length_filter_le _ _).trans room, fun r m => forward r (List.mem_of_mem_filter m), apart.filter _⟩

/-- In an ascending list the ranges that begin below a serial are the ranges before its index. -/
theorem filter_lt_eq_take (rs : List Range) (first : Nat) (forward : ∀ r ∈ rs, r.first.toNat ≤ r.last.toNat)
    (apart : rs.Pairwise (fun a b => a.last.toNat < b.first.toNat)) :
    (∀ r ∈ rs.take (rs.filter (fun x => decide (x.first.toNat < first))).length, r.first.toNat < first) ∧
      ∀ r ∈ rs.drop (rs.filter (fun x => decide (x.first.toNat < first))).length, first ≤ r.first.toNat := by
  induction rs with
  | nil => simp
  | cons a rest ih =>
    obtain ⟨before, apart⟩ := List.pairwise_cons.mp apart
    have ih := ih (fun r m => forward r (List.mem_cons_of_mem _ m)) apart
    by_cases below : a.first.toNat < first
    · simpa [below] using ih
    · have none_below : rest.filter (fun x => decide (x.first.toNat < first)) = [] := by
        refine List.filter_eq_nil_iff.mpr fun r m => ?_
        have := before r m
        have := forward a List.mem_cons_self
        simp only [decide_eq_true_eq]
        omega
      rw [List.filter_cons_of_neg (by simpa using below), none_below]
      refine ⟨by simp, fun r m => ?_⟩
      rcases List.mem_cons.mp m with rfl | m
      · omega
      · have := before r m
        have := forward a List.mem_cons_self
        omega

/-- An edit that R180 takes keeps the list ascending and apart. -/
theorem lawfulList_add {l : RevList} {x : Range} (h : lawfulList l) (room : l.ranges.length < 96)
    (forward : x.first.toNat ≤ x.last.toNat) (clear : ∀ y ∈ l.ranges, y.overlaps x = false) :
    lawfulList (l.add x) := by
  obtain ⟨_, forwards, apart⟩ := h
  obtain ⟨below, above⟩ := filter_lt_eq_take l.ranges x.first.toNat forwards apart
  have disjoint {y : Range} (m : y ∈ l.ranges) : x.last.toNat < y.first.toNat ∨ y.last.toNat < x.first.toNat := by
    have := clear y m
    simp only [Range.overlaps, Bool.and_eq_false_iff, decide_eq_false_iff_not, Nat.not_le] at this
    exact this
  refine ⟨?_, fun r m => ?_, ?_⟩
  · simp only [RevList.add, List.length_append, List.length_cons, List.length_take, List.length_drop]
    omega
  · simp only [RevList.add, List.mem_append, List.mem_cons] at m
    rcases m with m | rfl | m
    · exact forwards r (List.mem_of_mem_take m)
    · exact forward
    · exact forwards r (List.mem_of_mem_drop m)
  · have sorted : (l.ranges.take (l.indexFor x.first) ++ l.ranges.drop (l.indexFor x.first)).Pairwise
        (fun a b => a.last.toNat < b.first.toNat) := by rwa [List.take_append_drop]
    obtain ⟨left, right, across⟩ := List.pairwise_append.mp sorted
    refine List.pairwise_append.mpr ⟨left, List.pairwise_cons.mpr ⟨fun r m => ?_, right⟩, fun a ma r m => ?_⟩
    · have := above r m
      have := forwards r (List.mem_of_mem_drop m)
      rcases disjoint (List.mem_of_mem_drop m) with h | h <;> omega
    · rcases List.mem_cons.mp m with rfl | m
      · have := below a ma
        rcases disjoint (List.mem_of_mem_take ma) with h | h <;> omega
      · exact across a ma r m

end Sys2Proof.Machine
end

