-- ==== Sys2Proof/Proofs/EventKeeps.lean ====
section
/-! PROOF. The events of the whole gate keep what every step keeps: time, the wake, GATE_RESET, the resets, the store
writes and the tool line (chapters 2, 10, 12 and 13). -/

namespace Sys2Proof.Machine

open Sys2Proof.Claims

section
variable {s : State} {b : Fin 4}

/-! ## Time -/

theorem State.tick_keeps (s : State) : Keeps s s.tick := by
  unfold State.tick
  split
  · refine .of_calm (fun b => ?_) rfl le_rfl rfl id ?_ (fun _ h => ?_) id fun d => ⟨d, fun w l => ⟨w, l⟩⟩
    · simp only [State.bay, Four.get_map]
      exact ⟨rfl, rfl, id⟩
    · rintro ⟨room, distinct⟩
      exact ⟨by simpa using room, List.pairwise_map.mpr distinct⟩
    · intro e m genuine
      obtain ⟨old, listed, rfl⟩ := List.mem_map.mp m
      exact h old listed genuine
  · exact .refl s

/-! ## Settling and the wake (R210) -/

/-- The same gate, awake. -/
def State.rouse (s : State) : State := { s with pw.dormant := false }

theorem State.rouse_keeps (s : State) : Keeps s s.rouse :=
  .of_bays (fun _ => rfl) rfl le_rfl rfl id id (fun _ => id) id fun d => nomatch d

theorem State.not_resting_rouse (s : State) : ¬ s.rouse.resting := State.not_resting_of_awake rfl

theorem State.settlePresent_keeps (b : Fin 4) (guard : ¬ s.resting) : Keeps s (s.settlePresent b) := by
  unfold State.settlePresent
  split
  · exact State.enterSettling_keeps guard
  · exact .refl s

theorem State.rouse_settlePresent (s : State) (b : Fin 4) : (s.settlePresent b).rouse = s.rouse.settlePresent b := by
  have here : s.rouse.bay b = s.bay b := rfl
  have cfg : s.rouse.cfg = s.cfg := rfl
  have pins : s.rouse.pins = s.pins := rfl
  unfold State.settlePresent State.enterSettling State.putBay
  simp only [here, cfg, pins]
  split
  · split <;> rfl
  · rfl

theorem State.settleAll_keeps (awake : s.pw.dormant = false) : Keeps s s.settleAll := by
  have each (l : List (Fin 4)) (t : State) (awake : t.pw.dormant = false) :
      Keeps t (l.foldl State.settlePresent t) := by
    induction l generalizing t with
    | nil => exact .refl t
    | cons b l ih =>
      exact (State.settlePresent_keeps b (State.not_resting_of_awake awake)).trans (ih _ (by simpa using awake))
  exact each _ s awake

theorem State.rouse_settleAll (s : State) : s.settleAll.rouse = s.rouse.settleAll := by
  have each (l : List (Fin 4)) (t : State) :
      (l.foldl State.settlePresent t).rouse = l.foldl State.settlePresent t.rouse := by
    induction l generalizing t with
    | nil => rfl
    | cons b l ih => rw [List.foldl_cons, List.foldl_cons, ih, State.rouse_settlePresent]
  exact each _ s

/-- What follows a state that a gate not at rest has reached is judged as if the gate were awake: either it is, or its
dormancy was not a rest to keep. -/
theorem Keeps.rouse_trans {s u v : State} (h : Keeps s u) (busy : ¬ s.resting) (k : Keeps u.rouse v.rouse)
    (dormant : v.pw.dormant = true → s.pw.dormant = true) : Keeps s v where
  pending := k.pending.trans h.pending
  draws := h.draws.trans k.draws
  capacities := k.capacities ∘ h.capacities
  tables := k.tables ∘ h.tables
  apart := k.apart ∘ h.apart
  unrevoked := k.unrevoked ∘ h.unrevoked
  rests := fun rest d => absurd (rest (dormant d)) busy

theorem State.wake_keeps (s : State) : Keeps s s.wake := by
  have roused : Keeps s { s with pw.dormant := false, pw.detSample := Four.fill none } :=
    .of_bays (fun _ => rfl) rfl le_rfl rfl id id (fun _ => id) id fun d => nomatch d
  have told (t : State) : Keeps t { t with tli.woke := true } := .of_frame (by simp [State.bay])
  unfold State.wake
  refine (Keeps.trans ?_ (told _)).trans (State.raiseGate_keeps _)
  exact (roused.trans (State.settleAll_keeps rfl)).trans (State.derive_keeps _ false)

/-- A wake is the same from the gate already awake. -/
theorem State.wake_rouse (s : State) : s.rouse.wake = s.wake := by
  have start : ({ s.rouse with pw.dormant := false, pw.detSample := Four.fill none } : State) =
      { s with pw.dormant := false, pw.detSample := Four.fill none } := rfl
  unfold State.wake
  rw [start]

theorem State.rxdWake_keeps (s : State) : Keeps s s.rxdWake :=
  s.wake_keeps.trans (show Keeps s.wake { s.wake with tli.rx := .discarding } from .of_frame (by simp [State.bay]))

theorem State.sampleDet_keeps (s : State) (det : Four Bool) : Keeps s (s.sampleDet det) := by
  refine .of_calm (fun b => ?_) rfl le_rfl rfl id id (fun _ => id) id fun d => ⟨d, fun w l => ⟨w, l⟩⟩
  have here : (s.sampleDet det).bay b = { s.bay b with present := det.get b } := by simp [State.sampleDet, State.bay]
  rw [here]
  exact ⟨rfl, rfl, id⟩

/-! ## Lockout left, removal, RUN -/

theorem State.leaveLockout_keeps (guard : ¬ s.resting) : Keeps s (s.leaveLockout b) := by
  have left : Keeps s (s.putBay b
      { s.bay b with state := .empty, identity := none, packKey := none, attempts := 0, clean := false }) :=
    State.putBay_keeps (.leave rfl (fun ⟨queue, strikes, _, retries, entries, run⟩ =>
      ⟨queue, strikes, Nat.zero_le _, retries, entries, run⟩) fun _ => rfl)
  unfold State.leaveLockout
  dsimp only
  by_cases awake : s.pw.dormant = false
  · exact left.trans (State.settlePresent_keeps b (State.not_resting_of_awake (by simpa using awake)))
  · refine left.rouse_trans guard ?_ fun _ => by simpa using awake
    rw [State.rouse_settlePresent]
    exact State.settlePresent_keeps b (State.not_resting_rouse _)

theorem State.rouse_leaveLockout (s : State) (b : Fin 4) : (s.leaveLockout b).rouse = s.rouse.leaveLockout b := by
  unfold State.leaveLockout
  dsimp only
  rw [State.rouse_settlePresent]
  congr 1
  unfold State.putBay
  have here : s.rouse.bay b = s.bay b := rfl
  simp only [here]
  split <;> rfl

theorem State.decayBay_keeps (s : State) (b : Fin 4) : Keeps s (s.decayBay b) := by
  have fewer : bayWithin (s.bay b) → bayWithin (s.bay b).decayed :=
    fun ⟨queue, strikes, attempts, retries, entries, run⟩ =>
    ⟨queue, (Nat.sub_le _ _).trans strikes, attempts, retries, entries, run⟩
  have decayed : Keeps s ((s.putBay b (s.bay b).decayed).raiseBay b) :=
    Keeps.trans (State.putBay_keeps (BayMove.stay (y := (s.bay b).decayed) rfl rfl fewer)) (State.raiseBay_keeps _ b)
  unfold State.decayBay
  dsimp only
  generalize (s.putBay b (s.bay b).decayed).raiseBay b = u at *
  split
  · refine decayed.trans ?_
    split
    · rw [← State.wake_rouse, State.rouse_leaveLockout]
      exact (u.rouse_keeps.trans (State.leaveLockout_keeps u.not_resting_rouse)).trans (State.wake_keeps _)
    · next awake => exact State.leaveLockout_keeps (State.not_resting_of_awake (by simpa using awake))
  · exact decayed

theorem State.removeBay_keeps (s : State) (b : Fin 4) : Keeps s (s.removeBay b) := by
  unfold State.removeBay
  split
  · exact State.setPresent_keeps false
  · exact (s.emptyBay_keeps b).trans (State.setPresent_keeps false)

theorem State.runFallBay_keeps (s : State) (b : Fin 4) : Keeps s (s.runFallBay b) := by
  unfold State.runFallBay
  split
  · next grace => exact State.endGrace_keeps (by rw [grace]; rfl)
  · exact .refl s

/-! ## Resets -/

theorem Bay.afterReset_within (p : Bool) : bayWithin (Bay.afterReset p) := by simp [bayWithin, Bay.afterReset]

theorem State.gateCleared_keeps (s : State) (det : Four Bool) : Keeps s (s.gateCleared det) := by
  refine .of_cold (fun b => ?_) rfl rfl le_rfl (fun ⟨_, table, _, _⟩ => ⟨Nat.zero_le _, table, Nat.zero_le _, ?_⟩)
    (lawfulTables_congr rfl (.inr rfl)) fun d => ⟨d, fun w _ => ⟨w, rfl⟩⟩
  · simp only [State.gateCleared, State.bay, Four.get_map]
    exact ⟨rfl, Bay.afterReset_within _⟩
  · simp [State.gateCleared]

/-- GATE_RESET, as one request carries it out or as the end of a commit does (R211). -/
theorem State.gateReset_keeps {u : State} (h : Keeps s u) (busy : ¬ s.resting)
    (dormant : u.pw.dormant = s.pw.dormant) (tid : Byte) (det : Four Bool) : Keeps s (u.gateReset tid det) := by
  refine ((h.trans (u.gateCleared_keeps det)).trans (State.answer_keeps _ (u.resetAnswers tid))).rouse_trans busy ?_ ?_
  · rw [State.gateReset, State.rouse_settleAll]
    exact State.settleAll_keeps rfl
  · intro d
    rw [← dormant]
    simpa [State.gateReset, State.gateCleared] using d

theorem State.finishReset_keeps {u : State} (h : Keeps s u) (busy : ¬ s.resting)
    (dormant : u.pw.dormant = s.pw.dormant) (det : Four Bool) : Keeps s (u.finishReset det) := by
  unfold State.finishReset
  split
  · have sampled : Keeps u { u with pins.det := det } := .of_frame (by simp [State.bay])
    exact State.gateReset_keeps (h.trans sampled) busy dormant _ det
  · exact h

theorem State.completeStartup_keeps {u : State} (h : Keeps s u) (busy : ¬ s.resting)
    (dormant : u.pw.dormant = s.pw.dormant) : Keeps s u.completeStartup := by
  have run : Keeps u { u with pw.power := .running } :=
    .of_bays (fun _ => rfl) rfl le_rfl rfl id id (fun _ => id) id fun d => ⟨d, fun w l => ⟨w, l⟩⟩
  refine ((h.trans run).trans (State.raiseGate_keeps _)).rouse_trans busy ?_ ?_
  · rw [State.completeStartup, State.rouse_settleAll]
    exact State.settleAll_keeps rfl
  · intro d
    rw [← dormant]
    simpa [State.completeStartup] using d

/-- A store write of a kind that carries no content begins while the gate is not at rest. -/
theorem lawfulTables_rewrite {u : State} (k : RecordKind) (p : Power) (h : lawfulTables u) :
    lawfulTables { u with pw.power := p, ts.write := some (.rewrite k) } := by
  obtain ⟨model, nvModel, revoke, nvRevoke, keys, nvKeys, _, _, _, loads⟩ := h
  exact ⟨model, nvModel, revoke, nvRevoke, keys, nvKeys, by simp, by simp, by simp, loads⟩

theorem State.nextRewrite_keeps {u : State} (h : Keeps s u) (busy : ¬ s.resting)
    (dormant : u.pw.dormant = s.pw.dormant) (todo : List RecordKind) : Keeps s (u.nextRewrite todo) := by
  unfold State.nextRewrite
  split
  · exact State.completeStartup_keeps h busy dormant
  · next k rest =>
    refine h.rouse_trans busy ?_ fun d => dormant ▸ d
    exact .of_bays (fun _ => rfl) rfl le_rfl rfl id id (fun _ => id) (lawfulTables_rewrite k _) fun d => nomatch d

theorem NvRecord.content_torn {α : Type} (P : α → Prop) {r : NvRecord α} {bytes : α → List Byte} {new : α}
    (t : TornWrite) (old : P r.content) (news : P new) : P (r.torn bytes new t).content := by
  cases t
  · exact old
  · exact news
  · exact news

/-- The tables of `lawfulTables`, without the load. -/
def lawfulStore (ts : TableStore) : Prop :=
  lawfulModel ts.model ∧ lawfulModel ts.nvModel.content ∧ lawfulList ts.revoke ∧ lawfulList ts.nvRevoke.content ∧
    ts.keys.length = 8 ∧ ts.nvKeys.content.length = 8 ∧ (∀ new, ts.write = some (.modelImage new) → lawfulModel new) ∧
    (∀ new, ts.write = some (.revokeImage new) ∨ ts.write = some (.revokeEdit new) → lawfulList new) ∧
    (∀ slot new, ts.write = some (.keyLoad slot new) → new.length = 8)

theorem lawfulTables_iff (s : State) :
    lawfulTables s ↔ lawfulStore s.ts ∧ ∀ l, s.il.load = some l → l.stage = .committing → l.contentOk = true := by
  unfold lawfulTables lawfulStore; tauto

theorem length_noKeys : noKeys.length = 8 := rfl

/-- The store keeps its lawful records when no write is in progress any more. -/
theorem lawfulStore_idle {ts : TableStore} (model : lawfulModel ts.model) (nvModel : lawfulModel ts.nvModel.content)
    (revoke : lawfulList ts.revoke) (nvRevoke : lawfulList ts.nvRevoke.content) (keys : ts.keys.length = 8)
    (nvKeys : ts.nvKeys.content.length = 8) (idle : ts.write = none) : lawfulStore ts :=
  ⟨model, nvModel, revoke, nvRevoke, keys, nvKeys, by simp [idle], by simp [idle], by simp [idle]⟩

theorem TableStore.abandonWrite_lawful {ts : TableStore} (t : TornWrite) (h : lawfulStore ts) :
    lawfulStore (ts.abandonWrite t) := by
  obtain ⟨model, nvModel, revoke, nvRevoke, keys, nvKeys, image, list, slots⟩ := id h
  have torn_list {new : RevList} (lawful : lawfulList new) :
      lawfulStore { ts with write := none, nvRevoke := ts.nvRevoke.torn RevList.bytes new t } :=
    lawfulStore_idle model nvModel revoke (NvRecord.content_torn lawfulList t nvRevoke lawful) keys nvKeys rfl
  have torn_model {new : ModelTable} (lawful : lawfulModel new) :
      lawfulStore { ts with write := none, nvModel := ts.nvModel.torn ModelTable.bytes new t } :=
    lawfulStore_idle model (NvRecord.content_torn lawfulModel t nvModel lawful) revoke nvRevoke keys nvKeys rfl
  have torn_keys {new : KeyStore} (eight : new.length = 8) :
      lawfulStore { ts with write := none, nvKeys := ts.nvKeys.torn KeyStore.bytes new t } :=
    lawfulStore_idle model nvModel revoke nvRevoke keys
      (NvRecord.content_torn (fun k : KeyStore => k.length = 8) t nvKeys eight) rfl
  unfold TableStore.abandonWrite
  split
  · exact h
  · next write => exact torn_keys (slots _ _ write)
  · next write => exact torn_list (list _ (.inr write))
  · next write => exact torn_list (list _ (.inl write))
  · next write => exact torn_model (image _ write)
  · exact torn_model lawfulModel_none
  · exact torn_list lawfulList_none
  · exact torn_keys length_noKeys

theorem NvRecord.liveOr_of {α : Type} (P : α → Prop) {r : NvRecord α} {bytes : α → List Byte} {empty : α}
    (stored : P r.content) (none : P empty) : P (r.liveOr bytes empty) := by
  unfold NvRecord.liveOr
  split
  · exact stored
  · exact none

theorem TableStore.check_lawful {ts : TableStore} (h : lawfulStore ts) : lawfulStore ts.check := by
  obtain ⟨_, nvModel, _, nvRevoke, _, nvKeys, _, _, _⟩ := h
  exact lawfulStore_idle (NvRecord.liveOr_of lawfulModel nvModel lawfulModel_none) nvModel
    (NvRecord.liveOr_of lawfulList nvRevoke lawfulList_none) nvRevoke
    (NvRecord.liveOr_of (fun k : KeyStore => k.length = 8) nvKeys length_noKeys) nvKeys rfl

theorem TableStore.rewritten_lawful {ts : TableStore} (k : RecordKind) (ok : Bool) (h : lawfulStore ts) :
    lawfulStore (ts.rewritten k ok) := by
  obtain ⟨model, nvModel, revoke, nvRevoke, keys, nvKeys, _, _, _⟩ := h
  cases k <;> refine lawfulStore_idle model ?_ revoke ?_ keys ?_ rfl
  any_goals assumption
  · cases ok <;> exact lawfulModel_none
  · cases ok <;> exact lawfulList_none
  · cases ok <;> rfl

/-- The volatile state cleared over lawful tables (R212). -/
theorem State.cleared_keeps (s : State) {ts : TableStore} (lawful : lawfulStore s.ts → lawfulStore ts) (p : Power)
    (v : Bool) (levels : Pins) : Keeps s ({ s with ts := ts }.cleared p v levels) := by
  refine .of_cold (fun b => ?_) rfl rfl le_rfl (fun _ => ?_) (fun h => ?_) fun d => nomatch d
  · simp only [State.cleared, State.bay, Four.get_map]
    exact ⟨rfl, Bay.afterReset_within _⟩
  · simp [restWithin, State.cleared]
  · exact (lawfulTables_iff _).mpr ⟨lawful ((lawfulTables_iff _).mp h).1, by simp [State.cleared]⟩

theorem State.holdReset_keeps (s : State) (p : Power) (t : TornWrite) : Keeps s (s.holdReset p t) :=
  s.cleared_keeps (TableStore.abandonWrite_lawful t) p false _

theorem State.flagLost_keeps (s : State) (k : RecordKind) : Keeps s (s.flagLost k) := by
  cases k
  · exact s.setModelLost_keeps
  · exact s.setRevokeLost_keeps
  · exact s.setKeysLost_keeps

theorem State.setCold_keeps (s : State) (cold : Bool) : Keeps s (s.setCold cold) := by
  cases cold
  · exact .refl s
  · exact .of_frame (by simp [State.bay, State.setCold, State.raiseGate])

theorem State.dormant_foldl_flagLost (l : List RecordKind) (s : State) :
    (l.foldl State.flagLost s).pw = s.pw := by
  induction l generalizing s with
  | nil => rfl
  | cons k l ih => rw [List.foldl_cons, ih]; simp

theorem State.foldl_flagLost_keeps (l : List RecordKind) (s : State) : Keeps s (l.foldl State.flagLost s) := by
  induction l generalizing s with
  | nil => exact .refl s
  | cons k l ih => exact (s.flagLost_keeps k).trans (ih _)

theorem State.restart_keeps (s : State) (levels : Pins) (t : TornWrite) (cold : Bool) :
    Keeps s (s.restart levels t cold) := by
  have cleared := s.cleared_keeps (fun h => TableStore.check_lawful (TableStore.abandonWrite_lawful t h)) (.startup [])
    levels.prov levels
  unfold State.restart
  dsimp only
  refine cleared.trans (State.nextRewrite_keeps ?_ (State.not_resting_of_awake rfl) ?_ _)
  · exact (State.setCold_keeps _ cold).trans (State.foldl_flagLost_keeps _ _)
  · rw [State.dormant_foldl_flagLost]
    cases cold <;> rfl

end

end Sys2Proof.Machine
end

