-- ==== Sys2Proof/Proofs/StoreKeeps.lean ====
section
/-! PROOF. The store writes, the loads, the tool line and the requests keep what every step keeps (chapters 2 to 5 and
8 to 12). -/

namespace Sys2Proof.Machine

open Sys2Proof.Claims

section
variable {s : State} {b : Fin 4}

/-! ## Completed store writes -/

theorem failedRecord_content {α : Type} (bytes : α → List Byte) (empty : α) (r : WriteResult) :
    (failedRecord bytes empty r).content = empty := by
  cases r <;> rfl

/-- The content of a record after a completed write is the content that the write makes live. -/
theorem storedContent {α : Type} (bytes : α → List Byte) (new empty : α) (r : WriteResult) :
    (if tookWrite r then NvRecord.intact bytes new else failedRecord bytes empty r).content =
      if tookWrite r then new else empty := by
  split
  · rfl
  · exact failedRecord_content bytes empty r

theorem cacheWithin_filter (p : CacheEntry → Bool) {cache : List CacheEntry} (h : cacheWithin cache) :
    cacheWithin (cache.filter p) :=
  ⟨(List.length_filter_le _ _).trans h.1, h.2.filter _⟩

theorem lawfulModel_liveModel {new : ModelTable} (r : WriteResult) (h : lawfulModel new) :
    lawfulModel (liveModel r new) := by
  unfold liveModel; split
  · exact h
  · exact lawfulModel_none

theorem lawfulList_liveRevoke {new : RevList} (r : WriteResult) (h : lawfulList new) :
    lawfulList (liveRevoke r new) := by
  unfold liveRevoke; split
  · exact h
  · exact lawfulList_none

theorem length_liveKeys {new : KeyStore} (r : WriteResult) (h : new.length = 8) : (liveKeys r new).length = 8 := by
  unfold liveKeys; split
  · exact h
  · exact length_noKeys

theorem State.storeModel_keeps {new : ModelTable} (r : WriteResult) (write : s.ts.write = some (.modelImage new)) :
    Keeps s (s.storeModel new r) := by
  refine .of_bays (fun _ => rfl) rfl le_rfl rfl id (cacheWithin_filter _)
    (fun _ h e m => h e (List.mem_of_mem_filter m)) (fun h => ?_) fun d => ⟨d, fun _ l => ⟨rfl, l⟩⟩
  obtain ⟨⟨_, _, revoke, nvRevoke, keys, nvKeys, image, _, _⟩, loads⟩ := (lawfulTables_iff s).mp h
  have live := lawfulModel_liveModel r (image _ write)
  refine (lawfulTables_iff _).mpr ⟨lawfulStore_idle live ?_ revoke nvRevoke keys nvKeys rfl, loads⟩
  simp only [State.storeModel, storedContent]
  exact live

theorem State.storeKeys_keeps {slot : Nat} {new : KeyStore} (r : WriteResult)
    (write : s.ts.write = some (.keyLoad slot new)) : Keeps s (s.storeKeys slot new r) := by
  refine .of_bays (fun _ => rfl) rfl le_rfl rfl id (cacheWithin_filter _)
    (fun _ h e m => h e (List.mem_of_mem_filter m)) (fun h => ?_) fun d => ⟨d, fun _ l => ⟨rfl, l⟩⟩
  obtain ⟨⟨model, nvModel, revoke, nvRevoke, _, _, _, _, slots⟩, loads⟩ := (lawfulTables_iff s).mp h
  have live := length_liveKeys r (slots _ _ write)
  refine (lawfulTables_iff _).mpr ⟨lawfulStore_idle model nvModel revoke nvRevoke live ?_ rfl, loads⟩
  simp only [State.storeKeys, storedContent]
  exact live

/-- Bays and cache do not move, so that all but the revoked serials are as they were. -/
theorem State.storeRevoke_lawful {new : RevList} (r : WriteResult) (lawful : lawfulTables s → lawfulList new)
    (h : lawfulTables s) : lawfulTables (s.storeRevoke new r) := by
  have live := lawfulList_liveRevoke r (lawful h)
  obtain ⟨⟨model, nvModel, _, _, keys, nvKeys, _, _, _⟩, loads⟩ := (lawfulTables_iff s).mp h
  refine (lawfulTables_iff _).mpr ⟨lawfulStore_idle model nvModel live ?_ keys nvKeys rfl, loads⟩
  simp only [State.storeRevoke, storedContent]
  exact live

/-! ## The revocation commit brings every bay back (R70) -/

theorem State.not_renewable_loseEligibility (s : State) (b : Fin 4) (r : DenyReason) :
    ((s.loseEligibility b r).bay b).state.renewable = false := by
  rw [State.bay_loseEligibility, if_pos rfl]
  split <;> rfl

theorem State.not_renewable_enterIdentifying (s : State) (b : Fin 4) :
    ((s.enterIdentifying b).bay b).state.renewable = false := by
  rw [State.bay_enterIdentifying, if_pos rfl]; rfl

theorem bayUnrevoked_of_not_renewable (h : (s.bay b).state.renewable = false) : bayUnrevoked s b :=
  fun renewable => absurd renewable (by simp [h])

theorem State.reevaluate_unrevoked (s : State) (b : Fin 4) (id : Identity) : bayUnrevoked (s.reevaluate b id) b := by
  unfold State.reevaluate
  split
  · exact bayUnrevoked_of_not_renewable (State.not_renewable_loseEligibility _ b _)
  · next i _ =>
    dsimp only
    split
    · exact bayUnrevoked_of_not_renewable (State.not_renewable_loseEligibility _ b _)
    · next pass =>
      split
      · intro _ named identity
        have free := TableStore.not_covered_of_checksDG pass
        rw [State.bay_setIdentity, if_pos rfl] at identity
        obtain rfl : id.withModel i (s.ts.model.entry i.val) = named := Option.some.inj identity
        simpa [covered, Identity.withModel] using free
      · exact bayUnrevoked_of_not_renewable (State.not_renewable_enterIdentifying _ b)

/-- Whatever the bay was, it holds no revoked serial in AUTHORIZED or RENEWING once it has taken the commit. -/
theorem State.commitBay_unrevoked (s : State) (b : Fin 4) : bayUnrevoked (State.commitBay true s b) b := by
  unfold State.commitBay
  split
  · exact s.reevaluate_unrevoked b _
  · exact s.reevaluate_unrevoked b _
  · next grace _ =>
    split <;> refine bayUnrevoked_of_not_renewable ?_
    · simp [grace, BayState.renewable]
    · simp [grace, BayState.renewable]
  · next _ denied =>
    split <;> refine bayUnrevoked_of_not_renewable ?_
    · exact State.not_renewable_enterIdentifying _ b
    · simp [denied, BayState.renewable]
  · next authorized renewing _ =>
    intro renewable id identity
    rcases (s.bay b).state.renewable_iff.mp renewable with h | h
    · exact absurd identity (authorized id h)
    · exact absurd identity (renewing id h)

theorem State.foldl_commitBay_unrevoked (l : List (Fin 4)) (s : State) (h : b ∈ l ∨ bayUnrevoked s b) :
    bayUnrevoked (l.foldl (State.commitBay true) s) b := by
  induction l generalizing s with
  | nil => exact h.resolve_left List.not_mem_nil
  | cons o l ih =>
    refine ih _ ?_
    by_cases same : b = o
    · exact .inr (same ▸ s.commitBay_unrevoked b)
    · refine h.imp (fun m => (List.mem_cons.mp m).resolve_left same) fun old => ?_
      unfold bayUnrevoked
      rw [State.commitBay_other s true same]
      simpa [bayUnrevoked, covered] using old

theorem State.commitBays_unrevoked (s : State) (b : Fin 4) : bayUnrevoked (s.commitBays true) b :=
  State.foldl_commitBay_unrevoked _ s (.inl (Four.mem_indices b))

/-- The covered entries have left the cache (R69). -/
theorem State.storeRevoke_cache (s : State) (new : RevList) (r : WriteResult) :
    cacheUnrevoked (s.storeRevoke new r) := by
  intro e m _ held
  have left : (liveRevoke r new).covers e.serial = false := by simpa using (List.mem_filter.mp m).2
  rw [← RevList.covers_iff] at held
  exact absurd held (by simpa [State.storeRevoke] using left)

/-- The flags and notices of a completed write. -/
theorem State.wroteModel_keeps (s : State) (c : Prop) [Decidable c] :
    Keeps s (if c then s.raiseGate else s.setModelLost) := by
  split
  · exact s.raiseGate_keeps
  · exact s.setModelLost_keeps

theorem State.wroteRevoke_keeps (s : State) (c : Prop) [Decidable c] :
    Keeps s (if c then s.raiseGate else s.setRevokeLost) := by
  split
  · exact s.raiseGate_keeps
  · exact s.setRevokeLost_keeps

theorem State.commitRevoke_keeps {new : RevList} (r : WriteResult) (lawful : lawfulTables s → lawfulList new) :
    Keeps s (s.commitRevoke new r) := by
  unfold State.commitRevoke
  dsimp only
  have wrote := State.wroteRevoke_keeps (s.storeRevoke new r) (tookWrite r = true)
  have clear : cacheUnrevoked
      (if tookWrite r = true then (s.storeRevoke new r).raiseGate else (s.storeRevoke new r).setRevokeLost) := by
    split <;> simpa [cacheUnrevoked, covered] using s.storeRevoke_cache new r
  generalize (if tookWrite r = true then (s.storeRevoke new r).raiseGate else (s.storeRevoke new r).setRevokeLost) = u
    at wrote clear ⊢
  have after : Keeps (u.commitBays true) ((u.commitBays true).arbitrateAll.derive false) :=
    (State.arbitrateAll_keeps_all _).trans (State.derive_keeps _ false)
  have all := (wrote.trans (u.commitBays_keeps true)).trans after
  exact
    { pending := all.pending
      draws := all.draws
      capacities := fun h => all.capacities ((withinCapacities_iff _).mpr
        (((withinCapacities_iff s).mp h).imp_right fun ⟨rest, cache⟩ => ⟨rest, cacheWithin_filter _ cache⟩))
      tables := fun h => all.tables (State.storeRevoke_lawful r lawful h)
      apart := fun h => all.apart h
      unrevoked := fun _ => after.unrevoked ⟨u.commitBays_unrevoked, by simpa [cacheUnrevoked, covered] using clear⟩
      rests := fun h => all.rests fun d => (h d).imp_right fun ⟨_, rest⟩ => ⟨rfl, rest⟩ }

theorem State.endCommit_keeps (s : State) (r : WriteResult) (gen : Word16) : Keeps s (s.endCommit r gen) := by
  unfold State.endCommit
  split
  · split
    · exact s.endLoad_keeps _ _ _ _
    · exact s.endLoad_keeps _ _ _ _
  · exact .refl s

theorem State.commitModel_keeps {new : ModelTable} (r : WriteResult) (write : s.ts.write = some (.modelImage new)) :
    Keeps s (s.commitModel new r) := by
  unfold State.commitModel
  dsimp only
  refine Keeps.trans ?_ (State.derive_keeps _ false)
  refine Keeps.trans ?_ (State.arbitrateAll_keeps_all _)
  refine Keeps.trans ?_ (State.commitBays_keeps _ false)
  exact (State.storeModel_keeps r write).trans (State.wroteModel_keeps _ (tookWrite r = true))

theorem State.commitKeys_keeps {slot : Nat} {new : KeyStore} (r : WriteResult)
    (write : s.ts.write = some (.keyLoad slot new)) : Keeps s (s.commitKeys slot new r) := by
  unfold State.commitKeys
  dsimp only
  refine Keeps.trans ?_ (State.derive_keeps _ false)
  refine Keeps.trans ?_ (State.arbitrateAll_keeps_all _)
  refine Keeps.trans ?_ (State.keyLoadBays_keeps _ _)
  refine (State.storeKeys_keeps r write).trans ?_
  split
  · exact .refl _
  · exact State.setKeysLost_keeps _

/-- The Management Engine gives a request up with its answer. -/
theorem State.endEdit_keeps (s : State) (new : RevList) (r : WriteResult) : Keeps s (s.endEdit new r) := by
  unfold State.endEdit
  split
  · exact .of_frame (by simp [State.bay])
  · exact .of_frame (by simp [State.bay])
  · exact .refl s

theorem State.endKeyLoad_keeps (s : State) (r : WriteResult) : Keeps s (s.endKeyLoad r) := by
  unfold State.endKeyLoad
  split
  · exact .of_frame (by simp [State.bay])
  · exact .refl s

/-! ## Loads -/

theorem lawfulStore_storeWrite {ts : TableStore} {l : Load} (h : lawfulStore ts) (ok : l.contentOk = true) :
    lawfulStore { ts with write := some l.storeWrite } := by
  obtain ⟨model, nvModel, revoke, nvRevoke, keys, nvKeys, _, _, _⟩ := h
  simp only [Load.contentOk, Bool.and_eq_true] at ok
  obtain ⟨_, content⟩ := ok
  cases target : l.target with
  | model =>
    simp only [target] at content
    refine ⟨model, nvModel, revoke, nvRevoke, keys, nvKeys, ?_, ?_, ?_⟩ <;> simp only [Load.storeWrite, target]
    · rintro new ⟨⟩; exact lawfulModel_newModel content
    · simp
    · simp
  | revoke =>
    simp only [target] at content
    refine ⟨model, nvModel, revoke, nvRevoke, keys, nvKeys, ?_, ?_, ?_⟩ <;> simp only [Load.storeWrite, target]
    · simp
    · rintro new (⟨⟨⟩⟩ | ⟨⟨⟩⟩); exact lawfulList_newRevoke content
    · simp

theorem State.beginImageWrite_keeps (s : State) : Keeps s s.beginImageWrite := by
  unfold State.beginImageWrite
  split
  · next l load _ =>
    split
    · next committing =>
      refine .of_bays (fun _ => rfl) rfl le_rfl rfl id id (fun _ => id) (fun h => ?_)
        fun d => ⟨d, fun _ none => absurd none (by simp [load])⟩
      obtain ⟨store, loads⟩ := (lawfulTables_iff s).mp h
      exact (lawfulTables_iff _).mpr ⟨lawfulStore_storeWrite store (loads l load committing), loads⟩
    · exact .refl s
  · exact .refl s

/-- The load record changes, while a load is under way or may begin. -/
theorem State.setLoad_keeps {l : Load} (busy : ¬ s.resting)
    (within : restWithin s → l.buffer.length ≤ l.declared ∧ l.declared ≤ 1024)
    (ok : l.stage = .committing → l.contentOk = true) : Keeps s { s with il.load := some l } := by
  have changed : Keeps s.rouse { s.rouse with il.load := some l } := by
    refine .of_bays (fun _ => rfl) rfl le_rfl rfl (fun h => ⟨h.1, h.2.1, h.2.2.1, ?_⟩) id (fun _ => id)
      (fun h => (lawfulTables_iff _).mpr ⟨((lawfulTables_iff _).mp h).1, ?_⟩) fun d => nomatch d
    · rintro _ ⟨⟩; exact within h
    · rintro _ ⟨⟩; exact ok
  exact (Keeps.refl s).rouse_trans busy changed id

theorem State.takeImageResult_keeps (s : State) (equal : Bool) : Keeps s (s.takeImageResult equal) := by
  unfold State.takeImageResult
  split
  · next l load =>
    split
    · split
      · exact s.endLoad_keeps _ _ _ _
      · split
        · exact s.endLoad_keeps _ _ _ _
        · next pass =>
          refine Keeps.trans ?_ (State.beginImageWrite_keeps _)
          refine State.setLoad_keeps (fun ⟨_, _, idle, _⟩ => ?_) (fun h => h.2.2.2 l load) fun _ => ?_
          · simp [load] at idle
          · exact (Bool.not_eq_false _).mp pass
    · exact .refl s
  · exact .refl s

/-! ## The tool line -/

theorem State.passThrough_keeps (s : State) (b : Fin 4) (t c f : Byte) (p : List Byte) :
    Keeps s (s.passThrough b t c f p) := by
  unfold State.passThrough
  split
  · exact s.answer_keeps _
  · next taken =>
    simp only [State.passThroughRefusal, check_eq_none_iff] at taken
    obtain ⟨short, _, _, _, _, _, room, _⟩ := taken
    refine Keeps.trans ?_ (State.arbitrate_keeps_all _ b)
    refine State.setBay_keeps_stay rfl rfl ?_
    rintro ⟨_, strikes, attempts, retries, entries, run⟩
    refine ⟨by simp only [List.length_append, List.length_singleton]; omega, strikes, attempts, retries,
      fun e m => ?_, run⟩
    rcases List.mem_append.mp m with m | m
    · exact entries e m
    · obtain rfl := List.mem_singleton.mp m
      exact ⟨Nat.le_of_not_lt short, Nat.zero_le _⟩

/-- The management queue changes within its capacity. -/
theorem State.setQueue_keeps {queue : List GateRequest} (within : s.me.queue.length ≤ 4 → queue.length ≤ 4) :
    Keeps s { s with me.queue := queue } :=
  .of_bays (fun _ => rfl) rfl le_rfl rfl (fun ⟨q, table, capture, load⟩ => ⟨within q, table, capture, load⟩) id
    (fun _ => id) id fun d => ⟨d, fun w l => ⟨w, l⟩⟩

theorem State.popRequest_keeps (s : State) : Keeps s s.popRequest :=
  State.setQueue_keeps fun h => by rw [List.length_tail]; omega

theorem State.enqueue_keeps (s : State) (r : GateRequest) : Keeps s (s.enqueue r) := by
  unfold State.enqueue
  split
  · exact State.setQueue_keeps fun _ => by simp only [List.length_append, List.length_singleton]; omega
  · exact s.answer_keeps _

theorem State.route_keeps (s : State) (ks t c f : Byte) (p : List Byte) : Keeps s (s.route ks t c f p) := by
  unfold State.route
  split
  · exact s.setToolFrameError_keeps
  · split
    · exact s.passThrough_keeps _ _ _ _ _
    · split
      · exact s.enqueue_keeps _
      · exact s.answer_keeps _

theorem State.receive_keeps (s : State) (chars : List Byte) : Keeps s (s.receive chars) := by
  unfold State.receive
  split
  · exact s.setRx_keeps _
  · exact (s.setRx_keeps _).trans (State.setToolFrameError_keeps _)
  · exact (s.setRx_keeps _).trans (State.setToolFrameError_keeps _)
  · exact (s.setRx_keeps _).trans (State.route_keeps _ _ _ _ _ _)

end

end Sys2Proof.Machine
end

