-- ==== Sys2Proof/Proofs/StepKeeps.lean ====
section
/-! PROOF. The requests and then every command keep what every step keeps, from which the step invariants
follow. -/

namespace Sys2Proof.Machine

open Sys2Proof.Claims

/-! ## Requests (R196) -/

section
variable {s : State}

/-- A store write begins, of lawful content, while the gate is awake. -/
theorem State.setWrite_keeps {w : StoreWrite} (awake : s.pw.dormant = false)
    (lawful : lawfulStore s.ts → lawfulStore { s.ts with write := some w }) :
    Keeps s { s with ts.write := some w } :=
  .of_bays (fun _ => rfl) rfl le_rfl rfl id id (fun _ => id)
    (fun h => (lawfulTables_iff _).mpr (((lawfulTables_iff s).mp h).imp_left lawful))
    fun d => absurd d (by simp [awake])

theorem State.keyLoad_keeps (r : GateRequest) (awake : s.pw.dormant = false) : Keeps s (s.keyLoad r) := by
  unfold State.keyLoad
  split
  · exact s.refuse_keeps _ _
  · refine (State.setWrite_keeps awake ?_).trans (State.hold_keeps _ _)
    rintro ⟨model, nvModel, revoke, nvRevoke, keys, nvKeys, _, _, _⟩
    refine ⟨model, nvModel, revoke, nvRevoke, keys, nvKeys, by simp, by simp, ?_⟩
    rintro _ _ ⟨⟩
    simpa using keys

theorem lawfulStore_revokeEdit {ts : TableStore} {new : RevList} (h : lawfulStore ts) (lawful : lawfulList new) :
    lawfulStore { ts with write := some (.revokeEdit new) } := by
  obtain ⟨model, nvModel, revoke, nvRevoke, keys, nvKeys, _, _, _⟩ := h
  refine ⟨model, nvModel, revoke, nvRevoke, keys, nvKeys, by simp, ?_, by simp⟩
  rintro _ (⟨⟨⟩⟩ | ⟨⟨⟩⟩)
  exact lawful

theorem State.revokeAdd_keeps (r : GateRequest) (awake : s.pw.dormant = false) : Keeps s (s.revokeAdd r) := by
  unfold State.revokeAdd
  split
  · exact s.reply_keeps _ _ _
  · next taken =>
    refine (State.setWrite_keeps awake fun store => ?_).trans (State.hold_keeps _ _)
    simp only [State.revokeAddRefusal, check_eq_none_iff] at taken
    obtain ⟨_, _, _, forward, clear, room, _⟩ := taken
    refine lawfulStore_revokeEdit store (lawfulList_add store.2.2.1 (by omega) (by omega) fun y listed => ?_)
    simpa using fun overlaps => clear (List.any_eq_true.mpr ⟨y, listed, overlaps⟩)

theorem State.revokeDrop_keeps (r : GateRequest) (awake : s.pw.dormant = false) : Keeps s (s.revokeDrop r) := by
  unfold State.revokeDrop
  split
  · exact s.reply_keeps _ _ _
  · refine (State.setWrite_keeps awake fun store => ?_).trans (State.hold_keeps _ _)
    exact lawfulStore_revokeEdit store (lawfulList_remove _ store.2.2.1)

theorem State.keyCheck_keeps (r : GateRequest) : Keeps s (s.keyCheck r) := by
  unfold State.keyCheck
  split
  · exact s.refuse_keeps _ _
  · exact (s.hold_keeps _).trans (State.submit_keeps _ _ _)

theorem State.modelGet_keeps (r : GateRequest) : Keeps s (s.modelGet r) := by
  unfold State.modelGet
  dsimp only
  split
  · exact s.refuse_keeps _ _
  · split <;> exact s.reply_keeps _ _ _

theorem State.revokeGet_keeps (r : GateRequest) : Keeps s (s.revokeGet r) := by
  unfold State.revokeGet
  dsimp only
  split
  · exact s.refuse_keeps _ _
  · split <;> exact s.reply_keeps _ _ _

theorem State.gateStatus_keeps (r : GateRequest) : Keeps s (s.gateStatus r) := by
  have cleared : Keeps s { s with flags := StickyFlags.none } := .of_frame (by simp [State.bay])
  unfold State.gateStatus
  split
  · exact s.reply_keeps _ _ _
  · split
    · exact cleared.trans (State.reply_keeps _ _ _ _)
    · exact s.refuse_keeps _ _

theorem State.configSet_keeps (r : GateRequest) : Keeps s (s.configSet r) := by
  have set (cfg : Settings) : Keeps s { s with cfg := cfg } := .of_frame (by simp [State.bay])
  unfold State.configSet
  split
  · split
    · exact (set _).trans (State.reply_keeps _ _ _ _)
    · exact s.refuse_keeps _ _
  · exact s.refuse_keeps _ _

theorem State.configGet_keeps (r : GateRequest) : Keeps s (s.configGet r) := by
  unfold State.configGet
  split
  · split
    · exact s.reply_keeps _ _ _
    · exact s.refuse_keeps _ _
  · exact s.refuse_keeps _ _

theorem State.snapLatch_keeps (r : GateRequest) : Keeps s (s.snapLatch r) := by
  have set (p : Snapshot) : Keeps s { s with me.snapshot := some p } := .of_frame (by simp [State.bay])
  unfold State.snapLatch
  split
  · split
    · exact (set _).trans (State.reply_keeps _ _ _ _)
    · exact s.answer_keeps _
  · exact s.refuse_keeps _ _

theorem State.snapRead_keeps (r : GateRequest) : Keeps s (s.snapRead r) := by
  have set (p : Option Snapshot) : Keeps s { s with me.snapshot := p } := .of_frame (by simp [State.bay])
  unfold State.snapRead
  split
  · split
    · exact s.refuse_keeps _ _
    · exact (set _).trans (State.reply_keeps _ _ _ _)
  · exact s.refuse_keeps _ _

theorem State.gateResetRequest_keeps (det : Four Bool) (r : GateRequest) (awake : s.pw.dormant = false) :
    Keeps s (s.gateResetRequest det r) := by
  have sampled : Keeps s { s with pins.det := det } := .of_frame (by simp [State.bay])
  unfold State.gateResetRequest
  split
  · exact s.refuse_keeps _ _
  · dsimp only
    split
    · exact sampled.trans (State.hold_keeps _ _)
    · exact State.gateReset_keeps sampled (State.not_resting_of_awake awake) rfl _ _

theorem State.bayQuery_keeps (r : GateRequest) : Keeps s (s.bayQuery r) := by
  unfold State.bayQuery
  split
  · exact s.reply_keeps _ _ _
  · exact s.refuse_keeps _ _

theorem State.retryBay_keeps {b : Fin 4} (denied : (s.bay b).state = .denied) : Keeps s (s.retryBay b) := by
  have again : Keeps s (s.setBay b { s.bay b with attempts := 0, reattempt := none }) :=
    State.setBay_keeps_stay rfl rfl fun ⟨queue, strikes, _, retries, entries, run⟩ =>
      ⟨queue, strikes, Nat.zero_le _, retries, entries, run⟩
  refine (again.trans (State.enterIdentifying_keeps ?_)).trans (State.arbitrate_keeps_all _ b)
  simp [denied, BayState.sleeps]

theorem State.bayRetry_keeps (r : GateRequest) : Keeps s (s.bayRetry r) := by
  unfold State.bayRetry
  split
  · split
    · next denied =>
      exact ((State.retryBay_keeps denied).trans (State.derive_keeps _ false)).trans (State.reply_keeps _ _ _ _)
    · exact s.refuse_keeps _ _
  · exact s.refuse_keeps _ _

theorem State.filterSet_keeps (r : GateRequest) : Keeps s (s.filterSet r) := by
  have set (i : Nat) (f : FilterEntry) : Keeps s { s with ff.table := s.ff.table.set i f } :=
    .of_bays (fun _ => rfl) rfl le_rfl rfl
      (fun ⟨queue, table, capture, load⟩ => ⟨queue, by simpa using table, capture, load⟩) id (fun _ => id) id
      fun d => ⟨d, fun w l => ⟨w, l⟩⟩
  unfold State.filterSet
  dsimp only
  split
  · split
    · exact (set _ _).trans (State.reply_keeps _ _ _ _)
    · exact s.refuse_keeps _ _
  · exact s.refuse_keeps _ _

theorem State.filterGet_keeps (r : GateRequest) : Keeps s (s.filterGet r) := by
  unfold State.filterGet
  dsimp only
  split
  · exact s.reply_keeps _ _ _
  · exact s.refuse_keeps _ _

/-- The capture queue loses entries. -/
theorem State.setCapture_keeps {capture : List CaptureEntry} (fewer : s.ff.capture.length ≤ 8 → capture.length ≤ 8) :
    Keeps s { s with ff.capture := capture } :=
  .of_bays (fun _ => rfl) rfl le_rfl rfl
    (fun ⟨queue, table, capture, load⟩ => ⟨queue, table, fewer capture, load⟩) id (fun _ => id) id
    fun d => ⟨d, fun w l => ⟨w, l⟩⟩

theorem State.captureTake_keeps (r : GateRequest) : Keeps s (s.captureTake r) := by
  unfold State.captureTake
  split
  · exact s.refuse_keeps _ _
  · split
    · exact s.refuse_keeps _ _
    · next queue =>
      refine (State.setCapture_keeps fun h => ?_).trans (State.reply_keeps _ _ _ _)
      rw [queue, List.length_cons] at h
      omega

theorem State.noticeStrings_keeps (old : Four StringState) : Keeps s (s.noticeStrings old) := by
  unfold State.noticeStrings
  split
  · exact .of_frame (by simp [State.bay])
  · exact .refl s

theorem State.topologySet_keeps (r : GateRequest) : Keeps s (s.topologySet r) := by
  have set (sc : StringController) : Keeps s { s with sc := sc } := .of_frame (by simp [State.bay])
  unfold State.topologySet
  split
  · exact s.refuse_keeps _ _
  · split
    · exact s.refuse_keeps _ _
    · exact (((set _).trans (State.derive_keeps _ false)).trans (State.noticeStrings_keeps _)).trans
        (State.reply_keeps _ _ _ _)

theorem State.topologyGet_keeps (r : GateRequest) : Keeps s (s.topologyGet r) := by
  unfold State.topologyGet
  split
  · exact s.refuse_keeps _ _
  · exact s.reply_keeps _ _ _

theorem State.stringQuery_keeps (r : GateRequest) : Keeps s (s.stringQuery r) := by
  unfold State.stringQuery
  split
  · exact s.reply_keeps _ _ _
  · exact s.refuse_keeps _ _

theorem State.stringRelease_keeps (r : GateRequest) : Keeps s (s.stringRelease r) := by
  have set (strings : Four StringState) : Keeps s { s with sc.strings := strings } := .of_frame (by simp [State.bay])
  unfold State.stringRelease
  split
  · exact s.refuse_keeps _ _
  · split
    · exact s.refuse_keeps _ _
    · exact (((set _).trans (State.derive_keeps _ false)).trans (State.noticeStrings_keeps _)).trans
        (State.reply_keeps _ _ _ _)

/-! ## Image loads -/

theorem beginFields_le {payload : List Byte} {t : ImageTarget} {n : Nat} (h : beginFields payload = some (t, n)) :
    n ≤ 1024 := by
  simp only [beginFields, Option.ite_none_right_eq_some, Option.map_eq_some_iff, Prod.mk.injEq] at h
  obtain ⟨⟨_, _, le⟩, _, _, _, rfl⟩ := h
  exact le

theorem State.imageBegin_keeps (r : GateRequest) (awake : s.pw.dormant = false) : Keeps s (s.imageBegin r) := by
  unfold State.imageBegin
  split
  · unfold State.openLoad
    split
    · exact s.refuse_keeps _ _
    · next fields =>
      dsimp only
      split
      · exact s.refuse_keeps _ _
      · split
        · exact s.reply_keeps _ _ _
        · refine Keeps.trans ?_ (State.reply_keeps _ _ _ _)
          exact State.setLoad_keeps (State.not_resting_of_awake awake) (fun _ => ⟨Nat.zero_le _, beginFields_le fields⟩)
            (by simp)
  · split
    · exact s.refuse_keeps _ _
    · exact (s.endLoad_keeps _ _ _ _).trans (State.refuse_keeps _ _ _)

theorem State.failLoad_keeps (l : Load) (r : GateRequest) (st : Status) : Keeps s (s.failLoad l r st) :=
  (s.endLoad_keeps _ _ _ _).trans (State.refuse_keeps _ _ _)

theorem State.imageData_keeps (r : GateRequest) (awake : s.pw.dormant = false) : Keeps s (s.imageData r) := by
  unfold State.imageData
  split
  · exact s.refuse_keeps _ _
  · next l load =>
    split
    · next loading =>
      unfold State.appendData
      split
      · exact State.failLoad_keeps l r _
      · next fits =>
        refine Keeps.trans ?_ (State.reply_keeps _ _ _ _)
        refine State.setLoad_keeps (State.not_resting_of_awake awake) (fun h => ?_) (by simp [loading])
        have room : l.buffer.length + (dataBytes r.payload).length ≤ l.declared := by
          simp only [Load.dataFailure, check_eq_none_iff] at fits
          omega
        exact ⟨by simpa using room, (h.2.2.2 l load).2⟩
    · exact s.refuse_keeps _ _

theorem State.imageEnd_keeps (r : GateRequest) (awake : s.pw.dormant = false) : Keeps s (s.imageEnd r) := by
  unfold State.imageEnd
  split
  · exact s.refuse_keeps _ _
  · next l load =>
    split
    · unfold State.closeTransfer
      split
      · exact State.failLoad_keeps l r _
      · refine Keeps.trans ?_ (State.submit_keeps _ _ _)
        exact State.setLoad_keeps (State.not_resting_of_awake awake) (fun h => h.2.2.2 l load) (by simp)
    · exact s.refuse_keeps _ _

theorem State.imageCancel_keeps (r : GateRequest) : Keeps s (s.imageCancel r) := by
  unfold State.imageCancel
  split
  · exact s.refuse_keeps _ _
  · split
    · exact s.refuse_keeps _ _
    · split
      · exact s.refuse_keeps _ _
      · exact (s.endLoad_keeps _ _ _ _).trans (State.refuse_keeps _ _ _)

/-! ## Dormant entry -/

theorem State.dormantBay_keeps (s : State) (b : Fin 4) : Keeps s (s.dormantBay b) := by
  unfold State.dormantBay
  split
  · exact .refl s
  · exact s.emptyBay_keeps b

theorem State.foldl_dormantBay_sleeps (l : List (Fin 4)) (s : State) (o : Fin 4)
    (h : o ∈ l ∨ (s.bay o).state.sleeps = true) : ((l.foldl State.dormantBay s).bay o).state.sleeps = true := by
  induction l generalizing s with
  | nil => exact h.resolve_left List.not_mem_nil
  | cons b l ih =>
    refine ih _ ?_
    have here (x : Fin 4) : ((s.dormantBay b).bay x).state =
        if x = b then (if (s.bay b).state = .lockout then .lockout else .empty) else (s.bay x).state := by
      unfold State.dormantBay
      by_cases lock : (s.bay b).state = .lockout
      · rw [if_pos lock, if_pos lock]; split
        · next same => rw [same, lock]
        · rfl
      · rw [if_neg lock, if_neg lock, State.bay_emptyBay]; split <;> rfl
    by_cases same : o = b
    · right
      rw [here, if_pos same]
      split <;> rfl
    · refine h.imp (fun m => (List.mem_cons.mp m).resolve_left same) fun old => ?_
      rw [here, if_neg same]
      exact old

@[simp] theorem State.dormantBay_frame (s : State) (b : Fin 4) :
    (s.dormantBay b).ts = s.ts ∧ (s.dormantBay b).il = s.il ∧ (s.dormantBay b).pw = s.pw := by
  unfold State.dormantBay
  split <;> simp

/-- The state that dormant entry brings the bays, the loader and the queues to, before the gate is dormant. -/
def State.readyToSleep (s : State) (r : GateRequest) : State :=
  Four.indices.foldl State.dormantBay (s.abortLoad.refuse r .ok).cancelQueue

theorem State.abortLoad_keeps (s : State) : Keeps s s.abortLoad := by
  unfold State.abortLoad
  split
  · exact s.endLoad_keeps _ _ _ _
  · exact .refl s

theorem State.cancelQueue_keeps (s : State) : Keeps s s.cancelQueue :=
  (State.setQueue_keeps fun _ => Nat.zero_le _).trans (State.answer_keeps _ _)

theorem State.readyToSleep_keeps (s : State) (r : GateRequest) : Keeps s (s.readyToSleep r) :=
  ((s.abortLoad_keeps.trans (State.refuse_keeps _ _ _)).trans (State.cancelQueue_keeps _)).trans
    (.foldl State.dormantBay_keeps _ _)

/-- After the last bay's turn nothing is under way but, perhaps, a store write (R208). -/
theorem State.readyToSleep_quiet (s : State) (r : GateRequest) :
    (s.readyToSleep r).ts = s.ts ∧ (s.readyToSleep r).il.load = none ∧
      ∀ b, ((s.readyToSleep r).bay b).state.sleeps = true := by
  refine ⟨?_, ?_, fun b => State.foldl_dormantBay_sleeps _ _ b (.inl (Four.mem_indices b))⟩
  · unfold State.readyToSleep State.abortLoad
    split <;> simp [Four.indices, State.cancelQueue]
  · unfold State.readyToSleep State.abortLoad
    split
    · simp [Four.indices, State.cancelQueue, State.endLoad]
    · simp [Four.indices, State.cancelQueue, *]

/-- What dormant entry does to a gate whose bays are ready. -/
def State.fallAsleep (s : State) : State :=
  { s with pw.dormant := true, pw.detSample := Four.fill none }

/-- What dormant entry takes with it. -/
def State.dropPictures (s : State) : State := { s with ff.capture := [], me.snapshot := none }

theorem State.enterDormant_eq (s : State) (r : GateRequest) :
    s.enterDormant r = ((s.readyToSleep r).fallAsleep.derive true).dropPictures := by
  simp only [State.enterDormant, State.readyToSleep, State.fallAsleep, State.dropPictures]

theorem State.dropPictures_keeps (s : State) : Keeps s s.dropPictures :=
  .of_bays (fun _ => rfl) rfl le_rfl rfl
    (fun ⟨queue, table, _, load⟩ => ⟨queue, table, Nat.zero_le _, load⟩) id (fun _ => id) id
    fun d => ⟨d, fun w l => ⟨w, l⟩⟩

theorem State.fallAsleep_keeps {s : State} (write : s.ts.write = none) (load : s.il.load = none)
    (sleeps : ∀ b, (s.bay b).state.sleeps = true) : Keeps s s.fallAsleep :=
  ⟨rfl, le_rfl, id, id, id, id, fun _ _ => ⟨rfl, write, load, sleeps⟩⟩

theorem State.enterDormant_keeps (s : State) (r : GateRequest) (idle : s.ts.write = none) :
    Keeps s (s.enterDormant r) := by
  obtain ⟨ts, load, sleeps⟩ := s.readyToSleep_quiet r
  rw [State.enterDormant_eq]
  refine Keeps.trans ?_ (State.dropPictures_keeps _)
  refine Keeps.trans ?_ (State.derive_keeps _ true)
  exact (s.readyToSleep_keeps r).trans (State.fallAsleep_keeps (by rw [ts]; exact idle) load sleeps)

theorem State.dormantRequest_keeps (s : State) (r : GateRequest) : Keeps s (s.dormantRequest r) := by
  unfold State.dormantRequest
  split
  · exact s.refuse_keeps _ _
  · split
    · exact s.refuse_keeps _ _
    · next free =>
      refine s.enterDormant_keeps r ?_
      simp only [State.storeBusy, Bool.or_eq_true, not_or] at free
      simpa using free.2.1

/-! ## Every command -/

/-- An outcome that goes on, to a state that the step may lead to. -/
def GoesOn (s : State) (o : Out) : Prop := ∃ t, o = .next t ∧ Keeps s t

theorem goesOn_next {s t : State} (h : Keeps s t) : GoesOn s (.next t) := ⟨t, rfl, h⟩

theorem goesOn_unchanged (s : State) : GoesOn s (unchanged s) := ⟨s, rfl, .refl s⟩

theorem goesOn_done {s t : State} (h : Keeps s t) : GoesOn s (done t) := ⟨_, rfl, h.trans t.settleTx_keeps⟩

theorem goesOn_taken {s t : State} {c : Bool} (h : c = true → Keeps s t) : GoesOn s (taken c s t) := by
  unfold taken
  split
  · next holds => exact goesOn_done (h holds)
  · exact goesOn_unchanged s

theorem goesOn_doneBay {s t : State} (b : Fin 4) (h : Keeps s t) : GoesOn s (doneBay b t) :=
  goesOn_done ((h.trans (t.arbitrate_keeps_all b)).trans (State.derive_keeps _ false))

/-- A command that acts under a condition, and otherwise leaves everything. -/
theorem goesOn_if {s : State} {c : Prop} [Decidable c] {o : Out} (h : c → GoesOn s o) :
    GoesOn s (if c then o else unchanged s) := by
  split
  · next holds => exact h holds
  · exact goesOn_unchanged s

theorem goesOn_replyError (b : Fin 4) (s : State) : GoesOn s (replyError b s) := by
  unfold replyError
  split
  · refine goesOn_doneBay b ?_
    split
    · exact s.abandonedEnd_keeps b
    · exact s.attemptFailed_keeps b _ _
  · exact goesOn_unchanged s

theorem goesOn_bayJobEnds (s : State) (r : RunningJob) {take : Fin 4 → State → State}
    (h : ∀ b t, Keeps t (take b t)) : GoesOn s (bayJobEnds s r take) := by
  unfold bayJobEnds
  split
  · exact goesOn_doneBay _ ((s.jobDone_keeps _).trans (h _ _))
  · exact goesOn_done (s.jobDone_keeps _)

/-- The Management Engine takes requests of an awake gate only (R196). -/
theorem State.awake_of_nextRequest {s : State} {r : GateRequest} (h : s.nextRequest = some r) :
    s.pw.dormant = false := by
  simp only [State.nextRequest, Option.ite_none_right_eq_some, State.meReady, State.awake, Bool.and_eq_true,
    Bool.not_eq_true'] at h
  exact h.1.1.2

theorem goesOn_takeRequest (code : Byte) (s : State) {act : GateRequest → State → State}
    (h : ∀ r t, t.pw.dormant = false → Keeps t (act r t)) : GoesOn s (takeRequest code s act) := by
  unfold takeRequest
  split
  · next r next =>
    refine goesOn_if fun _ => goesOn_done (s.popRequest_keeps.trans (h r _ ?_))
    simpa using State.awake_of_nextRequest next
  · exact goesOn_unchanged s

end

end Sys2Proof.Machine
end

