-- ==== Sys2Proof/Proofs/Invariants.lean ====
section
/-! PROOF. Every command goes on and keeps what every step keeps; the step obligations that follow. -/

namespace Sys2Proof.Machine

open Sys2Proof.Claims

section
variable (s : State) (b : Fin 4)

/-! ## The commands of the gate (chapters 12 and 13) -/

theorem State.not_resting_of_write {s : State} {w : StoreWrite} (h : s.ts.write = some w) : ¬ s.resting :=
  fun ⟨_, idle, _⟩ => absurd (h.symm.trans idle) (by simp)

theorem execStartupRewriteComplete_goesOn (ok : Bool) : GoesOn s (execStartupRewriteComplete ok s) := by
  unfold execStartupRewriteComplete
  split
  · next k _ write =>
    have rewritten : Keeps s { s with ts := s.ts.rewritten k ok } := by
      refine .of_bays (fun _ => rfl) rfl le_rfl ?_ id id (fun _ => ?_) (fun h => ?_) fun d => ⟨d, fun _ l => ⟨?_, l⟩⟩
      · cases k <;> rfl
      · cases k <;> exact id
      · obtain ⟨store, loads⟩ := (lawfulTables_iff s).mp h
        exact (lawfulTables_iff _).mpr ⟨TableStore.rewritten_lawful k ok store, loads⟩
      · cases k <;> rfl
    exact goesOn_done (State.nextRewrite_keeps rewritten (State.not_resting_of_write write) rfl _)
  · exact goesOn_unchanged s

theorem execDormantDetSample_goesOn (det : Four Bool) : GoesOn s (execDormantDetSample det s) := by
  refine goesOn_taken fun _ => ?_
  split
  · exact (s.sampleDet_keeps det).trans (State.wake_keeps _)
  · exact s.sampleDet_keeps det

theorem execDormant_goesOn : GoesOn s (execDormant s) := by
  unfold execDormant
  split
  · exact goesOn_if fun _ =>
      goesOn_next ((s.popRequest_keeps.trans (State.dormantRequest_keeps _ _)).trans (State.transmit_keeps _))
  · exact goesOn_unchanged s

/-! ## The commands of a bay (chapters 1, 5, 6 and 9) -/

theorem execInsertion_goesOn : GoesOn s (execInsertion b s) := by
  refine goesOn_if fun taken => goesOn_doneBay b ?_
  simp only [Bool.and_eq_true, Bool.not_eq_true'] at taken
  have inserted := (s.setDet_keeps b true).trans (State.setPresent_keeps (b := b) true)
  split
  · exact inserted.trans (State.settlePresent_keeps b (State.not_resting_of_awake (by simpa using taken.1.2)))
  · exact inserted

theorem execRemoval_goesOn : GoesOn s (execRemoval b s) :=
  goesOn_if fun _ => goesOn_done (((s.setDet_keeps b false).trans (State.removeBay_keeps _ b)).trans
    (State.derive_keeps _ true))

theorem execSettleExpiry_goesOn (det : Bool) : GoesOn s (execSettleExpiry b det s) := by
  refine goesOn_if fun taken => goesOn_doneBay b ?_
  simp only [Bool.and_eq_true, beq_iff_eq] at taken
  obtain ⟨⟨_, settling⟩, _⟩ := taken
  refine (s.setDet_keeps b det).trans ?_
  split
  · exact State.enterIdentifying_keeps (by simp [settling, BayState.sleeps])
  · exact State.setBay_keeps_stay rfl rfl id

theorem execReattemptExpiry_goesOn : GoesOn s (execReattemptExpiry b s) := by
  refine goesOn_if fun taken => goesOn_doneBay b (State.enterIdentifying_keeps ?_)
  simp only [Bool.and_eq_true, beq_iff_eq] at taken
  rw [taken.1]; rfl

theorem execRenewExpiry_goesOn : GoesOn s (execRenewExpiry b s) := by
  refine goesOn_if fun taken => goesOn_doneBay b (State.enterRenewing_keeps ?_)
  simp only [Bool.and_eq_true, beq_iff_eq] at taken
  rw [taken.1]; rfl

theorem execGraceExpiry_goesOn : GoesOn s (execGraceExpiry b s) := by
  refine goesOn_if fun taken => goesOn_doneBay b (State.endGrace_keeps ?_)
  simp only [Bool.and_eq_true, beq_iff_eq] at taken
  rw [taken.1]; rfl

theorem execCacheExpiry_goesOn (serial : Serial) : GoesOn s (execCacheExpiry serial s) :=
  goesOn_next (State.setCache_keeps (cacheWithin_filter _) fun _ _ m _ => .inl (List.mem_of_mem_filter m))

theorem execRunInputChange_goesOn (level : Bool) : GoesOn s (execRunInputChange level s) :=
  goesOn_if fun _ => ⟨_, rfl, .of_frame (by simp [State.bay])⟩

theorem execRunRise_goesOn : GoesOn s (execRunRise s) :=
  goesOn_if fun _ => goesOn_done ((s.takeRun_keeps true).trans (State.deriveAwake_keeps _))

theorem execRunFall_goesOn : GoesOn s (execRunFall s) :=
  goesOn_if fun _ => goesOn_done (((s.takeRun_keeps false).trans (.foldl State.runFallBay_keeps _ _)).trans
    (State.deriveAwake_keeps _))

/-! ## The commands of a pack line (chapter 7) -/

theorem Bay.onLevel_keeps (x : Bay) (settle : Nat) (dominant : Bool) :
    (x.onLevel settle dominant).state = x.state ∧ (x.onLevel settle dominant).identity = x.identity ∧
      (bayWithin x → bayWithin (x.onLevel settle dominant)) := by
  unfold Bay.onLevel
  split
  · exact ⟨rfl, rfl, id⟩
  · exact ⟨rfl, rfl, id⟩
  · exact ⟨rfl, rfl, id⟩
  · dsimp only
    repeat' split
    all_goals exact ⟨rfl, rfl, id⟩

theorem execBayLineLevelChange_goesOn (dominant : Bool) : GoesOn s (execBayLineLevelChange b dominant s) := by
  obtain ⟨state, identity, within⟩ := (s.bay b).onLevel_keeps s.cfg.settle dominant
  exact goesOn_taken fun _ => (s.setLineLevel_keeps b dominant).trans
    (State.setBay_keeps_stay state (congrArg (Option.map Identity.serial) identity) within)

theorem execStuckLine_goesOn : GoesOn s (execStuckLine b s) := by
  refine goesOn_if fun taken => goesOn_doneBay b (State.enterLineFault_keeps (State.not_resting_of_awake ?_))
  simp only [State.awake, Bool.and_eq_true, Bool.not_eq_true'] at taken
  exact taken.1.1.2

theorem execLineFaultRecovery_goesOn : GoesOn s (execLineFaultRecovery b s) := by
  refine goesOn_if fun taken => goesOn_doneBay b (State.recover_keeps ?_)
  simp only [Bool.and_eq_true, beq_iff_eq] at taken
  exact taken.1.2

theorem execPackFrameSent_goesOn : GoesOn s (execPackFrameSent b s) := by
  unfold execPackFrameSent
  split
  · exact goesOn_done (State.setBay_keeps_stay rfl rfl id)
  · exact goesOn_unchanged s

theorem execCollision_goesOn : GoesOn s (execCollision b s) := by
  unfold execCollision
  split
  · refine goesOn_doneBay b ?_
    split
    · exact s.abandonedEnd_keeps b
    · exact s.attemptFailed_keeps b _ _
  · exact goesOn_unchanged s

theorem execPackReply_goesOn (bytes : List Byte) : GoesOn s (execPackReply b bytes s) := by
  unfold execPackReply
  split
  · exact goesOn_unchanged s
  · split
    · exact goesOn_done (State.setBay_keeps_stay rfl rfl id)
    · exact goesOn_replyError b s
    · exact goesOn_replyError b s
    · refine goesOn_doneBay b ?_
      split
      · exact s.abandonedEnd_keeps b
      · exact s.goodFrame_keeps b _ _

theorem execRetryWaitExpiry_goesOn : GoesOn s (execRetryWaitExpiry b s) := by
  refine goesOn_if fun _ => ?_
  split
  · exact goesOn_done (State.setBay_keeps_stay rfl rfl id)
  · exact goesOn_done (State.setBay_keeps_stay rfl rfl id)
  · exact goesOn_doneBay b (State.setBay_keeps_stay rfl rfl id)
  · exact goesOn_unchanged s

theorem execLinkHoldExpiry_goesOn : GoesOn s (execLinkHoldExpiry b s) :=
  goesOn_if fun _ => goesOn_doneBay b (State.setBay_keeps_stay rfl rfl
    fun ⟨queue, strikes, attempts, retries, entries, _⟩ => ⟨queue, strikes, attempts, retries, entries, by simp⟩)

/-! ## The completions of jobs and store writes (chapters 2 to 4 and 10) -/

theorem execCheckImageComplete_goesOn : GoesOn s (execCheckImageComplete s) := by
  unfold execCheckImageComplete
  split
  · refine goesOn_done ?_
    split
    · exact s.jobDone_keeps _
    · exact (s.jobDone_keeps _).trans (State.takeImageResult_keeps _ _)
  · exact goesOn_unchanged s

theorem execKeyCheckComplete_goesOn : GoesOn s (execKeyCheckComplete s) := by
  unfold execKeyCheckComplete
  split
  · refine goesOn_done ?_
    split
    · exact s.jobDone_keeps _
    · exact (s.jobDone_keeps _).trans (State.takeCheckValue_keeps _ _)
  · exact goesOn_unchanged s

theorem execKeyLoadComplete_goesOn (r : WriteResult) : GoesOn s (execKeyLoadComplete r s) := by
  unfold execKeyLoadComplete
  split
  · next write =>
    exact goesOn_done (((State.commitKeys_keeps r write).trans (State.endKeyLoad_keeps _ r)).trans
      (State.beginImageWrite_keeps _))
  · exact goesOn_unchanged s

theorem execModelCommit_goesOn (r : CommitEvent) : GoesOn s (execModelCommit r s) := by
  unfold execModelCommit
  split
  · next write =>
    refine goesOn_done (State.finishReset_keeps ?_ (State.not_resting_of_write write) ?_ _)
    · exact (State.commitModel_keeps r.write write).trans (State.endCommit_keeps _ _ _)
    · simp only [State.endCommit_frame, State.commitModel, State.derive_frame, State.arbitrateAll_frame,
        State.commitBays_frame]
      split <;> simp [State.storeModel]
  · exact goesOn_unchanged s

theorem execRevocationCommit_goesOn (r : CommitEvent) : GoesOn s (execRevocationCommit r s) := by
  unfold execRevocationCommit
  split
  · next write =>
    have lawful (h : lawfulTables s) := ((lawfulTables_iff s).mp h).1.2.2.2.2.2.2.2.1 _ (.inr write)
    exact goesOn_done (((State.commitRevoke_keeps r.write lawful).trans (State.endEdit_keeps _ _ _)).trans
      (State.beginImageWrite_keeps _))
  · next write =>
    have lawful (h : lawfulTables s) := ((lawfulTables_iff s).mp h).1.2.2.2.2.2.2.2.1 _ (.inl write)
    refine goesOn_done (State.finishReset_keeps ?_ (State.not_resting_of_write write) ?_ _)
    · exact (State.commitRevoke_keeps r.write lawful).trans (State.endCommit_keeps _ _ _)
    · simp only [State.endCommit_frame, State.commitRevoke, State.derive_frame, State.arbitrateAll_frame,
        State.commitBays_frame]
      split <;> simp [State.storeRevoke]
  · exact goesOn_unchanged s

/-! ## The commands of the tool line (chapter 11) -/

theorem execToolFrame_goesOn (bytes : List Byte) : GoesOn s (execToolFrame bytes s) := by
  unfold execToolFrame
  split
  · exact goesOn_done s.rxdWake_keeps
  · split
    · exact goesOn_taken fun _ => s.receive_keeps _
    · exact goesOn_unchanged s

theorem execToolRxGapExpiry_goesOn : GoesOn s (execToolRxGapExpiry s) := by
  unfold execToolRxGapExpiry
  split
  · exact goesOn_taken fun _ => (s.setRx_keeps _).trans (State.setToolFrameError_keeps _)
  · exact goesOn_unchanged s

theorem execToolFramingError_goesOn : GoesOn s (execToolFramingError s) := by
  unfold execToolFramingError
  split
  · exact goesOn_done s.rxdWake_keeps
  · split
    · exact goesOn_taken fun _ => (s.setRx_keeps _).trans (State.setToolFrameError_keeps _)
    · exact goesOn_unchanged s

theorem execToolRxIdleResync_goesOn : GoesOn s (execToolRxIdleResync s) := by
  unfold execToolRxIdleResync
  split
  · exact goesOn_unchanged s
  · exact goesOn_if fun _ => goesOn_next (s.setRx_keeps _)

theorem execFrameSent_goesOn : GoesOn s (execFrameSent s) := by
  have freed : Keeps s { s with tli.tx := none } := .of_frame (by simp [State.bay])
  unfold execFrameSent
  split
  · exact goesOn_next (freed.trans (State.transmit_keeps _))
  · exact goesOn_unchanged s

theorem execUnknownCode_goesOn : GoesOn s (execUnknownCode s) := by
  unfold execUnknownCode
  split
  · split
    · exact goesOn_unchanged s
    · exact goesOn_done (s.popRequest_keeps.trans (State.refuse_keeps _ _ _))
  · exact goesOn_unchanged s

/-! ## All commands -/

theorem exec_goesOn (c : Instr) : GoesOn s (exec c s) := by
  cases c with
  | powerOn levels torn => exact goesOn_done (s.restart_keeps levels torn true)
  | resetnAssert torn => exact goesOn_if fun _ => goesOn_next (s.holdReset_keeps _ torn)
  | resetnRelease levels torn => exact goesOn_taken fun _ => s.restart_keeps levels torn false
  | powerLoss torn => exact goesOn_next (s.holdReset_keeps _ torn)
  | startupRewriteComplete ok => exact execStartupRewriteComplete_goesOn s ok
  | insertion bay => exact execInsertion_goesOn s bay
  | removal bay => exact execRemoval_goesOn s bay
  | settleExpiry bay det => exact execSettleExpiry_goesOn s bay det
  | reattemptExpiry bay => exact execReattemptExpiry_goesOn s bay
  | renewExpiry bay => exact execRenewExpiry_goesOn s bay
  | graceExpiry bay => exact execGraceExpiry_goesOn s bay
  | decayExpiry bay => exact goesOn_if fun _ => goesOn_doneBay bay (s.decayBay_keeps bay)
  | cacheExpiry serial => exact execCacheExpiry_goesOn s serial
  | runInputChange level => exact execRunInputChange_goesOn s level
  | runRise => exact execRunRise_goesOn s
  | runFall => exact execRunFall_goesOn s
  | bayLineLevelChange bay dominant => exact execBayLineLevelChange_goesOn s bay dominant
  | stuckLine bay => exact execStuckLine_goesOn s bay
  | lineFaultRecovery bay => exact execLineFaultRecovery_goesOn s bay
  | packFrameSent bay => exact execPackFrameSent_goesOn s bay
  | collision bay => exact execCollision_goesOn s bay
  | packReply bay bytes => exact execPackReply_goesOn s bay bytes
  | packRxGapExpiry bay => exact goesOn_replyError bay s
  | packRxFrameError bay => exact goesOn_replyError bay s
  | responseTimeout bay => exact goesOn_if fun _ => goesOn_replyError bay s
  | retryWaitExpiry bay => exact execRetryWaitExpiry_goesOn s bay
  | linkHoldExpiry bay => exact execLinkHoldExpiry_goesOn s bay
  | derivePackKeyComplete =>
    change GoesOn s (execDerivePackKeyComplete s)
    unfold execDerivePackKeyComplete
    split
    · exact goesOn_bayJobEnds s _ (State.takePackKey_keeps _ _)
    · exact goesOn_unchanged s
  | checkProofComplete =>
    change GoesOn s (execCheckProofComplete s)
    unfold execCheckProofComplete
    split
    · exact goesOn_bayJobEnds s _ (State.takeProofResult_keeps _ _ _ _ _)
    · exact goesOn_unchanged s
  | deriveSessionComplete =>
    change GoesOn s (execDeriveSessionComplete s)
    unfold execDeriveSessionComplete
    split
    · exact goesOn_bayJobEnds s _ (State.takeSessionKey_keeps _)
    · exact goesOn_unchanged s
  | checkTagComplete =>
    change GoesOn s (execCheckTagComplete s)
    unfold execCheckTagComplete
    split
    · exact goesOn_bayJobEnds s _ (State.takeTagResult_keeps _)
    · exact goesOn_unchanged s
  | checkImageComplete => exact execCheckImageComplete_goesOn s
  | keyCheckComplete => exact execKeyCheckComplete_goesOn s
  | keyLoadComplete result => exact execKeyLoadComplete_goesOn s result
  | modelCommit result => exact execModelCommit_goesOn s result
  | revocationCommit result => exact execRevocationCommit_goesOn s result
  | toolFrame bytes => exact execToolFrame_goesOn s bytes
  | toolRxGapExpiry => exact execToolRxGapExpiry_goesOn s
  | toolFramingError => exact execToolFramingError_goesOn s
  | toolRxIdleResync => exact execToolRxIdleResync_goesOn s
  | frameSent => exact execFrameSent_goesOn s
  | dormantDetSample det => exact execDormantDetSample_goesOn s det
  | rxdWake => exact goesOn_taken fun _ => s.rxdWake_keeps
  | unknownCode => exact execUnknownCode_goesOn s
  | gateStatus => exact goesOn_takeRequest _ s fun r _ _ => State.gateStatus_keeps r
  | configSet => exact goesOn_takeRequest _ s fun r _ _ => State.configSet_keeps r
  | configGet => exact goesOn_takeRequest _ s fun r _ _ => State.configGet_keeps r
  | snapLatch => exact goesOn_takeRequest _ s fun r _ _ => State.snapLatch_keeps r
  | snapRead => exact goesOn_takeRequest _ s fun r _ _ => State.snapRead_keeps r
  | dormant => exact execDormant_goesOn s
  | gateReset det => exact goesOn_takeRequest _ s fun r _ awake => State.gateResetRequest_keeps det r awake
  | bayQuery => exact goesOn_takeRequest _ s fun r _ _ => State.bayQuery_keeps r
  | bayRetry => exact goesOn_takeRequest _ s fun r _ _ => State.bayRetry_keeps r
  | keyLoad => exact goesOn_takeRequest _ s fun r _ awake => State.keyLoad_keeps r awake
  | keyCheck => exact goesOn_takeRequest _ s fun r _ _ => State.keyCheck_keeps r
  | modelGet => exact goesOn_takeRequest _ s fun r _ _ => State.modelGet_keeps r
  | revokeGet => exact goesOn_takeRequest _ s fun r _ _ => State.revokeGet_keeps r
  | revokeAdd => exact goesOn_takeRequest _ s fun r _ awake => State.revokeAdd_keeps r awake
  | revokeDrop => exact goesOn_takeRequest _ s fun r _ awake => State.revokeDrop_keeps r awake
  | imageBegin => exact goesOn_takeRequest _ s fun r _ awake => State.imageBegin_keeps r awake
  | imageData => exact goesOn_takeRequest _ s fun r _ awake => State.imageData_keeps r awake
  | imageEnd => exact goesOn_takeRequest _ s fun r _ awake => State.imageEnd_keeps r awake
  | imageCancel => exact goesOn_takeRequest _ s fun r _ _ => State.imageCancel_keeps r
  | filterSet => exact goesOn_takeRequest _ s fun r _ _ => State.filterSet_keeps r
  | filterGet => exact goesOn_takeRequest _ s fun r _ _ => State.filterGet_keeps r
  | captureTake => exact goesOn_takeRequest _ s fun r _ _ => State.captureTake_keeps r
  | topologySet => exact goesOn_takeRequest _ s fun r _ _ => State.topologySet_keeps r
  | topologyGet => exact goesOn_takeRequest _ s fun r _ _ => State.topologyGet_keeps r
  | stringQuery => exact goesOn_takeRequest _ s fun r _ _ => State.stringQuery_keeps r
  | stringRelease => exact goesOn_takeRequest _ s fun r _ _ => State.stringRelease_keeps r

end

/-- What a step keeps: the waiting commands apart, of which it takes the front. -/
theorem step_keeps {s t : State} (h : step s = .next t) :
    ∃ u, Keeps u t ∧ u = { s with pending := s.pending.tail } := by
  unfold step at h
  split at h
  · next c rest waiting =>
    obtain ⟨t', next, keeps⟩ := exec_goesOn { s with pending := rest } c
    obtain rfl : t' = t := Host.Outcome.next.inj (next.symm.trans h)
    exact ⟨_, keeps, by rw [waiting]; rfl⟩
  · next idle =>
    obtain rfl : s.tick = t := Host.Outcome.next.inj h
    refine ⟨s, s.tick_keeps, ?_⟩
    rw [idle, List.tail_nil, ← idle]

end Sys2Proof.Machine

open Sys2Proof Sys2Proof.Machine Sys2Proof.Claims

/-- Settles O3: each command's outcome is a next state, and no operation touches the waiting commands. -/
theorem everyCommandGoesOn : Obligations.EveryCommandGoesOn := by
  intro c s
  obtain ⟨t, next, keeps⟩ := exec_goesOn s c
  exact ⟨t, next, keeps.pending⟩

/-- Settles O56: every operation keeps the capacities. -/
theorem stepsKeepCapacities : Obligations.StepsKeepCapacities := by
  intro s t within next
  obtain ⟨_, keeps, rfl⟩ := step_keeps next
  exact keeps.capacities within

/-- Settles O57: every operation keeps the tables lawful. -/
theorem stepsKeepTablesLawful : Obligations.StepsKeepTablesLawful := by
  intro s t lawful next
  obtain ⟨_, keeps, rfl⟩ := step_keeps next
  exact keeps.tables lawful

/-- Settles O58: no operation lets two bays hold a serial, or authorizes or caches a revoked one. -/
theorem stepsKeepTrust : Obligations.StepsKeepTrust := by
  intro s t trust next
  obtain ⟨_, keeps, rfl⟩ := step_keeps next
  obtain ⟨apart, unrevoked⟩ := (trustworthy_iff s).mp trust
  exact (trustworthy_iff t).mpr ⟨keeps.apart apart, keeps.unrevoked unrevoked⟩
end

