-- ==== Sys2Proof/Proofs/Derivation.lean ====
section
/-! PROOF. The string derivation, stage by stage, in the terms of the claims (R153 to R163). -/

namespace Sys2Proof.Machine

open Sys2Proof.Claims

/-! ## What the derivation reads -/

theorem Bay.eligible_iff (x : Bay) : x.state.eligible = true ↔ eligible x := by
  cases h : x.state <;> simp [BayState.eligible, eligible, h]

theorem allEligible_iff (s : State) (x : Fin 4) :
    allEligible s.bays (s.sc.members x) = true ↔ ∀ b ∈ membersOf s x, eligible (s.bay b) := by
  simp only [allEligible, List.all_eq_true]
  exact forall_congr' fun b => forall_congr' fun _ => Bay.eligible_iff (s.bay b)

theorem mem_memberAttrs {s : State} {x : Fin 4} {a : ModelAttrs} :
    a ∈ memberAttrs s.bays (s.sc.members x) ↔ ∃ b ∈ membersOf s x, (s.bay b).attrs = some a :=
  List.mem_filterMap

theorem allAttrs_iff (s : State) (x : Fin 4) :
    allAttrs s.bays (s.sc.members x) = true ↔ ∀ b ∈ membersOf s x, ∃ a, (s.bay b).attrs = some a := by
  simp only [allAttrs, List.all_eq_true, Option.isSome_iff_exists]
  exact Iff.rfl

theorem internallyFit_iff (s : State) (x : Fin 4) : internallyFit s.bays (s.sc.members x) = true ↔ fit s x := by
  simp only [internallyFit, Bool.and_eq_true, Bool.or_eq_true, decide_eq_true_eq, List.all_eq_true, ModelAttrs.agrees,
    beq_iff_eq, allAttrs_iff, mem_memberAttrs, ModelAttrs.seriesOk, fit]
  constructor
  · rintro ⟨⟨held, agree⟩, series⟩ b m
    obtain ⟨a, attrs⟩ := held b m
    refine ⟨a, attrs, fun o mo => ?_, fun two => ?_⟩
    · obtain ⟨a', attrs'⟩ := held o mo
      obtain ⟨⟨chemistry, cells⟩, capacity⟩ := agree a' ⟨o, mo, attrs'⟩ a ⟨b, m, attrs⟩
      exact ⟨a', attrs', chemistry, cells, capacity⟩
    · exact series.resolve_left (by change ¬ (membersOf s x).length ≤ 1; omega) a ⟨b, m, attrs⟩
  · intro h
    refine ⟨⟨fun b m => (h b m).imp fun a => And.left, ?_⟩, ?_⟩
    · rintro a ⟨b, m, attrs⟩ a' ⟨o, mo, attrs'⟩
      obtain ⟨a'', attrs'', all, _⟩ := h o mo
      obtain rfl : a' = a'' := Option.some.inj (attrs'.symm.trans attrs'')
      obtain ⟨a'', attrs'', chemistry, cells, capacity⟩ := all b m
      obtain rfl : a = a'' := Option.some.inj (attrs.symm.trans attrs'')
      exact ⟨⟨chemistry, cells⟩, capacity⟩
    · refine Classical.or_iff_not_imp_left.mpr fun two => ?_
      rintro a ⟨b, m, attrs⟩
      obtain ⟨a', attrs', _, series⟩ := h b m
      obtain rfl : a = a' := Option.some.inj (attrs.symm.trans attrs')
      exact series (by change ¬ (membersOf s x).length ≤ 1 at two; omega)

theorem parallelOk_iff (s : State) (x : Fin 4) : parallelOk s.bays (s.sc.members x) = true ↔ parallel s x := by
  simp only [parallelOk, Bool.and_eq_true, List.all_eq_true, allAttrs_iff, mem_memberAttrs, ModelAttrs.parallelOk,
    parallel]
  constructor
  · rintro ⟨held, all⟩ b m
    obtain ⟨a, attrs⟩ := held b m
    exact ⟨a, attrs, all a ⟨b, m, attrs⟩⟩
  · intro h
    refine ⟨fun b m => (h b m).imp fun a => And.left, ?_⟩
    rintro a ⟨b, m, attrs⟩
    obtain ⟨a', attrs', ok⟩ := h b m
    obtain rfl : a = a' := Option.some.inj (attrs.symm.trans attrs')
    exact ok

/-! ## The first of an ascending list -/

/-- In an ascending list the first element of a kind is the one below every other of the kind. -/
theorem find?_eq_some_of_least {p : Fin 4 → Bool} {l : List (Fin 4)} {x : Fin 4} (sorted : l.Pairwise (· < ·))
    (listed : x ∈ l) (holds : p x = true) (least : ∀ y ∈ l, p y = true → y = x ∨ x < y) : l.find? p = some x := by
  induction l with
  | nil => exact absurd listed List.not_mem_nil
  | cons a l ih =>
    obtain ⟨below, sorted⟩ := List.pairwise_cons.mp sorted
    rcases List.mem_cons.mp listed with rfl | listed
    · simp [holds]
    · have : ¬ p a = true := fun ha => by
        have := below x listed
        rcases least a List.mem_cons_self ha with rfl | gt <;> omega
      rw [List.find?_cons_of_neg this]
      exact ih sorted listed fun y m => least y (List.mem_cons_of_mem _ m)

theorem indices_sorted : Four.indices.Pairwise (· < ·) := by decide

/-- The first of the strings that the derivation picks from, those ENABLED before taking precedence (R160, R161). -/
theorem first_of_firstOf {s : State} {P : Fin 4 → Prop} {l : List (Fin 4)} {x : Fin 4} (mem : ∀ y, y ∈ l ↔ P y)
    (sorted : l.Pairwise (· < ·)) (first : firstOf s P x) :
    (wasOn s x ∧ l.find? s.sc.wasEnabled = some x) ∨
      (l.find? s.sc.wasEnabled = none ∧ l.head? = some x ∧ ¬ wasOn s x) := by
  obtain ⟨holds, order⟩ := first
  have on (y : Fin 4) : s.sc.wasEnabled y = true ↔ wasOn s y := by simp [StringController.wasEnabled, wasOn]
  by_cases here : wasOn s x
  · refine .inl ⟨here, find?_eq_some_of_least sorted ((mem x).mpr holds) ((on x).mpr here) fun y m hy => ?_⟩
    refine or_iff_not_imp_left.mpr fun ne => ?_
    rcases order y ((mem y).mp m) ne with ⟨_, lt⟩ | ⟨off, _⟩
    · exact lt ((on y).mp hy)
    · exact absurd here off
  · have off (y : Fin 4) (m : y ∈ l) : ¬ wasOn s y := by
      by_cases same : y = x
      · exact same ▸ here
      · rcases order y ((mem y).mp m) same with ⟨on, _⟩ | ⟨_, off, _⟩
        · exact absurd on here
        · exact off
    refine .inr ⟨List.find?_eq_none.mpr fun y m hy => off y m ((on y).mp hy), ?_, here⟩
    have head : l.find? (fun _ => true) = some x :=
      find?_eq_some_of_least sorted ((mem x).mpr holds) rfl fun y m _ => or_iff_not_imp_left.mpr fun ne => by
        rcases order y ((mem y).mp m) ne with ⟨on, _⟩ | ⟨_, _, lt⟩
        · exact absurd on here
        · exact lt
    cases l with
    | nil => simp at head
    | cons a l => simpa using head

/-! ## The first stages (R157 to R159) -/

section
variable (s : State) (byRemoval : Bool) (x : Fin 4)

/-- What a derivation of the gate reads beside bays and strings. -/
def State.deriveInputs : DeriveInputs := ⟨byRemoval, s.sc.runFiltered, s.pw.provision, s.pw.dormant⟩

theorem State.strings_derive :
    (s.derive byRemoval).sc.strings.get x = derivedState s.sc s.bays (s.deriveInputs byRemoval) x := by
  simp [StringController.derive, State.deriveInputs]

variable {s byRemoval x}

theorem sortString_unused (empty : membersOf s x = []) : sortString s.sc s.bays byRemoval x = some .unused := by
  have : s.sc.members x = [] := empty
  unfold sortString
  split <;> simp_all

theorem sortString_latched {b : Fin 4} (members : membersOf s x ≠ []) (latched : s.sc.strings.get x = .latchedOff b) :
    sortString s.sc s.bays byRemoval x = some (.latchedOff b) := by
  unfold sortString
  dsimp only
  split
  · next empty => exact absurd empty members
  · simp only [latched]

/-- A string with members and no latch is judged by its members. -/
theorem sortString_judged (members : membersOf s x ≠ []) (unlatched : ∀ b, s.sc.strings.get x ≠ .latchedOff b) :
    sortString s.sc s.bays byRemoval x =
      if allEligible s.bays (s.sc.members x) then
        if internallyFit s.bays (s.sc.members x) then none else some (.mismatch .unfit)
      else if s.sc.strings.get x = .enabled ∧ s.sc.manual.get x = true ∧ byRemoval = false then
        match (s.sc.members x).find? (fun b => !(s.bays.get b).state.eligible) with
        | some b => some (.latchedOff b)
        | none => some .idle
      else some .idle := by
  unfold sortString
  dsimp only
  split
  · next empty => exact absurd empty members
  · split
    · next b latched => exact absurd latched (unlatched b)
    · rfl

theorem sortString_none_iff : sortString s.sc s.bays byRemoval x = none ↔ candidate s x := by
  by_cases members : membersOf s x = []
  · simp [sortString_unused members, candidate, members]
  · by_cases latched : ∃ b, s.sc.strings.get x = .latchedOff b
    · obtain ⟨b, latched⟩ := latched
      simp [sortString_latched members latched, candidate, latched]
    · have unlatched : ∀ b, s.sc.strings.get x ≠ .latchedOff b := not_exists.mp latched
      rw [sortString_judged members unlatched, candidate, ← internallyFit_iff, ← allEligible_iff]
      simp only [ne_eq, members, not_false_eq_true, unlatched, true_and, implies_true]
      repeat' split
      all_goals simp_all

theorem derivedState_of_sort {st : StringState} (sorted : sortString s.sc s.bays byRemoval x = some st) :
    (s.derive byRemoval).sc.strings.get x = st := by
  simp only [State.strings_derive, derivedState, State.deriveInputs, sorted]

theorem membersOf_sorted : (membersOf s x).Pairwise (· < ·) := indices_sorted.filter _

/-! ## The later stages (R160 to R162) -/

variable (s byRemoval)

/-- The candidates that a derivation finds. -/
def State.candidateStrings : List (Fin 4) := candidates s.sc s.bays byRemoval

/-- The strings that it matches. -/
def State.matchedStrings : List (Fin 4) := matchedOf s.sc s.bays (s.candidateStrings byRemoval)

variable {s byRemoval}

theorem mem_candidateStrings : x ∈ s.candidateStrings byRemoval ↔ candidate s x := by
  simp [State.candidateStrings, candidates, Option.isNone_iff_eq_none, sortString_none_iff]

theorem candidateStrings_sorted : (s.candidateStrings byRemoval).Pairwise (· < ·) :=
  List.Pairwise.filter (fun x => (sortString s.sc s.bays byRemoval x).isNone) indices_sorted

theorem State.reference_derive :
    (s.derive byRemoval).sc.reference = referenceOf s.sc s.bays (s.candidateStrings byRemoval) := by
  simp only [State.sc_derive]; rfl

theorem mem_matchedStrings :
    x ∈ s.matchedStrings byRemoval ↔ candidate s x ∧ (s.derive byRemoval).sc.reference = some (volts s x) := by
  rw [State.matchedStrings, matchedOf, List.mem_filter, mem_candidateStrings, State.reference_derive, beq_iff_eq,
    voltage_eq_volts, eq_comm]

theorem matchedStrings_sorted : (s.matchedStrings byRemoval).Pairwise (· < ·) := candidateStrings_sorted.filter _

theorem reference_of_first (first : firstOf s (candidate s) x) :
    (s.derive byRemoval).sc.reference = some (volts s x) := by
  rw [State.reference_derive, referenceOf]
  rcases first_of_firstOf (fun _ => mem_candidateStrings (byRemoval := byRemoval)) candidateStrings_sorted first with
    ⟨_, found⟩ | ⟨absent, head, _⟩
  · simp only [found, voltage_eq_volts]
  · simp only [absent, head, Option.map_some, voltage_eq_volts]

theorem reference_of_none (none : ∀ y, ¬ candidate s y) : (s.derive byRemoval).sc.reference = .none := by
  have empty : s.candidateStrings byRemoval = [] :=
    List.eq_nil_iff_forall_not_mem.mpr fun y m => none y (mem_candidateStrings.mp m)
  rw [State.reference_derive, empty]; rfl

/-- The admitted set grows from its first string by those that are parallel with all before them (R161). -/
theorem mem_foldl_admitOne {adm l : List (Fin 4)} (started : adm ≠ []) {y : Fin 4} :
    y ∈ l.foldl (admitOne s.sc s.bays) adm ↔
      y ∈ adm ∨ (y ∈ l ∧ parallel s y ∧ ∀ z ∈ adm, parallel s z) := by
  induction l generalizing adm with
  | nil => simp
  | cons a l ih =>
    rw [List.foldl_cons, admitOne, if_neg started]
    split
    · next fits =>
      simp only [Bool.and_eq_true, parallelOk_iff, List.all_eq_true] at fits
      obtain ⟨ok, oks⟩ := fits
      rw [ih (by simp)]
      simp only [List.mem_append, List.mem_cons, List.not_mem_nil, or_false]
      constructor
      · rintro ((m | rfl) | ⟨m, par, _⟩)
        · exact .inl m
        · exact .inr ⟨.inl rfl, ok, oks⟩
        · exact .inr ⟨.inr m, par, oks⟩
      · rintro (m | ⟨rfl | m, par, all⟩)
        · exact .inl (.inl m)
        · exact .inl (.inr rfl)
        · exact .inr ⟨m, par, by rintro z (m | rfl); exacts [all z m, ok]⟩
    · next unfit =>
      simp only [Bool.and_eq_true, parallelOk_iff, List.all_eq_true, not_and] at unfit
      rw [ih started, List.mem_cons]
      refine or_congr_right ⟨fun ⟨m, h⟩ => ⟨.inr m, h⟩, ?_⟩
      rintro ⟨rfl | m, par, all⟩
      · exact absurd all (unfit par)
      · exact ⟨m, par, all⟩

variable (s byRemoval) in
/-- The admitted strings. -/
def State.admittedStrings : List (Fin 4) := admittedOf s.sc s.bays (s.matchedStrings byRemoval)

/-- The admitted set is built from one first string (R161). -/
theorem mem_admittedStrings {z : Fin 4} {rest : List (Fin 4)}
    (order : (s.matchedStrings byRemoval).filter s.sc.wasEnabled ++
      (s.matchedStrings byRemoval).filter (fun x => !s.sc.wasEnabled x) = z :: rest) {y : Fin 4} :
    y ∈ s.admittedStrings byRemoval ↔
      y = z ∨ (y ∈ s.matchedStrings byRemoval ∧ parallel s y ∧ parallel s z) := by
  have members (y : Fin 4) : y ∈ s.matchedStrings byRemoval ↔ y = z ∨ y ∈ rest := by
    rw [← List.mem_cons, ← order, List.mem_append, List.mem_filter, List.mem_filter, ← and_or_left]
    simp
  rw [State.admittedStrings, admittedOf, order, List.foldl_cons, admitOne, if_pos rfl,
    mem_foldl_admitOne (by simp), members]
  simp only [List.mem_singleton, forall_eq]
  tauto

theorem derivedState_of_candidate (cand : candidate s x) :
    (s.derive byRemoval).sc.strings.get x =
      if x ∈ s.matchedStrings byRemoval then
        if x ∈ s.admittedStrings byRemoval then heldState s.sc (s.deriveInputs byRemoval) x else .mismatch .parallel
      else .mismatch .voltage := by
  simp only [State.strings_derive, derivedState, State.deriveInputs, sortString_none_iff.mpr cand,
    List.contains_iff_mem]
  rfl

theorem heldState_eq :
    heldState s.sc (s.deriveInputs byRemoval) x =
      if s.sc.strings.get x = .enabled then .enabled
      else if s.sc.runFiltered = true ∨ s.pw.provision = true ∨ s.pw.dormant = true then
        .pending s.sc.runFiltered s.pw.provision
      else .enabled := by
  simp only [heldState, StringController.wasEnabled, State.deriveInputs, beq_iff_eq, Bool.or_eq_true, or_assoc]

/-- The string that is considered first stands first in the order of R161. -/
theorem order_of_first (first : firstOf s (fun y => y ∈ s.matchedStrings byRemoval) x) :
    ∃ rest, (s.matchedStrings byRemoval).filter s.sc.wasEnabled ++
      (s.matchedStrings byRemoval).filter (fun x => !s.sc.wasEnabled x) = x :: rest := by
  rcases first_of_firstOf (fun _ => Iff.rfl) matchedStrings_sorted first with ⟨_, found⟩ | ⟨absent, head, off⟩
  · rw [← List.head?_filter] at found
    obtain ⟨rest, eq⟩ := List.head?_eq_some_iff.mp found
    exact ⟨_, by rw [eq, List.cons_append]⟩
  · have none_on : (s.matchedStrings byRemoval).filter s.sc.wasEnabled = [] :=
      List.filter_eq_nil_iff.mpr (List.find?_eq_none.mp absent)
    have all_off : (s.matchedStrings byRemoval).filter (fun x => !s.sc.wasEnabled x) = s.matchedStrings byRemoval :=
      List.filter_eq_self.mpr fun y m => by simpa using List.find?_eq_none.mp absent y m
    obtain ⟨rest, eq⟩ := List.head?_eq_some_iff.mp head
    exact ⟨rest, by rw [none_on, all_off, eq]; rfl⟩

end

end Sys2Proof.Machine

open Sys2Proof Sys2Proof.Machine Sys2Proof.Claims

namespace Sys2Proof.Machine

theorem derivationSortsStrings : DerivationSortsStrings := by
  intro s byRemoval x
  refine ⟨fun empty => derivedState_of_sort (sortString_unused empty),
    fun members b latched => derivedState_of_sort (sortString_latched members latched), fun members unlatched => ?_⟩
  have judged := sortString_judged (byRemoval := byRemoval) members unlatched
  refine ⟨fun b m unfit least => derivedState_of_sort ?_, fun all unfit => derivedState_of_sort ?_⟩
  · have some_out : ¬ allEligible s.bays (s.sc.members x) = true := fun all =>
      unfit ((allEligible_iff s x).mp all b m)
    have first : (s.sc.members x).find? (fun b => !(s.bays.get b).state.eligible) = some b := by
      have out (o : Fin 4) : (!(s.bays.get o).state.eligible) = true ↔ ¬ eligible (s.bay o) := by
        rw [← Bay.eligible_iff]; simp [State.bay]
      refine find?_eq_some_of_least membersOf_sorted m ((out b).mpr unfit) fun o mo ho => ?_
      rcases lt_trichotomy o b with lt | eq | gt
      · exact absurd (least o mo lt) ((out o).mp ho)
      · exact .inl eq
      · exact .inr gt
    rw [judged, if_neg some_out, first]
    split <;> rfl
  · rw [judged, if_pos ((allEligible_iff s x).mpr all), if_neg fun h => unfit ((internallyFit_iff s x).mp h)]

theorem derivationMatchesAndAdmits : DerivationMatchesAndAdmits := by
  intro s byRemoval
  dsimp only
  refine ⟨reference_of_none, fun x => reference_of_first, fun x cand unmatched => ?_, fun x y first here => ?_⟩
  · rw [derivedState_of_candidate cand, if_neg fun m => unmatched (mem_matchedStrings.mp m)]
  · simp only [← mem_matchedStrings] at first here
    obtain ⟨rest, order⟩ := order_of_first first
    have admitted := mem_admittedStrings order (y := y)
    have state := derivedState_of_candidate (byRemoval := byRemoval) (mem_matchedStrings.mp here).1
    rw [if_pos here] at state
    refine ⟨fun ne apart => ?_, fun joins => ?_⟩
    · rw [state, if_neg fun m => ?_]
      exact apart ((admitted.mp m).resolve_left ne).2.symm
    · rw [state, if_pos (admitted.mpr (joins.imp_right fun ⟨px, py⟩ => ⟨here, py, px⟩)), heldState_eq]

end Sys2Proof.Machine

/-- Settles O10: the stages of the model's derivation are those of the claims. -/
theorem derivationFollowsItsStages : Obligations.DerivationFollowsItsStages :=
  ⟨derivationSortsStrings, derivationMatchesAndAdmits⟩

/-- Settles O11: BEN is computed from the new strings, and the notice is the model's `stringsNoticed`. -/
theorem derivationDrivesBen : Obligations.DerivationDrivesBen := by
  intro s byRemoval
  refine ⟨fun b => ?_, ?_, ?_⟩
  · simp only [State.sc_derive, StringController.derive, benOf, Four.get_map]
    cases s.sc.assign.get b <;> simp
  · rw [← stringsNoticed_iff, State.sc_derive]
    unfold State.derive
    dsimp only
    split <;> simp [*]
  · unfold State.derive
    dsimp only
    split <;> rfl
end

