-- ==== Sys2Proof/Proofs/PowerGate.lean ====
section
/-! PROOF. No step powers a bay whose string may not be connected (R153 to R163, R169, R208). An event that moves bays
ends in a derivation, which leaves the gate lawful whatever the bays became; the other events move neither strings nor
anything that an ENABLED string rests on. -/

namespace Sys2Proof.Machine

open Sys2Proof.Claims

/-! ## The invariant -/

/-- The clauses of `powerGated` on the strings. -/
def gated (s : State) : Prop :=
  (∀ b, s.sc.ben.get b = true ↔ ∃ x, s.sc.assign.get b = some x ∧ s.sc.strings.get x = .enabled) ∧
  (∀ x, s.sc.strings.get x = .enabled →
    membersOf s x ≠ [] ∧ (∀ b ∈ membersOf s x, eligible (s.bay b)) ∧ fit s x ∧ s.sc.reference = some (volts s x) ∧
      s.pw.provision = false ∧ s.pw.dormant = false ∧
      ∀ y, s.sc.strings.get y = .enabled → y ≠ x → parallel s x ∧ parallel s y)

theorem powerGated_iff (s : State) : powerGated s ↔ gated s ∧ s.rests := by
  unfold powerGated gated State.rests State.resting
  simp only [BayState.sleeps_iff]
  tauto

/-- No string is ENABLED in provisioning mode or in dormant (R162, R169). -/
def enabledAwake (s : State) : Prop :=
  ∀ x, s.sc.strings.get x = .enabled → s.pw.provision = false ∧ s.pw.dormant = false

theorem enabledAwake_of_gated {s : State} (h : gated s) : enabledAwake s := fun x on =>
  have ⟨_, _, _, _, provision, dormant, _⟩ := h.2 x on
  ⟨provision, dormant⟩

/-! ## Strings that keep their bays -/

/-- From `s` to `t` the strings stand, and so does every bay that may be powered. -/
structure StringsStand (s t : State) : Prop where
  assign : t.sc.assign = s.sc.assign
  strings : t.sc.strings = s.sc.strings
  reference : t.sc.reference = s.sc.reference
  ben : t.sc.ben = s.sc.ben
  provision : t.pw.provision = s.pw.provision
  dormant : t.pw.dormant = s.pw.dormant
  bays : ∀ b, eligible (s.bay b) → eligible (t.bay b) ∧ (t.bay b).attrs = (s.bay b).attrs

theorem membersOf_congr {s t : State} (assign : t.sc.assign = s.sc.assign) (x : Fin 4) :
    membersOf t x = membersOf s x := by
  simp only [membersOf, assign]

section
variable {s t : State} {x : Fin 4} (members : membersOf t x = membersOf s x)
  (attrs : ∀ b ∈ membersOf s x, (t.bay b).attrs = (s.bay b).attrs)
include members attrs

theorem fit_congr (h : fit s x) : fit t x := by
  intro b m
  rw [members] at m
  obtain ⟨a, held, agree, series⟩ := h b m
  refine ⟨a, by rw [attrs b m, held], fun o mo => ?_, by rwa [members]⟩
  rw [members] at mo
  rw [attrs o mo]
  exact agree o mo

theorem parallel_congr (h : parallel s x) : parallel t x := by
  intro b m
  rw [members] at m
  rw [attrs b m]
  exact h b m

theorem volts_congr : volts t x = volts s x := by
  rw [volts, volts, members]
  exact congrArg List.sum (List.map_congr_left fun b m => by rw [attrs b m])

end

theorem gated_of_stand {s t : State} (h : StringsStand s t) (old : gated s) : gated t := by
  obtain ⟨power, on⟩ := old
  refine ⟨by rw [h.ben, h.assign, h.strings]; exact power, fun x enabled => ?_⟩
  rw [h.strings] at enabled
  obtain ⟨members, fitBays, fits, reference, provision, dormant, others⟩ := on x enabled
  have sameMembers (y : Fin 4) := membersOf_congr h.assign y
  have attrs (y : Fin 4) (enabled : s.sc.strings.get y = .enabled) (b : Fin 4) (m : b ∈ membersOf s y) :
      (t.bay b).attrs = (s.bay b).attrs := (h.bays b ((on y enabled).2.1 b m)).2
  refine ⟨by rwa [sameMembers], fun b m => ?_, fit_congr (sameMembers x) (attrs x enabled) fits, ?_,
    h.provision.trans provision, h.dormant.trans dormant, fun y enabledY ne => ?_⟩
  · rw [sameMembers] at m
    exact (h.bays b (fitBays b m)).1
  · rw [h.reference, volts_congr (sameMembers x) (attrs x enabled)]
    exact reference
  · rw [h.strings] at enabledY
    obtain ⟨px, py⟩ := others y enabledY ne
    exact ⟨parallel_congr (sameMembers x) (attrs x enabled) px, parallel_congr (sameMembers y) (attrs y enabledY) py⟩

/-- No string ENABLED and every BEN off. -/
theorem gated_of_off {s : State} (strings : ∀ x, s.sc.strings.get x ≠ .enabled) (ben : s.sc.ben = Four.fill false) :
    gated s :=
  ⟨fun b => by simp [ben, strings], fun x on => absurd on (strings x)⟩

/-! ## A derivation leaves the gate lawful -/

theorem sortString_ne_enabled {s : State} {byRemoval : Bool} {x : Fin 4} :
    sortString s.sc s.bays byRemoval x ≠ some .enabled := by
  unfold sortString
  dsimp only
  repeat' split
  all_goals simp

/-- A string that a derivation leaves ENABLED is an admitted candidate, held by no cause of R162 unless it was
ENABLED. -/
theorem enabled_of_derive {s : State} {byRemoval : Bool} {x : Fin 4}
    (on : (s.derive byRemoval).sc.strings.get x = .enabled) :
    candidate s x ∧ x ∈ s.matchedStrings byRemoval ∧ x ∈ s.admittedStrings byRemoval ∧
      (s.sc.strings.get x = .enabled ∨ (s.pw.provision = false ∧ s.pw.dormant = false)) := by
  cases sorted : sortString s.sc s.bays byRemoval x with
  | some st =>
    rw [derivedState_of_sort sorted] at on
    exact absurd (on ▸ sorted) sortString_ne_enabled
  | none =>
    have cand := sortString_none_iff.mp sorted
    rw [derivedState_of_candidate cand] at on
    split at on
    · next matched =>
      split at on
      · next admitted =>
        refine ⟨cand, matched, admitted, ?_⟩
        rw [heldState_eq] at on
        split at on
        · next was => exact .inl was
        · split at on
          · cases on
          · next free =>
            simp only [not_or, Bool.not_eq_true] at free
            exact .inr free.2
      · cases on
    · cases on

theorem ben_derive (s : State) (byRemoval : Bool) (b : Fin 4) :
    (s.derive byRemoval).sc.ben.get b = true ↔
      ∃ x, s.sc.assign.get b = some x ∧ (s.derive byRemoval).sc.strings.get x = .enabled := by
  simp only [State.sc_derive, StringController.derive, benOf, Four.get_map]
  cases s.sc.assign.get b <;> simp

theorem gated_derive {s : State} (byRemoval : Bool) (awake : enabledAwake s) : gated (s.derive byRemoval) := by
  have assign : (s.derive byRemoval).sc.assign = s.sc.assign := by simp [StringController.derive]
  have members (y : Fin 4) := membersOf_congr assign y
  have attrs (y : Fin 4) (b : Fin 4) (_ : b ∈ membersOf s y) :
      ((s.derive byRemoval).bay b).attrs = (s.bay b).attrs := by simp
  refine ⟨fun b => by rw [ben_derive, assign], fun x on => ?_⟩
  obtain ⟨cand, matched, admitted, held⟩ := enabled_of_derive on
  obtain ⟨nonempty, _, eligibles, fits⟩ := cand
  obtain ⟨provision, dormant⟩ := held.elim (awake x) id
  refine ⟨by rwa [members], fun b m => ?_, fit_congr (members x) (attrs x) fits, ?_, by simpa using provision,
    by simpa using dormant, fun y onY ne => ?_⟩
  · rw [members] at m
    simpa using eligibles b m
  · rw [volts_congr (members x) (attrs x)]
    exact (mem_matchedStrings.mp matched).2
  · obtain ⟨_, matchedY, admittedY, _⟩ := enabled_of_derive onY
    refine And.imp (parallel_congr (members x) (attrs x)) (parallel_congr (members y) (attrs y)) ?_
    cases order : (s.matchedStrings byRemoval).filter s.sc.wasEnabled ++
        (s.matchedStrings byRemoval).filter (fun x => !s.sc.wasEnabled x) with
    | nil =>
      rw [List.append_eq_nil_iff, List.filter_eq_nil_iff, List.filter_eq_nil_iff] at order
      exact absurd (order.2 x matched) (by simpa using order.1 x matched)
    | cons z rest =>
      rcases (mem_admittedStrings order).mp admitted with rfl | ⟨_, px, pz⟩
      · obtain ⟨_, py, px⟩ := ((mem_admittedStrings order).mp admittedY).resolve_left ne
        exact ⟨px, py⟩
      · rcases (mem_admittedStrings order).mp admittedY with rfl | ⟨_, py, _⟩
        · exact ⟨px, pz⟩
        · exact ⟨px, py⟩

/-! ## Events -/

/-- What an event does to the invariant on the strings, given that a dormant gate is at rest. -/
def Gated (s t : State) : Prop := gated s → s.rests → gated t

theorem Gated.trans_stand {s t u : State} (h : Gated s t) (k : StringsStand t u) : Gated s u :=
  fun old rests => gated_of_stand k (h old rests)

theorem Gated.of_stand {s t : State} (k : StringsStand s t) : Gated s t := fun old _ => gated_of_stand k old

/-- An event that leaves String Controller and bays. -/
theorem StringsStand.of_frame {s t : State}
    (frame : t.sc = s.sc ∧ t.pw.provision = s.pw.provision ∧ t.pw.dormant = s.pw.dormant ∧
      ∀ b, (t.bay b).state = (s.bay b).state ∧ (t.bay b).identity = (s.bay b).identity) : StringsStand s t := by
  obtain ⟨sc, provision, dormant, bays⟩ := frame
  refine ⟨by rw [sc], by rw [sc], by rw [sc], by rw [sc], provision, dormant, fun b h => ?_⟩
  obtain ⟨state, identity⟩ := bays b
  simp only [eligible, Bay.attrs, state, identity]
  exact ⟨h, trivial⟩

/-- An event that ends in a derivation. -/
theorem Gated.derive {s u : State} (byRemoval : Bool) (strings : u.sc.strings = s.sc.strings) (pw : u.pw = s.pw) :
    Gated s (u.derive byRemoval) := by
  intro old _
  refine gated_derive byRemoval fun x on => ?_
  rw [strings] at on
  rw [pw]
  exact enabledAwake_of_gated old x on

/-- An outcome that goes on with the strings lawful. -/
def GoesOnGated (s : State) (o : Out) : Prop := ∃ t, o = .next t ∧ Gated s t

theorem goesOnGated_next {s t : State} (h : Gated s t) : GoesOnGated s (.next t) := ⟨t, rfl, h⟩

theorem Gated.refl (s : State) : Gated s s := fun h _ => h

theorem goesOnGated_unchanged (s : State) : GoesOnGated s (unchanged s) := ⟨s, rfl, .refl s⟩

theorem State.settleTx_stand (s : State) : StringsStand s s.settleTx := .of_frame (by simp)

theorem State.transmit_stand (s : State) : StringsStand s s.transmit := .of_frame (by simp)

theorem goesOnGated_done {s t : State} (h : Gated s t) : GoesOnGated s (done t) :=
  ⟨_, rfl, h.trans_stand t.settleTx_stand⟩

theorem goesOnGated_taken {s t : State} {c : Bool} (h : Gated s t) : GoesOnGated s (taken c s t) := by
  unfold taken
  split
  · exact goesOnGated_done h
  · exact goesOnGated_unchanged s

theorem goesOnGated_if {s : State} {c : Prop} [Decidable c] {o : Out} (h : c → GoesOnGated s o) :
    GoesOnGated s (if c then o else unchanged s) := by
  split
  · next holds => exact h holds
  · exact goesOnGated_unchanged s

theorem goesOnGated_doneBay {s u : State} (b : Fin 4) (frame : u.sc = s.sc ∧ u.pw = s.pw) :
    GoesOnGated s (doneBay b u) :=
  goesOnGated_done (.derive false (by simp [frame]) (by simp [frame]))

theorem goesOnGated_takeRequest (code : Byte) (s : State) {act : GateRequest → State → State}
    (h : ∀ r t, t.pw.dormant = false → Gated t (act r t)) : GoesOnGated s (takeRequest code s act) := by
  unfold takeRequest
  split
  · next r next =>
    have popped : Gated s.popRequest (act r s.popRequest) :=
      h r _ (by simpa using State.awake_of_nextRequest next)
    refine goesOnGated_if fun _ => goesOnGated_done fun old _ => popped ?_ fun d => ?_
    · exact gated_of_stand (.of_frame (by simp)) old
    · exact absurd d (by simpa using State.awake_of_nextRequest next)
  · exact goesOnGated_unchanged s

end Sys2Proof.Machine
end

