-- ==== Sys2Proof/Proofs/PowerGateEvents.lean ====
section
/-! PROOF. Every command, and the passing of time, keeps power off the bays whose string may not be connected. -/

namespace Sys2Proof.Machine

open Sys2Proof.Claims

/-! ## Operations that several commands share -/

theorem StringsStand.trans {s t u : State} (h : StringsStand s t) (k : StringsStand t u) : StringsStand s u where
  assign := k.assign.trans h.assign
  strings := k.strings.trans h.strings
  reference := k.reference.trans h.reference
  ben := k.ben.trans h.ben
  provision := k.provision.trans h.provision
  dormant := k.dormant.trans h.dormant
  bays b old :=
    have ⟨mid, attrs⟩ := h.bays b old
    have ⟨new, attrs'⟩ := k.bays b mid
    ⟨new, attrs'.trans attrs⟩

theorem State.settlePresent_stand (s : State) (b : Fin 4) : StringsStand s (s.settlePresent b) := by
  unfold State.settlePresent
  split
  · next settles =>
    refine ⟨by simp, by simp, by simp, by simp, by simp, by simp, fun o old => ?_⟩
    by_cases other : o = b
    · subst other
      simp [eligible, settles.1] at old
    · rw [State.bay_enterSettling, if_neg other]
      exact ⟨old, rfl⟩
  · exact .of_frame (by simp)

theorem State.settleAll_stand (s : State) : StringsStand s s.settleAll :=
  (((s.settlePresent_stand 0).trans (State.settlePresent_stand _ 1)).trans (State.settlePresent_stand _ 2)).trans
    (State.settlePresent_stand _ 3)

/-- An event whose last derivation finds no string ENABLED that was not ENABLED in a lawful state before it. -/
theorem Gated.derived {s u v : State} (byRemoval : Bool) (h : Gated s v) (strings : u.sc.strings = v.sc.strings)
    (provision : u.pw.provision = v.pw.provision) (dormant : u.pw.dormant = true → v.pw.dormant = true) :
    Gated s (u.derive byRemoval) := by
  refine fun old rests => gated_derive byRemoval fun x on => ?_
  rw [strings] at on
  obtain ⟨off, awake⟩ := enabledAwake_of_gated (h old rests) x on
  exact ⟨provision.trans off, by simpa [awake] using dormant⟩

theorem State.wake_gated {s u : State} (frame : u.sc = s.sc ∧ u.pw = s.pw) : Gated s u.wake := by
  obtain ⟨sc, pw⟩ := frame
  refine Gated.trans_stand (Gated.derived (u := State.settleAll
    { u with pw.dormant := false, pw.detSample := Four.fill none }) false (.refl s) ?_ ?_ ?_) (.of_frame ?_)
  · simp [sc]
  · simp [pw]
  · simp
  · simp [State.wake, State.bay]

theorem State.rxdWake_gated (s : State) : Gated s s.rxdWake :=
  (State.wake_gated (u := s) (by simp)).trans_stand (.of_frame (by simp [State.rxdWake, State.bay]))

theorem State.gateReset_gated (s : State) (tid : Byte) (det : Four Bool) : gated (s.gateReset tid det) := by
  refine gated_of_off (fun x => ?_) ?_
  · simp only [State.gateReset, State.settleAll_frame, State.answer_frame, State.gateCleared,
      StringController.gateReset, Four.get_ofFn, StringController.restState]
    split <;> simp
  · simp [State.gateReset, State.gateCleared, StringController.gateReset]

theorem Gated.finishReset {s t : State} (det : Four Bool) (h : Gated s t) : Gated s (t.finishReset det) := by
  unfold State.finishReset
  split
  · exact fun _ _ => State.gateReset_gated _ _ det
  · exact h

/-- No string is ENABLED after a derivation that finds no bay eligible. -/
theorem gated_derive_of_unfed {s : State} (byRemoval : Bool) (unfed : ∀ b, ¬ eligible (s.bay b)) :
    gated (s.derive byRemoval) := by
  have off (x : Fin 4) : (s.derive byRemoval).sc.strings.get x ≠ .enabled := fun on => by
    obtain ⟨⟨members, _, eligibles, _⟩, _⟩ := enabled_of_derive on
    obtain ⟨b, m⟩ := List.exists_mem_of_ne_nil _ members
    exact unfed b (eligibles b m)
  refine gated_of_off off (Four.ext_get fun b => ?_)
  rw [Four.get_fill, Bool.eq_false_iff, Ne, ben_derive]
  exact fun ⟨x, _, on⟩ => off x on

/-! ## Resets -/

theorem State.sc_foldl_flagLost (s : State) (ks : List RecordKind) : (ks.foldl State.flagLost s).sc = s.sc := by
  induction ks generalizing s with
  | nil => rfl
  | cons k ks ih => simp [ih]

theorem gated_of_sc_afterReset {s : State} {run : Bool} (sc : s.sc = StringController.afterReset run) : gated s :=
  gated_of_off (by simp [sc, StringController.afterReset]) (by simp [sc, StringController.afterReset])

theorem State.restart_gated (s : State) (levels : Pins) (torn : TornWrite) (cold : Bool) :
    gated (s.restart levels torn cold) := by
  refine gated_of_sc_afterReset (run := levels.run) ?_
  simp only [State.restart, State.nextRewrite_frame, State.sc_foldl_flagLost, State.setCold]
  split <;> simp [State.cleared]

theorem State.holdReset_gated (s : State) (power : Power) (torn : TornWrite) : gated (s.holdReset power torn) :=
  gated_of_sc_afterReset (run := false) rfl

theorem State.nextRewrite_stand (s : State) (todo : List RecordKind) : StringsStand s (s.nextRewrite todo) := by
  unfold State.nextRewrite
  split
  · exact StringsStand.trans (.of_frame (by simp [State.bay])) (State.settleAll_stand _)
  · exact .of_frame (by simp [State.bay])

section
variable (s : State) (b : Fin 4)

theorem execStartupRewriteComplete_gated (ok : Bool) : GoesOnGated s (execStartupRewriteComplete ok s) := by
  unfold execStartupRewriteComplete
  split
  · exact goesOnGated_done (.of_stand (.trans (.of_frame (by simp [State.bay])) (State.nextRewrite_stand _ _)))
  · exact goesOnGated_unchanged s

/-! ## Bays and their lines -/

theorem execDormantDetSample_gated (det : Four Bool) : GoesOnGated s (execDormantDetSample det s) := by
  have sampled : StringsStand s (s.sampleDet det) := .of_frame (by simp [State.sampleDet, State.bay])
  refine goesOnGated_taken ?_
  split
  · exact fun old rests =>
      State.wake_gated ⟨rfl, rfl⟩ (gated_of_stand sampled old) ((s.sampleDet_keeps det).rests rests)
  · exact .of_stand sampled

theorem State.decayBay_gated : Gated s ((s.decayBay b).arbitrate b |>.derive false) := by
  have decayed (v : State) (h : Gated s v) : Gated s ((v.arbitrate b).derive false) :=
    h.derived false (by simp) (by simp) (by simp)
  by_cases wakes : (s.decayBay b).sc = s.sc ∧ (s.decayBay b).pw = s.pw
  · exact .derive false (by simp [wakes]) (by simp [wakes])
  · refine decayed _ ?_
    revert wakes
    unfold State.decayBay
    dsimp only
    split
    · split
      · exact fun _ => State.wake_gated (by simp)
      · simp
    · simp

theorem execRemoval_gated : GoesOnGated s (execRemoval b s) :=
  goesOnGated_if fun _ => goesOnGated_done (.derive true (by simp) (by simp))

theorem Gated.deriveAwake {s u : State} (frame : u.sc.assign = s.sc.assign ∧ u.sc.strings = s.sc.strings ∧
    u.sc.ben = s.sc.ben ∧ u.pw = s.pw) : Gated s u.deriveAwake := by
  obtain ⟨assign, strings, ben, pw⟩ := frame
  unfold State.deriveAwake
  split
  · next asleep =>
    refine fun old _ => ⟨by rw [ben, assign, strings]; exact old.1, fun x on => ?_⟩
    rw [strings] at on
    obtain ⟨_, awake⟩ := enabledAwake_of_gated old x on
    simp [pw, awake] at asleep
  · exact .derive false strings pw

theorem execRunRise_gated : GoesOnGated s (execRunRise s) :=
  goesOnGated_if fun _ => goesOnGated_done (.deriveAwake (by simp [State.takeRun]))

theorem State.sc_foldl_runFallBay (l : List (Fin 4)) :
    (l.foldl State.runFallBay s).sc = s.sc ∧ (l.foldl State.runFallBay s).pw = s.pw := by
  induction l generalizing s with
  | nil => exact ⟨rfl, rfl⟩
  | cons b l ih => simp [ih]

theorem execRunFall_gated : GoesOnGated s (execRunFall s) :=
  goesOnGated_if fun _ => goesOnGated_done
    (.deriveAwake (by simp [State.sc_foldl_runFallBay]; simp [State.takeRun]))

theorem execRunInputChange_gated (level : Bool) : GoesOnGated s (execRunInputChange level s) :=
  goesOnGated_if fun _ => goesOnGated_next (.of_stand
    ⟨rfl, rfl, rfl, rfl, rfl, rfl, fun _ h => ⟨h, rfl⟩⟩)

/-- A bay that keeps its state and identity keeps its string's standing. -/
theorem State.setBay_stand {s u : State} {b : Fin 4} {x : Bay}
    (frame : u.sc = s.sc ∧ u.pw = s.pw ∧ (∀ o, u.bay o = s.bay o)) (state : x.state = (s.bay b).state)
    (identity : x.identity = (s.bay b).identity) : StringsStand s (u.setBay b x) := by
  obtain ⟨sc, pw, bays⟩ := frame
  refine .of_frame ⟨by simp [sc], by simp [pw], by simp [pw], fun o => ?_⟩
  rw [State.bay_setBay]
  split
  · next same => rw [same]; exact ⟨state, identity⟩
  · rw [bays]; exact ⟨rfl, rfl⟩

theorem execBayLineLevelChange_gated (dominant : Bool) : GoesOnGated s (execBayLineLevelChange b dominant s) := by
  obtain ⟨state, identity, _⟩ := (s.bay b).onLevel_keeps s.cfg.settle dominant
  exact goesOnGated_taken (.of_stand (State.setBay_stand (by simp) state identity))

theorem execPackFrameSent_gated : GoesOnGated s (execPackFrameSent b s) := by
  unfold execPackFrameSent
  split
  · exact goesOnGated_done (.of_stand (State.setBay_stand (by simp) rfl rfl))
  · exact goesOnGated_unchanged s

theorem execCollision_gated : GoesOnGated s (execCollision b s) := by
  unfold execCollision
  split
  · refine goesOnGated_doneBay b ?_
    split <;> simp
  · exact goesOnGated_unchanged s

theorem replyError_gated : GoesOnGated s (replyError b s) := by
  unfold replyError
  split
  · refine goesOnGated_doneBay b ?_
    split <;> simp
  · exact goesOnGated_unchanged s

theorem execPackReply_gated (bytes : List Byte) : GoesOnGated s (execPackReply b bytes s) := by
  unfold execPackReply
  split
  · exact goesOnGated_unchanged s
  · split
    · exact goesOnGated_done (.of_stand (State.setBay_stand (by simp) rfl rfl))
    · exact replyError_gated s b
    · exact replyError_gated s b
    · refine goesOnGated_doneBay b ?_
      split <;> simp

theorem execRetryWaitExpiry_gated : GoesOnGated s (execRetryWaitExpiry b s) := by
  refine goesOnGated_if fun _ => ?_
  split
  · exact goesOnGated_done (.of_stand (State.setBay_stand (by simp) rfl rfl))
  · exact goesOnGated_done (.of_stand (State.setBay_stand (by simp) rfl rfl))
  · exact goesOnGated_doneBay b (by simp)
  · exact goesOnGated_unchanged s

theorem execInsertion_gated : GoesOnGated s (execInsertion b s) := by
  refine goesOnGated_if fun _ => goesOnGated_doneBay b ?_
  split <;> simp

theorem execSettleExpiry_gated (det : Bool) : GoesOnGated s (execSettleExpiry b det s) := by
  refine goesOnGated_if fun _ => goesOnGated_doneBay b ?_
  split <;> simp

/-! ## Completions of jobs and of store writes -/

theorem bayJobEnds_gated (r : RunningJob) {take : Fin 4 → State → State}
    (h : ∀ b t, (take b t).sc = t.sc ∧ (take b t).pw = t.pw) : GoesOnGated s (bayJobEnds s r take) := by
  unfold bayJobEnds
  split
  · exact goesOnGated_doneBay _ (by simp [h])
  · exact goesOnGated_done (.of_stand (.of_frame (by simp)))

theorem execCheckImageComplete_gated : GoesOnGated s (execCheckImageComplete s) := by
  unfold execCheckImageComplete
  split
  · refine goesOnGated_done (.of_stand (.of_frame ?_))
    split <;> simp
  · exact goesOnGated_unchanged s

theorem execKeyCheckComplete_gated : GoesOnGated s (execKeyCheckComplete s) := by
  unfold execKeyCheckComplete
  split
  · refine goesOnGated_done (.of_stand (.of_frame ?_))
    split <;> simp
  · exact goesOnGated_unchanged s

theorem State.commitKeys_gated (slot : Nat) (new : KeyStore) (r : WriteResult) :
    Gated s (s.commitKeys slot new r) := by
  unfold State.commitKeys
  dsimp only
  refine .derive false ?_ ?_
  · simp only [State.arbitrateAll_frame, State.keyLoadBays_frame]
    split <;> simp [State.storeKeys]
  · simp only [State.arbitrateAll_frame, State.keyLoadBays_frame]
    split <;> simp [State.storeKeys]

theorem State.commitModel_gated (new : ModelTable) (r : WriteResult) : Gated s (s.commitModel new r) := by
  unfold State.commitModel
  dsimp only
  refine .derive false ?_ ?_
  · simp only [State.arbitrateAll_frame, State.commitBays_frame]
    split <;> simp [State.storeModel]
  · simp only [State.arbitrateAll_frame, State.commitBays_frame]
    split <;> simp [State.storeModel]

theorem State.commitRevoke_gated (new : RevList) (r : WriteResult) : Gated s (s.commitRevoke new r) := by
  unfold State.commitRevoke
  dsimp only
  refine .derive false ?_ ?_
  · simp only [State.arbitrateAll_frame, State.commitBays_frame]
    split <;> simp [State.storeRevoke]
  · simp only [State.arbitrateAll_frame, State.commitBays_frame]
    split <;> simp [State.storeRevoke]

theorem execKeyLoadComplete_gated (r : WriteResult) : GoesOnGated s (execKeyLoadComplete r s) := by
  unfold execKeyLoadComplete
  split
  · next slot new _ => exact goesOnGated_done ((s.commitKeys_gated slot new r).trans_stand (.of_frame (by simp)))
  · exact goesOnGated_unchanged s

theorem execModelCommit_gated (r : CommitEvent) : GoesOnGated s (execModelCommit r s) := by
  unfold execModelCommit
  split
  · next new _ =>
    exact goesOnGated_done (((s.commitModel_gated new r.write).trans_stand (.of_frame (by simp))).finishReset _)
  · exact goesOnGated_unchanged s

theorem execRevocationCommit_gated (r : CommitEvent) : GoesOnGated s (execRevocationCommit r s) := by
  unfold execRevocationCommit
  split
  · next new _ => exact goesOnGated_done ((s.commitRevoke_gated new r.write).trans_stand (.of_frame (by simp)))
  · next new _ =>
    exact goesOnGated_done (((s.commitRevoke_gated new r.write).trans_stand (.of_frame (by simp))).finishReset _)
  · exact goesOnGated_unchanged s

/-! ## The tool line -/

theorem State.passThrough_bays (tid code flags : Byte) (payload : List Byte) (o : Fin 4) :
    ((s.passThrough b tid code flags payload).bay o).state = (s.bay o).state ∧
      ((s.passThrough b tid code flags payload).bay o).identity = (s.bay o).identity := by
  unfold State.passThrough
  split
  · simp
  · simp only [State.arbitrate_keeps, State.bay_setBay]
    split
    · next same => rw [same]; exact ⟨rfl, rfl⟩
    · exact ⟨rfl, rfl⟩

theorem State.receive_stand (chars : List Byte) : StringsStand s (s.receive chars) := by
  refine .of_frame ⟨by simp, by simp, by simp, fun o => ?_⟩
  unfold State.receive
  split
  · simp
  · simp
  · simp
  · unfold State.route
    repeat' split
    · simp
    · simp [State.passThrough_bays]
    · simp
    · simp

theorem execToolFrame_gated (bytes : List Byte) : GoesOnGated s (execToolFrame bytes s) := by
  unfold execToolFrame
  split
  · exact goesOnGated_done s.rxdWake_gated
  · split
    · exact goesOnGated_taken (.of_stand (s.receive_stand _))
    · exact goesOnGated_unchanged s

theorem execToolRxGapExpiry_gated : GoesOnGated s (execToolRxGapExpiry s) := by
  unfold execToolRxGapExpiry
  split
  · exact goesOnGated_taken (.of_stand (.of_frame (by simp)))
  · exact goesOnGated_unchanged s

theorem execToolFramingError_gated : GoesOnGated s (execToolFramingError s) := by
  unfold execToolFramingError
  split
  · exact goesOnGated_done s.rxdWake_gated
  · split
    · exact goesOnGated_taken (.of_stand (.of_frame (by simp)))
    · exact goesOnGated_unchanged s

theorem execToolRxIdleResync_gated : GoesOnGated s (execToolRxIdleResync s) := by
  unfold execToolRxIdleResync
  split
  · exact goesOnGated_unchanged s
  · exact goesOnGated_if fun _ => goesOnGated_next (.of_stand (.of_frame (by simp)))

theorem execFrameSent_gated : GoesOnGated s (execFrameSent s) := by
  unfold execFrameSent
  split
  · exact goesOnGated_next (.of_stand (.of_frame (by simp [State.bay])))
  · exact goesOnGated_unchanged s

end

end Sys2Proof.Machine
end

