-- ==== Sys2Proof/Proofs/PowerGateSteps.lean ====
section
/-! PROOF. The gate requests keep power off the bays whose string may not be connected; so does every step; and the
state after reset satisfies the invariants. -/

namespace Sys2Proof.Machine

open Sys2Proof.Claims

/-! ## Gate requests -/

section
variable (s : State) (r : GateRequest)

theorem State.gateStatus_gated : Gated s (s.gateStatus r) := by
  refine .of_stand (.of_frame ?_)
  unfold State.gateStatus
  repeat' split
  all_goals simp [State.bay]

theorem State.configSet_gated : Gated s (s.configSet r) := by
  refine .of_stand (.of_frame ?_)
  unfold State.configSet
  repeat' split
  all_goals simp [State.bay]

theorem State.configGet_gated : Gated s (s.configGet r) := by
  refine .of_stand (.of_frame ?_)
  unfold State.configGet
  repeat' split
  all_goals simp

theorem State.snapLatch_gated : Gated s (s.snapLatch r) := by
  refine .of_stand (.of_frame ?_)
  unfold State.snapLatch
  repeat' split
  all_goals simp [State.bay]

theorem State.snapRead_gated : Gated s (s.snapRead r) := by
  refine .of_stand (.of_frame ?_)
  unfold State.snapRead
  repeat' split
  all_goals simp [State.bay]

theorem State.gateResetRequest_gated (det : Four Bool) : Gated s (s.gateResetRequest det r) := by
  unfold State.gateResetRequest
  split
  · exact .of_stand (.of_frame (by simp))
  · dsimp only
    split
    · exact .of_stand (.of_frame (by simp [State.bay]))
    · exact fun _ _ => State.gateReset_gated _ _ det

theorem State.bayQuery_gated : Gated s (s.bayQuery r) := by
  refine .of_stand (.of_frame ?_)
  unfold State.bayQuery
  split <;> simp

theorem State.bayRetry_gated : Gated s (s.bayRetry r) := by
  unfold State.bayRetry
  split
  · split
    · next b _ _ =>
      have retried : Gated s ((s.retryBay b).derive false) :=
        .derive false (by simp [State.retryBay]) (by simp [State.retryBay])
      exact retried.trans_stand (.of_frame (by simp))
    · exact .of_stand (.of_frame (by simp))
  · exact .of_stand (.of_frame (by simp))

theorem State.keyLoad_gated : Gated s (s.keyLoad r) := by
  refine .of_stand (.of_frame ?_)
  unfold State.keyLoad
  split <;> simp [State.bay]

theorem State.keyCheck_gated : Gated s (s.keyCheck r) := by
  refine .of_stand (.of_frame ?_)
  unfold State.keyCheck
  split <;> simp

theorem State.modelGet_gated : Gated s (s.modelGet r) := by
  refine .of_stand (.of_frame ?_)
  unfold State.modelGet
  dsimp only
  repeat' split
  all_goals simp

theorem State.revokeGet_gated : Gated s (s.revokeGet r) := by
  refine .of_stand (.of_frame ?_)
  unfold State.revokeGet
  dsimp only
  repeat' split
  all_goals simp

theorem State.revokeAdd_gated : Gated s (s.revokeAdd r) := by
  refine .of_stand (.of_frame ?_)
  unfold State.revokeAdd
  split <;> simp [State.bay]

theorem State.revokeDrop_gated : Gated s (s.revokeDrop r) := by
  refine .of_stand (.of_frame ?_)
  unfold State.revokeDrop
  split <;> simp [State.bay]

theorem State.imageBegin_gated : Gated s (s.imageBegin r) := by
  refine .of_stand (.of_frame ?_)
  unfold State.imageBegin State.openLoad
  dsimp only
  repeat' split
  all_goals simp [State.bay]

theorem State.imageData_gated : Gated s (s.imageData r) := by
  refine .of_stand (.of_frame ?_)
  unfold State.imageData State.appendData State.failLoad
  repeat' split
  all_goals simp [State.bay]

theorem State.imageEnd_gated : Gated s (s.imageEnd r) := by
  refine .of_stand (.of_frame ?_)
  unfold State.imageEnd State.closeTransfer State.failLoad
  repeat' split
  all_goals simp [State.bay]

theorem State.imageCancel_gated : Gated s (s.imageCancel r) := by
  refine .of_stand (.of_frame ?_)
  unfold State.imageCancel
  repeat' split
  all_goals simp

theorem State.filterSet_gated : Gated s (s.filterSet r) := by
  refine .of_stand (.of_frame ?_)
  unfold State.filterSet
  dsimp only
  repeat' split
  all_goals simp [State.bay]

theorem State.filterGet_gated : Gated s (s.filterGet r) := by
  refine .of_stand (.of_frame ?_)
  unfold State.filterGet
  dsimp only
  split <;> simp

theorem State.captureTake_gated : Gated s (s.captureTake r) := by
  refine .of_stand (.of_frame ?_)
  unfold State.captureTake
  repeat' split
  all_goals simp [State.bay]

theorem State.topologyGet_gated : Gated s (s.topologyGet r) := by
  refine .of_stand (.of_frame ?_)
  unfold State.topologyGet
  split <;> simp

theorem State.stringQuery_gated : Gated s (s.stringQuery r) := by
  refine .of_stand (.of_frame ?_)
  unfold State.stringQuery
  split <;> simp

theorem State.noticeStrings_stand (old : Four StringState) : StringsStand s (s.noticeStrings old) := by
  refine .of_frame ?_
  unfold State.noticeStrings
  split <;> simp

/-- A change of topology or of a latch leaves no string ENABLED that was not (R171, R174). -/
theorem Gated.rearranged {s u : State} (strings : ∀ x, u.sc.strings.get x = .enabled → s.sc.strings.get x = .enabled)
    (pw : u.pw = s.pw) : Gated s (u.derive false) := by
  refine fun old _ => gated_derive false fun x on => ?_
  rw [pw]
  exact enabledAwake_of_gated old x (strings x on)

theorem settledLatch_enabled {old new : StringController} {x : Fin 4} (h : settledLatch old new x = .enabled) :
    old.strings.get x = .enabled := by
  unfold settledLatch at h
  split at h
  · split at h <;> cases h
  · exact h

theorem State.installTopology_gated (assign : Four (Option (Fin 4))) (manual : Four Bool) :
    Gated s (s.installTopology assign manual) := by
  have derived : Gated s (State.derive { s with sc := s.sc.install assign manual } false) :=
    .rearranged (fun x on => settledLatch_enabled (by simpa [StringController.install] using on)) rfl
  exact derived.trans_stand (State.noticeStrings_stand _ _)

theorem State.releaseString_gated (x : Fin 4) : Gated s (s.releaseString x) := by
  have derived : Gated s (State.derive { s with sc.strings := s.sc.strings.set x .idle } false) := by
    refine .rearranged (fun y on => ?_) rfl
    rw [Four.get_set] at on
    split at on
    · cases on
    · exact on
  exact derived.trans_stand (State.noticeStrings_stand _ _)

theorem State.topologySet_gated : Gated s (s.topologySet r) := by
  unfold State.topologySet
  split
  · exact .of_stand (.of_frame (by simp))
  · split
    · exact .of_stand (.of_frame (by simp))
    · next assign manual _ _ =>
      exact (s.installTopology_gated assign manual).trans_stand (.of_frame (by simp))

theorem State.stringRelease_gated : Gated s (s.stringRelease r) := by
  unfold State.stringRelease
  split
  · exact .of_stand (.of_frame (by simp))
  · split
    · exact .of_stand (.of_frame (by simp))
    · next x _ _ _ _ => exact (s.releaseString_gated x).trans_stand (.of_frame (by simp))

/-- At dormant entry no bay is left that may be powered (R208). -/
theorem State.dormantRequest_gated : Gated s (s.dormantRequest r) := by
  unfold State.dormantRequest
  split
  · exact .of_stand (.of_frame (by simp))
  · split
    · exact .of_stand (.of_frame (by simp))
    · obtain ⟨_, _, sleeps⟩ := s.readyToSleep_quiet r
      rw [State.enterDormant_eq]
      refine fun _ _ => gated_of_stand (s := (s.readyToSleep r).fallAsleep.derive true) (.of_frame ?_)
        (gated_derive_of_unfed true fun b fed => ?_)
      · simp [State.dropPictures, State.bay]
      · have asleep := ((s.readyToSleep r).bay b).state.sleeps_iff.mp (sleeps b)
        simp only [State.fallAsleep, State.bay, eligible] at fed asleep
        rcases asleep with asleep | asleep <;> simp [asleep] at fed

theorem execDormant_gated : GoesOnGated s (execDormant s) := by
  unfold execDormant
  split
  · next r next =>
    have popped : Gated s.popRequest (s.popRequest.dormantRequest r) := s.popRequest.dormantRequest_gated r
    refine goesOnGated_if fun _ => goesOnGated_next (Gated.trans_stand (fun old _ => ?_) (State.transmit_stand _))
    refine popped (gated_of_stand (.of_frame (by simp)) old) fun d => ?_
    exact absurd d (by simpa using State.awake_of_nextRequest next)
  · exact goesOnGated_unchanged s

theorem execUnknownCode_gated : GoesOnGated s (execUnknownCode s) := by
  unfold execUnknownCode
  split
  · split
    · exact goesOnGated_unchanged s
    · exact goesOnGated_done (.of_stand (.of_frame (by simp)))
  · exact goesOnGated_unchanged s

end

/-! ## All commands, and the passing of time -/

theorem exec_gated (s : State) (c : Instr) : GoesOnGated s (exec c s) := by
  cases c with
  | powerOn levels torn => exact goesOnGated_done fun _ _ => s.restart_gated levels torn true
  | resetnAssert torn => exact goesOnGated_if fun _ => goesOnGated_next fun _ _ => s.holdReset_gated _ torn
  | resetnRelease levels torn => exact goesOnGated_taken fun _ _ => s.restart_gated levels torn false
  | powerLoss torn => exact goesOnGated_next fun _ _ => s.holdReset_gated _ torn
  | startupRewriteComplete ok => exact execStartupRewriteComplete_gated s ok
  | insertion bay => exact execInsertion_gated s bay
  | removal bay => exact execRemoval_gated s bay
  | settleExpiry bay det => exact execSettleExpiry_gated s bay det
  | reattemptExpiry bay => exact goesOnGated_if fun _ => goesOnGated_doneBay bay (by simp)
  | renewExpiry bay => exact goesOnGated_if fun _ => goesOnGated_doneBay bay (by simp)
  | graceExpiry bay => exact goesOnGated_if fun _ => goesOnGated_doneBay bay (by simp)
  | decayExpiry bay => exact goesOnGated_if fun _ => goesOnGated_done (s.decayBay_gated bay)
  | cacheExpiry serial => exact goesOnGated_next (.of_stand (.of_frame (by simp [State.bay])))
  | runInputChange level => exact execRunInputChange_gated s level
  | runRise => exact execRunRise_gated s
  | runFall => exact execRunFall_gated s
  | bayLineLevelChange bay dominant => exact execBayLineLevelChange_gated s bay dominant
  | stuckLine bay => exact goesOnGated_if fun _ => goesOnGated_doneBay bay (by simp)
  | lineFaultRecovery bay => exact goesOnGated_if fun _ => goesOnGated_doneBay bay (by simp)
  | packFrameSent bay => exact execPackFrameSent_gated s bay
  | collision bay => exact execCollision_gated s bay
  | packReply bay bytes => exact execPackReply_gated s bay bytes
  | packRxGapExpiry bay => exact replyError_gated s bay
  | packRxFrameError bay => exact replyError_gated s bay
  | responseTimeout bay => exact goesOnGated_if fun _ => replyError_gated s bay
  | retryWaitExpiry bay => exact execRetryWaitExpiry_gated s bay
  | linkHoldExpiry bay => exact goesOnGated_if fun _ => goesOnGated_doneBay bay (by simp)
  | derivePackKeyComplete =>
    change GoesOnGated s (execDerivePackKeyComplete s)
    unfold execDerivePackKeyComplete
    split
    · exact bayJobEnds_gated s _ fun _ _ => by simp
    · exact goesOnGated_unchanged s
  | checkProofComplete =>
    change GoesOnGated s (execCheckProofComplete s)
    unfold execCheckProofComplete
    split
    · exact bayJobEnds_gated s _ fun _ _ => by simp
    · exact goesOnGated_unchanged s
  | deriveSessionComplete =>
    change GoesOnGated s (execDeriveSessionComplete s)
    unfold execDeriveSessionComplete
    split
    · exact bayJobEnds_gated s _ fun _ _ => by simp
    · exact goesOnGated_unchanged s
  | checkTagComplete =>
    change GoesOnGated s (execCheckTagComplete s)
    unfold execCheckTagComplete
    split
    · exact bayJobEnds_gated s _ fun _ _ => by simp
    · exact goesOnGated_unchanged s
  | checkImageComplete => exact execCheckImageComplete_gated s
  | keyCheckComplete => exact execKeyCheckComplete_gated s
  | keyLoadComplete result => exact execKeyLoadComplete_gated s result
  | modelCommit result => exact execModelCommit_gated s result
  | revocationCommit result => exact execRevocationCommit_gated s result
  | toolFrame bytes => exact execToolFrame_gated s bytes
  | toolRxGapExpiry => exact execToolRxGapExpiry_gated s
  | toolFramingError => exact execToolFramingError_gated s
  | toolRxIdleResync => exact execToolRxIdleResync_gated s
  | frameSent => exact execFrameSent_gated s
  | dormantDetSample det => exact execDormantDetSample_gated s det
  | rxdWake => exact goesOnGated_taken s.rxdWake_gated
  | unknownCode => exact execUnknownCode_gated s
  | gateStatus => exact goesOnGated_takeRequest _ s fun r t _ => t.gateStatus_gated r
  | configSet => exact goesOnGated_takeRequest _ s fun r t _ => t.configSet_gated r
  | configGet => exact goesOnGated_takeRequest _ s fun r t _ => t.configGet_gated r
  | snapLatch => exact goesOnGated_takeRequest _ s fun r t _ => t.snapLatch_gated r
  | snapRead => exact goesOnGated_takeRequest _ s fun r t _ => t.snapRead_gated r
  | dormant => exact execDormant_gated s
  | gateReset det => exact goesOnGated_takeRequest _ s fun r t _ => t.gateResetRequest_gated r det
  | bayQuery => exact goesOnGated_takeRequest _ s fun r t _ => t.bayQuery_gated r
  | bayRetry => exact goesOnGated_takeRequest _ s fun r t _ => t.bayRetry_gated r
  | keyLoad => exact goesOnGated_takeRequest _ s fun r t _ => t.keyLoad_gated r
  | keyCheck => exact goesOnGated_takeRequest _ s fun r t _ => t.keyCheck_gated r
  | modelGet => exact goesOnGated_takeRequest _ s fun r t _ => t.modelGet_gated r
  | revokeGet => exact goesOnGated_takeRequest _ s fun r t _ => t.revokeGet_gated r
  | revokeAdd => exact goesOnGated_takeRequest _ s fun r t _ => t.revokeAdd_gated r
  | revokeDrop => exact goesOnGated_takeRequest _ s fun r t _ => t.revokeDrop_gated r
  | imageBegin => exact goesOnGated_takeRequest _ s fun r t _ => t.imageBegin_gated r
  | imageData => exact goesOnGated_takeRequest _ s fun r t _ => t.imageData_gated r
  | imageEnd => exact goesOnGated_takeRequest _ s fun r t _ => t.imageEnd_gated r
  | imageCancel => exact goesOnGated_takeRequest _ s fun r t _ => t.imageCancel_gated r
  | filterSet => exact goesOnGated_takeRequest _ s fun r t _ => t.filterSet_gated r
  | filterGet => exact goesOnGated_takeRequest _ s fun r t _ => t.filterGet_gated r
  | captureTake => exact goesOnGated_takeRequest _ s fun r t _ => t.captureTake_gated r
  | topologySet => exact goesOnGated_takeRequest _ s fun r t _ => t.topologySet_gated r
  | topologyGet => exact goesOnGated_takeRequest _ s fun r t _ => t.topologyGet_gated r
  | stringQuery => exact goesOnGated_takeRequest _ s fun r t _ => t.stringQuery_gated r
  | stringRelease => exact goesOnGated_takeRequest _ s fun r t _ => t.stringRelease_gated r

theorem State.tick_stand (s : State) : StringsStand s s.tick := by
  unfold State.tick
  split
  · refine ⟨rfl, rfl, rfl, rfl, rfl, rfl, fun b h => ?_⟩
    simp only [State.bay, Four.get_map]
    exact ⟨h, rfl⟩
  · exact .of_frame (by simp)

theorem step_gated {s t : State} (h : step s = .next t) : Gated { s with pending := s.pending.tail } t := by
  unfold step at h
  split at h
  · next c rest waiting =>
    obtain ⟨t', next, gates⟩ := exec_gated { s with pending := rest } c
    obtain rfl : t' = t := Host.Outcome.next.inj (next.symm.trans h)
    rw [waiting]
    exact gates
  · next idle =>
    obtain rfl : s.tick = t := Host.Outcome.next.inj h
    rw [idle, List.tail_nil, ← idle]
    exact .of_stand s.tick_stand

end Sys2Proof.Machine

open Sys2Proof Sys2Proof.Machine Sys2Proof.Claims

/-- Settles O59: an event that moves bays ends in a derivation, and the other events leave what a powered bay
rests on. -/
theorem stepsKeepPowerGated : Obligations.StepsKeepPowerGated := by
  intro s t old next
  obtain ⟨_, keeps, rfl⟩ := step_keeps next
  obtain ⟨gates, rests⟩ := (powerGated_iff s).mp old
  exact (powerGated_iff t).mpr ⟨step_gated next gates rests, keeps.rests rests⟩
end

