-- ==== Sys2Proof/Proofs/Reset.lean ====
section
/-! PROOF. The state after reset: its values, and the invariants. -/

namespace Sys2Proof.Machine

open Sys2Proof.Claims

@[simp] theorem State.bay_reset (b : Fin 4) : State.reset.bay b = Bay.afterReset false := by
  simp [State.reset, State.bay]

/-- No claimant has a job in empty places. -/
@[simp] theorem JobPlaces.get_none (c : Claimant) : JobPlaces.none.get c = Option.none := by
  cases c <;> simp [JobPlaces.get, JobPlaces.none]

theorem withinCapacities_reset : withinCapacities State.reset := by
  refine ⟨fun b => ?_, by decide, by decide, by decide, by decide, .nil, fun l load => by cases load⟩
  simp [bayWithin, Bay.afterReset]

theorem lawfulTables_reset : lawfulTables State.reset :=
  ⟨lawfulModel_none, lawfulModel_none, lawfulList_none, lawfulList_none, rfl, rfl, nofun,
    fun _ write => write.elim nofun nofun, nofun, nofun⟩

theorem trustworthy_reset : trustworthy State.reset := by
  refine ⟨fun b holds => ?_, fun b _ authorized => ?_, fun e m => by cases m⟩
  · simp [Bay.afterReset] at holds
  · simp [Bay.afterReset] at authorized

theorem powerGated_reset : powerGated State.reset :=
  (powerGated_iff _).mpr ⟨gated_of_sc_afterReset (run := false) rfl, fun asleep => by cases asleep⟩

end Sys2Proof.Machine

open Sys2Proof Sys2Proof.Machine Sys2Proof.Claims

/-- Settles O4: each value is the one that the definition of the reset state writes. -/
theorem resetIsAQuietPoweredGate : Obligations.ResetIsAQuietPoweredGate := by
  unfold Obligations.ResetIsAQuietPoweredGate
  refine ⟨fun b => by simp [Bay.afterReset], rfl, rfl, fun c => ?_, rfl, rfl, rfl, rfl, rfl, rfl, rfl, rfl, rfl, rfl,
    rfl, rfl, rfl, rfl, rfl, rfl, rfl, rfl, rfl, rfl, rfl, rfl, rfl, rfl, rfl, rfl, rfl, rfl, rfl, rfl, rfl, rfl⟩
  exact ⟨JobPlaces.get_none c, JobPlaces.get_none c⟩

/-- Settles O60: nothing has been stored, no bay holds an identity, and no string is ENABLED. -/
theorem resetSatisfiesTheInvariants : Obligations.ResetSatisfiesTheInvariants :=
  ⟨withinCapacities_reset, lawfulTables_reset, trustworthy_reset, powerGated_reset⟩
end

