-- ==== Sys2Proof/Proofs/EventEnds.lean ====
section
/-! PROOF. What ends an event: the transmitter and the bay-line arbiter. -/

namespace Sys2Proof.Machine

open Sys2Proof.Claims

/-! ## The transmitter -/

theorem State.settleTx_dormant {s : State} (h : s.pw.dormant = true) : s.settleTx = s := by simp [State.settleTx, h]

theorem State.settleTx_awake {s : State} (h : s.pw.dormant = false) : s.settleTx = s.transmit := by
  simp [State.settleTx, h]

theorem State.transmit_sending {s : State} (h : s.tli.tx ≠ none) : s.transmit = s := by
  unfold State.transmit
  split
  · rfl
  · next free => exact absurd free h

theorem State.transmit_response {s : State} {r : Response} {rest : List Response} (free : s.tli.tx = none)
    (waits : s.tli.responses = r :: rest) :
    s.transmit = { s with tli.tx := some r.frame, tli.responses := rest } := by
  simp only [State.transmit, free, waits]

theorem State.transmit_notice {s : State} {src : NoticeSource} (free : s.tli.tx = none)
    (quiet : s.tli.responses = []) (lowest : s.tli.notices.lowest = some src) :
    s.transmit = { s with
      tli.tx := some (s.noticeFrame src)
      tli.notices := s.tli.notices.remove src
      tli.woke := if src = .gate then false else s.tli.woke } := by
  simp only [State.transmit, free, quiet, lowest]

theorem State.transmit_idle {s : State} (free : s.tli.tx = none) (quiet : s.tli.responses = [])
    (none_pending : s.tli.notices.lowest = none) : s.transmit = s := by
  simp only [State.transmit, free, quiet, none_pending]

theorem Notices.lowest_bay {n : Notices} {b : Fin 4} (pending : n.bays.get b = true)
    (lower : ∀ o < b, n.bays.get o = false) : n.lowest = some (.bay b) := by
  have found : Four.indices.find? (fun o => n.bays.get o) = some b :=
    find?_eq_some_of_least indices_sorted (Four.mem_indices b) pending fun o _ holds => by
      rcases lt_trichotomy o b with below | same | above
      · simp [lower o below] at holds
      · exact .inl same
      · exact .inr above
  simp only [Notices.lowest, found]

theorem Notices.lowest_none_of_bays {n : Notices} (bays : ∀ b, n.bays.get b = false) :
    n.lowest = if n.strings then some .strings else if n.gate then some .gate else .none := by
  have found : Four.indices.find? (fun o => n.bays.get o) = .none := by simp [bays]
  simp only [Notices.lowest, found]

/-! ## The arbiter -/

@[simp] theorem State.setBay_bay (s : State) (b : Fin 4) : s.setBay b (s.bay b) = s := by
  simp [State.setBay, State.bay]

@[simp] theorem State.setBay_setBay (s : State) (b : Fin 4) (x y : Bay) :
    (s.setBay b x).setBay b y = s.setBay b y := by
  simp [State.setBay]

theorem State.setBay_answer (s : State) (b : Fin 4) (x : Bay) (rs : List Response) :
    (s.answer rs).setBay b x = (s.setBay b x).answer rs := rfl

theorem Bay.claimEligible_iff (x : Bay) : x.claimEligible = true ↔ claimWaits x := by
  unfold claimWaits
  cases state : x.state <;> cases claim : x.claim <;> simp [Bay.claimEligible, state, claim]

theorem Bay.headWaits_iff (x : Bay) : headWaits x ↔ x.headEligible = true ∧ x.queue ≠ [] := by
  unfold headWaits
  cases state : x.state <;> simp [Bay.headEligible, state, Option.isSome_iff_ne_none]

/-- A bay whose head is granted, before its attempt (R122, R123). -/
def Bay.granted (x : Bay) (e : ForwardEntry) : Bay := { x with linkRun := runAtGrant x.linkRun e, linkHold := none }

section
variable {b : Fin 4} {dominant : Bool} {hold n : Nat} {x : Bay}

theorem Bay.grants_busy (h : x.line ≠ .idle) : Bay.grants b dominant hold (n + 1) x = (x, []) := by
  simp only [Bay.grants, if_pos h]

/-- The claim is granted ahead of the head unless a link run is open (R121, R122). -/
theorem Bay.grants_claim (idle : x.line = .idle) (waits : claimWaits x) (closed : x.linkRun = none) :
    Bay.grants b dominant hold (n + 1) x = (x.attempt x.claim.txnKind dominant, []) := by
  simp [Bay.grants, idle, x.claimEligible_iff.mpr waits, closed]

theorem Bay.claim_passed (h : claimWaits x → x.linkRun ≠ none) : (x.claimEligible && x.linkRun.isNone) = false := by
  rw [Bool.and_eq_false_iff]
  by_cases waits : claimWaits x
  · exact .inr (by simpa [Option.isSome_iff_ne_none] using h waits)
  · exact .inl (by rwa [← Bool.not_eq_true, x.claimEligible_iff])

theorem Bay.grants_nobody (claim : claimWaits x → x.linkRun ≠ none) (head : ¬ headWaits x) :
    Bay.grants b dominant hold (n + 1) x = (x, []) := by
  by_cases idle : x.line = .idle
  · rw [Bay.headWaits_iff, not_and, not_not] at head
    by_cases eligible : x.headEligible = true
    · simp [Bay.grants, idle, Bay.claim_passed claim, eligible, head eligible]
    · simp [Bay.grants, idle, Bay.claim_passed claim, eligible]
  · exact Bay.grants_busy idle

/-- The head is granted, or answered NOT_AUTHORIZED and the arbiter acts again (R121, R132). -/
theorem Bay.grants_head {e : ForwardEntry} {rest : List ForwardEntry} (idle : x.line = .idle)
    (claim : claimWaits x → x.linkRun ≠ none) (head : headWaits x) (queue : x.queue = e :: rest) :
    Bay.grants b dominant hold (n + 1) x =
      if (x.granted e).carries e then ((x.granted e).attempt ((x.granted e).forwardKind e) dominant, [])
      else
        ((Bay.grants b dominant hold n ((x.granted e).popHead hold)).1,
          entryResponse b e e.code .notAuthorized RespFlags.none [] ::
            (Bay.grants b dominant hold n ((x.granted e).popHead hold)).2) := by
  have eligible := (x.headWaits_iff.mp head).1
  rw [Bay.grants, if_neg (not_not.mpr idle), Bay.claim_passed claim, if_neg Bool.false_ne_true, if_pos eligible]
  split
  · next empty => simp [empty] at queue
  · next queue' =>
    obtain ⟨rfl, rfl⟩ := List.cons.inj (queue'.symm.trans queue)
    rfl

end

theorem runWith_eq (run : Option Nat) (e : ForwardEntry) : runWith run e = runAtGrant run e := by
  cases run <;> rfl

/-- The carrying check (R132). -/
theorem Bay.carries_iff (x : Bay) (e : ForwardEntry) :
    x.carries e = true ↔ e.needsAuth = false ∨ x.state = .authorized ∨ x.state = .renewing := by
  cases state : x.state <;> simp [Bay.carries, state]

theorem Bay.carries_granted (x : Bay) (e : ForwardEntry) :
    (x.granted e).carries e = true ↔ e.needsAuth = false ∨ x.state = .authorized ∨ x.state = .renewing :=
  (x.granted e).carries_iff e

theorem Bay.popHead_eq {x : Bay} {e : ForwardEntry} {rest : List ForwardEntry} (queue : x.queue = e :: rest)
    (hold : Nat) : x.popHead hold = entryDone x x.linkRun e hold := by
  have first : x.head = e := by simp [Bay.head, queue]
  rw [Bay.popHead, first]
  cases run : x.linkRun with
  | none => simp [Bay.afterEntry, Bay.idleLine, entryDone]
  | some n =>
    by_cases closes : e.link = false ∨ 4 ≤ n
    · simp [Bay.afterEntry, Bay.idleLine, entryDone, closes]
    · by_cases last : rest = []
      · simp [Bay.afterEntry, Bay.idleLine, entryDone, closes, queue, last]
      · simp [Bay.afterEntry, Bay.idleLine, entryDone, closes, queue, last]

theorem Bay.popHead_granted {x : Bay} {e : ForwardEntry} {rest : List ForwardEntry} (queue : x.queue = e :: rest)
    (hold : Nat) :
    (x.granted e).popHead hold = entryDone { x with linkHold := none } (runAtGrant x.linkRun e) e hold :=
  Bay.popHead_eq (x := x.granted e) queue hold

theorem State.arbitrate_of_grants {s : State} {b : Fin 4} {y : Bay} {rs : List Response}
    (h : Bay.grants b (s.pins.lineDominant.get b) s.cfg.linkHold ((s.bay b).queue.length + 1) (s.bay b) = (y, rs)) :
    s.arbitrate b = (s.setBay b y).answer rs := by
  simp only [State.arbitrate, h]

/-- A head that is refused leaves the queue, and the arbiter acts on the rest (R121). -/
theorem State.arbitrate_refused {s : State} {b : Fin 4} {e : ForwardEntry} {rest : List ForwardEntry} {y : Bay}
    (queue : (s.bay b).queue = e :: rest) (left : y.queue = rest)
    (h : Bay.grants b (s.pins.lineDominant.get b) s.cfg.linkHold ((s.bay b).queue.length + 1) (s.bay b) =
      ((Bay.grants b (s.pins.lineDominant.get b) s.cfg.linkHold (s.bay b).queue.length y).1,
        entryResponse b e e.code .notAuthorized RespFlags.none [] ::
          (Bay.grants b (s.pins.lineDominant.get b) s.cfg.linkHold (s.bay b).queue.length y).2)) :
    s.arbitrate b =
      ((s.setBay b y).answer [entryResponse b e e.code .notAuthorized RespFlags.none []]).arbitrate b := by
  rw [State.arbitrate_of_grants h]
  simp only [State.arbitrate, State.answer_frame, State.setBay_frame, State.bay_setBay_same, left, queue,
    List.length_cons, State.setBay_answer, State.setBay_setBay, State.answer_answer, List.singleton_append]

theorem Claim.kindByte_eq (kind : ChallengeKind) :
    (Claim.challenge kind).kindByte = if Claim.challenge kind = .challenge .renewal then 2 else 1 := by
  cases kind <;> rfl

/-- The claim's attempt, with its frame written out (R10, R15, R108). -/
theorem Bay.attempt_claim {x : Bay} (waits : claimWaits x) (dominant : Bool) :
    x.attempt x.claim.txnKind dominant =
      if x.state = .identifying then attempted x .ident ⟨0xF0, 0, byteOf x.authRetries, [], none⟩ dominant
      else attempted x .challenge
        ⟨0xF2, 0, byteOf x.authRetries,
          (if x.claim = .challenge .renewal then 2 else 1) :: bytesBE 8 x.gateNonce.toNat, none⟩ dominant := by
  rcases waits with ⟨state, claim⟩ | ⟨state, _, kind, claim⟩
  · simp only [state, claim, if_true, Claim.txnKind]
    rfl
  · have other : x.state ≠ .identifying := by rcases state with state | state <;> simp [state]
    rw [if_neg other, claim, ← Claim.kindByte_eq, ← claim]
    have challenges : x.claim.txnKind = .challenge := by rw [claim]; rfl
    rw [challenges]
    rfl

/-- A granted head's attempt, split when NARROW stands at its first grant (R55, R125; log 25). -/
theorem Bay.attempt_head {y : Bay} {e : ForwardEntry} {rest : List ForwardEntry} (queue : y.queue = e :: rest)
    (dominant : Bool) :
    y.attempt (y.forwardKind e) dominant =
      if y.narrow = true ∧ e.retries = 0 ∧ 9 ≤ e.payload.length then
        attempted y .splitFirst ⟨e.code, 1, byteOf e.retries, e.payload.take 8, none⟩ dominant
      else attempted y .forward ⟨e.code, 0, byteOf e.retries, e.payload, none⟩ dominant := by
  have first : y.head = e := by simp [Bay.head, queue]
  by_cases splits : y.narrow = true ∧ e.retries = 0 ∧ 9 ≤ e.payload.length
  · simp only [Bay.forwardKind, splits, Bay.attempt, Bay.frameOf, Bay.retriesOf, first, attempted]
    simp
  · have whole : y.forwardKind e = .forward := by
      simp only [Bay.forwardKind, Bool.and_eq_true, beq_iff_eq, decide_eq_true_eq, ite_eq_right_iff]
      exact fun ⟨⟨retries, narrow⟩, long⟩ => absurd ⟨narrow, retries, long⟩ splits
    simp only [if_neg splits, whole, Bay.attempt, Bay.frameOf, Bay.retriesOf, first, attempted]

end Sys2Proof.Machine

open Sys2Proof Sys2Proof.Machine Sys2Proof.Claims

/-- Settles O5: responses go first, and then the lowest source; the lemmas give each case. -/
theorem transmitterTakesResponsesThenNotices : Obligations.TransmitterTakesResponsesThenNotices := by
  refine fun s => ⟨State.settleTx_dormant, State.settleTx_awake, State.transmit_sending, fun free =>
    ⟨fun _ _ waits => State.transmit_response free waits, fun quiet =>
      ⟨fun b pending lower => State.transmit_notice free quiet (Notices.lowest_bay pending lower), fun bays => ?_⟩⟩⟩
  have lowest := Notices.lowest_none_of_bays bays
  refine ⟨fun strings => ?_, fun strings gate => ?_, fun strings gate => ?_⟩
  · exact State.transmit_notice free quiet (by simpa [strings] using lowest)
  · exact State.transmit_notice free quiet (by simpa [strings, gate] using lowest)
  · exact State.transmit_idle free quiet (by simpa [strings, gate] using lowest)

/-- Settles O6: `Bay.grants` by its branches; a refused head leaves the queue to the arbiter's next round. -/
theorem arbiterGrantsTheLine : Obligations.ArbiterGrantsTheLine := by
  refine fun b s => ⟨fun quiet => ?_, fun idle waits closed => ?_, fun idle head claim e rest queue =>
    ⟨fun carried => ?_, fun needs state => ?_⟩⟩
  · have still := State.arbitrate_of_grants (s := s) (b := b) (y := s.bay b) (rs := [])
    rw [State.setBay_bay, State.answer_nil] at still
    rcases quiet with busy | ⟨claim, head⟩ | ⟨_, run, head⟩
    · exact still (Bay.grants_busy busy)
    · exact still (Bay.grants_nobody (fun waits => absurd waits claim) head)
    · exact still (Bay.grants_nobody (fun _ => run) head)
  · rw [State.arbitrate_of_grants (Bay.grants_claim idle waits closed), Bay.attempt_claim waits, State.answer_nil]
  · have granted := Bay.grants_head (b := b) (dominant := s.pins.lineDominant.get b) (hold := s.cfg.linkHold)
      (n := (s.bay b).queue.length) idle claim head queue
    rw [if_pos ((Bay.carries_granted _ e).mpr carried), Bay.attempt_head (y := (s.bay b).granted e) queue] at granted
    rw [State.arbitrate_of_grants granted, State.answer_nil, runWith_eq]
    rfl
  · have granted := Bay.grants_head (b := b) (dominant := s.pins.lineDominant.get b) (hold := s.cfg.linkHold)
      (n := (s.bay b).queue.length) idle claim head queue
    have refused : ¬ ((s.bay b).granted e).carries e = true := by
      rw [Bay.carries_granted]
      rcases state with state | state <;> simp [needs, state]
    rw [if_neg refused, Bay.popHead_granted queue] at granted
    rw [State.arbitrate_refused queue (by simp [entryDone, queue]) granted, runWith_eq]
    rfl
end

