-- ==== Sys2Proof/Proofs/DigestEngine.lean ====
section
/-! PROOF. The Digest Engine: submissions, and the rotation of its grants. -/

namespace Sys2Proof.Machine

open Sys2Proof.Claims

/-! ## A job starts (R43, R45) -/

section
variable {s : State} {c : Claimant} {j : Job}

theorem State.startJob_unkeyed (slot : j.namedSlot = none) : s.startJob c j = started s c j none := by
  simp only [State.startJob, slot, started]

theorem State.startJob_keyed {n : Nat} {key : Key} (slot : j.namedSlot = some n) (held : s.ts.keys.slot n = some key) :
    s.startJob c j = started s c j (some key) := by
  simp only [State.startJob, slot, held, started]

theorem State.startJob_unheld {n : Nat} (slot : j.namedSlot = some n) (empty : s.ts.keys.slot n = none) :
    s.startJob c j = { s with de.pointer := c }.jobNoKey j := by
  simp only [State.startJob, slot, empty]

theorem State.jobNoKey_checkImage {image : List Byte} {d : Digest} {l : Load} (load : s.il.load = some l)
    (checking : l.stage = .checking) : s.jobNoKey (.checkImage image d) = s.endLoad l (.status .noKey) .noKey [] := by
  simp only [State.jobNoKey, load, if_pos checking]

theorem State.endLoad_checking {l : Load} (checking : l.stage = .checking) (o : LoadOutcome) (st : Status)
    (payload : List Byte) :
    s.endLoad l o st payload =
      ({ s.withdraw .management with il := ⟨none, some o⟩ }.answer (l.endResponse st payload)).raiseGate := by
  simp only [State.endLoad, if_pos checking]

/-! ## A submission (R42, R45) -/

theorem State.submit_idle (idle : s.de.running = none) : s.submit c j = s.startJob c j := by
  simp only [State.submit, idle]

theorem State.submit_behind_own {r : RunningJob} (running : s.de.running = some r) (own : r.claimant = c) :
    s.submit c j = { s with de.held := s.de.held.set c (some j) } := by
  simp only [State.submit, running, if_pos own]

theorem State.submit_behind_other {r : RunningJob} (running : s.de.running = some r) (other : r.claimant ≠ c) :
    s.submit c j = { s with de.waiting := s.de.waiting.set c (some j) } := by
  simp only [State.submit, running, if_neg other]

end

/-! ## The cyclic order (R45) -/

/-- In a list in the order of a key, the search finds an element that holds when none that holds has a lower key. -/
theorem find?_eq_some_of_first {α : Type} {key : α → Nat} {p : α → Bool} {l : List α} {x : α}
    (sorted : l.Pairwise (key · < key ·)) (listed : x ∈ l) (holds : p x = true)
    (first : ∀ y ∈ l, p y = true → key x ≤ key y) : l.find? p = some x := by
  induction l with
  | nil => exact absurd listed List.not_mem_nil
  | cons a l ih =>
    obtain ⟨below, sorted⟩ := List.pairwise_cons.mp sorted
    rcases List.mem_cons.mp listed with rfl | listed
    · simp [holds]
    · have passed : ¬ p a = true := fun ha =>
        absurd (first a List.mem_cons_self ha) (Nat.not_le.mpr (below x listed))
      rw [List.find?_cons_of_neg passed]
      exact ih sorted listed fun y m => first y (List.mem_cons_of_mem a m)

theorem Claimant.following_sorted (p : Claimant) : p.following.Pairwise (behind p · < behind p ·) := by
  cases p with
  | bay b => fin_cases b <;> decide
  | management => decide

theorem Claimant.mem_following (p c : Claimant) : c ∈ p.following := by
  cases p with
  | bay b => cases c with
    | bay o => fin_cases b <;> fin_cases o <;> decide
    | management => fin_cases b <;> decide
  | management => cases c with
    | bay o => fin_cases o <;> decide
    | management => decide

theorem DigestEngine.nextWaiting_eq {de : DigestEngine} {w : Claimant} (waits : de.waiting.get w ≠ none)
    (first : ∀ o, de.waiting.get o ≠ none → behind de.pointer w ≤ behind de.pointer o) :
    de.nextWaiting = some w :=
  find?_eq_some_of_first (Claimant.following_sorted _) (Claimant.mem_following _ w)
    (Option.isSome_iff_ne_none.mpr waits) fun o _ holds => first o (Option.isSome_iff_ne_none.mp holds)

theorem DigestEngine.nextWaiting_none {de : DigestEngine} (idle : ∀ o, de.waiting.get o = none) :
    de.nextWaiting = none := by
  simp [DigestEngine.nextWaiting, idle]

theorem DigestEngine.waits_of_nextWaiting {de : DigestEngine} {w : Claimant} (next : de.nextWaiting = some w) :
    de.waiting.get w ≠ none :=
  Option.isSome_iff_ne_none.mp (List.find?_some (p := fun c => (de.waiting.get c).isSome) next)

/-! ## Grants (R45) -/

section
variable {s : State}

theorem State.grantJobs_running (n : Nat) {r : RunningJob} (running : s.de.running = some r) :
    State.grantJobs n s = s := by
  cases n <;> simp only [State.grantJobs, running]

theorem State.grantJobs_idle (n : Nat) (next : s.de.nextWaiting = none) : State.grantJobs n s = s := by
  cases n with
  | zero => rfl
  | succ n => cases running : s.de.running <;> simp only [State.grantJobs, running, next]

theorem State.grantJobs_next (n : Nat) {w : Claimant} {j : Job} (idle : s.de.running = none)
    (next : s.de.nextWaiting = some w) (waits : s.de.waiting.get w = some j) :
    State.grantJobs (n + 1) s =
      State.grantJobs n ({ s with de.waiting := s.de.waiting.set w none }.startJob w j) := by
  simp only [State.grantJobs, idle, next, waits]

end

/-- The claimants with a waiting job. -/
def DigestEngine.waiters (de : DigestEngine) : List Claimant :=
  Claimant.management.following.filter (fun c => (de.waiting.get c).isSome)

theorem DigestEngine.mem_waiters {de : DigestEngine} {c : Claimant} : c ∈ de.waiters ↔ de.waiting.get c ≠ none := by
  simp [DigestEngine.waiters, Claimant.mem_following, Option.isSome_iff_ne_none]

/-- When nobody begins to wait and one who waited no longer does, fewer wait. -/
theorem DigestEngine.waiters_lt {d e : DigestEngine} {w : Claimant}
    (sub : ∀ c, e.waiting.get c ≠ none → d.waiting.get c ≠ none) (waited : d.waiting.get w ≠ none)
    (done : e.waiting.get w = none) : e.waiters.length < d.waiters.length := by
  have kept : e.waiters = d.waiters.filter (fun c => (e.waiting.get c).isSome) := by
    simp only [DigestEngine.waiters, List.filter_filter]
    refine List.filter_congr fun c _ => ?_
    have := sub c
    cases he : e.waiting.get c <;> simp_all [Option.isSome_iff_ne_none]
  rw [kept, List.length_filter_lt_length_iff_exists]
  exact ⟨w, DigestEngine.mem_waiters.mpr waited, by simp [done]⟩

theorem JobPlaces.get_set (p : JobPlaces) (c o : Claimant) (j : Option Job) :
    (p.set c j).get o = if o = c then j else p.get o := by
  cases c <;> cases o <;> simp [JobPlaces.set, JobPlaces.get, Four.get_set]

/-- A start brings nobody to wait. -/
theorem State.waits_of_startJob {s : State} {c o : Claimant} {j : Job}
    (waits : (s.startJob c j).de.waiting.get o ≠ none) : s.de.waiting.get o ≠ none := by
  revert waits
  unfold State.startJob
  split
  · exact id
  · split
    · exact id
    · unfold State.jobNoKey
      split
      · split
        · split
          · next checking =>
            rw [State.endLoad_checking checking]
            change (s.de.waiting.set .management none).get o ≠ none → _
            rw [JobPlaces.get_set]
            split
            · exact fun none => absurd rfl none
            · exact id
          · exact id
        · exact id
      · split <;> exact id
      · exact id

theorem State.waiters_grant {s : State} {w : Claimant} {j : Job} (waits : s.de.waiting.get w ≠ none) :
    ({ s with de.waiting := s.de.waiting.set w none }.startJob w j).de.waiters.length < s.de.waiters.length := by
  refine DigestEngine.waiters_lt (w := w) (fun c left => ?_) waits ?_
  · have := State.waits_of_startJob left
    simp only [JobPlaces.get_set] at this
    split at this
    · exact absurd rfl this
    · exact this
  · refine by_contra fun left => ?_
    have := State.waits_of_startJob left
    simp [JobPlaces.get_set] at this

/-- One round for each waiting claimant is enough. -/
theorem State.grantJobs_succ {n : Nat} {s : State} (rounds : s.de.waiters.length ≤ n) :
    State.grantJobs (n + 1) s = State.grantJobs n s := by
  induction n generalizing s with
  | zero =>
    refine State.grantJobs_idle 1 (DigestEngine.nextWaiting_none fun o => by_contra fun waits => ?_)
    have := DigestEngine.mem_waiters.mpr waits
    rw [List.length_eq_zero_iff.mp (Nat.le_zero.mp rounds)] at this
    exact absurd this List.not_mem_nil
  | succ n ih =>
    cases running : s.de.running with
    | some r => rw [State.grantJobs_running _ running, State.grantJobs_running _ running]
    | none =>
      cases next : s.de.nextWaiting with
      | none => rw [State.grantJobs_idle _ next, State.grantJobs_idle _ next]
      | some w =>
        have waits := DigestEngine.waits_of_nextWaiting next
        obtain ⟨j, job⟩ := Option.ne_none_iff_exists'.mp waits
        rw [State.grantJobs_next _ running next job, State.grantJobs_next _ running next job]
        exact ih (Nat.le_of_lt_succ (Nat.lt_of_lt_of_le (State.waiters_grant waits) rounds))

theorem DigestEngine.waiters_le (de : DigestEngine) : de.waiters.length ≤ 5 :=
  List.length_filter_le _ _

/-- The state of a completion before the engine grants: a held job joins the waiting ones (R42, R45). -/
def State.freed (s : State) (c : Claimant) : State :=
  match s.de.held.get c with
  | some j =>
    { s with de.running := none, de.held := s.de.held.set c none, de.waiting := s.de.waiting.set c (some j) }
  | none => { s with de.running := none }

theorem State.jobDone_eq (s : State) (c : Claimant) : s.jobDone c = State.grantJobs 6 (s.freed c) := by
  cases held : s.de.held.get c <;> simp only [State.jobDone, State.freed, State.engineFree, held]

theorem State.running_freed (s : State) (c : Claimant) : (s.freed c).de.running = none := by
  unfold State.freed
  split <;> rfl

theorem State.ts_freed (s : State) (c : Claimant) : (s.freed c).ts = s.ts := by
  unfold State.freed
  split <;> rfl

end Sys2Proof.Machine

open Sys2Proof Sys2Proof.Machine Sys2Proof.Claims

/-- Settles O7: `submit` and `startJob` by their branches. -/
theorem digestJobsAreSubmitted : Obligations.DigestJobsAreSubmitted := by
  refine fun s c j => ⟨fun idle slot => ?_, fun idle n key slot held => ?_,
    fun idle empty image d l job load checking => ?_, fun r running other => State.submit_behind_other running other,
    fun r running own => State.submit_behind_own running own⟩
  · rw [State.submit_idle idle, State.startJob_unkeyed slot]
  · rw [State.submit_idle idle, State.startJob_keyed slot held]
  · subst job
    rw [State.submit_idle idle, State.startJob_unheld rfl empty]
    exact (State.jobNoKey_checkImage (s := { s with de.pointer := c }) load checking).trans
      (State.endLoad_checking checking _ _ _)

/-- Settles O8: the grant finds the first waiting claimant behind the pointer; five rounds are enough for five. -/
theorem digestEngineRotates : Obligations.DigestEngineRotates := by
  intro s c u
  have done : s.jobDone c = State.grantJobs 6 u := s.jobDone_eq c
  have idle : u.de.running = none := s.running_freed c
  have tables : u.ts = s.ts := s.ts_freed c
  clear_value u
  refine ⟨fun quiet => ?_, fun w j waits first => ?_⟩
  · rw [done, State.grantJobs_idle _ (DigestEngine.nextWaiting_none quiet)]
  · have waiting : u.de.waiting.get w ≠ none := by simp [waits]
    have granted := State.grantJobs_next 5 idle (DigestEngine.nextWaiting_eq waiting first) waits
    rw [← done] at granted
    refine ⟨fun slot => ?_, fun n key slot held => ?_, fun n slot empty => ?_⟩
    · rw [granted, State.startJob_unkeyed slot, State.grantJobs_running _ rfl]
    · rw [granted, State.startJob_keyed slot (by rwa [tables]), State.grantJobs_running _ rfl]
    · have left : (State.startJob { u with de.waiting := u.de.waiting.set w none } w j).de.waiters.length ≤ 5 :=
        DigestEngine.waiters_le _
      rw [granted, ← State.grantJobs_succ left, State.startJob_unheld slot (by rwa [tables])]
end

