-- ==== Sys2Proof/Proofs/Restarts.lean ====
section
/-! PROOF. The resets, the start-up check, and the store writes that a reset interrupts. -/

namespace Sys2Proof.Machine

open Sys2Proof.Claims

/-! ## Four places -/

theorem Four.ofFn_get {α : Type} (f : Four α) : Four.ofFn f.get = f := rfl

/-! ## A bay is replaced -/

theorem State.putBay_noticed {s : State} {b : Fin 4} {x : Bay} (h : (s.bay b).noticed x = true) :
    s.putBay b x = (s.setBay b x).raiseBay b := by
  simp only [State.putBay, if_pos h]

theorem State.putBay_quiet {s : State} {b : Fin 4} {x : Bay} (h : (s.bay b).noticed x = false) :
    s.putBay b x = s.setBay b x := by
  simp [State.putBay, h]

/-- A change of state calls for the notice (R3). -/
theorem Bay.noticed_of_state {x y : Bay} (h : x.state ≠ y.state) : x.noticed y = true := by
  simp [Bay.noticed, h]

/-! ## Bays with a pack present settle (R210, R212) -/

/-- The bay settles when it is EMPTY and a pack is present. -/
def State.settles (s : State) (b : Fin 4) : Bool := (s.bay b).state == .empty && (s.bay b).present

/-- The bay, in SETTLING if it settles. -/
def State.settledBay (s : State) (b : Fin 4) : Bay :=
  if s.settles b then (s.bay b).toSettling s.cfg.settle (s.pins.lineDominant.get b) else s.bay b

theorem State.settlePresent_eq (s : State) (b : Fin 4) :
    s.settlePresent b = { s with
      bays := s.bays.set b (s.settledBay b)
      tli.notices.bays := s.tli.notices.bays.set b (s.tli.notices.bays.get b || s.settles b) } := by
  unfold State.settlePresent
  split
  · next here =>
    have settles : s.settles b = true := by simp [State.settles, here]
    have noticed : (s.bay b).noticed ((s.bay b).toSettling s.cfg.settle (s.pins.lineDominant.get b)) = true :=
      Bay.noticed_of_state (by simp [here.1, Bay.toSettling])
    rw [State.enterSettling, State.putBay_noticed noticed]
    simp [State.settledBay, settles, State.setBay, State.raiseBay]
  · next here =>
    have stays : s.settles b = false := by simpa [State.settles] using here
    simp [State.settledBay, stays, State.bay]

theorem State.settleAll_eq (s : State) :
    s.settleAll = { s with
      bays := Four.ofFn s.settledBay
      tli.notices.bays := Four.ofFn (fun b => s.tli.notices.bays.get b || s.settles b) } := by
  simp only [State.settleAll, Four.indices, List.foldl_cons, List.foldl_nil, State.settlePresent_eq, State.settledBay,
    State.settles, State.bay]
  rfl

/-! ## Records and their CRC-32 (R177, R192) -/

section
variable {α : Type} {bytes : α → List Byte} {r : NvRecord α}

theorem NvRecord.agrees_iff : r.agrees bytes = true ↔ recordGood bytes r := by simp [NvRecord.agrees, recordGood]

theorem recordGood_intact (bytes : α → List Byte) (x : α) : recordGood bytes (NvRecord.intact bytes x) := rfl

theorem not_recordGood_damaged (bytes : α → List Byte) (x : α) : ¬ recordGood bytes (NvRecord.damaged bytes x) := by
  intro same
  have flipped : crc32 (bytes x) = ~~~ crc32 (bytes x) := same
  have bit := congrArg (fun v => v.getLsbD 0) flipped
  simp at bit

/-- What an interrupted write leaves in its record (R177). -/
theorem NvRecord.torn_spec (r : NvRecord α) (bytes : α → List Byte) (new : α) (torn : TornWrite) :
    (torn = .old → r.torn bytes new torn = r) ∧
      (torn = .new → (r.torn bytes new torn).content = new ∧ recordGood bytes (r.torn bytes new torn)) ∧
      (torn = .neither → ¬ recordGood bytes (r.torn bytes new torn)) := by
  refine ⟨?_, ?_, ?_⟩
  · rintro rfl; rfl
  · rintro rfl; exact ⟨rfl, recordGood_intact bytes new⟩
  · rintro rfl; exact not_recordGood_damaged bytes new

end

theorem TableStore.write_abandonWrite (ts : TableStore) (torn : TornWrite) : (ts.abandonWrite torn).write = none := by
  unfold TableStore.abandonWrite
  split
  · assumption
  all_goals rfl

/-! ## The start-up check (R192) -/

/-- The damaged records, in the order of their rewrites. -/
def damagedRecords (model revoke keys : Bool) : List RecordKind :=
  (if model then [RecordKind.model] else []) ++ (if revoke then [RecordKind.revoke] else []) ++
    (if keys then [RecordKind.keys] else [])

theorem damagedRecords_contains (model revoke keys : Bool) :
    (damagedRecords model revoke keys).contains .model = model ∧
      (damagedRecords model revoke keys).contains .revoke = revoke ∧
      (damagedRecords model revoke keys).contains .keys = keys := by
  revert model revoke keys
  decide

theorem TableStore.damaged_eq {ts : TableStore} {model revoke keys : Bool}
    (hm : model = false ↔ recordGood ModelTable.bytes ts.nvModel)
    (hr : revoke = false ↔ recordGood RevList.bytes ts.nvRevoke)
    (hk : keys = false ↔ recordGood KeyStore.bytes ts.nvKeys) : ts.damaged = damagedRecords model revoke keys := by
  rw [← NvRecord.agrees_iff] at hm hr hk
  have flip {d a : Bool} (h : d = false ↔ a = true) : a = !d := by cases d <;> simp_all
  rw [TableStore.damaged, flip hm, flip hr, flip hk, ← List.append_assoc]
  cases model <;> cases revoke <;> cases keys <;> rfl

theorem NvRecord.liveOr_eq {α : Type} {bytes : α → List Byte} {r : NvRecord α} {damaged : Bool}
    (h : damaged = false ↔ recordGood bytes r) (empty : α) :
    r.liveOr bytes empty = if damaged then empty else r.content := by
  rw [← NvRecord.agrees_iff] at h
  cases damaged <;> simp_all [NvRecord.liveOr]

/-- The damaged records' flags, and the gate source that each of them raises (R192, R201). -/
theorem State.foldl_flagLost (s : State) (ks : List RecordKind) :
    ks.foldl State.flagLost s = { s with
      flags.modelLost := s.flags.modelLost || ks.contains .model
      flags.revokeLost := s.flags.revokeLost || ks.contains .revoke
      flags.keysLost := s.flags.keysLost || ks.contains .keys
      tli.notices.gate := s.tli.notices.gate || !ks.isEmpty } := by
  induction ks generalizing s with
  | nil => simp
  | cons k ks ih =>
    rw [List.foldl_cons, ih]
    cases k <;>
      simp [State.flagLost, State.setModelLost, State.setRevokeLost, State.setKeysLost, State.raiseGate]

/-! ## Power-on and the release of RESETn (R212) -/

/-- A bay after a reset, once bays with a pack present settle. -/
def bayAtStart (present dominant : Bool) : Bay := if present then settlingAtReset dominant else Bay.afterReset false

theorem State.settledBay_atStart {s : State} {b : Fin 4} {present dominant : Bool}
    (bay : s.bay b = Bay.afterReset present) (settle : s.cfg.settle = 50)
    (line : s.pins.lineDominant.get b = dominant) :
    s.settledBay b = bayAtStart present dominant ∧ s.settles b = present := by
  rw [State.settledBay, State.settles, bay, settle, line]
  cases present <;> exact ⟨rfl, rfl⟩

/-- The completion of a start-up check that found no damage (R212 step 7). -/
theorem State.completeStartup_eq {s : State} {det : Four Bool} (bays : s.bays = det.map Bay.afterReset)
    (settle : s.cfg.settle = 50) (quiet : s.tli.notices.bays = Four.fill false) :
    s.completeStartup = { s with
      pw.power := .running
      bays := Four.ofFn (fun b => bayAtStart (det.get b) (s.pins.lineDominant.get b))
      tli.notices := { s.tli.notices with bays := det, gate := true } } := by
  have start (b : Fin 4) := State.settledBay_atStart (s := State.raiseGate { s with pw.power := .running }) (b := b)
    (present := det.get b) (by simp [State.raiseGate, State.bay, bays]) settle rfl
  have moved : State.settledBay (State.raiseGate { s with pw.power := .running }) =
      fun b => bayAtStart (det.get b) (s.pins.lineDominant.get b) := funext fun b => (start b).1
  have settles : State.settles (State.raiseGate { s with pw.power := .running }) = det.get :=
    funext fun b => (start b).2
  rw [State.completeStartup, State.settleAll_eq, moved, settles]
  simp only [State.notices_raiseGate, quiet, Four.get_fill, Bool.false_or]
  rfl

section
variable (levels : Pins) (torn : TornWrite) (s : State)

/-- The state that a start-up check without damage leaves (R212 step 7). -/
def restartedGood (cold : Bool) : State :=
  let ts := s.ts.abandonWrite torn
  { atReset s { ts with model := ts.nvModel.content, revoke := ts.nvRevoke.content, keys := ts.nvKeys.content }
      .running levels.prov levels with
    bays := ⟨bayAtStart levels.det.b0 levels.lineDominant.b0, bayAtStart levels.det.b1 levels.lineDominant.b1,
      bayAtStart levels.det.b2 levels.lineDominant.b2, bayAtStart levels.det.b3 levels.lineDominant.b3⟩
    tli := ⟨.assembling [], [], none, ⟨levels.det, false, true⟩, false⟩
    flags := ⟨cold, false, false, false, false, false⟩ }

/-- The start-up check of `ts`, with the damage found. -/
theorem TableStore.check_eq {ts : TableStore} {model revoke keys : Bool} (idle : ts.write = none)
    (hm : model = false ↔ recordGood ModelTable.bytes ts.nvModel)
    (hr : revoke = false ↔ recordGood RevList.bytes ts.nvRevoke)
    (hk : keys = false ↔ recordGood KeyStore.bytes ts.nvKeys) :
    ts.check = { ts with
      model := if model then ModelTable.none else ts.nvModel.content
      revoke := if revoke then RevList.none else ts.nvRevoke.content
      keys := if keys then noKeys else ts.nvKeys.content } := by
  rw [TableStore.check, NvRecord.liveOr_eq hm, NvRecord.liveOr_eq hr, NvRecord.liveOr_eq hk, ← idle]

theorem State.restart_good (cold : Bool) (hm : recordGood ModelTable.bytes (s.ts.abandonWrite torn).nvModel)
    (hr : recordGood RevList.bytes (s.ts.abandonWrite torn).nvRevoke)
    (hk : recordGood KeyStore.bytes (s.ts.abandonWrite torn).nvKeys) :
    s.restart levels torn cold = restartedGood levels torn s cold := by
  have checked := TableStore.check_eq (s.ts.write_abandonWrite torn) (model := false) (revoke := false)
    (keys := false) (by simpa) (by simpa) (by simpa)
  have undamaged : (s.ts.abandonWrite torn).damaged = [] :=
    TableStore.damaged_eq (model := false) (revoke := false) (keys := false) (by simpa) (by simpa) (by simpa)
  unfold State.restart
  dsimp only
  rw [undamaged, checked, List.foldl_nil, State.nextRewrite]
  cases cold <;> exact State.completeStartup_eq rfl rfl rfl

/-- The state that a start-up check with damage leaves, the first rewrite begun (R192). -/
def restartedDamaged (cold model revoke keys : Bool) (k : RecordKind) (rest : List RecordKind) : State :=
  let ts := s.ts.abandonWrite torn
  { atReset s
      { ts with
        model := if model then ⟨List.replicate 32 ModelEntry.none, 0⟩ else ts.nvModel.content
        revoke := if revoke then ⟨[], 0⟩ else ts.nvRevoke.content
        keys := if keys then List.replicate 8 none else ts.nvKeys.content
        write := some (.rewrite k) }
      (.startup rest) levels.prov levels with
    tli := ⟨.assembling [], [], none, ⟨Four.fill false, false, true⟩, false⟩
    flags := ⟨cold, model, revoke, keys, false, false⟩ }

theorem State.restart_damaged (cold : Bool) {model revoke keys : Bool} {k : RecordKind} {rest : List RecordKind}
    (hm : model = false ↔ recordGood ModelTable.bytes (s.ts.abandonWrite torn).nvModel)
    (hr : revoke = false ↔ recordGood RevList.bytes (s.ts.abandonWrite torn).nvRevoke)
    (hk : keys = false ↔ recordGood KeyStore.bytes (s.ts.abandonWrite torn).nvKeys)
    (damage : damagedRecords model revoke keys = k :: rest) :
    s.restart levels torn cold = restartedDamaged levels torn s cold model revoke keys k rest := by
  have checked := TableStore.check_eq (s.ts.write_abandonWrite torn) hm hr hk
  obtain ⟨lostModel, lostRevoke, lostKeys⟩ := damagedRecords_contains model revoke keys
  rw [damage] at lostModel lostRevoke lostKeys
  unfold State.restart
  dsimp only
  rw [TableStore.damaged_eq hm hr hk, damage, checked, State.foldl_flagLost, lostModel, lostRevoke, lostKeys,
    State.nextRewrite]
  cases cold <;> rfl

theorem exec_resetnRelease (powered : s.pw.power ≠ .off) :
    exec (.resetnRelease levels torn) s = done (s.restart levels torn false) := by
  have : s.powered = true := by simpa [State.powered] using powered
  simp only [exec, execResetnRelease, taken, this, if_true]

end

theorem restarts_good : RestartWithGoodRecords := by
  intro levels torn s ts hm hr hk bay up
  have restarted (cold : Bool) : s.restart levels torn cold = up cold := s.restart_good levels torn cold hm hr hk
  refine ⟨?_, fun powered => ?_⟩
  · rw [← restarted]; rfl
  · rw [← restarted, exec_resetnRelease levels torn s powered]; rfl

theorem restarts_damaged : RestartWithDamagedRecords := by
  intro levels torn s dm dr dk ts hm hr hk k rest damage up
  have restarted (cold : Bool) : s.restart levels torn cold = up cold :=
    s.restart_damaged levels torn cold hm hr hk damage
  refine ⟨?_, fun powered => ?_⟩
  · rw [← restarted]; rfl
  · rw [← restarted, exec_resetnRelease levels torn s powered]; rfl

/-! ## The rewrites of damaged records (R192) -/

theorem exec_startupRewriteComplete {s : State} {rest : List RecordKind} {k : RecordKind} (ok : Bool)
    (starting : s.pw.power = .startup rest) (writing : s.ts.write = some (.rewrite k)) :
    exec (.startupRewriteComplete ok) s = done (State.nextRewrite { s with ts := s.ts.rewritten k ok } rest) := by
  simp only [exec, execStartupRewriteComplete, starting, writing]

/-- The Table Store after a rewrite, with the unit not yet free (R192; log 12). -/
def rewrittenRecord (ok : Bool) (ts : TableStore) (k : RecordKind) : TableStore :=
  let crcOf (x : BitVec 32) : BitVec 32 := if ok then x else ~~~ x
  match k with
  | .model => { ts with nvModel := ⟨ModelTable.none, crcOf (crc32 ModelTable.none.bytes)⟩ }
  | .revoke => { ts with nvRevoke := ⟨RevList.none, crcOf (crc32 RevList.none.bytes)⟩ }
  | .keys => { ts with nvKeys := ⟨noKeys, crcOf (crc32 (KeyStore.bytes noKeys))⟩ }

theorem TableStore.rewritten_eq (ts : TableStore) (k : RecordKind) (ok : Bool) :
    ts.rewritten k ok = { rewrittenRecord ok ts k with write := none } := by
  cases k <;> cases ok <;> rfl

/-! ## RESETn and the supply (R177, R212) -/

theorem resetHoldsTheGateQuiet : ResetHoldsTheGateQuiet := by
  intro torn s held
  refine ⟨rfl, fun powered => ?_, rfl, rfl⟩
  have : s.powered = true := by simpa [State.powered] using powered
  simp only [exec, execResetnAssert, this, if_true]
  rfl

/-- The record that an abandoned write of each kind touches (R177). -/
theorem interruptedWriteTouchesOneRecord : InterruptedWriteTouchesOneRecord := by
  refine fun ts torn => ⟨fun idle => by simp only [TableStore.abandonWrite, idle], fun w writing => ?_⟩
  refine ⟨ts.write_abandonWrite torn, ?_, ?_, ?_, fun new kind => ?_, fun new kind => ?_, fun new n kind => ?_⟩
  · unfold TableStore.abandonWrite; split <;> rfl
  · unfold TableStore.abandonWrite; split <;> rfl
  · unfold TableStore.abandonWrite; split <;> rfl
  · have spec := ts.nvModel.torn_spec ModelTable.bytes new torn
    rcases kind with rfl | ⟨rfl, rfl⟩ <;>
      simp only [TableStore.abandonWrite, writing] <;>
      exact ⟨trivial, trivial, spec⟩
  · have spec := ts.nvRevoke.torn_spec RevList.bytes new torn
    rcases kind with rfl | rfl | ⟨rfl, rfl⟩ <;> simp only [TableStore.abandonWrite, writing] <;>
      exact ⟨trivial, trivial, spec⟩
  · have spec := ts.nvKeys.torn_spec KeyStore.bytes new torn
    rcases kind with rfl | ⟨rfl, rfl⟩ <;>
      simp only [TableStore.abandonWrite, writing] <;>
      exact ⟨trivial, trivial, spec⟩

end Sys2Proof.Machine

open Sys2Proof Sys2Proof.Machine Sys2Proof.Claims

/-- Settles O12: the check's damage, its flags and its rewrites are read off the three records. -/
theorem restartsRunTheStartupCheck : Obligations.RestartsRunTheStartupCheck := ⟨restarts_good, restarts_damaged⟩

/-- Settles O13: the next rewrite, or the completion, with `settleAll_eq` for the bays. -/
theorem startupRewritesFollowOneAnother : Obligations.StartupRewritesFollowOneAnother := by
  intro ok s rest k starting writing crcOf ts
  have rewritten : s.ts.rewritten k ok = { ts with write := none } := s.ts.rewritten_eq k ok
  refine ⟨fun k' rest' more => ?_, fun last => ?_⟩
  · rw [exec_startupRewriteComplete ok starting writing, rewritten, more]
    rfl
  · rw [exec_startupRewriteComplete ok starting writing, rewritten, last, State.nextRewrite, State.completeStartup,
      State.settleAll_eq]
    rfl

/-- Settles O14: the reset state, and the one record that each kind of write touches. -/
theorem resetsInterruptWhatRuns : Obligations.ResetsInterruptWhatRuns :=
  ⟨resetHoldsTheGateQuiet, interruptedWriteTouchesOneRecord⟩
end

