-- ==== Sys2Proof/Proofs/BayRules.lean ====
section
/-! PROOF. What each shared transition of a bay does to the whole state: the bay it replaces, the work it withdraws, the
answers it gives and the notice that it raises. -/

namespace Sys2Proof.Machine

open Sys2Proof.Claims

theorem doneBay_eq (b : Fin 4) (s : State) : doneBay b s = .next (afterBay b s) := rfl

/-! ## One bay is replaced twice -/

section
variable (s : State) (b : Fin 4) (x : Bay)

theorem State.setBay_raiseBay (o : Fin 4) : (s.raiseBay o).setBay b x = (s.setBay b x).raiseBay o := rfl

theorem State.setBay_withdraw (c : Claimant) : (s.withdraw c).setBay b x = (s.setBay b x).withdraw c := rfl

theorem State.raiseBay_withdraw (c : Claimant) : (s.withdraw c).raiseBay b = (s.raiseBay b).withdraw c := rfl

@[simp] theorem State.raiseBay_raiseBay : (s.raiseBay b).raiseBay b = s.raiseBay b := by
  simp [State.raiseBay]

/-- A bay replaced twice, of which the second change calls for the notice. -/
theorem State.putBay_setBay {y : Bay} (h : x.noticed y = true) :
    (s.setBay b x).putBay b y = (s.setBay b y).raiseBay b := by
  rw [State.putBay_noticed (by simpa using h), State.setBay_setBay]

end

/-! ## Transitions -/

section
variable {s : State} {b : Fin 4}

theorem State.enterSettling_eq (h : (s.bay b).state ≠ .settling) :
    s.enterSettling b =
      (s.setBay b (settling (s.bay b) s.cfg.settle (s.pins.lineDominant.get b))).raiseBay b :=
  State.putBay_noticed (Bay.noticed_of_state h)

theorem State.settlePresent_settles (empty : (s.bay b).state = .empty) (present : (s.bay b).present = true) :
    s.settlePresent b = (s.setBay b (settling (s.bay b) s.cfg.settle (s.pins.lineDominant.get b))).raiseBay b := by
  rw [State.settlePresent, if_pos ⟨empty, present⟩, State.enterSettling_eq (by simp [empty])]

theorem State.settlePresent_stays (h : (s.bay b).state ≠ .empty ∨ (s.bay b).present = false) :
    s.settlePresent b = s := by
  rw [State.settlePresent, if_neg]
  rintro ⟨empty, present⟩
  rcases h with other | absent
  · exact other empty
  · simp [present] at absent

/-- The work of an admission or renewal is withdrawn, and the bay then takes another context (R4). -/
theorem State.putBay_abandon {x : Bay} (h : (s.bay b).state ≠ x.state) :
    (s.abandon b).putBay b x = (({ s with de := s.de.withdrawAuth b } : State).setBay b x).raiseBay b := by
  have noticed : ((s.abandon b).bay b).noticed x = true :=
    Bay.noticed_of_state (by simpa [State.bay_abandon] using h)
  rw [State.putBay_noticed noticed]
  exact congrArg (State.raiseBay · b) (State.setBay_setBay { s with de := s.de.withdrawAuth b } b _ x)

theorem State.bay_abandon_same : (s.abandon b).bay b = (s.bay b).abandonLine := by simp [State.bay_abandon]

theorem State.enterIdentifying_eq (h : (s.bay b).state ≠ .identifying) : s.enterIdentifying b = identified s b := by
  rw [State.enterIdentifying, State.bay_abandon_same, State.putBay_abandon (x := (s.bay b).abandonLine.toIdentifying) h]
  rfl

theorem State.deny_eq (r : DenyReason) (h : (s.bay b).state ≠ .denied) :
    s.deny b r = denied s b (s.bay b).abandonLine r := by
  rw [State.deny, State.bay_abandon_same, State.putBay_abandon (x := (s.bay b).abandonLine.standDown _ _ _) h]
  rfl

theorem State.stringEnabled_iff :
    s.stringEnabled b = true ↔ ∃ i, s.sc.assign.get b = some i ∧ s.sc.strings.get i = .enabled := by
  unfold State.stringEnabled
  split
  · next i assigned => simp [assigned]
  · next unassigned => simp [unassigned]

theorem State.loseEligibility_eq (r : DenyReason) (notDenied : (s.bay b).state ≠ .denied)
    (notGrace : (s.bay b).state ≠ .grace) :
    s.loseEligibility b r = lostEligibility s b (s.bay b).abandonLine r := by
  have held : (s.sc.runFiltered && s.stringEnabled b) = true ↔
      s.sc.runFiltered = true ∧ ∃ i, s.sc.assign.get b = some i ∧ s.sc.strings.get i = .enabled := by
    rw [Bool.and_eq_true, State.stringEnabled_iff]
  unfold State.loseEligibility lostEligibility
  by_cases powered : s.sc.runFiltered = true ∧ ∃ i, s.sc.assign.get b = some i ∧ s.sc.strings.get i = .enabled
  · rw [if_pos powered, if_pos (held.mpr powered)]
    dsimp only
    rw [State.bay_abandon_same, State.putBay_abandon (x := (s.bay b).abandonLine.standDown _ _ _) notGrace]
    rfl
  · rw [if_neg powered, if_neg (mt held.mp powered)]
    exact State.deny_eq r notDenied

theorem State.endGrace_eq (h : (s.bay b).state = .grace) :
    s.endGrace b = (s.setBay b (graceEnded (s.bay b))).raiseBay b :=
  State.putBay_noticed (Bay.noticed_of_state (by simp [h, Bay.standDown]))

theorem State.enterRenewing_eq (h : (s.bay b).state ≠ .renewing) : s.enterRenewing b = renewing s b :=
  State.putBay_noticed (Bay.noticed_of_state h)

/-- A bay that drops all its work with one answer to each of its requests (R8, R104, R117). -/
theorem State.putBay_flush {x : Bay} (st : Status) (h : (s.bay b).state ≠ x.state) :
    ((s.answer (flushResponses b (s.bay b).queue st)).putBay b x).withdraw (.bay b) =
      ((({ s with de := s.de.withdraw (.bay b) } : State).setBay b x).answer (flushed s b st)).raiseBay b := by
  rw [State.putBay_noticed (Bay.noticed_of_state (by simpa using h))]
  rfl

/-- A bay whose source is raised already takes another context. -/
theorem State.putBay_raised {x : Bay} : (s.raiseBay b).putBay b x = (s.setBay b x).raiseBay b := by
  unfold State.putBay
  split
  · rw [State.setBay_raiseBay, State.raiseBay_raiseBay]
  · rfl

/-- R100, R104: the seventh strike takes the bay to LOCKOUT. -/
theorem State.strike_eq : s.strike b = afterStrike s b := by
  have struck : (s.putBay b (s.bay b).struck).raiseBay b = (s.setBay b (s.bay b).struck).raiseBay b := by
    unfold State.putBay
    split <;> simp
  unfold State.strike afterStrike
  dsimp only
  rw [struck]
  simp only [State.raiseBay_frame, State.bay_setBay_same]
  by_cases out : 7 ≤ (s.bay b).struck.strikes
  · have locked : State.putBay
        (((s.answer (flushResponses b (s.bay b).queue .lockout)).setBay b (s.bay b).struck).raiseBay b) b
        (s.bay b).struck.toLockout =
        ((s.answer (flushResponses b (s.bay b).queue .lockout)).setBay b (s.bay b).struck.toLockout).raiseBay b := by
      rw [State.putBay_raised, State.setBay_setBay]
    rw [if_pos out, if_neg (by simpa [Bay.struck] using out), State.enterLockout]
    simp only [State.raiseBay_frame, State.bay_setBay_same]
    exact congrArg (State.withdraw · (.bay b)) locked
  · rw [if_neg out, if_pos (by simpa [Bay.struck] using out)]
    rfl

end

end Sys2Proof.Machine
end

