-- ==== Sys2Proof/Proofs/BayEvents.lean ====
section
/-! PROOF. Presence, the timers of a bay, RUN, strikes and their decay, abandoned work, and the wake. -/

namespace Sys2Proof.Machine

open Sys2Proof.Claims

/-! ## Abandoned work (R4, R46, R115) -/

section
variable (de : DigestEngine) (b : Fin 4)

theorem DigestEngine.waiting_withdrawAuth (c : Claimant) :
    (de.withdrawAuth b).waiting.get c =
      if c = .bay b then (de.waiting.get (.bay b)).filter Job.isCheckTag else de.waiting.get c :=
  JobPlaces.get_set _ _ _ _

theorem DigestEngine.held_withdrawAuth (c : Claimant) :
    (de.withdrawAuth b).held.get c =
      if c = .bay b then (de.held.get (.bay b)).filter Job.isCheckTag else de.held.get c :=
  JobPlaces.get_set _ _ _ _

/-- The job in progress is discarded when it is the bay's own and no CHECK_TAG. -/
theorem DigestEngine.running_withdrawAuth {r : RunningJob} (running : de.running = some r) :
    (de.withdrawAuth b).running = some { r with
      discarded := r.discarded || (decide (r.claimant = .bay b) && !r.job.isCheckTag) } := by
  simp only [DigestEngine.withdrawAuth, running, Option.map_some, Option.some.injEq]
  by_cases own : r.claimant = .bay b ∧ r.job.isCheckTag = false
  · simp [own]
  · rw [if_neg own]
    have kept : (decide (r.claimant = .bay b) && !r.job.isCheckTag) = false := by simpa using own
    simp [kept]

end

section
variable {x : Bay} {k : TxnKind}

theorem Bay.abandonLine_inTransaction {st : AttemptStage} {ab : Bool} (line : x.line = .inTransaction k st ab) :
    x.abandonLine = { x with
      authRetries := 0
      line := .inTransaction k st (if k = .ident ∨ k = .challenge then true else ab) } := by
  cases k <;> simp [Bay.abandonLine, line]

theorem Bay.abandonLine_retryWait (line : x.line = .retryWait k) :
    x.abandonLine =
      if k = .ident ∨ k = .challenge then
        { x with
          line := .idle, frame := none, response := none, retryWait := none, heldReply := none, authRetries := 0 }
      else { x with authRetries := 0 } := by
  cases k <;> simp [Bay.abandonLine, line, Bay.idleLine]

theorem Bay.abandonLine_quiet (line : x.line = .idle ∨ x.line = .awaitDigest) :
    x.abandonLine = { x with authRetries := 0 } := by
  rcases line with line | line <;> simp only [Bay.abandonLine, line]

end

/-! ## Presence (R4a, R5, R7, R8) -/

section
variable {s : State} {b : Fin 4}

theorem exec_insertion (live : s.live = true) (awake : s.pw.dormant = false) (absent : (s.bay b).present = false) :
    exec (.insertion b) s = doneBay b
      (if s.isRunning then ((s.setDet b true).setPresent b true).settlePresent b
       else (s.setDet b true).setPresent b true) := by
  simp only [exec, execInsertion, live, awake, absent, Bool.not_false, Bool.and_self, if_true]

theorem insertionIsTaken : InsertionIsTaken := by
  intro b s live awake absent u x
  have inserted : (s.setDet b true).setPresent b true = u.setBay b x := rfl
  rw [exec_insertion live awake absent, inserted]
  refine ⟨fun running empty => ?_, fun stays => ?_⟩
  · have settled := State.settlePresent_settles (s := u.setBay b x) (b := b) (by simpa using empty) (by simp [x])
    rw [if_pos (by simp [State.isRunning, running]), settled, State.setBay_setBay, State.bay_setBay_same]
    rfl
  · have still : (if s.isRunning then (u.setBay b x).settlePresent b else u.setBay b x) = u.setBay b x := by
      rcases stays with off | other
      · rw [if_neg (by simpa [State.isRunning] using off)]
      · rw [State.settlePresent_stays (.inl (by simpa using other)), ite_self]
    rw [still]
    rfl

theorem exec_removal (live : s.live = true) (awake : s.pw.dormant = false) (present : (s.bay b).present = true) :
    exec (.removal b) s = done (((s.setDet b false).removeBay b).derive true) := by
  simp only [exec, execRemoval, live, awake, present, Bool.not_false, Bool.and_self, if_true]

theorem State.emptyBay_eq :
    s.emptyBay b =
      let e := ({ s with de := s.de.withdraw (.bay b) } : State).setBay b (s.bay b).toEmpty |>.answer
        (flushed s b .cancelled)
      if (s.bay b).state = .empty then e else e.raiseBay b := by
  by_cases empty : (s.bay b).state = .empty
  · have quiet : ((s.answer (flushResponses b (s.bay b).queue .cancelled)).bay b).noticed (s.bay b).toEmpty =
        false := by
      simp [Bay.noticed, empty, Bay.toEmpty]
    rw [State.emptyBay, State.putBay_quiet quiet, if_pos empty]
    rfl
  · rw [State.emptyBay, State.putBay_flush _ empty, if_neg empty]

theorem State.setPresent_setBay (x : Bay) (present : Bool) :
    (s.setBay b x).setPresent b present = s.setBay b { x with present := present } := by
  simp [State.setPresent]

theorem removalEmptiesTheBay : RemovalEmptiesTheBay := by
  intro b s live awake present u
  rw [exec_removal live awake present]
  refine ⟨fun locked => ?_, fun free => ?_⟩
  · rw [State.removeBay, if_pos (by simpa using locked)]
    rfl
  · intro e e'
    have emptied : (u.emptyBay b).setPresent b false = if (s.bay b).state = .empty then e' else e'.raiseBay b := by
      have placed := State.setPresent_setBay (s := { u with de := s.de.withdraw (.bay b) }) (b := b)
        (s.bay b).toEmpty false
      rw [State.emptyBay_eq]
      by_cases empty : (s.bay b).state = .empty
      · rw [if_pos empty, if_pos (show (u.bay b).state = .empty from empty)]
        exact congrArg (State.answer · (flushed s b .cancelled)) placed
      · rw [if_neg empty, if_neg (show (u.bay b).state ≠ .empty from empty)]
        exact congrArg (fun t : State => (t.answer (flushed s b .cancelled)).raiseBay b) placed
    rw [State.removeBay, if_neg (by simpa using free)]
    exact congrArg (fun t : State => done (t.derive true)) emptied

/-! ## The timers of a bay (R6, R23, R88, R90, R97) -/

theorem settleExpiryLooksAtDet : SettleExpiryLooksAtDet := by
  intro b det s awake settling running u
  have ready : (s.awake && (s.bay b).state == .settling && (s.bay b).settle.isSome) = true := by
    simp [awake, settling, Option.isSome_iff_ne_none, running]
  simp only [exec, execSettleExpiry, if_pos ready]
  cases det
  · rfl
  · have identifies : (s.setDet b true).enterIdentifying b = identified u b :=
      State.enterIdentifying_eq (by simp [settling])
    rw [if_pos rfl, if_pos rfl, identifies]
    rfl

theorem reattemptExpiryIdentifiesAgain : ReattemptExpiryIdentifiesAgain := by
  intro b s denied running
  have ready : ((s.bay b).state == .denied && (s.bay b).reattempt.isSome) = true := by
    simp [denied, Option.isSome_iff_ne_none, running]
  simp only [exec, execReattemptExpiry, if_pos ready, State.enterIdentifying_eq (s := s) (b := b) (by simp [denied])]
  rfl

theorem renewExpiryBeginsARenewal : RenewExpiryBeginsARenewal := by
  intro b s authorized running
  have ready : ((s.bay b).state == .authorized && (s.bay b).renew.isSome) = true := by
    simp [authorized, Option.isSome_iff_ne_none, running]
  simp only [exec, execRenewExpiry, if_pos ready, State.enterRenewing_eq (s := s) (b := b) (by simp [authorized])]
  rfl

theorem graceExpiryDenies : GraceExpiryDenies := by
  intro b s grace running
  have ready : ((s.bay b).state == .grace && (s.bay b).grace.isSome) = true := by
    simp [grace, Option.isSome_iff_ne_none, running]
  simp only [exec, execGraceExpiry, if_pos ready, State.endGrace_eq grace]
  rfl

/-! ## RUN (R164 to R166) -/

theorem State.runFallBay_eq :
    s.runFallBay b = { s with
      bays := s.bays.set b (if (s.bay b).state == .grace then graceEnded (s.bay b) else s.bay b)
      tli.notices.bays := s.tli.notices.bays.set b (s.tli.notices.bays.get b || (s.bay b).state == .grace) } := by
  by_cases grace : (s.bay b).state = .grace
  · rw [State.runFallBay, if_pos grace, State.endGrace_eq grace]
    simp [grace, State.setBay, State.raiseBay]
  · have stays : ((s.bay b).state == .grace) = false := by simpa using grace
    rw [State.runFallBay, if_neg grace, stays]
    simp [State.bay]

theorem State.foldl_runFallBay :
    Four.indices.foldl State.runFallBay s = { s with
      bays := Four.ofFn (fun b => if (s.bay b).state == .grace then graceEnded (s.bay b) else s.bay b)
      tli.notices.bays := Four.ofFn (fun b => s.tli.notices.bays.get b || (s.bay b).state == .grace) } := by
  simp only [Four.indices, List.foldl_cons, List.foldl_nil, State.runFallBay_eq, State.bay]
  rfl

/-! ## Strikes decay (R101, R106) -/

theorem exec_decayExpiry {n : Nat} (live : s.live = true) (runs : (s.bay b).decay = some n) (due : n ≤ 1) :
    exec (.decayExpiry b) s = .next (afterBay b (s.decayBay b)) := by
  have ready : (s.live && (s.bay b).decayDue) = true := by simp [live, Bay.decayDue, runs, due]
  simp only [exec, execDecayExpiry, if_pos ready]
  rfl

theorem exec_decayExpiry_restarted {n : Nat} (runs : (s.bay b).decay = some n) (fresh : 1 < n) :
    exec (.decayExpiry b) s = .next s := by
  have early : (s.bay b).decayDue = false := by simpa [Bay.decayDue, runs] using fresh
  simp [exec, execDecayExpiry, early, unchanged]

/-- A bay with one strike fewer (R101). -/
def decayedBay (x : Bay) : Bay :=
  { x with strikes := x.strikes - 1, decay := if x.strikes ≤ 1 then none else some 60000 }

theorem Bay.decayed_eq (x : Bay) : x.decayed = decayedBay x := by
  by_cases last : x.strikes ≤ 1
  · simp [Bay.decayed, decayedBay, last, Nat.not_lt.mpr last]
  · simp [Bay.decayed, decayedBay, last, Nat.not_le.mp last]

/-- A bay that leaves LOCKOUT (R106). -/
def freedBay (x : Bay) : Bay :=
  { x with state := .empty, identity := none, packKey := none, attempts := 0, clean := false }

theorem State.leaveLockout_eq (locked : (s.bay b).state = .lockout) :
    s.leaveLockout b =
      (s.setBay b (if (s.bay b).present then settling (freedBay (s.bay b)) s.cfg.settle (s.pins.lineDominant.get b)
        else freedBay (s.bay b))).raiseBay b := by
  have freed : s.putBay b (freedBay (s.bay b)) = (s.setBay b (freedBay (s.bay b))).raiseBay b :=
    State.putBay_noticed (Bay.noticed_of_state (by simp [locked, freedBay]))
  have left : s.leaveLockout b = ((s.setBay b (freedBay (s.bay b))).raiseBay b).settlePresent b := by
    rw [← freed]; rfl
  rw [left]
  cases present : (s.bay b).present
  · rw [State.settlePresent_stays (.inr (by simpa [freedBay] using present))]
    simp
  · rw [State.settlePresent_settles (by simp [freedBay]) (by simpa [freedBay] using present), State.setBay_raiseBay,
      State.raiseBay_raiseBay, State.setBay_setBay]
    simp

theorem State.decayBay_eq :
    s.decayBay b =
      let u := (s.setBay b (decayedBay (s.bay b))).raiseBay b
      if (s.bay b).state = .lockout ∧ (s.bay b).strikes ≤ 1 then
        if s.pw.dormant then (u.leaveLockout b).wake else u.leaveLockout b
      else u := by
  have decayed : (s.putBay b (s.bay b).decayed).raiseBay b = (s.setBay b (decayedBay (s.bay b))).raiseBay b := by
    rw [Bay.decayed_eq]
    unfold State.putBay
    split <;> simp
  have ends : (s.bay b).strikes - 1 = 0 ↔ (s.bay b).strikes ≤ 1 := by omega
  unfold State.decayBay
  dsimp only
  rw [decayed]
  simp [decayedBay, ends]

theorem strikesDecay : StrikesDecay := by
  intro b s n live runs
  refine ⟨exec_decayExpiry_restarted runs, fun due => ?_⟩
  intro x freed
  rw [exec_decayExpiry live runs due, State.decayBay_eq]
  refine ⟨fun stays => ?_, fun locked last => ?_⟩
  · rw [if_neg (by rintro ⟨locked, last⟩; exact stays.elim (· locked) (Nat.not_lt.mpr last))]
    rfl
  · intro u
    have left : State.leaveLockout ((s.setBay b (decayedBay (s.bay b))).raiseBay b) b = u := by
      rw [State.leaveLockout_eq (by simpa [decayedBay] using locked), State.setBay_raiseBay, State.raiseBay_raiseBay,
        State.setBay_setBay]
      simp only [State.raiseBay_frame, State.bay_setBay_same, State.setBay_frame]
      rfl
    rw [if_pos ⟨locked, last⟩, left]
    exact ⟨fun awake => by rw [awake]; rfl, fun asleep => by rw [asleep]; rfl⟩

end

/-! ## The wake (R209, R210) -/

theorem State.wake_eq (s : State) :
    s.wake =
      let v : State := State.derive
        { s with
          pw.dormant := false
          pw.detSample := Four.fill none
          bays := Four.ofFn s.settledBay
          tli.notices.bays := Four.ofFn (fun b => s.tli.notices.bays.get b || s.settles b) } false
      ({ v with tli.woke := true } : State).raiseGate := by
  rw [State.wake, State.settleAll_eq]
  rfl

theorem sampleChanged_iff (old : Four (Option Bool)) (det : Four Bool) :
    sampleChanged old det = true ↔ ∃ b x, old.get b = some x ∧ x ≠ det.get b := by
  simp [sampleChanged, Option.any_eq_true]

end Sys2Proof.Machine

open Sys2Proof Sys2Proof.Machine Sys2Proof.Claims

/-- Settles O15: `withdrawAuth` place by place, and `abandonLine` by the state of the line. -/
theorem abandonedWorkIsDropped : Obligations.AbandonedWorkIsDropped := by
  refine ⟨fun de b => ⟨rfl, fun c other => ?_, fun j waits => ?_, fun j held => ?_, fun idle => ?_, fun idle => ?_,
    fun idle => ?_, fun r running => de.running_withdrawAuth b running⟩, fun x =>
    ⟨fun k st ab line => Bay.abandonLine_inTransaction line, fun k line => Bay.abandonLine_retryWait line,
      fun line => Bay.abandonLine_quiet line⟩⟩
  · rw [de.waiting_withdrawAuth, de.held_withdrawAuth, if_neg other, if_neg other]
    exact ⟨rfl, rfl⟩
  · rw [de.waiting_withdrawAuth, if_pos rfl, waits, Option.filter_some]
  · rw [de.held_withdrawAuth, if_pos rfl, held, Option.filter_some]
  · rw [de.waiting_withdrawAuth, if_pos rfl, idle, Option.filter_none]
  · rw [de.held_withdrawAuth, if_pos rfl, idle, Option.filter_none]
  · simp [DigestEngine.withdrawAuth, idle]

/-- Settles O16: the bay settles or stays at an insertion, and is emptied at a removal. -/
theorem presenceFollowsDet : Obligations.PresenceFollowsDet := ⟨insertionIsTaken, removalEmptiesTheBay⟩

/-- Settles O17: each expiry is one transition of the bay. -/
theorem bayTimersExpire : Obligations.BayTimersExpire :=
  ⟨settleExpiryLooksAtDet, reattemptExpiryIdentifiesAgain, renewExpiryBeginsARenewal, graceExpiryDenies⟩

/-- Settles O18: the fall's fold over the bays is taken bay by bay. -/
theorem runIsFilteredAndTaken : Obligations.RunIsFilteredAndTaken := by
  refine fun s => ⟨fun level live => ?_, fun running low => ?_, fun running high => ?_⟩
  · simp only [exec, execRunInputChange, live, if_true]
  · have ready : (s.sc.runFilter.isSome && !s.sc.runFiltered) = true := by
      simp [Option.isSome_iff_ne_none, running, low]
    simp only [exec, execRunRise, if_pos ready]
    rfl
  · have ready : (s.sc.runFilter.isSome && s.sc.runFiltered) = true := by
      simp [Option.isSome_iff_ne_none, running, high]
    simp only [exec, execRunFall, if_pos ready, State.foldl_runFallBay]
    rfl

/-- Settles O20: `wake_eq`, and the samples that wake. -/
theorem dormantGateWakes : Obligations.DormantGateWakes := by
  intro s running dormant woken
  have wakes (u : State) : u.wake = woken u := u.wake_eq
  have asleep : s.asleep = true := by simp [State.asleep, State.isRunning, running, dormant]
  refine ⟨wakes, ?_, fun det => ?_⟩
  · simp only [exec, execRxdWake, taken, asleep, if_true, State.rxdWake, wakes]
    rfl
  · intro u
    refine ⟨fun changed => ?_, fun same => ?_⟩
    · rw [← wakes]
      simp only [exec, execDormantDetSample, taken, asleep, if_true, if_pos ((sampleChanged_iff _ det).mpr changed)]
      rfl
    · have still : ¬ sampleChanged s.pw.detSample det = true := fun changed => by
        obtain ⟨b, x, before, differs⟩ := (sampleChanged_iff _ det).mp changed
        exact differs (same b x before)
      simp only [exec, execDormantDetSample, taken, asleep, if_true, if_neg still]
      rfl

/-- Settles O26: a strike, and its decay. -/
theorem strikesCountAndDecay : Obligations.StrikesCountAndDecay := ⟨fun _ _ => State.strike_eq, strikesDecay⟩
end

