-- ==== Sys2Proof/Proofs/Attempts.lean ====
section
/-! PROOF. The level of a bay line, and the ends of an attempt: retries, failures, the second half of a split, the
waits. -/

namespace Sys2Proof.Machine

open Sys2Proof.Claims

/-! ## The level of a bay line (R107, R109, R116 to R118) -/

section
variable {s : State} {b : Fin 4}

theorem exec_bayLineLevelChange {dom : Bool} (live : s.live = true) (moves : s.pins.lineDominant.get b ≠ dom) :
    exec (.bayLineLevelChange b dom) s =
      .next (((s.setLineLevel b dom).setBay b ((s.bay b).onLevel s.cfg.settle dom)).settleTx) := by
  have ready : (s.live && s.pins.lineDominant.get b != dom) = true := by simp [live, moves]
  simp only [exec, execBayLineLevelChange, taken, if_pos ready]
  rfl

/-- A bay whose line is watched (R116), at a change of level. -/
theorem Bay.onLevel_watched {x : Bay} (settle : Nat) (dom : Bool) (notEmpty : x.state ≠ .empty)
    (notLockout : x.state ≠ .lockout) (notFault : x.state ≠ .lineFault) :
    x.onLevel settle dom =
      match x.line with
      | .inTransaction kind .waiting ab =>
        if dom then { x with watch := watchFor dom }
        else { x with watch := watchFor dom, line := .inTransaction kind .sending ab }
      | .inTransaction kind .awaiting ab =>
        if dom then { x with watch := watchFor dom, line := .inTransaction kind .receiving ab, response := none }
        else { x with watch := watchFor dom }
      | _ => { x with watch := watchFor dom } := by
  cases state : x.state <;> simp_all [Bay.onLevel] <;> rfl

theorem BayState.watched_iff (st : BayState) :
    st.watched = true ↔ st ≠ .empty ∧ st ≠ .lockout ∧ st ≠ .lineFault := by
  cases st <;> simp [BayState.watched]

theorem exec_stuckLine (awake : s.awake = true) (watched : (s.bay b).state.watched = true)
    (runs : (s.bay b).watch ≠ none) : exec (.stuckLine b) s = doneBay b (s.enterLineFault b) := by
  have ready : (s.awake && (s.bay b).state.watched && (s.bay b).watch.isSome) = true := by
    simp [awake, watched, Option.isSome_iff_ne_none, runs]
  simp only [exec, execStuckLine, if_pos ready]

theorem exec_lineFaultRecovery (awake : s.awake = true) (fault : (s.bay b).state = .lineFault)
    (runs : (s.bay b).settle ≠ none) : exec (.lineFaultRecovery b) s = doneBay b (s.recover b) := by
  have ready : (s.awake && (s.bay b).state == .lineFault && (s.bay b).settle.isSome) = true := by
    simp [awake, fault, Option.isSome_iff_ne_none, runs]
  simp only [exec, execLineFaultRecovery, if_pos ready]

/-! ## An attempt ends (R110) -/

/-- The state that the end of an attempt leaves: with an error, or with a good frame. -/
def State.attemptEnd (s : State) (b : Fin 4) (kind : TxnKind) (abandoned : Bool) (f : Option PackFrame) : State :=
  if abandoned then s.abandonedEnd b
  else
    match f with
    | none => s.attemptFailed b kind false
    | some g => s.goodFrame b kind g

theorem Bay.awaitsReply_eq {x : Bay} {k : TxnKind} {ab : Bool}
    (line : x.line = .inTransaction k .awaiting ab ∨ x.line = .inTransaction k .receiving ab) :
    x.awaitsReply = some (k, ab) := by
  rcases line with line | line <;> simp only [Bay.awaitsReply, line]

theorem replyError_eq {k : TxnKind} {ab : Bool} (awaits : (s.bay b).awaitsReply = some (k, ab)) :
    replyError b s = doneBay b (s.attemptEnd b k ab none) := by
  simp only [replyError, awaits, State.attemptEnd]

theorem exec_attemptEnds {c : Instr} {k : TxnKind} {ab : Bool} {f : Option PackFrame}
    (ends : attemptEnds s b c k ab f) : exec c s = .next (afterBay b (s.attemptEnd b k ab f)) := by
  rcases ends with ⟨rfl, rfl, line⟩ | ⟨line, ⟨rfl, rfl | rfl | ⟨rfl, runs⟩⟩ | ⟨bytes, rfl, judged⟩⟩
  · simp only [exec, execCollision, line]
    rfl
  · exact replyError_eq (Bay.awaitsReply_eq line)
  · exact replyError_eq (Bay.awaitsReply_eq line)
  · have started : (s.bay b).response.isSome = true := Option.isSome_iff_ne_none.mpr runs
    simp only [exec, execResponseTimeout, if_pos started]
    exact replyError_eq (Bay.awaitsReply_eq line)
  · have awaits := Bay.awaitsReply_eq line
    rcases judged with ⟨rfl, parsed | parsed⟩ | ⟨g, rfl, parsed⟩
    · simp only [exec, execPackReply, awaits, parsed]
      exact replyError_eq awaits
    · simp only [exec, execPackReply, awaits, parsed]
      exact replyError_eq awaits
    · simp only [exec, execPackReply, awaits, parsed]
      rfl

theorem State.attemptEnd_abandoned (k : TxnKind) (f : Option PackFrame) :
    s.attemptEnd b k true f = s.setBay b (lineOver (s.bay b)) := rfl

/-- A retryable outcome: an error, or BUSY (R110). -/
theorem State.attemptEnd_retryable (k : TxnKind) {f : Option PackFrame} (h : retryable f) :
    s.attemptEnd b k false f = s.attemptFailed b k f.isSome := by
  cases f with
  | none => rfl
  | some g =>
    have busy : g.code = codeBusy := h g rfl
    simp only [State.attemptEnd, Bool.false_eq_true, if_false, State.goodFrame, if_pos busy, Option.isSome_some]

theorem State.attemptEnd_good (k : TxnKind) (g : PackFrame) :
    s.attemptEnd b k false (some g) = s.goodFrame b k g := rfl

/-! ## Retries (R112) -/

theorem Bay.retriesOf_auth {x : Bay} {k : TxnKind} (auth : authKind k) : x.retriesOf k = x.authRetries := by
  rcases auth with rfl | rfl <;> rfl

theorem Bay.head_eq {x : Bay} {e : ForwardEntry} {rest : List ForwardEntry} (queue : x.queue = e :: rest) :
    x.head = e := by simp [Bay.head, queue]

theorem Bay.retriesOf_carried {x : Bay} {k : TxnKind} {e : ForwardEntry} {rest : List ForwardEntry}
    (carries : carriesRequest k) (queue : x.queue = e :: rest) : x.retriesOf k = e.retries := by
  rcases carries with rfl | rfl | rfl <;> exact congrArg ForwardEntry.retries (Bay.head_eq queue)

/-- A bay in the retry wait of a transaction (R112). -/
def retryWaiting (x : Bay) (k : TxnKind) : Bay :=
  { x with line := .retryWait k, frame := none, response := none, heldReply := none, retryWait := some 5 }

theorem Bay.waitRetry_auth (x : Bay) {k : TxnKind} (auth : authKind k) :
    x.waitRetry k = { retryWaiting x k with authRetries := x.authRetries + 1 } := by
  rcases auth with rfl | rfl <;> rfl

theorem Bay.waitRetry_carried {x : Bay} {k : TxnKind} {e : ForwardEntry} {rest : List ForwardEntry}
    (carries : carriesRequest k) (queue : x.queue = e :: rest) :
    x.waitRetry k = { retryWaiting x k with queue := { e with retries := e.retries + 1 } :: rest } := by
  have counted : x.countRetry k = { x with queue := { e with retries := e.retries + 1 } :: rest } := by
    rcases carries with rfl | rfl | rfl <;> simp only [Bay.countRetry, Bay.head_eq queue, queue, List.tail_cons]
  rw [Bay.waitRetry, counted]
  rfl

theorem State.attemptFailed_retried {k : TxnKind} (busy : Bool) (budget : (s.bay b).retriesOf k < 3) :
    s.attemptFailed b k busy = s.setBay b ((s.bay b).waitRetry k) := by
  rw [State.attemptFailed, if_pos budget]

theorem State.attemptFailed_exhausted {k : TxnKind} (busy : Bool) (budget : 3 ≤ (s.bay b).retriesOf k) :
    s.attemptFailed b k busy = s.transactionFailed b k (if busy then .packBusy else .noAnswer) := by
  rw [State.attemptFailed, if_neg (Nat.not_lt.mpr budget)]

/-! ## Failed transactions (R22, R92, R113) -/

theorem Bay.abandonLine_lineOver (x : Bay) : (lineOver x).abandonLine = lineOver x :=
  Bay.abandonLine_quiet (.inl rfl)

theorem denied_setBay (x y : Bay) (r : DenyReason) : denied (s.setBay b x) b y r = denied s b y r :=
  congrArg (State.raiseBay · b) (State.setBay_setBay { s with de := s.de.withdrawAuth b } b x _)

theorem lostEligibility_setBay (x y : Bay) (r : DenyReason) :
    lostEligibility (s.setBay b x) b y r = lostEligibility s b y r := by
  unfold lostEligibility
  rw [denied_setBay]
  have grace := State.setBay_setBay { s with de := s.de.withdrawAuth b } b x
    (stoodDown y .grace r (some s.cfg.grace))
  simp only [State.setBay_frame]
  split
  · exact congrArg (State.raiseBay · b) grace
  · rfl

/-- An admission that fails counts one more attempt, with the re-attempt timer below three (R22). -/
theorem State.admissionFailure_eq (r : DenyReason) (h : (s.bay b).state ≠ .denied)
    (ended : (s.bay b).abandonLine = s.bay b) :
    s.admissionFailure b r =
      denied s b { s.bay b with
        attempts := min 3 ((s.bay b).attempts + 1)
        reattempt := if min 3 ((s.bay b).attempts + 1) < 3 then some 2000 else none } r := by
  rw [State.admissionFailure, State.deny_eq r h, ended]
  dsimp only [denied]
  simp only [State.setBay_raiseBay, State.setBay_setBay, State.raiseBay_frame, State.bay_setBay_same]
  rfl

/-- An ID or CHALLENGE transaction fails (R22, R92): what follows depends on the bay's state. -/
theorem State.authFailure_eq (r : DenyReason) :
    (s.setBay b (s.bay b).authOver).authFailure b r = authFailed s b r := by
  have bay : (s.setBay b (lineOver (s.bay b))).bay b = lineOver (s.bay b) := s.bay_setBay_same b _
  change (s.setBay b (lineOver (s.bay b))).authFailure b r = authFailed s b r
  unfold authFailed
  dsimp only
  by_cases admits : (lineOver (s.bay b)).state = .identifying ∨ (lineOver (s.bay b)).state = .challenging
  · have fails : (s.setBay b (lineOver (s.bay b))).authFailure b r =
        (s.setBay b (lineOver (s.bay b))).admissionFailure b r := by
      unfold State.authFailure
      rw [bay]
      rcases admits with state | state <;> simp only [state]
    have notDenied : (lineOver (s.bay b)).state ≠ .denied := by rcases admits with state | state <;> simp [state]
    rw [fails, State.admissionFailure_eq r (by rwa [bay]) (by rw [bay, Bay.abandonLine_lineOver]), bay, denied_setBay,
      if_pos admits]
  · rw [if_neg admits]
    by_cases renews : (lineOver (s.bay b)).state = .renewing
    · have fails : (s.setBay b (lineOver (s.bay b))).authFailure b r =
          (s.setBay b (lineOver (s.bay b))).loseEligibility b r := by
        unfold State.authFailure
        rw [bay]
        simp only [renews]
      rw [fails, State.loseEligibility_eq r (by simp [bay, renews]) (by simp [bay, renews]), bay,
        Bay.abandonLine_lineOver, lostEligibility_setBay, if_pos renews]
    · rw [if_neg renews]
      unfold State.authFailure
      rw [bay]
      split
      · next state => exact absurd (.inl state) admits
      · next state => exact absurd (.inr state) admits
      · next state => exact absurd state renews
      · rfl

theorem State.transactionFailed_auth {k : TxnKind} (auth : authKind k) (st : Status) :
    s.transactionFailed b k st = authFailed s b (failureReason st) := by
  rcases auth with rfl | rfl <;> exact State.authFailure_eq _

theorem State.completeHead_eq {e : ForwardEntry} {rest : List ForwardEntry} (queue : (s.bay b).queue = e :: rest)
    (code : Byte) (st : Status) (flags : RespFlags) (payload : List Byte) :
    s.completeHead b code st flags payload =
      (s.setBay b (entryDone (s.bay b) (s.bay b).linkRun e s.cfg.linkHold)).answer
        [entryAnswer b e code st flags payload] := by
  simp only [State.completeHead, queue, Bay.popHead_eq queue]
  rfl

theorem State.transactionFailed_carried {k : TxnKind} {e : ForwardEntry} {rest : List ForwardEntry}
    (carries : carriesRequest k) (queue : (s.bay b).queue = e :: rest) (st : Status) :
    s.transactionFailed b k st = completed s b e e.code st := by
  have failed : s.forwardFailed b st = completed s b e e.code st := by
    rw [State.forwardFailed, State.completeHead_eq queue, Bay.head_eq queue]
    rfl
  rcases carries with rfl | rfl | rfl <;> exact failed

/-- A good frame that ends its transaction as PACK_REJECT (R10, R15, R110, R111, R126). -/
theorem State.goodFrame_rejected {k : TxnKind} {f : PackFrame} (free : f.code ≠ codeBusy)
    (rejects : f.code = codeReject ∨ (k = .ident ∧ ¬ (f.code = codeIdReport ∧ f.payload.length = 10)) ∨
      (k = .challenge ∧ ¬ (f.code = codeProof ∧ f.payload.length = 16)) ∨ (k = .splitFirst ∧ f.code ≠ codeContAck) ∨
      ((k = .forward ∨ k = .splitSecond) ∧ f.code = codeContAck)) :
    s.goodFrame b k f = s.transactionFailed b k .packReject := by
  rw [State.goodFrame, if_neg free]
  by_cases reject : f.code = codeReject
  · rw [if_pos reject]
  · rw [if_neg reject]
    rcases rejects with reply | ⟨rfl, reply⟩ | ⟨rfl, reply⟩ | ⟨rfl, reply⟩ | ⟨rfl | rfl, reply⟩
    · exact absurd reply reject
    · simp only [State.takeReply, if_neg reply]
    · simp only [State.takeReply, if_neg reply]
    · simp only [State.takeReply, if_neg reply]
    · simp only [State.takeReply, if_pos reply]
    · simp only [State.takeReply, if_pos reply]

/-! ## Waits (R109, R112, R123, R125, R126) -/

theorem Bay.frameOf_splitFirst {x : Bay} {e : ForwardEntry} {rest : List ForwardEntry} (queue : x.queue = e :: rest) :
    x.frameOf .splitFirst = ⟨e.code, 1, byteOf e.retries, e.payload.take 8, none⟩ := by
  simp only [Bay.frameOf, Bay.retriesOf, Bay.head_eq queue]

theorem Bay.frameOf_splitSecond {x : Bay} {e : ForwardEntry} {rest : List ForwardEntry} (queue : x.queue = e :: rest) :
    x.frameOf .splitSecond = ⟨e.code, 0, byteOf e.retries, e.payload.drop 8, none⟩ := by
  simp only [Bay.frameOf, Bay.retriesOf, Bay.head_eq queue]

theorem Bay.attempt_eq (x : Bay) (k : TxnKind) (dom : Bool) : x.attempt k dom = attempted x k (x.frameOf k) dom := rfl

theorem sentFrameAwaitsItsReply : SentFrameAwaitsItsReply := by
  intro b s k ab line
  simp only [exec, execPackFrameSent, line]
  rfl

theorem splitPairsContinue : SplitPairsContinue := by
  intro b s c f e rest ends acked queue
  have second : s.goodFrame b .splitFirst f = s.beginSecondHalf b := by
    have notBusy : f.code ≠ codeBusy := by rw [acked]; decide
    have notReject : f.code ≠ codeReject := by rw [acked]; decide
    have isAck : f.code = codeContAck := acked
    rw [State.goodFrame, if_neg notBusy, if_neg notReject, State.takeReply, if_pos isAck]
  rw [exec_attemptEnds ends, State.attemptEnd_good, second, State.beginSecondHalf]
  dsimp only
  rw [Bay.attempt_eq, Bay.head_eq queue, queue, Bay.frameOf_splitSecond (e := { e with retries := 0 }) rfl]
  rfl

theorem exec_retryWaitExpiry_split {k : TxnKind} (line : (s.bay b).line = .retryWait k)
    (runs : (s.bay b).retryWait ≠ none) (split : k = .splitFirst ∨ k = .splitSecond) :
    exec (.retryWaitExpiry b) s =
      .next (s.setBay b ((s.bay b).attempt k (s.pins.lineDominant.get b))).settleTx := by
  have ready : (s.bay b).retryWait.isSome = true := Option.isSome_iff_ne_none.mpr runs
  rcases split with rfl | rfl <;> simp only [exec, execRetryWaitExpiry, if_pos ready, line] <;> rfl

theorem lineWaitsEnd : LineWaitsEnd := by
  refine fun b s => ⟨fun k line runs => ⟨fun notFirst notSecond => ?_, fun e rest queue => ⟨fun first => ?_,
    fun second => ?_⟩⟩, fun runs => ?_⟩
  · have ready : (s.bay b).retryWait.isSome = true := Option.isSome_iff_ne_none.mpr runs
    simp only [exec, execRetryWaitExpiry, if_pos ready, line]
    rfl
  · subst first
    rw [exec_retryWaitExpiry_split line runs (.inl rfl), Bay.attempt_eq, Bay.frameOf_splitFirst queue]
  · subst second
    rw [exec_retryWaitExpiry_split line runs (.inr rfl), Bay.attempt_eq, Bay.frameOf_splitSecond queue]
  · have ready : (s.bay b).linkHold.isSome = true := Option.isSome_iff_ne_none.mpr runs
    simp only [exec, execLinkHoldExpiry, if_pos ready]
    rfl

theorem exhaustedBudgetsFail : ExhaustedBudgetsFail := by
  intro b s c k f ends again
  refine ⟨fun auth budget => ?_, fun carries e rest queue budget => ?_⟩
  · rw [exec_attemptEnds ends, State.attemptEnd_retryable k again,
      State.attemptFailed_exhausted _ (by rwa [Bay.retriesOf_auth auth]), State.transactionFailed_auth auth]
    cases f <;> rfl
  · rw [exec_attemptEnds ends, State.attemptEnd_retryable k again,
      State.attemptFailed_exhausted _ (by rwa [Bay.retriesOf_carried carries queue]),
      State.transactionFailed_carried carries queue]
    cases f <;> rfl

theorem rejectedTransactionsFail : RejectedTransactionsFail := by
  intro b s c k f ends free
  refine ⟨fun rejects => ?_, fun rejects e rest queue => ?_⟩
  · have auth : authKind k := by
      rcases rejects with ⟨_, auth⟩ | ⟨rfl, _⟩ | ⟨rfl, _⟩
      · exact auth
      · exact .inl rfl
      · exact .inr rfl
    have rejected : s.goodFrame b k f = s.transactionFailed b k .packReject := by
      refine State.goodFrame_rejected free ?_
      rcases rejects with ⟨reply, _⟩ | reply | reply
      · exact .inl reply
      · exact .inr (.inl reply)
      · exact .inr (.inr (.inl reply))
    rw [exec_attemptEnds ends, State.attemptEnd_good, rejected, State.transactionFailed_auth auth]
    rfl
  · have carries : carriesRequest k := by
      rcases rejects with ⟨_, carries⟩ | ⟨rfl, _⟩ | ⟨rfl | rfl, _⟩
      · exact carries
      · exact .inr (.inl rfl)
      · exact .inl rfl
      · exact .inr (.inr rfl)
    have rejected : s.goodFrame b k f = s.transactionFailed b k .packReject := by
      refine State.goodFrame_rejected free ?_
      rcases rejects with ⟨reply, _⟩ | reply | reply
      · exact .inl reply
      · exact .inr (.inr (.inr (.inl reply)))
      · exact .inr (.inr (.inr (.inr reply)))
    rw [exec_attemptEnds ends, State.attemptEnd_good, rejected, State.transactionFailed_carried carries queue]

end

end Sys2Proof.Machine

open Sys2Proof Sys2Proof.Machine Sys2Proof.Claims

/-- Settles O21: `onLevel` by the bay's state and its line. -/
theorem lineLevelsAreWatched : Obligations.LineLevelsAreWatched := by
  intro b dom s live moves x u w run
  have runs : run = .next ((u.setBay b (x.onLevel s.cfg.settle dom)).settleTx) := exec_bayLineLevelChange live moves
  refine ⟨fun unwatched => ?_, fun fault => ?_, fun notEmpty notLockout notFault => ?_⟩
  · have stays : x.onLevel s.cfg.settle dom = u.bay b := by
      rcases unwatched with state | state <;> simp only [Bay.onLevel, state] <;> rfl
    rw [runs, stays, State.setBay_bay]
  · simp only [runs, Bay.onLevel, fault]
  · rw [runs, Bay.onLevel_watched _ _ notEmpty notLockout notFault]
    refine ⟨fun k ab recessive line => ?_, fun k ab dominant line => ?_, fun notWaiting notAwaiting => ?_⟩
    · subst recessive
      simp only [line]
      rfl
    · subst dominant
      simp only [line]
      rfl
    · split
      · next k ab line =>
        rw [if_pos ((notWaiting k ab).resolve_left (not_not.mpr line))]
        rfl
      · next k ab line =>
        rw [if_neg (by simp [(notAwaiting k ab).resolve_left (not_not.mpr line)])]
        rfl
      · rfl

/-- Settles O22: LINE_FAULT is entered with every request answered, and left for SETTLING. -/
theorem stuckLinesFaultAndRecover : Obligations.StuckLinesFaultAndRecover := by
  intro b s awake x dom
  refine ⟨fun notEmpty notLockout notFault runs => ?_, fun fault runs => ?_⟩
  · rw [exec_stuckLine awake ((BayState.watched_iff _).mpr ⟨notEmpty, notLockout, notFault⟩) runs,
      State.enterLineFault, State.putBay_flush .lineFault (x := (s.bay b).toLineFault _ _) notFault]
    rfl
  · have notSettling : (s.bay b).state ≠ .settling := ne_of_eq_of_ne fault (by decide)
    have settles := State.enterSettling_eq (b := b)
      (s := s.setBay b { s.bay b with identity := none, packKey := none, attempts := 0 }) (by simpa using notSettling)
    rw [exec_lineFaultRecovery awake fault runs, State.recover, settles, State.setBay_setBay, State.bay_setBay_same]
    rfl

/-- Settles O23: the retry count below three, by the transaction's kind. -/
theorem failedAttemptsAreRetried : Obligations.FailedAttemptsAreRetried := by
  intro b s c k ab f ends
  refine ⟨fun abandoned => ?_, fun own again => ?_⟩
  · subst abandoned
    rw [exec_attemptEnds ends, State.attemptEnd_abandoned]
  · subst own
    intro w
    refine ⟨fun auth budget => ?_, fun carries e rest queue budget => ?_⟩
    · rw [exec_attemptEnds ends, State.attemptEnd_retryable k again,
        State.attemptFailed_retried _ (by rwa [Bay.retriesOf_auth auth]), Bay.waitRetry_auth _ auth]
      rfl
    · rw [exec_attemptEnds ends, State.attemptEnd_retryable k again,
        State.attemptFailed_retried _ (by rwa [Bay.retriesOf_carried carries queue]),
        Bay.waitRetry_carried carries queue]
      rfl

/-- Settles O24: exhausted budgets and rejections end the transaction. -/
theorem transactionsFail : Obligations.TransactionsFail := ⟨exhaustedBudgetsFail, rejectedTransactionsFail⟩

/-- Settles O25: the wait for a reply, the second half of a split, and the ends of the waits. -/
theorem lineWaitsBeginAndEnd : Obligations.LineWaitsBeginAndEnd :=
  ⟨sentFrameAwaitsItsReply, splitPairsContinue, lineWaitsEnd⟩
end

