-- ==== Sys2Proof/Proofs/Admission.lean ====
section
/-! PROOF. ID_REPORT and PROOF: the lookups and checks of R11, and what a bay does with their results. -/

namespace Sys2Proof.Machine

open Sys2Proof.Claims

/-! ## Lookups and checks (R52, R53, R65, R77, R78) -/

section
variable {s : State} {b : Fin 4}

theorem ModelTable.find_eq_some_iff {code : Word16} {i : Fin 32} :
    s.ts.model.find code = some i ↔ modelAt s code i := by
  unfold ModelTable.find modelAt
  by_cases zero : code = 0#16
  · simp [zero]
  · rw [if_neg zero]
    refine ⟨fun found => ?_, fun ⟨_, here, first⟩ => ?_⟩
    · obtain ⟨here, before, after, list, passed⟩ := List.find?_eq_some_iff_append.mp found
      refine ⟨zero, by simpa using here, fun j below => ?_⟩
      have sorted := List.pairwise_lt_finRange 32
      rw [list] at sorted
      have listed : j ∈ before ++ i :: after := list ▸ List.mem_finRange j
      rcases List.mem_append.mp listed with early | late
      · simpa using passed j early
      · rcases List.mem_cons.mp late with rfl | late
        · exact absurd below (lt_irrefl j)
        · have behind := (List.pairwise_cons.mp (List.pairwise_append.mp sorted).2.1).1 j late
          exact absurd below (lt_asymm behind)
    · refine find?_eq_some_of_first (key := Fin.val) ?_ (List.mem_finRange i) (by simpa using here) fun j _ hit => ?_
      · exact List.pairwise_lt_finRange 32
      · exact Nat.not_lt.mp fun below => first j below (by simpa using hit)

theorem ModelTable.find_eq_none {code : Word16} (h : ∀ i, ¬ modelAt s code i) : s.ts.model.find code = .none := by
  cases found : s.ts.model.find code with
  | none => rfl
  | some i => exact absurd (ModelTable.find_eq_some_iff.mp found) (h i)

/-- The checks d to g of R11 answer with the first that fails. -/
theorem TableStore.checksDG_eq {e : ModelEntry} {id : Identity} {r : Option DenyReason} (h : failsDtoG s e id r) :
    s.ts.checksDG e id.firmware id.serial = r := by
  obtain ⟨withdrawn, oldFirmware, revoked, noKey, passes⟩ := h
  unfold TableStore.checksDG
  by_cases hd : e.withdrawn = true
  · rw [if_pos hd, withdrawn.mpr hd]
  · rw [if_neg hd]
    by_cases hf : id.firmware.toNat < e.minFirmware.toNat
    · rw [if_pos hf, oldFirmware.mpr ⟨hd, hf⟩]
    · rw [if_neg hf]
      by_cases hc : s.ts.revoke.covers id.serial = true
      · rw [if_pos hc, revoked.mpr ⟨hd, hf, (RevList.covers_iff s _).mp hc⟩]
      · have clear := mt (RevList.covers_iff s id.serial).mpr hc
        rw [if_neg hc]
        by_cases hk : s.ts.keys.slot e.keySlot.toNat = none
        · rw [if_pos (by simp [hk]), noKey.mpr ⟨hd, hf, clear, hk⟩]
        · rw [if_neg (by simp [hk]), passes.mpr ⟨hd, hf, clear, hk⟩]

theorem cacheTouch_eq (x : Serial) : cacheTouch s.cache x = touched s x := rfl

theorem heldElsewhere_setBay (x : Bay) (serial : Serial) :
    heldElsewhere (s.setBay b x) b serial ↔ heldElsewhere s b serial := by
  refine exists_congr fun o => and_congr_right fun other => ?_
  rw [State.bay_setBay_other _ _ other]

theorem suppliedKey_eq_some {serial : Serial} {i : Fin 32} {e : ModelEntry} {key : Key}
    (h : supplies s serial i e key) : suppliedKey (cacheFind s.cache serial) i e = some ⟨key, e.keySlot.toNat⟩ := by
  obtain ⟨c, found, verdict, slot⟩ := h
  have hit : cacheFind s.cache serial = some c := found
  simp only [suppliedKey, hit, verdict, slot, and_self, if_true]

theorem suppliedKey_eq_none {serial : Serial} {i : Fin 32} {e : ModelEntry}
    (h : ∀ key, ¬ supplies s serial i e key) : suppliedKey (cacheFind s.cache serial) i e = none := by
  cases found : cacheFind s.cache serial with
  | none => rfl
  | some c =>
    cases verdict : c.verdict with
    | forged => simp only [suppliedKey, verdict]
    | genuine j key =>
      simp only [suppliedKey, verdict]
      rw [if_neg]
      rintro ⟨rfl, slot⟩
      exact h key ⟨c, found, verdict, slot⟩

theorem forgedHit_iff {hit : Option CacheEntry} :
    hit.any (fun c => !c.isGenuine) = true ↔ ∃ e, hit = some e ∧ e.verdict = .forged := by
  simp only [Option.any_eq_true, CacheEntry.isGenuine]
  refine exists_congr fun e => and_congr_right fun _ => ?_
  cases e.verdict <;> simp

/-! ## A bay whose transaction is over -/

theorem Bay.abandonLine_over {x : Bay} (line : x.line = .idle) (retries : x.authRetries = 0) : x.abandonLine = x := by
  rw [Bay.abandonLine_quiet (.inl line), ← retries]

/-- A bay whose transaction is over is denied. -/
theorem State.deny_setBay {x : Bay} (r : DenyReason) (line : x.line = .idle) (retries : x.authRetries = 0)
    (h : x.state ≠ .denied) : (s.setBay b x).deny b r = denied s b x r := by
  rw [State.deny_eq r (by rwa [State.bay_setBay_same]), State.bay_setBay_same, Bay.abandonLine_over line retries,
    denied_setBay]

theorem State.setIdentity_setBay (x : Bay) (id : Identity) :
    (s.setBay b x).setIdentity b id = s.setBay b { x with identity := some id } := by
  simp [State.setIdentity]

/-! ## The ID_REPORT (R10 to R14) -/

/-- The identity that an ID_REPORT gives (R10). -/
def reportedIdentity (payload : List Byte) : Identity :=
  ⟨BitVec.ofNat 48 (natBE (payload.take 6)), BitVec.ofNat 16 (natBE ((payload.drop 6).take 2)),
    BitVec.ofNat 16 (natBE ((payload.drop 8).take 2)), none, none⟩

/-- The bay that has taken an ID_REPORT, before the checks. -/
def reportedBay (s : State) (b : Fin 4) (id : Identity) : Bay := { lineOver (s.bay b) with identity := some id }

/-- The state with the verdict cache looked up. -/
def lookedUp (s : State) (serial : Serial) : State := { s with cache := touched s serial }

theorem exec_report {c : Instr} {f : PackFrame} (ends : attemptEnds s b c .ident false (some f)) (code : f.code = 0xF1)
    (long : f.payload.length = 10) (state : (s.bay b).state = .identifying) :
    exec c s = .next (afterBay b ((s.setBay b (lineOver (s.bay b))).takeIdReport b f.payload)) := by
  have report : s.goodFrame b .ident f = (s.setBay b (lineOver (s.bay b))).takeIdReport b f.payload := by
    have notBusy : f.code ≠ codeBusy := by rw [code]; decide
    have notReject : f.code ≠ codeReject := by rw [code]; decide
    have isReport : f.code = codeIdReport ∧ f.payload.length = 10 := ⟨code, long⟩
    rw [State.goodFrame, if_neg notBusy, if_neg notReject, State.takeReply, if_pos isReport, State.idReply,
      if_pos (by rw [State.bay_setBay_same]; exact state)]
    rfl
  rw [exec_attemptEnds ends, State.attemptEnd_good, report]

/-- The checks a and b of R11, and what follows them. -/
theorem State.takeIdReport_eq {payload : List Byte} {id : Identity} (reported : id = reportedIdentity payload)
    (state : (s.bay b).state = .identifying) :
    (s.setBay b (lineOver (s.bay b))).takeIdReport b payload =
      if (cacheFind s.cache id.serial).any (fun c => !c.isGenuine) then
        denied (lookedUp s id.serial) b (reportedBay s b id) .forgedRecent
      else if ((lookedUp s id.serial).setBay b (reportedBay s b id)).duplicateSerial b id.serial then
        afterStrike (denied (lookedUp s id.serial) b (reportedBay s b id) .duplicateSerial) b
      else
        ((lookedUp s id.serial).setBay b (reportedBay s b id)).admitModel b id (cacheFind s.cache id.serial) := by
  have notDenied : (reportedBay s b id).state ≠ .denied := ne_of_eq_of_ne state (by decide)
  have placed : ({ s.setBay b (lineOver (s.bay b)) with cache := touched s id.serial } : State).setIdentity b id =
      (lookedUp s id.serial).setBay b (reportedBay s b id) :=
    State.setIdentity_setBay (s := lookedUp s id.serial) _ _
  have denies (r : DenyReason) : ((lookedUp s id.serial).setBay b (reportedBay s b id)).deny b r =
      denied (lookedUp s id.serial) b (reportedBay s b id) r := State.deny_setBay r rfl rfl notDenied
  rw [← denies, ← denies, ← State.strike_eq, ← placed, reported]
  rfl

/-- The checks c to g of R11, and what follows them. -/
theorem State.admitModel_eq {u : State} {x : Bay} {id : Identity} (hit : Option CacheEntry) (line : x.line = .idle)
    (retries : x.authRetries = 0) (state : x.state ≠ .denied) :
    ((∀ i, ¬ modelAt u id.code i) → (u.setBay b x).admitModel b id hit = denied u b x .unknownModel) ∧
      ∀ i, modelAt u id.code i →
        let e := u.ts.model.entry i.val
        let y : Bay := { x with identity := some (withModel id i e) }
        (∀ r, failsDtoG u e id (some r) → (u.setBay b x).admitModel b id hit = denied u b y r) ∧
          (failsDtoG u e id none →
            (u.setBay b x).admitModel b id hit = (u.setBay b y).enterChallenging b id hit i e) := by
  have tables : (u.setBay b x).ts = u.ts := by simp
  refine ⟨fun unknown => ?_, fun i known => ?_⟩
  · rw [State.admitModel, tables, ModelTable.find_eq_none unknown]
    exact State.deny_setBay _ line retries state
  · intro e y
    have placed : (u.setBay b x).setIdentity b (id.withModel i e) = u.setBay b y := State.setIdentity_setBay x _
    refine ⟨fun r fails => ?_, fun passes => ?_⟩
    · rw [State.admitModel, tables, ModelTable.find_eq_some_iff.mpr known]
      dsimp only
      rw [placed]
      simp only [State.setBay_frame]
      rw [TableStore.checksDG_eq fails]
      exact State.deny_setBay (x := y) _ line retries state
    · rw [State.admitModel, tables, ModelTable.find_eq_some_iff.mpr known]
      dsimp only
      rw [placed]
      simp only [State.setBay_frame]
      rw [TableStore.checksDG_eq passes]

theorem idReportsAreChecked : IdReportsAreChecked := by
  intro b s c f ends code long state id u x forgedHit
  have taken := exec_report ends code long state
  rw [State.takeIdReport_eq (id := id) rfl state] at taken
  have notDenied : x.state ≠ .denied := ne_of_eq_of_ne state (by decide)
  have hitIff : (cacheFind s.cache id.serial).any (fun c => !c.isGenuine) = true ↔ forgedHit := forgedHit_iff
  have heldIff : ((lookedUp s id.serial).setBay b (reportedBay s b id)).duplicateSerial b id.serial = true ↔
      heldElsewhere s b id.serial := by
    rw [State.duplicateSerial_iff, heldElsewhere_setBay]
    rfl
  obtain ⟨unknown, known⟩ := State.admitModel_eq (b := b) (u := u) (x := x) (id := id)
    (cacheFind s.cache id.serial) rfl rfl notDenied
  refine ⟨fun hit => ?_, fun noHit held => ?_, fun noHit free none => ?_, fun noHit free i model => ?_⟩
  · rw [taken, if_pos (hitIff.mpr hit)]
    rfl
  · rw [taken, if_neg (mt hitIff.mp noHit), if_pos (heldIff.mpr held)]
    rfl
  · rw [taken, if_neg (mt hitIff.mp noHit), if_neg (mt heldIff.mp free)]
    exact congrArg (fun t => Host.Outcome.next (afterBay b t)) (unknown none)
  · rw [taken, if_neg (mt hitIff.mp noHit), if_neg (mt heldIff.mp free)]
    intro e r fails
    exact congrArg (fun t => Host.Outcome.next (afterBay b t)) ((known i model).1 r fails)

/-- A challenge begins with a fresh gate nonce (R14). -/
theorem State.enterExchange_eq {x : Bay} {st : BayState} (k : ChallengeKind) (h : x.state ≠ st) :
    (s.setBay b x).enterExchange b st k =
      (({ s with nonceDraws := s.nonceDraws + 1 } : State).setBay b
        (x.toExchange st k (Config.freshNonce s.nonceDraws))).raiseBay b := by
  have noticed : x.noticed (x.toExchange st k (Config.freshNonce s.nonceDraws)) = true := Bay.noticed_of_state h
  rw [State.enterExchange, State.bay_setBay_same]
  exact State.putBay_setBay { s with nonceDraws := s.nonceDraws + 1 } b x noticed

theorem State.enterChallenging_supplied {x : Bay} {id : Identity} {hit : Option CacheEntry} {i : Fin 32}
    {e : ModelEntry} {key : PackKey} (supplied : suppliedKey hit i e = some key) (h : x.state ≠ .challenging) :
    (s.setBay b x).enterChallenging b id hit i e =
      (({ s with nonceDraws := s.nonceDraws + 1 } : State).setBay b
        (({ x with packKey := some key } : Bay).toExchange .challenging .admission
          (Config.freshNonce s.nonceDraws))).raiseBay b := by
  have keyed : (s.setBay b x).setBay b { (s.setBay b x).bay b with packKey := some key } =
      s.setBay b { x with packKey := some key } := by
    rw [State.setBay_setBay, State.bay_setBay_same]
  rw [State.enterChallenging, supplied]
  dsimp only
  rw [keyed]
  exact State.enterExchange_eq (x := { x with packKey := some key }) .admission h

theorem State.enterChallenging_unsupplied {x : Bay} {id : Identity} {hit : Option CacheEntry} {i : Fin 32}
    {e : ModelEntry} (unsupplied : suppliedKey hit i e = none) (h : x.state ≠ .challenging) :
    (s.setBay b x).enterChallenging b id hit i e =
      (((s.setBay b { x with state := .challenging, phase := some .key, claim := .none }).raiseBay b).submit (.bay b)
        (.derivePackKey e.keySlot.toNat id.serial id.code)) := by
  have entered : (s.setBay b x).putBay b
      { (s.setBay b x).bay b with state := .challenging, phase := some .key, claim := .none } =
      (s.setBay b { x with state := .challenging, phase := some .key, claim := .none }).raiseBay b := by
    rw [State.bay_setBay_same]
    exact State.putBay_setBay s b x (Bay.noticed_of_state h)
  rw [State.enterChallenging, unsupplied]
  dsimp only
  rw [entered]

theorem passedReportsBeginAChallenge : PassedReportsBeginAChallenge := by
  intro b s c f ends code long state id u noHit free i model e passes x
  have taken := exec_report ends code long state
  have noForged : ¬ (cacheFind s.cache id.serial).any (fun c => !c.isGenuine) = true := fun forged => by
    obtain ⟨e, found, verdict⟩ := forgedHit_iff.mp forged
    exact noHit e found verdict
  have notHeld : ¬ ((lookedUp s id.serial).setBay b (reportedBay s b id)).duplicateSerial b id.serial = true :=
      fun held => by
    rw [State.duplicateSerial_iff, heldElsewhere_setBay] at held
    exact free held
  have notDenied : (reportedBay s b id).state ≠ .denied := ne_of_eq_of_ne state (by decide)
  have admitted := ((State.admitModel_eq (b := b) (u := u) (x := reportedBay s b id) (id := id)
    (cacheFind s.cache id.serial) rfl rfl notDenied).2 i model).2 passes
  have begins : exec c s = .next (afterBay b
      ((u.setBay b { reportedBay s b id with identity := some (withModel id i e) }).enterChallenging b id
        (cacheFind s.cache id.serial) i e)) := by
    rw [taken, State.takeIdReport_eq (id := id) rfl state, if_neg noForged, if_neg notHeld]
    exact congrArg (fun t => Host.Outcome.next (afterBay b t)) admitted
  have notChallenging : (reportedBay s b id).state ≠ .challenging := ne_of_eq_of_ne state (by decide)
  rw [begins]
  refine ⟨fun key supplied => ?_, fun unsupplied => ?_⟩
  · exact congrArg (fun t => Host.Outcome.next (afterBay b t))
      (State.enterChallenging_supplied (suppliedKey_eq_some supplied) notChallenging)
  · exact congrArg (fun t => Host.Outcome.next (afterBay b t))
      (State.enterChallenging_unsupplied (suppliedKey_eq_none unsupplied) notChallenging)

/-! ## The PROOF (R15, R92) -/

theorem Bay.exchanging_iff (x : Bay) :
    x.exchanging = true ↔ (x.state = .challenging ∨ x.state = .renewing) ∧ x.phase = some .exchange := by
  simp [Bay.exchanging]

theorem State.takeProof_exchanging {payload : List Byte} {key : PackKey} {id : Identity}
    (packKey : (s.bay b).packKey = some key) (identity : (s.bay b).identity = some id)
    (exchanging : (s.bay b).exchanging = true) :
    s.takeProof b payload =
      (s.setBay b ((s.bay b).toCheck (BitVec.ofNat 64 (field payload 0 8)))).submit (.bay b)
        (.checkProof key.key (s.bay b).gateNonce (BitVec.ofNat 64 (field payload 0 8)) id.serial
          (BitVec.ofNat 64 (field payload 8 8))) := by
  simp only [State.takeProof, packKey, identity, exchanging]

theorem State.takeProof_elsewhere {payload : List Byte} (elsewhere : (s.bay b).exchanging = false) :
    s.takeProof b payload = s := by
  rw [State.takeProof, elsewhere]
  split
  · next contradiction => cases contradiction
  · rfl

end

end Sys2Proof.Machine

open Sys2Proof Sys2Proof.Machine Sys2Proof.Claims

/-- Settles O27: the checks of R11 in their order, and the challenge that follows them. -/
theorem idReportsAreTaken : Obligations.IdReportsAreTaken := ⟨idReportsAreChecked, passedReportsBeginAChallenge⟩

/-- Settles O28: the PROOF ends its transaction, and is taken in phase EXCHANGE. -/
theorem proofsAreTaken : Obligations.ProofsAreTaken := by
  intro b s c f ends code long x waits nonce proof
  have taken : s.goodFrame b .challenge f = (s.setBay b x).takeProof b f.payload := by
    have notBusy : f.code ≠ codeBusy := by rw [code]; decide
    have notReject : f.code ≠ codeReject := by rw [code]; decide
    have isProof : f.code = codeProof ∧ f.payload.length = 16 := ⟨code, long⟩
    rw [State.goodFrame, if_neg notBusy, if_neg notReject, State.takeReply, if_pos isProof]
    rfl
  have bay : (s.setBay b x).bay b = x := s.bay_setBay_same b x
  rw [exec_attemptEnds ends, State.attemptEnd_good, taken]
  refine ⟨fun exchanging key id packKey identity => ?_, fun elsewhere => ?_⟩
  · rw [State.takeProof_exchanging (by rwa [bay]) (by rwa [bay]) (by rw [bay]; exact x.exchanging_iff.mpr exchanging),
      bay, State.setBay_setBay]
    rfl
  · rw [State.takeProof_elsewhere (by rw [bay, Bool.eq_false_iff]; exact mt x.exchanging_iff.mp elsewhere)]
end

