-- ==== Sys2Proof/Proofs/ForwardedReplies.lean ====
section
/-! PROOF. The Frame Filter's lookups, and the classification of a forwarded request's reply. -/

namespace Sys2Proof.Machine

open Sys2Proof.Claims

/-! ## Lookups (R134, R135) -/

theorem codeMatches_iff {value mask code : Byte} {bays : Four Bool} {b : Fin 4} :
    (codeMatches value mask code && bays.get b) = true ↔ concerns value mask bays b code := by
  simp [codeMatches, concerns]

theorem FilterEntry.toPackAction_iff {f : FilterEntry} {b : Fin 4} {code : Byte} {a : ToPackAction} :
    f.toPackAction b code = some a ↔ givesToPack f b code a := by
  cases f with
  | toPack value mask bays action =>
    have concerned := codeMatches_iff (value := value) (mask := mask) (code := code) (bays := bays) (b := b)
    simp only [FilterEntry.toPackAction, Option.ite_none_right_eq_some, Option.some.injEq, concerned, givesToPack]
    exact ⟨fun ⟨concerned, same⟩ => ⟨value, mask, bays, by rw [same], concerned⟩,
      fun ⟨_, _, _, same, concerned⟩ => by cases same; exact ⟨concerned, rfl⟩⟩
  | invalid => simp [FilterEntry.toPackAction, givesToPack]
  | toTool value mask bays level d => simp [FilterEntry.toPackAction, givesToPack]

theorem FilterEntry.toToolAction_iff {f : FilterEntry} {b : Fin 4} {code : Byte} {l : VerifyLevel} {d : Disposition} :
    f.toToolAction b code = some (l, d) ↔ givesToTool f b code l d := by
  cases f with
  | toTool value mask bays level action =>
    have concerned := codeMatches_iff (value := value) (mask := mask) (code := code) (bays := bays) (b := b)
    simp only [FilterEntry.toToolAction, Option.ite_none_right_eq_some, Option.some.injEq, Prod.mk.injEq, concerned,
      givesToTool]
    exact ⟨fun ⟨concerned, level, action⟩ => ⟨value, mask, bays, by rw [level, action], concerned⟩,
      fun ⟨_, _, _, same, concerned⟩ => by cases same; exact ⟨concerned, rfl, rfl⟩⟩
  | invalid => simp [FilterEntry.toToolAction, givesToTool]
  | toPack value mask bays action => simp [FilterEntry.toToolAction, givesToTool]

/-- The first element that answers, behind elements that do not. -/
theorem findSome?_first {α β : Type} {g : α → Option β} {before after : List α} {x : α} {y : β}
    (passed : ∀ z ∈ before, g z = none) (here : g x = some y) : (before ++ x :: after).findSome? g = some y := by
  rw [List.findSome?_append, List.findSome?_eq_none_iff.mpr passed, List.findSome?_cons, here]
  rfl

/-! ## A passed reply (R113, R146, R148) -/

section
variable {s : State} {b : Fin 4}

theorem Bay.advance_eq (x : Bay) : x.advance = advanced x := by
  cases session : x.session with
  | none =>
    simp only [Bay.advance, advanced, session, Option.map_none]
    rw [← session]
  | some t => simp only [Bay.advance, advanced, session, Option.map_some]

theorem queue_advanced (x : Bay) : (advanced x).queue = x.queue := by
  cases session : x.session <;> simp only [advanced, session]

theorem State.capture_setBay (x : Bay) (c : CaptureEntry) : (s.setBay b x).capture c = (s.capture c).setBay b x := by
  unfold State.capture
  change (if s.captureRoom then _ else _) = _
  split <;> rfl

/-- A bay whose context is `x` completes the head of its queue. -/
theorem State.completeHead_setBay {x : Bay} {e : ForwardEntry} {rest : List ForwardEntry} (queue : x.queue = e :: rest)
    (code : Byte) (st : Status) (flags : RespFlags) (payload : List Byte) :
    (s.setBay b x).completeHead b code st flags payload =
      (s.setBay b (entryDone x x.linkRun e s.cfg.linkHold)).answer [entryAnswer b e code st flags payload] := by
  rw [State.completeHead_eq (by rwa [State.bay_setBay_same]), State.bay_setBay_same, State.setBay_setBay]
  rfl

theorem State.capture_eq (c : CaptureEntry) :
    s.capture c =
      if s.captureRoom then { s with ff.capture := s.ff.capture ++ [c] }
      else ({ s with flags.captureOverflow := true } : State).raiseGate := rfl

theorem State.passReply_setBay {x : Bay} {e : ForwardEntry} {rest : List ForwardEntry} (queue : x.queue = e :: rest)
    (code : Byte) (payload : List Byte) (mark : Mark) (d : Disposition) :
    (s.setBay b x).passReply b code payload mark d = passed s b x e code payload mark d := by
  have room : (s.setBay b x).captureRoom = s.captureRoom := rfl
  have hold (c : CaptureEntry) : (s.capture c).cfg.linkHold = s.cfg.linkHold := by simp
  cases d with
  | pass =>
    rw [State.passReply, State.completeHead_setBay queue]
    cases mark <;> rfl
  | copy =>
    rw [State.passReply, State.capture_setBay, State.completeHead_setBay queue, room, hold]
    cases mark <;> rfl
  | divert =>
    rw [State.passReply, State.capture_setBay, State.completeHead_setBay queue, room, hold]
    rfl

/-! ## A withheld reply (R99, R145) -/

theorem State.tagFailure_eq :
    s.tagFailure b =
      if ((afterStrike s b).bay b).state = .authorized then renewing (afterStrike s b) b else afterStrike s b := by
  rw [State.tagFailure, State.strike_eq]
  split
  · next authorized => exact State.enterRenewing_eq (by rw [authorized]; decide)
  · rfl

theorem State.withholdTagFailed_eq {e : ForwardEntry} {rest : List ForwardEntry} (queue : (s.bay b).queue = e :: rest)
    (code : Byte) : s.withholdTagFailed b code = tagFailed s b e code := by
  rw [State.withholdTagFailed, State.completeHead_eq queue, State.tagFailure_eq]
  rfl

/-! ## Classification (R139 to R141, R144) -/

theorem exec_forwardedReply {c : Instr} {k : TxnKind} {f : PackFrame} (ends : attemptEnds s b c k false (some f))
    (forwarded : k = .forward ∨ k = .splitSecond) (notBusy : f.code ≠ 0xF4) (notReject : f.code ≠ 0xF5)
    (notAck : f.code ≠ 0xF6) : exec c s = .next (afterBay b (s.classify b f)) := by
  have busy : f.code ≠ codeBusy := notBusy
  have reject : f.code ≠ codeReject := notReject
  have ack : f.code ≠ codeContAck := notAck
  rw [exec_attemptEnds ends, State.attemptEnd_good, State.goodFrame, if_neg busy, if_neg reject]
  rcases forwarded with rfl | rfl <;> simp only [State.takeReply, if_neg ack]

variable {f : PackFrame} {level : VerifyLevel} {d : Disposition}

theorem State.classify_tagging {t : Session} (lookup : s.toToolLookup b f.code = (level, d))
    (session : (s.bay b).session = some t) (tagging : (s.bay b).tagging = true) :
    s.classify b f = s.classifyTagging b f t level d := by
  simp only [State.classify, lookup, session, tagging]

theorem State.classify_plain (lookup : s.toToolLookup b f.code = (level, d))
    (plain : (s.bay b).session = none ∨ (s.bay b).tagging = false) :
    s.classify b f = s.classifyPlain b f level d := by
  simp only [State.classify, lookup]
  rcases plain with none | other
  · simp only [none]
  · rw [other]
    split
    · next contradiction => cases contradiction
    · rfl

theorem State.classifyTagging_checked (t : Session) (checks : level ≠ .none) :
    s.classifyTagging b f t level d = s.checkTag b f t d := by
  cases level with
  | none => exact absurd rfl checks
  | verify => rfl
  | strict => rfl

theorem State.checkTag_withheld {t : Session} (bad : f.tag = none ∨ f.seq ≠ t.expected) :
    s.checkTag b f t d = s.withholdTagFailed b f.code := by
  unfold State.checkTag
  split
  · rfl
  · next tag tagged =>
    rcases bad with none | seq
    · rw [none] at tagged; cases tagged
    · rw [if_neg seq]

theorem State.checkTag_submitted {t : Session} {tag : BitVec 32} (tagged : f.tag = some tag)
    (seq : f.seq = t.expected) :
    s.checkTag b f t d =
      (s.setBay b ((s.bay b).holdReply f d)).submit (.bay b) (.checkTag t.key f.seq f.code f.payload tag) := by
  simp only [State.checkTag, tagged, if_pos seq]

end

end Sys2Proof.Machine

open Sys2Proof Sys2Proof.Machine Sys2Proof.Claims

/-- Settles O29: both lookups are a search for the first entry that answers. -/
theorem filterLookupsTakeTheFirstMatch : Obligations.FilterLookupsTakeTheFirstMatch := by
  refine fun s b code => ⟨fun before f after a table gives others => ?_, fun others => ?_,
    fun before f after l d table gives others => ?_, fun others => ?_⟩
  · have found := findSome?_first (after := after) (g := fun f => f.toPackAction b code)
      (fun g m => Option.eq_none_iff_forall_ne_some.mpr fun a' answer =>
        others g m a' (FilterEntry.toPackAction_iff.mp answer)) (FilterEntry.toPackAction_iff.mpr gives)
    rw [State.toPackLookup, table, found, Option.getD_some]
  · have found : s.ff.table.findSome? (fun f => f.toPackAction b code) = none :=
      List.findSome?_eq_none_iff.mpr fun g m => Option.eq_none_iff_forall_ne_some.mpr fun a answer =>
        others g m a (FilterEntry.toPackAction_iff.mp answer)
    rw [State.toPackLookup, found, Option.getD_none]
  · have found := findSome?_first (after := after) (g := fun f => f.toToolAction b code)
      (fun g m => Option.eq_none_iff_forall_ne_some.mpr fun a' answer =>
        others g m a'.1 a'.2 (FilterEntry.toToolAction_iff.mp answer)) (FilterEntry.toToolAction_iff.mpr gives)
    rw [State.toToolLookup, table, found, Option.getD_some]
  · have found : s.ff.table.findSome? (fun f => f.toToolAction b code) = none :=
      List.findSome?_eq_none_iff.mpr fun g m => Option.eq_none_iff_forall_ne_some.mpr fun a answer =>
        others g m a.1 a.2 (FilterEntry.toToolAction_iff.mp answer)
    rw [State.toToolLookup, found, Option.getD_none]

/-- Settles O30: by whether the bay holds a session of a tagging model, and by the verify level. -/
theorem repliesAreClassified : Obligations.RepliesAreClassified := by
  intro b s c k f e rest ends forwarded notBusy notReject notAck queue x level d lookup
  have passes (y : Bay) (hq : y.queue = e :: rest) (mark : Mark) :
      (s.setBay b y).passReply b f.code f.payload mark d = passed s b y e f.code f.payload mark d :=
    State.passReply_setBay hq _ _ _ _
  rw [exec_forwardedReply ends forwarded notBusy notReject notAck]
  refine ⟨fun t session tagging => ?_, fun plain => ?_⟩
  · rw [State.classify_tagging lookup session tagging]
    refine ⟨fun unchecked => ?_, fun checks => ?_⟩
    · rw [unchecked, State.classifyTagging]
      cases tag : f.tag with
      | none =>
        have here := passes (s.bay b) queue .none
        rw [State.setBay_bay] at here
        exact congrArg (fun t => Host.Outcome.next (afterBay b t)) here
      | some v =>
        have here := passes (advanced (s.bay b)) (by rwa [queue_advanced]) .none
        rw [← Bay.advance_eq] at here
        exact congrArg (fun t => Host.Outcome.next (afterBay b t)) (here.trans (by rw [Bay.advance_eq]; rfl))
    · rw [State.classifyTagging_checked t checks]
      refine ⟨fun bad => ?_, fun tag tagged seq => ?_⟩
      · rw [State.checkTag_withheld bad, State.withholdTagFailed_eq queue]
      · rw [State.checkTag_submitted tagged seq]
        rfl
  · rw [State.classify_plain lookup plain]
    refine ⟨fun none => ?_, fun verify => ?_, fun strict => ?_⟩
    · have here := passes (s.bay b) queue .none
      rw [State.setBay_bay] at here
      rw [none, State.classifyPlain, here]
    · have here := passes (s.bay b) queue .unverified
      rw [State.setBay_bay] at here
      rw [verify, State.classifyPlain, here]
    · rw [strict, State.classifyPlain, State.completeHead_eq queue]
      rfl
end

