-- ==== Sys2Proof/Proofs/BayJobResults.lean ====
section
/-! PROOF. What a bay takes from its completed digest job: the pack key, the proof's comparison, the session key and the
tag's comparison. -/

namespace Sys2Proof.Machine

open Sys2Proof.Claims

section
variable {s : State} {b : Fin 4}

/-! ## The completion of a bay's job (R44, R45) -/

theorem exec_derivePackKeyComplete {slot : Nat} {serial : Serial} {code : Word16} {root : Key}
    (running : s.de.running = some ⟨.bay b, .derivePackKey slot serial code, some root, false⟩) :
    exec .derivePackKeyComplete s =
      .next (afterBay b (State.takePackKey slot (packKeyValue root serial code) b (s.jobDone (.bay b)))) := by
  simp only [exec, execDerivePackKeyComplete, running, bayJobEnds]
  rfl

theorem exec_checkProofComplete {key : Key} {g p : Nonce} {serial : Serial} {proof : Digest} {sk : Option Key}
    (running : s.de.running = some ⟨.bay b, .checkProof key g p serial proof, sk, false⟩) :
    exec .checkProofComplete s =
      .next (afterBay b
        (State.takeProofResult key g p serial (proofValue key g p serial == proof) b (s.jobDone (.bay b)))) := by
  simp only [exec, execCheckProofComplete, running, bayJobEnds]
  rfl

theorem exec_deriveSessionComplete {key : Key} {g p : Nonce} {sk : Option Key}
    (running : s.de.running = some ⟨.bay b, .deriveSession key g p, sk, false⟩) :
    exec .deriveSessionComplete s =
      .next (afterBay b (State.takeSessionKey (sessionKeyValue key g p) b (s.jobDone (.bay b)))) := by
  simp only [exec, execDeriveSessionComplete, running, bayJobEnds]
  rfl

theorem exec_checkTagComplete {key : Key} {seq code : Byte} {payload : List Byte} {tag : BitVec 32} {sk : Option Key}
    (running : s.de.running = some ⟨.bay b, .checkTag key seq code payload tag, sk, false⟩) :
    exec .checkTagComplete s =
      .next (afterBay b (State.takeTagResult (tagValue key seq code payload == tag) b (s.jobDone (.bay b)))) := by
  simp only [exec, execCheckTagComplete, running, bayJobEnds]
  rfl

/-! ## The verdict cache (R76, R79) -/

theorem cacheFind_isSome_iff {cache : List CacheEntry} {serial : Serial} :
    (cacheFind cache serial).isSome = true ↔ ∃ o ∈ cache, o.serial = serial := by
  simp [cacheFind, List.find?_isSome]

theorem cacheInsert_eq (cache : List CacheEntry) (e : CacheEntry) : cacheInsert cache e = inserted cache e := by
  have held := cacheFind_isSome_iff (cache := cache) (serial := e.serial)
  unfold cacheInsert inserted
  cases found : cacheFind cache e.serial with
  | some o =>
    rw [if_pos (held.mp (by simp [found]))]
    rfl
  | none => rw [if_neg (mt held.mpr (by simp [found]))]

/-- A state with one more entry in its verdict cache. -/
def State.caching (s : State) (e : CacheEntry) : State := { s with cache := inserted s.cache e }

theorem State.cacheInsert_eq (serial : Serial) (v : Verdict) (slot life : Nat) :
    s.cacheInsert serial v slot life = s.caching ⟨serial, v, slot, life⟩ := by
  rw [State.cacheInsert, Machine.cacheInsert_eq]
  rfl

/-! ## The pack key (R14) -/

theorem State.takePackKey_taken {slot : Nat} {key : Key} (state : (s.bay b).state = .challenging)
    (phase : (s.bay b).phase = some .key) :
    State.takePackKey slot key b s =
      ({ s with nonceDraws := s.nonceDraws + 1 } : State).setBay b
        (({ s.bay b with packKey := some ⟨key, slot⟩ } : Bay).toExchange .challenging .admission
          (Config.freshNonce s.nonceDraws)) := by
  have quiet : ({ s.bay b with packKey := some ⟨key, slot⟩ } : Bay).noticed
      (({ s.bay b with packKey := some ⟨key, slot⟩ } : Bay).toExchange .challenging .admission
        (Config.freshNonce s.nonceDraws)) = false := by
    simp [Bay.noticed, Bay.toExchange, state]
  rw [State.takePackKey, if_pos ⟨state, phase⟩, State.enterExchange, State.bay_setBay_same, State.putBay_quiet]
  · exact State.setBay_setBay { s with nonceDraws := s.nonceDraws + 1 } b _ _
  · exact (congrArg (fun x => Bay.noticed x _) (State.bay_setBay_same _ b _)).trans quiet

theorem State.takePackKey_elsewhere {slot : Nat} {key : Key}
    (elsewhere : (s.bay b).state ≠ .challenging ∨ (s.bay b).phase ≠ some .key) :
    State.takePackKey slot key b s = s := by
  rw [State.takePackKey, if_neg]
  rintro ⟨state, phase⟩
  rcases elsewhere with other | other
  · exact other state
  · exact other phase

/-! ## The proof's comparison (R16, R93) -/

section
variable {key : Key} {g p : Nonce} {serial : Serial}

theorem State.takeProofResult_matched (phase : (s.bay b).phase = some .check)
    (state : (s.bay b).state = .challenging ∨ (s.bay b).state = .renewing) :
    State.takeProofResult key g p serial true b s =
      (s.setBay b { s.bay b with phase := some .session }).submit (.bay b) (.deriveSession key g p) := by
  rw [State.takeProofResult, if_pos phase]
  rcases state with challenges | renews
  · simp only [challenges, if_true, State.proofMatched]
  · simp only [renews, if_true, State.proofMatched]

theorem State.takeProofResult_elsewhere (equal : Bool)
    (elsewhere : (s.bay b).phase ≠ some .check ∨
      ((s.bay b).state ≠ .challenging ∧ (s.bay b).state ≠ .renewing)) :
    State.takeProofResult key g p serial equal b s = s := by
  unfold State.takeProofResult
  split
  · next phase =>
    obtain ⟨notChallenging, notRenewing⟩ := elsewhere.resolve_left (fun other => other phase)
    split
    · next state => exact absurd state notChallenging
    · next state => exact absurd state notRenewing
    · rfl
  · rfl

theorem State.insertForged_eq {k : PackKey} (held : (s.bay b).packKey = some k) :
    s.insertForged b serial = s.caching ⟨serial, .forged, k.slot, 30000⟩ := by
  simp only [State.insertForged, held, State.cacheInsert_eq]
  rfl

theorem State.takeProofResult_admission {k : PackKey} (phase : (s.bay b).phase = some .check)
    (state : (s.bay b).state = .challenging) (held : (s.bay b).packKey = some k) :
    State.takeProofResult key g p serial false b s =
      afterStrike (denied (s.caching ⟨serial, .forged, k.slot, 30000⟩) b (s.bay b).abandonLine .forged) b := by
  have notDenied : ((s.caching ⟨serial, .forged, k.slot, 30000⟩).bay b).state ≠ .denied :=
    ne_of_eq_of_ne state (by decide)
  have taken : State.takeProofResult key g p serial false b s = s.forgedAtAdmission b serial := by
    rw [State.takeProofResult, if_pos phase]
    simp only [state, Bool.false_eq_true, if_false]
  rw [taken, State.forgedAtAdmission, State.insertForged_eq held, State.strike_eq, State.deny_eq .forged notDenied]
  rfl

/-- After a strike a bay is in LOCKOUT, or in the state it was in. -/
theorem state_afterStrike :
    ((afterStrike s b).bay b).state = .lockout ∨ ((afterStrike s b).bay b).state = (s.bay b).state := by
  unfold afterStrike
  dsimp only
  split
  · exact .inr (by simp)
  · exact .inl (by simp)

theorem State.takeProofResult_renewal {k : PackKey} {v : State} (phase : (s.bay b).phase = some .check)
    (state : (s.bay b).state = .renewing) (held : (s.bay b).packKey = some k)
    (struck : v =
      afterStrike ((s.caching ⟨serial, .forged, k.slot, 30000⟩).setBay b { s.bay b with packNonce := none }) b) :
    State.takeProofResult key g p serial false b s =
      if (v.bay b).state = .lockout then v else lostEligibility v b (v.bay b).abandonLine .forged := by
  have taken : State.takeProofResult key g p serial false b s = s.forgedAtRenewal b serial := by
    rw [State.takeProofResult, if_pos phase]
    simp only [state, Bool.false_eq_true, if_false]
  rw [taken, State.forgedAtRenewal, State.insertForged_eq held, State.strike_eq]
  change (if (State.bay (afterStrike _ b) b).state = .lockout then _ else _) = _
  rw [← struck]
  split
  · rfl
  · next free =>
    have renews : (v.bay b).state = .renewing := by
      rcases state_afterStrike (s := (s.caching ⟨serial, .forged, k.slot, 30000⟩).setBay b
        { s.bay b with packNonce := none }) (b := b) with locked | kept <;> rw [← struck] at *
      · exact absurd locked free
      · exact kept.trans (by rw [State.bay_setBay_same]; exact state)
    exact State.loseEligibility_eq _ (by simp [renews]) (by simp [renews])

end

/-! ## The session key (R17, R18, R94) -/

theorem Bay.cleanRule_eq (x : Bay) : x.cleanRule = cleaned x := by
  cases clean : x.clean with
  | false => simp [Bay.cleanRule, cleaned, clean]
  | true =>
    simp only [Bay.cleanRule, cleaned, clean, if_true]

theorem Bay.toAuthorized_eq (x : Bay) (t : Session) (renew attempts : Nat) :
    x.toAuthorized t renew attempts = authorizedWith { x with attempts := attempts } t renew :=
  Bay.cleanRule_eq _

theorem state_authorizedWith (x : Bay) (t : Session) (renew : Nat) :
    (authorizedWith x t renew).state = .authorized := rfl

section
variable {id : Identity} {key : PackKey} {sk : Key}

theorem State.takeSessionKey_admission {sk : Key} (phase : (s.bay b).phase = some .session)
    (state : (s.bay b).state = .challenging) (identity : (s.bay b).identity = some id)
    (held : (s.bay b).packKey = some key) : State.takeSessionKey sk b s = s.authorize b id key sk := by
  rw [State.takeSessionKey, if_pos phase]
  simp only [state, identity, held]

theorem State.takeSessionKey_renewal {t : Session} {sk : Key} (phase : (s.bay b).phase = some .session)
    (state : (s.bay b).state = .renewing) (identity : (s.bay b).identity = some id)
    (held : (s.bay b).packKey = some key) (session : (s.bay b).session = some t) :
    State.takeSessionKey sk b s = s.renewed b id key t sk := by
  rw [State.takeSessionKey, if_pos phase]
  simp only [state, identity, held, session]

theorem State.deny_setIdentity (r : DenyReason) (h : (s.bay b).state ≠ .denied) :
    (s.setIdentity b id).deny b r = denied s b ({ s.bay b with identity := some id } : Bay).abandonLine r := by
  have bay : (s.setIdentity b id).bay b = { s.bay b with identity := some id } := State.bay_setBay_same _ _ _
  rw [State.deny_eq r (by rw [bay]; exact h), bay]
  exact denied_setBay _ _ r

theorem State.authorize_unknown (unknown : ∀ i, ¬ modelAt s id.code i) (h : (s.bay b).state ≠ .denied) :
    s.authorize b id key sk =
      denied s b ({ s.bay b with identity := some { id with index := none } } : Bay).abandonLine .unknownModel := by
  rw [State.authorize, ModelTable.find_eq_none unknown]
  exact State.deny_setIdentity _ h

theorem State.authorize_failing {i : Fin 32} {r : DenyReason} (known : modelAt s id.code i)
    (fails : failsDtoG s (s.ts.model.entry i.val) id (some r)) (h : (s.bay b).state ≠ .denied) :
    s.authorize b id key sk =
      denied s b ({ s.bay b with identity := some (withModel id i (s.ts.model.entry i.val)) } : Bay).abandonLine
        r := by
  have tables : (s.setIdentity b (id.withModel i (s.ts.model.entry i.val))).ts = s.ts := by simp [State.setIdentity]
  rw [State.authorize, ModelTable.find_eq_some_iff.mpr known]
  dsimp only
  rw [tables, TableStore.checksDG_eq fails]
  exact State.deny_setIdentity _ h

theorem State.authorize_passing {i : Fin 32} (known : modelAt s id.code i)
    (passes : failsDtoG s (s.ts.model.entry i.val) id none)
    (slot : (s.ts.model.entry i.val).keySlot.toNat = key.slot) (h : (s.bay b).state ≠ .authorized) :
    s.authorize b id key sk =
      ((s.caching ⟨id.serial, .genuine i key.key, key.slot, 600000⟩).setBay b
        (authorizedWith
          { s.bay b with identity := some (withModel id i (s.ts.model.entry i.val)), attempts := 0 }
          ⟨sk, 1, 0⟩ s.cfg.renew)).raiseBay b := by
  have tables : (s.setIdentity b (id.withModel i (s.ts.model.entry i.val))).ts = s.ts := by simp [State.setIdentity]
  have renew : (s.setIdentity b (id.withModel i (s.ts.model.entry i.val))).cfg = s.cfg := by simp [State.setIdentity]
  have bay : (s.setIdentity b (id.withModel i (s.ts.model.entry i.val))).bay b =
      { s.bay b with identity := some (withModel id i (s.ts.model.entry i.val)) } := State.bay_setBay_same _ _ _
  rw [State.authorize, ModelTable.find_eq_some_iff.mpr known]
  dsimp only
  rw [tables, TableStore.checksDG_eq passes]
  dsimp only
  rw [if_pos slot, bay, renew, Bay.toAuthorized_eq, State.insertGenuine, State.cacheInsert_eq]
  exact State.putBay_setBay (s.caching ⟨id.serial, .genuine i key.key, key.slot, 600000⟩) b _
    (Bay.noticed_of_state h)

theorem identifying_identity (x : Bay) (id : Option Identity) :
    identifying { x with identity := id } = identifying x := by
  unfold identifying Bay.abandonLine
  match x.line with
  | .idle | .awaitDigest => rfl
  | .inTransaction k _ _ | .retryWait k => cases k <;> rfl

theorem State.authorize_otherSlot {i : Fin 32} (known : modelAt s id.code i)
    (passes : failsDtoG s (s.ts.model.entry i.val) id none)
    (slot : (s.ts.model.entry i.val).keySlot.toNat ≠ key.slot) (h : (s.bay b).state ≠ .identifying) :
    s.authorize b id key sk = identified s b := by
  have tables : (s.setIdentity b (id.withModel i (s.ts.model.entry i.val))).ts = s.ts := by simp [State.setIdentity]
  have bay : (s.setIdentity b (id.withModel i (s.ts.model.entry i.val))).bay b =
      { s.bay b with identity := some (withModel id i (s.ts.model.entry i.val)) } := State.bay_setBay_same _ _ _
  rw [State.authorize, ModelTable.find_eq_some_iff.mpr known]
  dsimp only
  rw [tables, TableStore.checksDG_eq passes]
  dsimp only
  rw [if_neg slot, State.enterIdentifying_eq (by rw [bay]; exact h), identified, bay, identifying_identity]
  exact congrArg (State.raiseBay · b) (State.setBay_setBay { s with de := s.de.withdrawAuth b } b
    { s.bay b with identity := some (withModel id i (s.ts.model.entry i.val)) } (identifying (s.bay b)))

theorem State.renewed_eq {t : Session} {i : Fin 32} (index : id.index = some i) (h : (s.bay b).state ≠ .authorized) :
    s.renewed b id key t sk =
      ((s.caching ⟨id.serial, .genuine i key.key, key.slot, 600000⟩).setBay b
        (authorizedWith (s.bay b) ⟨sk, if t.number = 255 then 255 else t.number + 1, 0⟩ s.cfg.renew)).raiseBay b := by
  rw [State.renewed, index]
  dsimp only
  rw [State.insertGenuine, State.cacheInsert_eq, Bay.toAuthorized_eq]
  exact State.putBay_noticed (s := s.caching ⟨id.serial, .genuine i key.key, key.slot, 600000⟩)
    (Bay.noticed_of_state h)

end

/-! ## The tag's comparison (R142) -/

theorem State.takeTagResult_equal {h : HeldReply} {e : ForwardEntry} {rest : List ForwardEntry}
    (held : (s.bay b).heldReply = some h) (queue : (s.bay b).queue = e :: rest) :
    State.takeTagResult true b s = passed s b (advanced (s.bay b)) e h.code h.payload .verified h.disposition := by
  have queued : (advanced (s.bay b)).queue = e :: rest := by rwa [queue_advanced]
  simp only [State.takeTagResult, held, if_true, Bay.advance_eq]
  exact State.passReply_setBay queued _ _ _ _

theorem State.takeTagResult_different {h : HeldReply} {e : ForwardEntry} {rest : List ForwardEntry}
    (held : (s.bay b).heldReply = some h) (queue : (s.bay b).queue = e :: rest) :
    State.takeTagResult false b s = tagFailed s b e h.code := by
  simp only [State.takeTagResult, held, Bool.false_eq_true, if_false]
  exact State.withholdTagFailed_eq queue _

end

/-! ## What follows each completion -/

theorem derivedKeysAreTaken : DerivedKeysAreTaken := by
  intro s b slot serial code root running d
  have bay : d.bay b = s.bay b := by simp [d]
  have draws : d.nonceDraws = s.nonceDraws := by simp [d]
  rw [exec_derivePackKeyComplete running]
  refine ⟨fun state phase => ?_, fun elsewhere => ?_⟩
  · rw [State.takePackKey_taken (by rwa [bay]) (by rwa [bay]), bay, draws, ← state]
    rfl
  · rw [State.takePackKey_elsewhere (by rwa [bay])]

theorem noncesAreNotRepeated : NoncesAreNotRepeated := by
  refine ⟨fun m n earlier bound => Config.freshNonce_ne earlier bound, fun c s t next => ?_, fun s t next => ?_⟩
  · obtain ⟨_, other, keeps⟩ := exec_goesOn s c
    obtain rfl := Host.Outcome.next.inj (other.symm.trans next)
    exact keeps.draws
  · obtain ⟨_, keeps, rfl⟩ := step_keeps next
    exact keeps.draws

theorem admissionsReachTheAuthorizationPoint : AdmissionsReachTheAuthorizationPoint := by
  intro s b key g p sk id pk running phase state identity held d x
  have bay : d.bay b = x := by simp [d, x]
  have tables : d.ts = s.ts := by simp [d]
  have cache : d.cache = s.cache := by simp [d]
  have renew : d.cfg.renew = s.cfg.renew := by simp [d]
  have entry (i : Fin 32) : d.ts.model.entry i.val = s.ts.model.entry i.val := by rw [tables]
  have taken : exec .deriveSessionComplete s = .next (afterBay b (d.authorize b id pk (sessionKeyValue key g p))) := by
    rw [exec_deriveSessionComplete running,
      State.takeSessionKey_admission (by rwa [bay]) (by rwa [bay]) (by rwa [bay]) (by rwa [bay])]
  have here : (d.bay b).state = .challenging := by rwa [bay]
  have models (i : Fin 32) : modelAt d id.code i ↔ modelAt s id.code i := by simp only [modelAt, tables]
  have checks (e : ModelEntry) (r : Option DenyReason) : failsDtoG d e id r ↔ failsDtoG s e id r := by
    simp only [failsDtoG, covered, tables]
  rw [taken]
  refine ⟨fun unknown => ?_, fun i known => ?_⟩
  · rw [State.authorize_unknown (fun i => mt (models i).mp (unknown i)) (by simp [here]), bay]
  intro e y
  refine ⟨fun r fails => ?_, fun passes slot => ?_, fun passes slot => ?_⟩
  · rw [State.authorize_failing ((models i).mpr known) ((checks _ _).mpr (by rwa [tables])) (by simp [here]), bay,
      tables]
  · rw [State.authorize_passing ((models i).mpr known) ((checks _ _).mpr (by rwa [tables])) (by rwa [tables])
      (by simp [here]), bay, entry, renew, State.caching, cache]
  · rw [State.authorize_otherSlot ((models i).mpr known) ((checks _ _).mpr (by rwa [tables])) (by rwa [tables])
      (by simp [here])]

theorem renewalsReturnToAuthorized : RenewalsReturnToAuthorized := by
  intro s b key g p sk id pk t i running phase state identity held session index d
  have bay : d.bay b = s.bay b := by simp [d]
  have cache : d.cache = s.cache := by simp [d]
  have renew : d.cfg.renew = s.cfg.renew := by simp [d]
  rw [exec_deriveSessionComplete running,
    State.takeSessionKey_renewal (by rwa [bay]) (by rwa [bay]) (by rwa [bay]) (by rwa [bay]) (by rwa [bay]),
    State.renewed_eq index (by simp [state]), bay, renew, State.caching, cache]

end Sys2Proof.Machine

open Sys2Proof Sys2Proof.Machine Sys2Proof.Claims

/-- Settles O31: the phase KEY takes the key, and the count of draws only grows. -/
theorem packKeysAreTaken : Obligations.PackKeysAreTaken := ⟨derivedKeysAreTaken, noncesAreNotRepeated⟩

/-- Settles O32: by the comparison, and by the state of a bay in phase CHECK. -/
theorem proofsAreCompared : Obligations.ProofsAreCompared := by
  intro s b key g p serial proof sk running d x equal
  have bay : d.bay b = x := by simp [d, x]
  have cache : d.cache = s.cache := by simp [d]
  rw [exec_checkProofComplete running]
  refine ⟨fun phase state same => ?_, fun phase different k held => ?_, fun elsewhere => ?_⟩
  · rw [beq_iff_eq.mpr same, State.takeProofResult_matched (by rwa [bay]) (by rwa [bay]), bay]
  · intro f
    have caching : d.caching ⟨serial, .forged, k.slot, 30000⟩ = f := by rw [State.caching, cache]
    refine ⟨fun state => ?_, fun state => ?_⟩
    · rw [beq_eq_false_iff_ne.mpr different,
        State.takeProofResult_admission (by rwa [bay]) (by rwa [bay]) (by rwa [bay]), bay, caching]
    · intro v
      have struck : v = afterStrike
          ((d.caching ⟨serial, .forged, k.slot, 30000⟩).setBay b { d.bay b with packNonce := none }) b := by
        rw [caching, bay]
      rw [beq_eq_false_iff_ne.mpr different,
        State.takeProofResult_renewal (by rwa [bay]) (by rwa [bay]) (by rwa [bay]) struck]
  · rw [State.takeProofResult_elsewhere _ (by rwa [bay])]

/-- Settles O33: the checks of the authorization point, and the return from RENEWING. -/
theorem sessionsAuthorize : Obligations.SessionsAuthorize :=
  ⟨admissionsReachTheAuthorizationPoint, renewalsReturnToAuthorized⟩

/-- Settles O34: by the comparison of the tags. -/
theorem tagsAreCompared : Obligations.TagsAreCompared := by
  intro s b key seq code payload tag sk h e rest running held queue d
  have bay : d.bay b = s.bay b := by simp [d]
  rw [exec_checkTagComplete running]
  refine ⟨fun same => ?_, fun different => ?_⟩
  · rw [beq_iff_eq.mpr same, State.takeTagResult_equal (h := h) (by rwa [bay]) (by rwa [bay]), bay]
  · rw [beq_eq_false_iff_ne.mpr different, State.takeTagResult_different (h := h) (by rwa [bay]) (by rwa [bay])]
end

