-- ==== Sys2Proof/Proofs/ManagementJobResults.lean ====
section
/-! PROOF. What the Image Loader and the Management Executor take from their completed digest jobs, and the completion
of a discarded job. -/

namespace Sys2Proof.Machine

open Sys2Proof.Claims

section
variable {s : State}

/-! ## CHECK_IMAGE (R187, R189) -/

theorem exec_checkImageComplete {c : Claimant} {image : List Byte} {digest : Digest} {key : Key}
    (running : s.de.running = some ⟨c, .checkImage image digest, some key, false⟩) :
    exec .checkImageComplete s = .next ((s.jobDone c).takeImageResult (imageValue key image == digest)).settleTx := by
  simp only [exec, execCheckImageComplete, running]
  rfl

theorem State.endLoad_eq {l : Load} (checking : l.stage = .checking) (o : LoadOutcome) (st : Status)
    (payload : List Byte) :
    s.endLoad l o st payload = loadEnded { s with de := s.de.withdraw .management } l o st payload := by
  rw [State.endLoad_checking checking]
  rfl

theorem Load.storeWrite_eq (l : Load) :
    l.storeWrite = if l.target = .model then .modelImage l.newModel else .revokeImage l.newRevoke := by
  cases target : l.target <;> simp only [Load.storeWrite, target] <;> rfl

theorem State.beginImageWrite_committing {l : Load} (load : s.il.load = some l) (committing : l.stage = .committing) :
    s.beginImageWrite =
      { s with ts.write := match s.ts.write with
        | some w => some w
        | none => some l.storeWrite } := by
  cases write : s.ts.write with
  | none => simp only [State.beginImageWrite, load, write, if_pos committing]
  | some w =>
    simp only [State.beginImageWrite, load, write]
    rw [← write]

theorem State.takeImageResult_mismatch {l : Load} (load : s.il.load = some l) (checking : l.stage = .checking) :
    s.takeImageResult false = s.endLoad l (.status .digestMismatch) .digestMismatch [] := by
  simp only [State.takeImageResult, load, if_pos checking, if_true]

theorem State.takeImageResult_content {l : Load} (load : s.il.load = some l) (checking : l.stage = .checking)
    (bad : l.contentOk = false) : s.takeImageResult true = s.endLoad l (.status .content) .content [] := by
  simp only [State.takeImageResult, load, if_pos checking, bad, Bool.true_eq_false, if_false, if_true]

theorem State.takeImageResult_good {l : Load} (load : s.il.load = some l) (checking : l.stage = .checking)
    (good : l.contentOk = true) :
    s.takeImageResult true =
      ({ s with il.load := some { l with stage := .committing } } : State).beginImageWrite := by
  simp only [State.takeImageResult, load, if_pos checking, good, Bool.true_eq_false, if_false]

theorem imagesAreCompared : ImagesAreCompared := by
  intro s c image digest key l running d load checking w
  have write : d.ts.write = s.ts.write := by simp [d]
  rw [exec_checkImageComplete running]
  refine ⟨fun different => ?_, fun same bad => ?_, fun same good => ?_⟩
  · rw [beq_eq_false_iff_ne.mpr different, State.takeImageResult_mismatch load checking, State.endLoad_eq checking]
  · rw [beq_iff_eq.mpr same, State.takeImageResult_content load checking bad, State.endLoad_eq checking]
  · intro m
    have begun := State.beginImageWrite_committing (s := { d with il.load := some m }) (l := m) rfl rfl
    rw [Load.storeWrite_eq] at begun
    rw [beq_iff_eq.mpr same, State.takeImageResult_good load checking good, ← write]
    exact congrArg (fun t => Host.Outcome.next t.settleTx) begun

/-! ## Image content (R188) -/

theorem drop_flatten_cons {r : List Byte} {records : List (List Byte)} (ten : r.length = 10) (i : Nat) :
    ((r :: records).flatten.drop (10 * (i + 1))).take 10 = (records.flatten.drop (10 * i)).take 10 := by
  rw [List.flatten_cons, Nat.mul_add, Nat.add_comm, ← List.drop_drop, Nat.mul_one, ← ten, List.drop_left]

theorem map_take_flatten {records : List (List Byte)} (ten : ∀ r ∈ records, r.length = 10) :
    (List.range records.length).map (fun i => (records.flatten.drop (10 * i)).take 10) = records := by
  induction records with
  | nil => rfl
  | cons r records ih =>
    have first : r.length = 10 := ten r List.mem_cons_self
    rw [List.length_cons, List.range_succ_eq_map, List.map_cons, List.map_map]
    refine congrArg₂ _ ?_ ?_
    · rw [Nat.mul_zero, List.drop_zero, List.flatten_cons, ← first, List.take_left]
    · refine Eq.trans (List.map_congr_left fun i _ => ?_) (ih fun r m => ten r (List.mem_cons_of_mem _ m))
      exact drop_flatten_cons first i

/-- An image of records holds them. -/
theorem imageRecords_flatten {kind count : Byte} {records : List (List Byte)} (ten : ∀ r ∈ records, r.length = 10)
    (counted : records.length = count.toNat) : imageRecords (kind :: count :: records.flatten) = records := by
  have number : byteField (kind :: count :: records.flatten) 1 = records.length := by
    rw [byteField_cons_succ, byteField_cons_zero, counted]
  have record (i : Nat) : imageRecord (kind :: count :: records.flatten) i =
      (records.flatten.drop (10 * i)).take 10 := by
    rw [imageRecord, Nat.add_comm]
    rfl
  rw [imageRecords, number]
  exact (List.map_congr_left fun i _ => record i).trans (map_take_flatten ten)

theorem Load.contentOk_iff (l : Load) :
    l.contentOk = true ↔
      l.declared = 2 + 10 * byteField l.buffer 1 ∧
        ((l.target = .model ∧ l.buffer.getD 0 0 = 1 ∧ modelContentOk l.buffer = true) ∨
          (l.target = .revoke ∧ l.buffer.getD 0 0 = 2 ∧ revokeContentOk l.buffer = true)) := by
  cases target : l.target <;>
    simp only [Load.contentOk, target, ImageTarget.byte, Bool.and_eq_true, beq_iff_eq, decide_eq_true_eq, true_and,
      reduceCtorEq, false_and, or_false, false_or, and_assoc, and_left_comm]

theorem imageContentIsChecked : ImageContentIsChecked := by
  intro l kind count records buffer ten counted entries
  have held : imageRecords l.buffer = records := by rw [buffer, imageRecords_flatten ten counted]
  have number : byteField l.buffer 1 = count.toNat := by rw [buffer, byteField_cons_succ, byteField_cons_zero]
  have first : l.buffer.getD 0 0 = kind := by rw [buffer]; rfl
  have listed : imageEntries l.buffer = entries := by rw [imageEntries, held]
  refine ⟨?_, ?_, ?_⟩
  · rw [Load.contentOk_iff, modelContentOk_iff, revokeContentOk_iff, held, number, first, listed]
    rfl
  · have long : entries.length = count.toNat := by rw [List.length_map, counted]
    rw [Load.newModel, listed, long]
  · rw [Load.newRevoke, held]
    rfl

/-! ## KEY_CHECK (R37) -/

theorem keyChecksAreAnswered : KeyChecksAreAnswered := by
  intro s c slot key tid running d inHand
  have request : (s.jobDone c).me.inHand = some (.keyCheck tid) := inHand
  simp only [exec, execKeyCheckComplete, running, Bool.false_eq_true, if_false, State.takeCheckValue, request]
  rfl

/-! ## Discarded jobs (R46, R47) -/

theorem bayJobEnds_discarded {r : RunningJob} (take : Fin 4 → State → State) (h : r.discarded = true) :
    bayJobEnds s r take = .next (s.jobDone r.claimant).settleTx := by
  unfold bayJobEnds
  split
  · next kept => rw [h] at kept; cases kept
  · rfl

theorem discardedResultsDeliverNothing : DiscardedResultsDeliverNothing := by
  intro s ⟨c, j, sk, discarded⟩ running h runs
  obtain rfl : discarded = true := h
  refine ⟨fun n x m k job key => ?_, fun k g p x y job => ?_, fun k g p job => ?_, fun k q code p t job => ?_,
    fun i d k job key => ?_, fun n k job key => ?_⟩
  · obtain rfl : j = _ := job
    obtain rfl : sk = _ := key
    simp only [runs, exec, execDerivePackKeyComplete, running]
    exact bayJobEnds_discarded _ rfl
  · obtain rfl : j = _ := job
    simp only [runs, exec, execCheckProofComplete, running]
    exact bayJobEnds_discarded _ rfl
  · obtain rfl : j = _ := job
    simp only [runs, exec, execDeriveSessionComplete, running]
    exact bayJobEnds_discarded _ rfl
  · obtain rfl : j = _ := job
    simp only [runs, exec, execCheckTagComplete, running]
    exact bayJobEnds_discarded _ rfl
  · obtain rfl : j = _ := job
    obtain rfl : sk = _ := key
    simp only [runs, exec, execCheckImageComplete, running, if_true]
    rfl
  · obtain rfl : j = _ := job
    obtain rfl : sk = _ := key
    simp only [runs, exec, execKeyCheckComplete, running, if_true]
    rfl

end

end Sys2Proof.Machine

open Sys2Proof Sys2Proof.Machine Sys2Proof.Claims

/-- Settles O35: the comparison of the digests, and the content check on the image's records. -/
theorem imagesAreChecked : Obligations.ImagesAreChecked := ⟨imagesAreCompared, imageContentIsChecked⟩

/-- Settles O36: the held KEY_CHECK takes its value; a discarded job only frees the engine. -/
theorem digestResultsReachTheirClaimant : Obligations.DigestResultsReachTheirClaimant :=
  ⟨keyChecksAreAnswered, discardedResultsDeliverNothing⟩
end

