-- ==== Sys2Proof/Proofs/StoreWrites.lean ====
section
/-! PROOF. The completions of store writes: what the store and the cache take, the answer, and the write or reset that
follows. -/

namespace Sys2Proof.Machine

open Sys2Proof.Claims

/-! ## What a completed write leaves (R177) -/

theorem tookWrite_iff (r : WriteResult) : tookWrite r = true ↔ r = .written := by
  cases r <;> simp [tookWrite]

theorem written_eq {α : Type} (bytes : α → List Byte) (empty new : α) (r : WriteResult) :
    (if tookWrite r then NvRecord.intact bytes new else failedRecord bytes empty r) = written bytes empty new r := by
  cases r <;> rfl

theorem loadedSlots_eq (slot : Nat) (r : WriteResult) : loadedSlots slot r = slotsTaken slot r := by
  funext n
  cases r with
  | written =>
    by_cases here : n = slot
    · subst here
      simp only [loadedSlots, slotsTaken, tookWrite, if_true, beq_self_eq_true, Bool.true_and, true_and]
      by_cases root : n = 0 <;> simp [root]
    · simp [loadedSlots, slotsTaken, tookWrite, here]
  | failed => simp [loadedSlots, slotsTaken, tookWrite]
  | failedTwice => simp [loadedSlots, slotsTaken, tookWrite]

section
variable {s : State}

/-- The state with the key store that a completed write leaves (R35, R36, R83, R84). -/
def keysWritten (s : State) (slot : Nat) (new : KeyStore) (r : WriteResult) : State :=
  { s with
    ts.keys := if r = .written then new else List.replicate 8 none
    ts.nvKeys := written KeyStore.bytes (List.replicate 8 none) new r
    ts.write := none
    cache := s.cache.filter (fun e => !slotsTaken slot r e.keySlot)
    flags.keysLost := s.flags.keysLost || decide (¬ r = .written)
    tli.notices.gate := s.tli.notices.gate || decide (¬ r = .written) }

/-- The state with the model table that a completed write leaves (R59, R62, R82). -/
def modelWritten (s : State) (new : ModelTable) (r : WriteResult) : State :=
  { s with
    ts.model := if r = .written then new else ⟨List.replicate 32 ModelEntry.none, 0⟩
    ts.nvModel := written ModelTable.bytes ⟨List.replicate 32 ModelEntry.none, 0⟩ new r
    ts.write := none
    cache := s.cache.filter (fun e => decide (e.verdict = .forged))
    flags.modelLost := s.flags.modelLost || decide (¬ r = .written)
    tli.notices.gate := true }

/-- The state with the revocation list that a completed write leaves (R69, R74, R85). -/
def revokeWritten (s : State) (new : RevList) (r : WriteResult) : State :=
  let live : RevList := if r = .written then new else ⟨[], 0⟩
  { s with
    ts.revoke := live
    ts.nvRevoke := written RevList.bytes ⟨[], 0⟩ new r
    ts.write := none
    cache := s.cache.filter (fun e =>
      !live.ranges.any (fun x => decide (x.first.toNat ≤ e.serial.toNat ∧ e.serial.toNat ≤ x.last.toNat)))
    flags.revokeLost := s.flags.revokeLost || decide (¬ r = .written)
    tli.notices.gate := true }

theorem State.storeKeys_eq (slot : Nat) (new : KeyStore) (r : WriteResult) :
    (if tookWrite r then s.storeKeys slot new r else (s.storeKeys slot new r).setKeysLost) =
      keysWritten s slot new r := by
  rw [State.storeKeys, loadedSlots_eq, written_eq]
  cases r <;> simp only [keysWritten, not_true, not_false_eq_true, decide_true, decide_false, Bool.or_true,
    Bool.or_false, reduceCtorEq] <;> rfl

theorem isGenuine_eq_false_iff (e : CacheEntry) : (!e.isGenuine) = decide (e.verdict = .forged) := by
  cases verdict : e.verdict <;> simp [CacheEntry.isGenuine, verdict]

theorem State.storeModel_eq (new : ModelTable) (r : WriteResult) :
    (if tookWrite r then (s.storeModel new r).raiseGate else (s.storeModel new r).setModelLost) =
      modelWritten s new r := by
  rw [State.storeModel, written_eq]
  simp only [isGenuine_eq_false_iff]
  cases r <;> simp only [modelWritten, not_true, not_false_eq_true, decide_true, decide_false, Bool.or_true,
    Bool.or_false, reduceCtorEq] <;> rfl

theorem RevList.covers_eq (l : RevList) (x : Serial) :
    l.covers x = l.ranges.any (fun y => decide (y.first.toNat ≤ x.toNat ∧ x.toNat ≤ y.last.toNat)) := by
  simp only [RevList.covers, Range.covers, Bool.decide_and]

theorem State.storeRevoke_eq (new : RevList) (r : WriteResult) :
    (if tookWrite r then (s.storeRevoke new r).raiseGate else (s.storeRevoke new r).setRevokeLost) =
      revokeWritten s new r := by
  rw [State.storeRevoke, written_eq]
  simp only [RevList.covers_eq]
  cases r <;> simp only [revokeWritten, not_true, not_false_eq_true, decide_true, decide_false, Bool.or_true,
    Bool.or_false, reduceCtorEq] <;> rfl

/-! ## Every bay takes the change -/

theorem State.commitKeys_eq (slot : Nat) (new : KeyStore) (r : WriteResult) :
    s.commitKeys slot new r =
      settled (([0, 1, 2, 3] : List (Fin 4)).foldl (State.keyLoadBay (slotsTaken slot r))
        (keysWritten s slot new r)) := by
  unfold State.commitKeys
  dsimp only
  rw [State.storeKeys_eq, loadedSlots_eq]
  rfl

theorem State.commitModel_eq (new : ModelTable) (r : WriteResult) :
    s.commitModel new r =
      settled (([0, 1, 2, 3] : List (Fin 4)).foldl (State.commitBay false) (modelWritten s new r)) := by
  unfold State.commitModel
  dsimp only
  rw [State.storeModel_eq]
  rfl

theorem State.commitRevoke_eq (new : RevList) (r : WriteResult) :
    s.commitRevoke new r =
      settled (([0, 1, 2, 3] : List (Fin 4)).foldl (State.commitBay true) (revokeWritten s new r)) := by
  unfold State.commitRevoke
  dsimp only
  rw [State.storeRevoke_eq]
  rfl

theorem settled_keyLoadBays (u : State) (slots : Nat → Bool) :
    let v := settled (([0, 1, 2, 3] : List (Fin 4)).foldl (State.keyLoadBay slots) u)
    v.ts = u.ts ∧ v.il = u.il ∧ v.me = u.me := by
  change (settled (u.keyLoadBays slots)).ts = _ ∧ (settled (u.keyLoadBays slots)).il = _ ∧
    (settled (u.keyLoadBays slots)).me = _
  simp [settled]

theorem settled_commitBays (u : State) (revocation : Bool) :
    let v := settled (([0, 1, 2, 3] : List (Fin 4)).foldl (State.commitBay revocation) u)
    v.ts = u.ts ∧ v.il = u.il ∧ v.me = u.me := by
  change (settled (u.commitBays revocation)).ts = _ ∧ (settled (u.commitBays revocation)).il = _ ∧
    (settled (u.commitBays revocation)).me = _
  simp [settled]

/-! ## What follows the write (R178, R189, R190) -/

theorem State.beginImageWrite_free (free : s.ts.write = none) :
    s.beginImageWrite = { s with ts.write := nextWrite s } := by
  unfold State.beginImageWrite nextWrite
  cases load : s.il.load with
  | none =>
    dsimp only
    rw [← free]
  | some l =>
    simp only [free]
    by_cases committing : l.stage = .committing
    · rw [if_pos committing, if_pos committing, Load.storeWrite_eq]
    · rw [if_neg committing, if_neg committing, ← free]

theorem nextWrite_congr {t : State} (h : t.il = s.il) : nextWrite t = nextWrite s := by
  unfold nextWrite
  rw [h]

theorem State.endLoad_committing {l : Load} (committing : l.stage = .committing) (o : LoadOutcome) (st : Status)
    (payload : List Byte) : s.endLoad l o st payload = loadEnded s l o st payload := by
  rw [State.endLoad, if_neg (by simp [committing])]
  rfl

theorem State.endCommit_eq {l : Load} (load : s.il.load = some l) (committing : l.stage = .committing)
    (r : WriteResult) (gen : Word16) :
    s.endCommit r gen =
      if r = .written then loadEnded s l .committed .ok (bytesBE 2 gen.toNat)
      else loadEnded s l (.status .storeFailed) .storeFailed [] := by
  simp only [State.endCommit, load, State.endLoad_committing committing, tookWrite_iff]

theorem State.finishReset_eq (det : Four Bool) : s.finishReset det = thenReset s det := rfl

/-- The answer to a held KEY_LOAD (R35, R36). -/
theorem State.endKeyLoad_eq {tid : Byte} (inHand : s.me.inHand = some (.keyLoad tid)) (r : WriteResult) :
    s.endKeyLoad r =
      ({ s with me.inHand := none } : State).answer
        [⟨7, tid, 0x20, if r = .written then .ok else .storeFailed, RespFlags.none, []⟩] := by
  simp only [State.endKeyLoad, inHand, tookWrite_iff]
  rfl

/-- The answer to an edit: the live generation and count, and the index of an add that took (12.3). -/
def editAnswer (live : RevList) (r : WriteResult) (tid code : Byte) (index : List Byte) : Response :=
  let list : List Byte := bytesBE 2 live.gen.toNat ++ [byteOf live.ranges.length]
  if r = .written then ⟨7, tid, code, .ok, RespFlags.none, list ++ index⟩
  else ⟨7, tid, code, .storeFailed, RespFlags.none, list⟩

theorem editAnswer_eq {new : RevList} {r : WriteResult} (tid : Byte) {code : Byte} (index : List Byte)
    (edit : code = 0x32 ∨ code = 0x33) (live : s.ts.revoke = if r = .written then new else ⟨[], 0⟩) :
    (if tookWrite r then gateResponse tid code .ok (editPayload new index) else s.rejection tid code .storeFailed) =
      editAnswer s.ts.revoke r tid code index := by
  by_cases ok : r = .written
  · rw [if_pos ((tookWrite_iff r).mpr ok), editAnswer, if_pos ok, live, if_pos ok]
    rfl
  · rw [if_neg (mt (tookWrite_iff r).mp ok), editAnswer, if_neg ok, State.rejection, State.rejectionPayload,
      if_pos edit]
    rfl

theorem State.endEdit_add {new : RevList} {r : WriteResult} {tid : Byte} {index : Nat}
    (inHand : s.me.inHand = some (.revokeAdd tid index))
    (live : s.ts.revoke = if r = .written then new else ⟨[], 0⟩) :
    s.endEdit new r =
      ({ s with me.inHand := none } : State).answer [editAnswer s.ts.revoke r tid 0x32 [byteOf index]] := by
  simp only [State.endEdit, inHand]
  rw [editAnswer_eq tid _ (.inl rfl) live]

theorem State.endEdit_drop {new : RevList} {r : WriteResult} {tid : Byte}
    (inHand : s.me.inHand = some (.revokeDrop tid))
    (live : s.ts.revoke = if r = .written then new else ⟨[], 0⟩) :
    s.endEdit new r = ({ s with me.inHand := none } : State).answer [editAnswer s.ts.revoke r tid 0x33 []] := by
  simp only [State.endEdit, inHand]
  rw [editAnswer_eq tid _ (.inr rfl) live]

/-- Behind an edit the write of a load in COMMITTING begins (R189). -/
theorem State.beginImageWrite_answer {o : Option InHand} (rs : List Response) (free : s.ts.write = none) :
    (({ s with me.inHand := o } : State).answer rs).beginImageWrite =
      ({ s with me.inHand := o, ts.write := nextWrite s } : State).answer rs := by
  rw [State.beginImageWrite_free (s := ({ s with me.inHand := o } : State).answer rs) free]
  rfl

end

end Sys2Proof.Machine

open Sys2Proof Sys2Proof.Machine Sys2Proof.Claims

/-- Settles O37: the store takes the keys, then the bays, the answer and the next write. -/
theorem keyLoadsComplete : Obligations.KeyLoadsComplete := by
  intro slot new r tid s write inHand ok u v
  obtain ⟨tables, loader, engine⟩ : v.ts = u.ts ∧ v.il = u.il ∧ v.me = u.me := settled_keyLoadBays u _
  have taken : s.commitKeys slot new r = v := State.commitKeys_eq slot new r
  have held : v.me.inHand = some (.keyLoad tid) := by rw [engine]; exact inHand
  have free : v.ts.write = none := by rw [tables]
  have next : nextWrite v = nextWrite s := nextWrite_congr loader
  have runs : exec (.keyLoadComplete r) s =
      .next ((s.commitKeys slot new r).endKeyLoad r).beginImageWrite.settleTx := by
    simp only [exec, execKeyLoadComplete, write, done]
  rw [runs, taken, State.endKeyLoad_eq held, State.beginImageWrite_answer _ free, next]

/-- Settles O38: the store takes the table, then the bays, the end of the load and a GATE_RESET that waited. -/
theorem modelCommitsComplete : Obligations.ModelCommitsComplete := by
  intro new r det l s write load committing ok u v
  obtain ⟨_, loader, _⟩ : v.ts = u.ts ∧ v.il = u.il ∧ v.me = u.me := settled_commitBays u _
  have taken : s.commitModel new r = v := State.commitModel_eq new r
  have loading : v.il.load = some l := by rw [loader]; exact load
  have runs : exec (.modelCommit ⟨r, det⟩) s =
      .next (((s.commitModel new r).endCommit r new.gen).finishReset det).settleTx := by
    simp only [exec, execModelCommit, write, done]
  rw [runs, taken, State.endCommit_eq loading committing, State.finishReset_eq]

/-- Settles O39: the store takes the list, then the bays; an edit or a load is answered. -/
theorem revocationCommitsComplete : Obligations.RevocationCommitsComplete := by
  intro new r det s ok live u v
  obtain ⟨tables, loader, engine⟩ : v.ts = u.ts ∧ v.il = u.il ∧ v.me = u.me := settled_commitBays u _
  have taken : s.commitRevoke new r = v := State.commitRevoke_eq new r
  refine ⟨fun write => ?_, fun l write load committing => ?_⟩
  · intro list answered
    have revoke : v.ts.revoke = live := by rw [tables]
    have free : v.ts.write = none := by rw [tables]
    have next : nextWrite v = nextWrite s := nextWrite_congr loader
    have runs : exec (.revocationCommit ⟨r, det⟩) s =
        .next ((s.commitRevoke new r).endEdit new r).beginImageWrite.settleTx := by
      simp only [exec, execRevocationCommit, write, done]
    have answers (tid code : Byte) (index : List Byte) :
        ({ v with me.inHand := none, ts.write := nextWrite s } : State).answer [editAnswer live r tid code index] =
          answered tid code index := rfl
    refine ⟨fun tid index inHand => ?_, fun tid inHand => ?_⟩
    · have held : v.me.inHand = some (.revokeAdd tid index) := by rw [engine]; exact inHand
      rw [runs, taken, State.endEdit_add held revoke, State.beginImageWrite_answer _ free, next, revoke, answers]
    · have held : v.me.inHand = some (.revokeDrop tid) := by rw [engine]; exact inHand
      rw [runs, taken, State.endEdit_drop held revoke, State.beginImageWrite_answer _ free, next, revoke, answers]
  · have loading : v.il.load = some l := by rw [loader]; exact load
    have runs : exec (.revocationCommit ⟨r, det⟩) s =
        .next (((s.commitRevoke new r).endCommit r new.gen).finishReset det).settleTx := by
      simp only [exec, execRevocationCommit, write, done]
    rw [runs, taken, State.endCommit_eq loading committing, State.finishReset_eq]
end

