-- ==== Sys2Proof/Proofs/TableChanges.lean ====
section
/-! PROOF. What a bay does at a commit of the model table or the revocation list, and at a key load. -/

namespace Sys2Proof.Machine

open Sys2Proof.Claims

section
variable {s : State} {b : Fin 4} {id : Identity}

/-! ## Re-evaluation (R25, R53) -/

theorem State.loseEligibility_setIdentity (r : DenyReason) (held : (s.bay b).state = .authorized ∨
    (s.bay b).state = .renewing) :
    (s.setIdentity b id).loseEligibility b r =
      lostEligibility s b ({ s.bay b with identity := some id } : Bay).abandonLine r := by
  have bay : (s.setIdentity b id).bay b = { s.bay b with identity := some id } := State.bay_setBay_same _ _ _
  have notDenied : (s.bay b).state ≠ .denied := by rcases held with state | state <;> simp [state]
  have notGrace : (s.bay b).state ≠ .grace := by rcases held with state | state <;> simp [state]
  rw [State.loseEligibility_eq r (by rw [bay]; exact notDenied) (by rw [bay]; exact notGrace), bay]
  exact lostEligibility_setBay _ _ r

theorem State.commitBay_held (rev : Bool) (held : (s.bay b).state = .authorized ∨ (s.bay b).state = .renewing)
    (identity : (s.bay b).identity = some id) : s.commitBay rev b = s.reevaluate b id := by
  rcases held with state | state <;> simp only [State.commitBay, state, identity]

theorem State.reevaluate_unknown (unknown : ∀ i, ¬ modelAt s id.code i)
    (held : (s.bay b).state = .authorized ∨ (s.bay b).state = .renewing) :
    s.reevaluate b id =
      lostEligibility s b ({ s.bay b with identity := some { id with index := none } } : Bay).abandonLine
        .unknownModel := by
  rw [State.reevaluate, ModelTable.find_eq_none unknown]
  exact State.loseEligibility_setIdentity _ held

theorem State.reevaluate_failing {i : Fin 32} {r : DenyReason} (known : modelAt s id.code i)
    (fails : failsDtoG s (s.ts.model.entry i.val) id (some r))
    (held : (s.bay b).state = .authorized ∨ (s.bay b).state = .renewing) :
    s.reevaluate b id =
      lostEligibility s b ({ s.bay b with identity := some { id with index := some i } } : Bay).abandonLine r := by
  rw [State.reevaluate, ModelTable.find_eq_some_iff.mpr known]
  dsimp only
  rw [TableStore.checksDG_eq fails]
  exact State.loseEligibility_setIdentity _ held

theorem State.reevaluate_passing {i : Fin 32} {k : PackKey} (known : modelAt s id.code i)
    (passes : failsDtoG s (s.ts.model.entry i.val) id none) (key : (s.bay b).packKey = some k)
    (held : (s.bay b).state = .authorized ∨ (s.bay b).state = .renewing) :
    s.reevaluate b id =
      if k.slot = (s.ts.model.entry i.val).keySlot.toNat then
        s.setBay b { s.bay b with identity := some (withModel id i (s.ts.model.entry i.val)) }
      else identified s b := by
  have other : (s.bay b).state ≠ .identifying := by rcases held with state | state <;> simp [state]
  rw [State.reevaluate, ModelTable.find_eq_some_iff.mpr known]
  dsimp only
  rw [TableStore.checksDG_eq passes]
  have slot : (s.bay b).packKey.map (·.slot) = some k.slot := by rw [key]; rfl
  rw [slot, State.enterIdentifying_eq other]
  simp only [Option.some.injEq]
  rfl

/-! ## The other bays at a commit (R24, R70, R71) -/

theorem Bay.noticed_reason {x : Bay} (r : Option DenyReason) (grace : x.state = .grace) :
    x.noticed { x with reason := r } = decide (x.reason ≠ r) := by
  rw [Bool.eq_iff_iff]
  simp [Bay.noticed, grace]

theorem State.commitBay_covered (grace : (s.bay b).state = .grace) (identity : (s.bay b).identity = some id)
    (covers : covered s id.serial) :
    s.commitBay true b =
      if (s.bay b).reason = some .revoked then s
      else (s.setBay b { s.bay b with reason := some .revoked }).raiseBay b := by
  have listed : s.ts.revoke.covers id.serial = true := (RevList.covers_iff s _).mpr covers
  have taken : s.commitBay true b = s.putBay b { s.bay b with reason := some .revoked } := by
    simp only [State.commitBay, grace, identity, listed, Bool.and_self, if_true]
  rw [taken]
  by_cases same : (s.bay b).reason = some .revoked
  · rw [if_pos same, State.putBay_quiet (by rw [Bay.noticed_reason _ grace, same]; simp), ← same]
    exact State.setBay_bay s b
  · rw [if_neg same, State.putBay_noticed (by rw [Bay.noticed_reason _ grace]; simpa using same)]

theorem State.commitBay_grace {rev : Bool} (grace : (s.bay b).state = .grace)
    (identity : (s.bay b).identity = some id) (clear : rev = false ∨ ¬ covered s id.serial) :
    s.commitBay rev b = s := by
  have quiet : (rev && s.ts.revoke.covers id.serial) = false := by
    rcases clear with rfl | clear
    · rfl
    · rw [Bool.eq_false_iff.mpr (mt (RevList.covers_iff s _).mp clear), Bool.and_false]
  simp only [State.commitBay, grace, identity, quiet, Bool.false_eq_true, if_false]

theorem DenyReason.any_isTable_iff (r : Option DenyReason) :
    r.any DenyReason.isTable = true ↔
      r = some .unknownModel ∨ r = some .withdrawn ∨ r = some .oldFirmware ∨ r = some .revoked ∨ r = some .noKey := by
  cases r with
  | none => simp
  | some r => cases r <;> simp [DenyReason.isTable]

theorem State.commitBay_denied (rev : Bool) (denied : (s.bay b).state = .denied) :
    s.commitBay rev b = if (s.bay b).reason.any DenyReason.isTable then identified s b else s := by
  rw [← State.enterIdentifying_eq (by simp [denied])]
  unfold State.commitBay
  rw [denied]

theorem State.commitBay_unheld (rev : Bool) (notAuthorized : (s.bay b).state ≠ .authorized)
    (notRenewing : (s.bay b).state ≠ .renewing) (notGrace : (s.bay b).state ≠ .grace)
    (notDenied : (s.bay b).state ≠ .denied) : s.commitBay rev b = s := by
  unfold State.commitBay
  split
  · next state _ => exact absurd state notAuthorized
  · next state _ => exact absurd state notRenewing
  · next state _ => exact absurd state notGrace
  · next state => exact absurd state notDenied
  · rfl

/-! ## Key loads (R26, R27) -/

/-- A bay acts on a key load to the slots (R26, R27). -/
def takesKeyLoad (s : State) (b : Fin 4) (slots : Nat → Bool) : Prop :=
  let x := s.bay b
  (x.state = .challenging ∧ ∃ a, x.attrs = some a ∧ slots a.keySlot.toNat = true) ∨
    ((x.state = .authorized ∨ x.state = .renewing ∨ x.state = .grace) ∧
      ∃ k, x.packKey = some k ∧ slots k.slot = true) ∨
    (x.state = .denied ∧ x.reason = some .noKey ∧
      ∃ id i, x.identity = some id ∧ modelAt s id.code i ∧ slots (s.ts.model.entry i.val).keySlot.toNat = true)

theorem State.modelSlot_any_iff (x : Bay) (slots : Nat → Bool) :
    (s.modelSlot x).any slots = true ↔
      ∃ id i, x.identity = some id ∧ modelAt s id.code i ∧ slots (s.ts.model.entry i.val).keySlot.toNat = true := by
  cases identity : x.identity with
  | none => simp [State.modelSlot, identity]
  | some id => simp [State.modelSlot, identity, Option.any_eq_true, ← ModelTable.find_eq_some_iff]

theorem takesKeyLoad_challenging (slots : Nat → Bool) (state : (s.bay b).state = .challenging) :
    takesKeyLoad s b slots ↔ (s.bay b).attrs.any (fun a => slots a.keySlot.toNat) = true := by
  simp [takesKeyLoad, state, Option.any_eq_true]

theorem takesKeyLoad_keyed (slots : Nat → Bool)
    (state : (s.bay b).state = .authorized ∨ (s.bay b).state = .renewing ∨ (s.bay b).state = .grace) :
    takesKeyLoad s b slots ↔ (s.bay b).packKey.any (fun k => slots k.slot) = true := by
  rcases state with state | state | state <;> simp [takesKeyLoad, state, Option.any_eq_true]

theorem takesKeyLoad_denied (slots : Nat → Bool) (state : (s.bay b).state = .denied) :
    takesKeyLoad s b slots ↔ (s.bay b).reason = some .noKey ∧ (s.modelSlot (s.bay b)).any slots = true := by
  rw [State.modelSlot_any_iff]
  simp [takesKeyLoad, state]

open Classical in
theorem State.keyLoadBay_eq (slots : Nat → Bool) :
    State.keyLoadBay slots s b = if takesKeyLoad s b slots then identified s b else s := by
  have sent (h : (s.bay b).state ≠ .identifying) : s.enterIdentifying b = identified s b := State.enterIdentifying_eq h
  unfold State.keyLoadBay
  dsimp only
  split
  · next state =>
    rw [sent (by simp [state])]
    exact if_congr (takesKeyLoad_challenging slots state).symm rfl rfl
  · next state =>
    rw [sent (by simp [state])]
    exact if_congr (takesKeyLoad_keyed slots (.inl state)).symm rfl rfl
  · next state =>
    rw [sent (by simp [state])]
    exact if_congr (takesKeyLoad_keyed slots (.inr (.inl state))).symm rfl rfl
  · next state =>
    rw [sent (by simp [state])]
    exact if_congr (takesKeyLoad_keyed slots (.inr (.inr state))).symm rfl rfl
  · next state =>
    rw [sent (by simp [state])]
    exact if_congr (takesKeyLoad_denied slots state).symm rfl rfl
  · next notChallenging notAuthorized notRenewing notGrace notDenied =>
    refine (if_neg ?_).symm
    rintro (⟨state, _⟩ | ⟨state | state | state, _⟩ | ⟨state, _⟩)
    · exact notChallenging state
    · exact notAuthorized state
    · exact notRenewing state
    · exact notGrace state
    · exact notDenied state

end

end Sys2Proof.Machine

open Sys2Proof Sys2Proof.Machine Sys2Proof.Claims

/-- Settles O40: by the bay's state, and by what it looks up. -/
theorem baysTakeTableChanges : Obligations.BaysTakeTableChanges := by
  intro s b x tableReason
  refine ⟨fun rev id held identity => ⟨fun unknown => ?_, fun i known => ?_⟩, fun id grace identity => ?_,
    fun rev denied => ⟨fun table => ?_, fun other => ?_⟩, fun rev => State.commitBay_unheld rev, fun slots => ?_⟩
  · rw [State.commitBay_held rev held identity, State.reevaluate_unknown unknown held]
  · intro e
    refine ⟨fun r fails => ?_, fun passes k key => ?_⟩
    · rw [State.commitBay_held rev held identity, State.reevaluate_failing known fails held]
    · rw [State.commitBay_held rev held identity, State.reevaluate_passing known passes key held]
  · exact ⟨State.commitBay_grace grace identity (.inl rfl),
      fun clear => State.commitBay_grace grace identity (.inr clear),
      State.commitBay_covered grace identity⟩
  · rw [State.commitBay_denied rev denied, if_pos ((DenyReason.any_isTable_iff _).mpr table)]
  · rw [State.commitBay_denied rev denied, if_neg (mt (DenyReason.any_isTable_iff _).mp other)]
  · intro acts
    rw [State.keyLoadBay_eq]
    exact ⟨fun h => if_pos h, fun h => if_neg h⟩
end

