-- ==== Sys2Proof/Proofs/ToolLine.lean ====
section
/-! PROOF. What the receive assembler makes of its characters, where a frame goes, and the events of the tool line. -/

namespace Sys2Proof.Machine

open Sys2Proof.Claims

/-! ## The judgement of the characters (R193) -/

theorem parseTool_start {start : Byte} (rest : List Byte) (h : start ≠ 0x5A) :
    parseTool (start :: rest) = .framingError := by
  unfold parseTool
  exact if_pos h

theorem parseTool_short {rest : List Byte} (short : rest.length < 6) : parseTool (0x5A :: rest) = .incomplete := by
  unfold parseTool
  dsimp only
  rw [if_neg (by simp)]
  split
  · simp only [List.length_cons] at short
    omega
  · rfl

section
variable (ks tid code st flags len : Byte)

theorem parseTool_header (rest : List Byte) :
    parseTool (0x5A :: ks :: tid :: code :: st :: flags :: len :: rest) =
      if 48 < len.toNat then .framingError
      else if rest.length < len.toNat + 2 then .incomplete
      else if (crc16 (ks :: tid :: code :: st :: flags :: len :: rest.take len.toNat)).toNat =
          natBE ((rest.drop len.toNat).take 2) then
        .complete ks tid code flags (rest.take len.toNat) (rest.drop (len.toNat + 2))
      else .crcError (rest.drop (len.toNat + 2)) := by
  have body : (ks :: tid :: code :: st :: flags :: len :: rest).take (6 + len.toNat) =
      ks :: tid :: code :: st :: flags :: len :: rest.take len.toNat := by
    rw [Nat.add_comm]
    rfl
  rw [parseTool, if_neg (by simp)]
  simp only [body]

/-- Two bytes spell a 16-bit word. -/
theorem toNat_eq_natBE_iff (w : Word16) (c0 c1 : Byte) : w.toNat = natBE [c0, c1] ↔ w = c0 ++ c1 := by
  have spelled : natBE [c0, c1] = (c0 ++ c1).toNat := by
    rw [BitVec.toNat_append, ← Nat.shiftLeft_add_eq_or_of_lt c1.isLt]
    simp [natBE, Nat.shiftLeft_eq]
  rw [spelled, ← BitVec.toNat_eq]

theorem parseTool_whole {payload : List Byte} (after : List Byte) (c0 c1 : Byte) (fits : len.toNat ≤ 48)
    (long : payload.length = len.toNat) :
    parseTool (0x5A :: ks :: tid :: code :: st :: flags :: len :: (payload ++ c0 :: c1 :: after)) =
      if crc16 (ks :: tid :: code :: st :: flags :: len :: payload) = c0 ++ c1 then
        .complete ks tid code flags payload after
      else .crcError after := by
  have taken : (payload ++ c0 :: c1 :: after).take len.toNat = payload := by rw [← long, List.take_left]
  have crc : ((payload ++ c0 :: c1 :: after).drop len.toNat).take 2 = [c0, c1] := by
    rw [← long, List.drop_left]; rfl
  have rest : (payload ++ c0 :: c1 :: after).drop (len.toNat + 2) = after := by
    rw [← long, ← List.drop_drop, List.drop_left]; rfl
  have complete : ¬ (payload ++ c0 :: c1 :: after).length < len.toNat + 2 := by
    simp only [List.length_append, List.length_cons]
    omega
  rw [parseTool_header, if_neg (Nat.not_lt.mpr fits), if_neg complete, taken, crc, rest]
  simp only [toNat_eq_natBE_iff]

end

theorem toolCharactersAreJudged : ToolCharactersAreJudged := by
  refine ⟨rfl, fun start rest => parseTool_start rest, fun rest => parseTool_short,
    fun ks tid code st flags len rest => ?_⟩
  intro n whole
  refine ⟨fun long => ?_, fun fits short => ?_, fun fits payload after c0 c1 long split => ?_⟩
  · exact (parseTool_header ks tid code st flags len rest).trans (if_pos long)
  · exact (parseTool_header ks tid code st flags len rest).trans
      ((if_neg (Nat.not_lt.mpr fits)).trans (if_pos short))
  · subst split
    have judged := parseTool_whole ks tid code st flags len after c0 c1 fits long
    exact ⟨fun good => judged.trans (if_pos good), fun bad => judged.trans (if_neg bad)⟩

/-! ## Where a frame goes (R194, R195) -/

section
variable {s : State} {ks tid code flags : Byte} {payload : List Byte}

theorem State.route_noRequest (kind : kindField ks ≠ 0) :
    s.route ks tid code flags payload = lineFaulted s s.tli.rx := by
  rw [State.route, if_pos kind]
  rfl

theorem State.route_gate (kind : kindField ks = 0) (selector : selectorField ks = 7) :
    s.route ks tid code flags payload = s.enqueue ⟨tid, code, payload⟩ := by
  have none : fourNumber (selectorField ks).toNat = none := by rw [selector]; rfl
  rw [State.route, if_neg (not_not.mpr kind), none]
  exact if_pos selector

theorem State.route_unknown (kind : kindField ks = 0) (above : 4 ≤ (selectorField ks).toNat)
    (other : selectorField ks ≠ 7) :
    s.route ks tid code flags payload =
      s.answer [⟨selectorField ks, tid, code, .unknownSelector, RespFlags.none, []⟩] := by
  have none : fourNumber (selectorField ks).toNat = none := dif_neg (Nat.not_lt.mpr above)
  rw [State.route, if_neg (not_not.mpr kind), none]
  exact if_neg other

theorem State.enqueue_room {r : GateRequest} (room : s.me.queue.length < 4) :
    s.enqueue r = { s with me.queue := s.me.queue ++ [r] } := if_pos room

theorem State.enqueue_full {r : GateRequest} (full : 4 ≤ s.me.queue.length) :
    s.enqueue r = s.answer [rejected s r.tid r.code .queueFull] := if_neg (Nat.not_lt.mpr full)

end

theorem toolFramesAreRouted : ToolFramesAreRouted := by
  refine ⟨fun s v bytes ks tid code flags payload heard => ?_, fun s bytes chars live awake assembling =>
    ⟨fun rest parsed => ?_, fun parsed => ?_, fun parsed => ?_⟩⟩
  · intro ends
    have runs (u : State) (routed : v.route ks tid code flags payload = u) : ends u := by
      rw [← routed]
      exact exec_toolFrame_heard heard
    obtain ⟨_, _, chars, rest, _, _, hears⟩ := heard
    refine ⟨fun kind => runs _ (State.route_noRequest kind), fun kind selector => ⟨fun room => ?_, fun full => ?_⟩,
      fun kind above other => runs _ (State.route_unknown kind above other)⟩
    · refine runs _ ((State.route_gate kind selector).trans ?_)
      subst hears
      exact State.enqueue_room room
    · refine runs _ ((State.route_gate kind selector).trans ?_)
      subst hears
      exact State.enqueue_full full
  · rw [exec_toolFrame_awake bytes live awake assembling, State.receive, parsed]
    rfl
  · rw [exec_toolFrame_awake bytes live awake assembling, State.receive, parsed]
    rfl
  · rw [exec_toolFrame_awake bytes live awake assembling, State.receive, parsed]
    rfl

/-! ## Other events of the line (R193, R198, R208, R209) -/

section
variable {s : State}

theorem State.asleep_iff : s.asleep = true ↔ s.pw.power = .running ∧ s.pw.dormant = true := by
  simp [State.asleep, State.isRunning]

theorem exec_toolFramingError_awake {chars : List Byte} (live : s.live = true) (awake : s.pw.dormant = false)
    (assembling : s.tli.rx = .assembling chars) :
    exec .toolFramingError s = .next (lineFaulted s .discarding).settleTx := by
  have hears : s.hears = true := by simp [State.hears, live, awake]
  have notAsleep : ¬ s.asleep = true := by simp [State.asleep_iff, awake]
  simp only [exec, execToolFramingError, if_neg notAsleep, assembling, taken, if_pos hears]
  rfl

theorem exec_toolRxGapExpiry_assembling {chars : List Byte} (live : s.live = true)
    (assembling : s.tli.rx = .assembling chars) :
    exec .toolRxGapExpiry s = .next (lineFaulted s (.assembling [])).settleTx := by
  simp only [exec, execToolRxGapExpiry, assembling, taken, if_pos live]
  rfl

theorem exec_toolRxIdleResync_discarding (live : s.live = true) (discarding : s.tli.rx = .discarding) :
    exec .toolRxIdleResync s = .next { s with tli.rx := .assembling [] } := by
  simp only [exec, execToolRxIdleResync, discarding, if_pos live]
  rfl

theorem exec_toolRxGapExpiry_discarding (discarding : s.tli.rx = .discarding) : exec .toolRxGapExpiry s = .next s := by
  simp only [exec, execToolRxGapExpiry, discarding]
  rfl

theorem exec_toolFramingError_discarding (awake : s.pw.dormant = false) (discarding : s.tli.rx = .discarding) :
    exec .toolFramingError s = .next s := by
  have notAsleep : ¬ s.asleep = true := by simp [State.asleep_iff, awake]
  simp only [exec, execToolFramingError, if_neg notAsleep, discarding]
  rfl

theorem exec_toolFrame_discarding (awake : s.pw.dormant = false) (discarding : s.tli.rx = .discarding)
    (bytes : List Byte) : exec (.toolFrame bytes) s = .next s := by
  have notAsleep : ¬ s.asleep = true := by simp [State.asleep_iff, awake]
  simp only [exec, execToolFrame, if_neg notAsleep, discarding]
  rfl

theorem exec_startBits_asleep (asleep : s.asleep = true) :
    exec .toolFramingError s = exec .rxdWake s ∧ ∀ bytes, exec (.toolFrame bytes) s = exec .rxdWake s := by
  simp only [exec, execToolFramingError, execToolFrame, execRxdWake, taken, if_pos asleep, implies_true, and_self]

theorem exec_frameSent_sending (sending : s.tli.tx ≠ none) :
    exec .frameSent s = .next (({ s with tli.tx := none } : State).transmit) := by
  obtain ⟨f, frame⟩ := Option.ne_none_iff_exists'.mp sending
  simp only [exec, execFrameSent, frame]

end

end Sys2Proof.Machine

open Sys2Proof Sys2Proof.Machine Sys2Proof.Claims

/-- Settles O42: the judgement of the characters, and the route of a frame by kind and selector. -/
theorem toolFramesAreJudgedAndRouted : Obligations.ToolFramesAreJudgedAndRouted :=
  ⟨toolCharactersAreJudged, toolFramesAreRouted⟩

/-- Settles O43: by the state of the receive assembler, and by dormancy. -/
theorem toolLineEventsAreTaken : Obligations.ToolLineEventsAreTaken :=
  ⟨fun _ _ live assembling => ⟨fun awake => exec_toolFramingError_awake live awake assembling,
      exec_toolRxGapExpiry_assembling live assembling⟩,
    fun _ live discarding => ⟨exec_toolRxIdleResync_discarding live discarding,
      exec_toolRxGapExpiry_discarding discarding, fun awake => ⟨exec_toolFramingError_discarding awake discarding,
        exec_toolFrame_discarding awake discarding⟩⟩,
    fun _ running dormant => exec_startBits_asleep (State.asleep_iff.mpr ⟨running, dormant⟩),
    fun _ sending => exec_frameSent_sending sending⟩
end

