-- ==== Sys2Proof/Proofs/DormantEntry.lean ====
section
/-! PROOF. DORMANT: the load is aborted, the waiting requests and every bay outside LOCKOUT are dropped with their
answers, and the strings are derived with the dormant hold. -/

namespace Sys2Proof.Machine

open Sys2Proof.Claims

section
variable {s : State} {b : Fin 4}

/-! ## A bay at dormant entry (R8) -/

/-- The bay is in LOCKOUT, where dormant entry leaves it. -/
def lockedOut (s : State) (b : Fin 4) : Bool := decide ((s.bay b).state = .lockout)

/-- The bay leaves a state other than EMPTY at dormant entry. -/
def leavesState (s : State) (b : Fin 4) : Bool := !lockedOut s b && !decide ((s.bay b).state = .empty)

/-- A state with one bay dropped at dormant entry. -/
def dormantDropped (s : State) (b : Fin 4) : State :=
  ({ s with
    bays := s.bays.set b (if lockedOut s b then s.bay b else (s.bay b).toEmpty)
    de := if lockedOut s b then s.de else s.de.withdraw (.bay b)
    tli.notices.bays := s.tli.notices.bays.set b (s.tli.notices.bays.get b || leavesState s b) } : State).answer
    (if lockedOut s b then [] else flushed s b .cancelled)

theorem State.dormantBay_eq : s.dormantBay b = dormantDropped s b := by
  by_cases locked : (s.bay b).state = .lockout
  · have stays : lockedOut s b = true := by simpa [lockedOut] using locked
    rw [State.dormantBay, if_pos locked]
    simp [dormantDropped, leavesState, stays, State.bay, State.answer]
  · have drops : lockedOut s b = false := by simpa [lockedOut] using locked
    rw [State.dormantBay, if_neg locked, State.emptyBay_eq]
    by_cases empty : (s.bay b).state = .empty
    · simp [dormantDropped, leavesState, drops, empty, State.answer, State.setBay]
    · simp [dormantDropped, leavesState, drops, empty, State.answer, State.setBay, State.raiseBay]

/-- Every bay outside LOCKOUT is dropped (R8). -/
def baysDropped (s : State) : State :=
  ({ s with
    bays := Four.ofFn (fun b => if lockedOut s b then s.bay b else (s.bay b).toEmpty)
    de := ([0, 1, 2, 3] : List (Fin 4)).foldl (fun d b => if lockedOut s b then d else d.withdraw (.bay b)) s.de
    tli.notices.bays := Four.ofFn (fun b => s.tli.notices.bays.get b || leavesState s b) } : State).answer
    (([0, 1, 2, 3] : List (Fin 4)).flatMap (fun b => if lockedOut s b then [] else flushed s b .cancelled))

theorem State.foldl_dormantBay : Four.indices.foldl State.dormantBay s = baysDropped s := by
  simp only [Four.indices, List.foldl_cons, List.foldl_nil, State.dormantBay_eq, baysDropped, List.flatMap_cons,
    List.flatMap_nil, List.append_nil]
  simp only [dormantDropped, State.answer, List.append_assoc]
  rfl

/-! ## Dormant entry (R191, R195, R208) -/

theorem exec_dormant {r : GateRequest} {rest : List GateRequest} (asked : asks s 0x06 r rest) :
    exec .dormant s = .next ((without s rest).dormantRequest r).transmit := by
  obtain ⟨running, awake, free, queued, ofCode⟩ := asked
  have next : s.nextRequest = some r := by
    simp [State.nextRequest, State.meReady, State.awake, State.isRunning, running, awake, free, queued]
  have popped : s.popRequest = without s rest := by simp only [State.popRequest, without, queued, List.tail_cons]
  simp only [exec, execDormant, next, if_pos ofCode, popped]

theorem State.storeBusy_iff : s.storeBusy = true ↔ storing s := by
  unfold State.storeBusy storing
  cases load : s.il.load <;> simp [Option.isSome_iff_ne_none]

/-- A load that has ended, its CHECK_IMAGE job withdrawn (R190). -/
theorem State.endLoad_withdrawn (l : Load) (o : LoadOutcome) (st : Status) (payload : List Byte) :
    s.endLoad l o st payload =
      loadEnded (if l.stage = .checking then { s with de := s.de.withdraw .management } else s) l o st payload := rfl

/-- A load in LOADING or CHECKING is aborted (R191). -/
def loadAborted (s : State) : State :=
  match s.il.load with
  | none => s
  | some l =>
    loadEnded (if l.stage = .checking then { s with de := s.de.withdraw .management } else s) l .aborted .cancelled []

theorem State.abortLoad_eq : s.abortLoad = loadAborted s := by
  cases load : s.il.load with
  | none => simp only [State.abortLoad, loadAborted, load]
  | some l => simp only [State.abortLoad, loadAborted, load, State.endLoad_withdrawn]

theorem loadAborted_frame :
    (loadAborted s).bays = s.bays ∧ (loadAborted s).ts = s.ts ∧ (loadAborted s).pw = s.pw ∧
      (loadAborted s).tli.notices.bays = s.tli.notices.bays ∧ (loadAborted s).me = s.me := by
  unfold loadAborted
  split
  · exact ⟨rfl, rfl, rfl, rfl, rfl⟩
  · unfold loadEnded
    split <;> exact ⟨rfl, rfl, rfl, rfl, rfl⟩

/-- The gate as it falls asleep behind the abort of its load: the answers in their order, every bay outside LOCKOUT
dropped. -/
def sleeping (s v : State) (r : GateRequest) (rest : List GateRequest) : State :=
  ({ v with
    me.queue := []
    bays := Four.ofFn (fun b => if lockedOut s b then s.bay b else (s.bay b).toEmpty)
    de := ([0, 1, 2, 3] : List (Fin 4)).foldl (fun d b => if lockedOut s b then d else d.withdraw (.bay b)) v.de
    tli.notices := { v.tli.notices with
      bays := Four.ofFn (fun b =>
        s.tli.notices.bays.get b || (!lockedOut s b && !decide ((s.bay b).state = .empty))) }
    pw := { s.pw with dormant := true, detSample := ⟨none, none, none, none⟩ } } : State).answer
    ([⟨7, r.tid, r.code, .ok, RespFlags.none, []⟩] ++
      (rest.map (fun q => rejected s q.tid q.code .cancelled) ++
        ([0, 1, 2, 3] : List (Fin 4)).flatMap (fun b => if lockedOut s b then [] else flushed s b .cancelled)))

theorem State.fallAsleep_eq {v : State} {rest : List GateRequest} (r : GateRequest) (bays : v.bays = s.bays)
    (tables : v.ts = s.ts) (power : v.pw = s.pw) (notices : v.tli.notices.bays = s.tli.notices.bays)
    (queue : v.me.queue = rest) :
    (baysDropped (v.refuse r .ok).cancelQueue).fallAsleep = sleeping s v r rest := by
  simp only [sleeping, lockedOut, State.bay, flushed, rejected, ← bays, ← tables, ← power, ← notices, ← queue]
  simp only [State.answer, ← List.append_assoc]
  rfl

end

end Sys2Proof.Machine

open Sys2Proof Sys2Proof.Machine Sys2Proof.Claims

/-- Settles O46: the load is aborted, then every bay outside LOCKOUT is dropped. -/
theorem dormantEntryDropsEveryBay : Obligations.DormantEntryDropsEveryBay := by
  intro s r rest asked
  have awake (st : Status) : (replied (without s rest) r st []).settleTx =
      (replied (without s rest) r st []).transmit :=
    State.settleTx_awake asked.2.1
  have runs := exec_dormant asked
  refine ⟨fun malformed => ?_, fun empty busy => ?_, fun empty inactive free => ?_⟩
  · rw [refuses, runs, State.dormantRequest, if_pos malformed, awake]
    rfl
  · have held : ((without s rest).sc.runFiltered || (without s rest).storeBusy) = true := by
      rw [Bool.or_eq_true]
      exact busy.imp_right State.storeBusy_iff.mpr
    rw [refuses, runs, State.dormantRequest, if_neg (not_not.mpr empty), if_pos held, awake]
    rfl
  · intro u v locked emptied w
    have clear : ¬ (u.sc.runFiltered || u.storeBusy) = true := by
      rw [Bool.or_eq_true, not_or]
      exact ⟨by simp [u, without, inactive], mt State.storeBusy_iff.mp free⟩
    obtain ⟨bays, tables, power, notices, engine⟩ := loadAborted_frame (s := u)
    have asleep : (baysDropped (u.abortLoad.refuse r .ok).cancelQueue).fallAsleep =
        sleeping s (loadAborted u) r rest := by
      rw [State.abortLoad_eq]
      exact State.fallAsleep_eq r bays tables power notices (by rw [engine]; rfl)
    rw [runs, State.dormantRequest, if_neg (not_not.mpr empty), if_neg clear, State.enterDormant_eq, State.readyToSleep,
      State.foldl_dormantBay, asleep]
    rfl
end

