-- ==== Sys2Proof/Proofs/GateReset.lean ====
section
/-! PROOF. GATE_RESET: what is cleared, what is answered, and the bays that settle. -/

namespace Sys2Proof.Machine

open Sys2Proof.Claims

section
variable {s : State}

/-! ## The bays after the reset (R2, R211) -/

/-- A bay after GATE_RESET, by its DET input. -/
def bayAfterGateReset (s : State) (det : Four Bool) (b : Fin 4) : Bay :=
  if det.get b then settling (Bay.afterReset true) s.cfg.settle (s.pins.lineDominant.get b) else Bay.afterReset false

theorem State.settledBay_afterReset {b : Fin 4} {present : Bool} (bay : s.bay b = Bay.afterReset present) :
    s.settledBay b =
        (if present then settling (Bay.afterReset true) s.cfg.settle (s.pins.lineDominant.get b)
          else Bay.afterReset false) ∧
      s.settles b = present := by
  rw [State.settledBay, State.settles, bay]
  cases present <;> exact ⟨rfl, rfl⟩

/-- Every bay of which the DET input is active settles, and raises its source. -/
theorem State.settleAll_afterReset {det : Four Bool} (bays : s.bays = det.map Bay.afterReset)
    (quiet : s.tli.notices.bays = Four.fill false) :
    s.settleAll = { s with bays := Four.ofFn (bayAfterGateReset s det), tli.notices.bays := det } := by
  have settled (b : Fin 4) := State.settledBay_afterReset (s := s) (b := b) (present := det.get b)
    (by rw [State.bay, bays, Four.get_map])
  have moved : s.settledBay = bayAfterGateReset s det := funext fun b => (settled b).1
  have settles : s.settles = det.get := funext fun b => (settled b).2
  rw [State.settleAll_eq, moved, settles]
  simp only [quiet, Four.get_fill, Bool.false_or]
  rfl

/-! ## The reset event (R211) -/

/-- The answer to an IMAGE_END that the reset cancels. -/
def imageEndCancelled (s : State) : List Response :=
  match s.il.load with
  | some l =>
    (match l.endTid with
      | some tid => [⟨7, tid, 0x3A, .cancelled, RespFlags.none, []⟩]
      | none => [])
  | none => []

theorem imageEndCancelled_eq :
    (match s.il.load with
      | some l => l.endResponse .cancelled []
      | none => []) = imageEndCancelled s := by
  unfold imageEndCancelled
  cases s.il.load <;> rfl

/-- The answers of the reset event, in their order. -/
theorem State.resetAnswers_eq (tid : Byte) :
    s.resetAnswers tid =
      ([0, 1, 2, 3] : List (Fin 4)).flatMap (fun b => flushed s b .cancelled) ++ (imageEndCancelled s ++
        (s.me.queue.map (fun q => rejected s q.tid q.code .cancelled) ++
          [⟨7, tid, 0x07, .ok, RespFlags.none, []⟩])) := by
  rw [← imageEndCancelled_eq]
  rfl

theorem State.gateReset_eq (tid : Byte) (det : Four Bool) :
    s.gateReset tid det =
      ({ s with
        bays := Four.ofFn (bayAfterGateReset s det)
        de := DigestEngine.afterReset
        cache := []
        ff.capture := []
        il := ⟨none, none⟩
        sc := s.sc.gateReset
        me := ⟨[], none, none⟩
        tli := { s.tli with notices := ⟨det, true, true⟩, woke := false }
        pw.detSample := Four.fill none } : State).answer (s.resetAnswers tid) :=
  State.settleAll_afterReset (s := (s.gateCleared det).answer (s.resetAnswers tid)) rfl rfl

theorem State.loadStage_committing_iff :
    s.loadStage = some .committing ↔ ∃ l, s.il.load = some l ∧ l.stage = .committing := by
  simp [State.loadStage]

end

end Sys2Proof.Machine

open Sys2Proof Sys2Proof.Machine Sys2Proof.Claims

/-- Settles O47: held behind a load in COMMITTING, and otherwise `gateReset_eq`. -/
theorem gateResetClearsTheOperation : Obligations.GateResetClearsTheOperation := by
  intro s r rest det asked
  refine ⟨fun malformed => ?_, fun empty l load committing => ?_, fun empty free => ?_⟩
  · exact takeRequest_asked asked (if_pos malformed)
  · have held : ({ without s rest with pins.det := det } : State).loadStage = some .committing :=
      State.loadStage_committing_iff.mpr ⟨l, load, committing⟩
    refine takeRequest_asked asked ?_
    rw [State.gateResetRequest, if_neg (not_not.mpr empty)]
    exact if_pos held
  · intro held bay
    have unheld : ¬ ({ without s rest with pins.det := det } : State).loadStage = some .committing := by
      rw [State.loadStage_committing_iff]
      rintro ⟨l, load, committing⟩
      exact free l load committing
    refine takeRequest_asked asked ?_
    rw [State.gateResetRequest, if_neg (not_not.mpr empty)]
    refine (if_neg unheld).trans ?_
    rw [State.gateReset_eq, State.resetAnswers_eq]
    rfl
end

