-- ==== Sys2Proof/Proofs/BayAndKeyRequests.lean ====
section
/-! PROOF. BAY_QUERY and BAY_RETRY; KEY_LOAD, KEY_CHECK and MODEL_GET. -/

namespace Sys2Proof.Machine

open Sys2Proof.Claims

/-! ## The report of a bay (R28, 12.4) -/

theorem byteOf_toNat (x : Byte) : byteOf x.toNat = x := BitVec.ofNat_toNat 8 x

/-- The identity fields of a bay's report. -/
def identityReport : Option Identity → List Byte
  | none => [0, 0, 0, 0, 0, 0, 0, 0, 0, 0, 0, 0]
  | some id =>
    [if id.index = none then 1 else 3] ++ bytesBE 6 id.serial.toNat ++ bytesBE 2 id.code.toNat ++
      bytesBE 2 id.firmware.toNat ++
      [match id.index with
        | some i => BitVec.ofNat 8 i.val
        | none => 0]

theorem identityBytes_eq (id : Option Identity) : identityBytes id = identityReport id := by
  cases id with
  | none => rfl
  | some id => cases index : id.index <;> simp only [identityBytes, identityReport, index] <;> rfl

theorem Bay.report_eq (x : Bay) :
    x.report = [x.state.byte, reasonByte x.reason, if x.present then 1 else 0] ++ identityReport x.identity ++
      [phaseByte x.phase, x.claim.byte, byteOf x.strikes, if x.clean then 1 else 0, byteOf x.attempts,
        match x.session with
        | some t => t.number
        | none => 0,
        byteOf x.queue.length, x.line.byte] := by
  rw [Bay.report, identityBytes_eq]
  cases x.session <;> rfl

/-! ## BAY_RETRY (R29) -/

section
variable {s : State} {r : GateRequest}

theorem State.retryBay_eq {b : Fin 4} (denied : (s.bay b).state = .denied) :
    s.retryBay b =
      (identified (s.setBay b { s.bay b with attempts := 0, reattempt := none }) b).arbitrate b := by
  have other : ((s.setBay b { s.bay b with attempts := 0, reattempt := none }).bay b).state ≠ .identifying := by
    simp [denied]
  rw [State.retryBay, State.enterIdentifying_eq other]

theorem State.bayRetry_named {b : Fin 4} (given : r.payload = [BitVec.ofNat 8 b.val]) :
    State.bayRetry r s =
      if (s.bay b).state = .denied then ((s.retryBay b).derive false).reply r .ok [] else s.refuse r .wrongState := by
  simp only [State.bayRetry, given, oneNumber_ofNat]

/-! ## KEY_LOAD (R34) -/

theorem keyLoad_fields {slot : Byte} {key : List Byte} (given : r.payload = slot :: key) (long : key.length = 16) :
    byteField r.payload 0 = slot.toNat ∧ field r.payload 1 16 = natBE key ∧ r.payload.length = 17 := by
  have number : field (slot :: key) 1 16 = natBE key := by simp [field, ← long]
  rw [given, byteField_cons_zero, number, List.length_cons, long]
  exact ⟨rfl, rfl, rfl⟩

theorem toNat_eq_zero_iff (x : Byte) : x.toNat = 0 ↔ x = 0 := BitVec.toNat_inj (x := x) (y := 0)

theorem State.keyLoadRefusal_eq {slot : Byte} {key : List Byte} (given : r.payload = slot :: key)
    (long : key.length = 16) (range : slot.toNat ≤ 7) :
    s.keyLoadRefusal r =
      if s.pw.provision = false then some .locked
      else if s.storeBusy then some .busy
      else if slot = 0 ∧ s.loadStage = some .checking then some .busy
      else none := by
  obtain ⟨number, _, length⟩ := keyLoad_fields given long
  rw [State.keyLoadRefusal, number, length, if_neg (by omega)]
  simp only [toNat_eq_zero_iff]

theorem State.keyLoad_refused {st : Status} (h : s.keyLoadRefusal r = some st) : State.keyLoad r s = s.refuse r st := by
  simp only [State.keyLoad, h]

theorem State.keyLoad_taken {slot : Byte} {key : List Byte} (h : s.keyLoadRefusal r = none)
    (given : r.payload = slot :: key) (long : key.length = 16) :
    State.keyLoad r s =
      { s with
        me.inHand := some (.keyLoad r.tid)
        ts.write := some (.keyLoad slot.toNat
          (s.ts.keys.set slot.toNat (some (BitVec.ofNat 128 (natBE key))))) } := by
  obtain ⟨number, spelled, _⟩ := keyLoad_fields given long
  simp only [State.keyLoad, h, number, spelled]
  rfl

theorem State.loadStage_checking_iff :
    s.loadStage = some .checking ↔ ∃ l, s.il.load = some l ∧ l.stage = .checking := by
  simp [State.loadStage]

/-! ## KEY_CHECK (R37) -/

theorem DigestEngine.outstanding_management_iff (de : DigestEngine) :
    de.outstanding .management = true ↔
      (∃ j, de.running = some j ∧ j.claimant = .management) ∨ de.waiting.management ≠ none ∨
        de.held.management ≠ none := by
  cases running : de.running <;>
    simp [DigestEngine.outstanding, DigestEngine.runs, running, JobPlaces.get, Option.isSome_iff_ne_none, or_assoc]

theorem State.keyCheckRefusal_eq {slot : Byte} (given : r.payload = [slot]) (range : slot.toNat ≤ 7) :
    s.keyCheckRefusal r =
      if (s.ts.keys.slot slot.toNat).isNone then some .noKey
      else if s.de.outstanding .management then some .busy
      else none := by
  rw [State.keyCheckRefusal, given, byteField_cons_zero, if_neg (by simp; omega)]

theorem State.keyCheck_refused {st : Status} (h : s.keyCheckRefusal r = some st) :
    State.keyCheck r s = s.refuse r st := by
  simp only [State.keyCheck, h]

theorem State.keyCheck_taken {slot : Byte} (h : s.keyCheckRefusal r = none) (given : r.payload = [slot]) :
    State.keyCheck r s =
      ({ s with me.inHand := some (.keyCheck r.tid) } : State).submit .management (.keyCheck slot.toNat) := by
  simp only [State.keyCheck, h, given, byteField_cons_zero]
  rfl

/-! ## MODEL_GET (R58) -/

theorem State.modelGet_named {i : Byte} (given : r.payload = [i]) (range : i.toNat ≤ 31) :
    State.modelGet r s =
      if (s.ts.model.entry i.toNat).code = 0 then s.reply r .notFound (bytesBE 2 s.ts.model.gen.toNat)
      else s.reply r .ok (i :: ((s.ts.model.entry i.toNat).bytes ++ bytesBE 2 s.ts.model.gen.toNat)) := by
  simp only [State.modelGet, given, byteField_cons_zero, byteOf_toNat, ModelEntry.isEmpty, beq_iff_eq]
  exact if_neg (by simp; omega)

end

end Sys2Proof.Machine

open Sys2Proof Sys2Proof.Machine Sys2Proof.Claims

/-- Settles O48: the report field by field, and the return of a denied bay to IDENTIFYING. -/
theorem baysAreQueriedAndRetried : Obligations.BaysAreQueriedAndRetried := by
  intro s r rest u
  refine ⟨fun asked b given => ?_, fun asked b given => ⟨fun denied => ?_, fun other => ?_⟩⟩
  · intro x identity
    refine takeRequest_asked asked ?_
    have reports : State.bayQuery r u = u.reply r .ok x.report := by
      simp only [State.bayQuery, given, oneNumber_ofNat]
      rfl
    rw [reports, Bay.report_eq]
    rfl
  · refine takeRequest_asked asked ((State.bayRetry_named given).trans ((if_pos denied).trans ?_))
    exact congrArg (fun t : State => (t.derive false).reply r .ok []) (State.retryBay_eq (s := u) denied)
  · exact takeRequest_asked asked ((State.bayRetry_named given).trans (if_neg other))

/-- Settles O49: by the conditions of each request, in their order. -/
theorem keysAndModelsAreServed : Obligations.KeysAndModelsAreServed := by
  intro s r rest u
  refine ⟨fun asked slot key given long range => ?_, fun asked slot given range => ⟨fun empty => ?_, fun loaded => ?_⟩,
    fun asked i given range => ?_⟩
  · intro checks
    have refusal := State.keyLoadRefusal_eq (s := u) given long range
    have checking : u.loadStage = some .checking ↔ checks := State.loadStage_checking_iff
    have storeBusy : u.storeBusy = true ↔ storing s := State.storeBusy_iff
    refine ⟨fun operating => ?_, fun provision busy => ?_, fun provision free root => ?_⟩
    · exact takeRequest_asked asked (State.keyLoad_refused (refusal.trans (if_pos operating)))
    · rw [if_neg (by simp [u, without, provision])] at refusal
      refine takeRequest_asked asked (State.keyLoad_refused (refusal.trans ?_))
      by_cases writing : u.storeBusy = true
      · exact if_pos writing
      · obtain ⟨root, loading⟩ := busy.resolve_left (mt storeBusy.mpr writing)
        exact (if_neg writing).trans (if_pos ⟨root, checking.mpr loading⟩)
    · rw [if_neg (by simp [u, without, provision]), if_neg (mt storeBusy.mp free),
        if_neg (fun ⟨zero, loading⟩ => root ⟨zero, checking.mp loading⟩)] at refusal
      exact takeRequest_asked asked (State.keyLoad_taken refusal given long)
  · have refusal := State.keyCheckRefusal_eq (s := u) given range
    exact takeRequest_asked asked
      (State.keyCheck_refused (refusal.trans (if_pos (Option.isNone_iff_eq_none.mpr empty))))
  · intro busy
    have refusal := State.keyCheckRefusal_eq (s := u) given range
    replace refusal := refusal.trans (if_neg (mt Option.isNone_iff_eq_none.mp loaded))
    have outstanding : u.de.outstanding .management = true ↔ busy := DigestEngine.outstanding_management_iff _
    refine ⟨fun running => ?_, fun free => ?_⟩
    · exact takeRequest_asked asked (State.keyCheck_refused (refusal.trans (if_pos (outstanding.mpr running))))
    · exact takeRequest_asked asked (State.keyCheck_taken (refusal.trans (if_neg (mt outstanding.mp free))) given)
  · intro e gen
    have gets := State.modelGet_named (s := u) given range
    refine ⟨fun empty => ?_, fun filled => ?_⟩
    · exact takeRequest_asked asked (gets.trans (if_pos empty))
    · refine takeRequest_asked asked (gets.trans ((if_neg filled).trans ?_))
      rfl
end

