-- ==== Sys2Proof/Proofs/RevocationRequests.lean ====
section
/-! PROOF. REVOKE_GET, and the conditional edits REVOKE_ADD and REVOKE_DROP. -/

namespace Sys2Proof.Machine

open Sys2Proof.Claims

section
variable {s : State} {r : GateRequest}

/-! ## REVOKE_GET (R68) -/

theorem State.revokeGet_named {i : Byte} (given : r.payload = [i]) (range : i.toNat ≤ 95) :
    State.revokeGet r s =
      match s.ts.revoke.ranges[i.toNat]? with
      | none => s.reply r .notFound s.ts.revoke.tail
      | some x => s.reply r .ok (i :: (bytesBE 6 x.first.toNat ++ bytesBE 6 x.last.toNat ++ s.ts.revoke.tail)) := by
  simp only [State.revokeGet, given, byteField_cons_zero, byteOf_toNat]
  exact if_neg (by simp; omega)

/-! ## The conditions of an edit (R179 to R181) -/

/-- The answer to an edit that is refused: the live generation and count. -/
theorem editPayload_nil (l : RevList) : editPayload l [] = bytesBE 2 l.gen.toNat ++ [byteOf l.ranges.length] := rfl

theorem State.revokeAdd_refused {st : Status} (h : s.revokeAddRefusal r = some st) :
    State.revokeAdd r s =
      replied s r st (bytesBE 2 s.ts.revoke.gen.toNat ++ [byteOf s.ts.revoke.ranges.length]) := by
  simp only [State.revokeAdd, h, editPayload_nil]
  rfl

theorem State.revokeDrop_refused {st : Status} (h : s.revokeDropRefusal r = some st) :
    State.revokeDrop r s =
      replied s r st (bytesBE 2 s.ts.revoke.gen.toNat ++ [byteOf s.ts.revoke.ranges.length]) := by
  simp only [State.revokeDrop, h, editPayload_nil]
  rfl

theorem State.revokeLoading_iff : s.revokeLoading = true ↔ ∃ l, s.il.load = some l ∧ l.target = .revoke := by
  simp [State.revokeLoading, Option.any_eq_true]

theorem Range.overlaps_iff (y x : Range) :
    y.overlaps x = true ↔ y.first.toNat ≤ x.last.toNat ∧ x.first.toNat ≤ y.last.toNat := by
  simp [Range.overlaps]

section
variable {g a z : List Byte} (gTwo : g.length = 2) (aSix : a.length = 6)
include gTwo

theorem wordField_edit : wordField (g ++ (a ++ z)) 0 = BitVec.ofNat 16 (natBE g) := by
  simp [wordField, field, ← gTwo]

include aSix

theorem serialField_edit : serialField (g ++ (a ++ z)) 2 = BitVec.ofNat 48 (natBE a) := by
  simp [serialField, field, ← gTwo, ← aSix]

theorem addRange_edit (zSix : z.length = 6) :
    addRange (g ++ (a ++ z)) = ⟨BitVec.ofNat 48 (natBE a), BitVec.ofNat 48 (natBE z)⟩ := by
  have last : serialField (g ++ (a ++ z)) 8 = BitVec.ofNat 48 (natBE z) := by
    have spelled := field_append (g ++ a) z []
    rw [List.append_nil, List.append_assoc, List.length_append, gTwo, aSix, zSix] at spelled
    rw [serialField, spelled]
  rw [addRange, serialField_edit gTwo aSix, last]

/-- Behind the form of its payload and the generation, REVOKE_ADD looks at the store, the range and the list (R180). -/
theorem State.revokeAddRefusal_current {x : Range} (zSix : z.length = 6) (given : r.payload = g ++ (a ++ z))
    (named : x = ⟨BitVec.ofNat 48 (natBE a), BitVec.ofNat 48 (natBE z)⟩) (current : natBE g = s.ts.revoke.gen.toNat) :
    s.revokeAddRefusal r =
      if s.storeBusy || s.revokeLoading then some .busy
      else if x.last.toNat < x.first.toNat then some .range
      else if s.ts.revoke.ranges.any (fun y => y.overlaps x) then some .overlap
      else if 96 ≤ s.ts.revoke.ranges.length then some .full
      else none := by
  have length : r.payload.length = 14 := by simp [given, gTwo, aSix, zSix]
  have generation : wordField r.payload 0 = s.ts.revoke.gen := by
    rw [given, wordField_edit gTwo, current, BitVec.ofNat_toNat]
    exact BitVec.setWidth_eq _
  have range : addRange r.payload = x := by rw [given, addRange_edit gTwo aSix zSix, named]
  unfold State.revokeAddRefusal
  dsimp only
  rw [if_neg (not_not.mpr length), if_neg (not_not.mpr generation), range]

theorem State.revokeAddRefusal_stale (zSix : z.length = 6) (given : r.payload = g ++ (a ++ z))
    (stale : natBE g ≠ s.ts.revoke.gen.toNat) : s.revokeAddRefusal r = some .stale := by
  have length : r.payload.length = 14 := by simp [given, gTwo, aSix, zSix]
  have generation : wordField r.payload 0 ≠ s.ts.revoke.gen := by
    rw [given, wordField_edit gTwo]
    exact (word_ne_iff gTwo _).mpr stale
  unfold State.revokeAddRefusal
  dsimp only
  rw [if_neg (not_not.mpr length), if_pos generation]

theorem State.revokeDropRefusal_current (given : r.payload = g ++ a)
    (current : natBE g = s.ts.revoke.gen.toNat) :
    s.revokeDropRefusal r =
      if s.storeBusy || s.revokeLoading then some .busy
      else if s.ts.revoke.ranges.any (fun x => x.first == BitVec.ofNat 48 (natBE a)) then none
      else some .notFound := by
  have split : r.payload = g ++ (a ++ []) := by rw [given, List.append_nil]
  have length : r.payload.length = 8 := by simp [given, gTwo, aSix]
  have generation : wordField r.payload 0 = s.ts.revoke.gen := by
    rw [split, wordField_edit gTwo, current, BitVec.ofNat_toNat]
    exact BitVec.setWidth_eq _
  have first : serialField r.payload 2 = BitVec.ofNat 48 (natBE a) := by rw [split, serialField_edit gTwo aSix]
  rw [State.revokeDropRefusal, if_neg (not_not.mpr length), if_neg (not_not.mpr generation), first]

theorem State.revokeDropRefusal_stale (given : r.payload = g ++ a) (stale : natBE g ≠ s.ts.revoke.gen.toNat) :
    s.revokeDropRefusal r = some .stale := by
  have split : r.payload = g ++ (a ++ []) := by rw [given, List.append_nil]
  have length : r.payload.length = 8 := by simp [given, gTwo, aSix]
  have generation : wordField r.payload 0 ≠ s.ts.revoke.gen := by
    rw [split, wordField_edit gTwo]
    exact (word_ne_iff gTwo _).mpr stale
  rw [State.revokeDropRefusal, if_neg (not_not.mpr length), if_pos generation]

end

theorem State.revokeAddRefusal_length (h : r.payload.length ≠ 14) : s.revokeAddRefusal r = some .range := if_pos h

theorem State.revokeDropRefusal_length (h : r.payload.length ≠ 8) : s.revokeDropRefusal r = some .range := if_pos h

/-! ## An edit that none refuses (R180, R181) -/

theorem State.revokeAdd_taken {x : Range} {n : Nat} (h : s.revokeAddRefusal r = none) (named : addRange r.payload = x)
    (index : n = (s.ts.revoke.ranges.filter (fun y => decide (y.first.toNat < x.first.toNat))).length) :
    State.revokeAdd r s =
      { s with
        me.inHand := some (.revokeAdd r.tid n)
        ts.write := some (.revokeEdit
          ⟨s.ts.revoke.ranges.take n ++ [x] ++ s.ts.revoke.ranges.drop n, s.ts.revoke.gen + 1⟩) } := by
  have added : s.ts.revoke.add x =
      ⟨s.ts.revoke.ranges.take n ++ [x] ++ s.ts.revoke.ranges.drop n, s.ts.revoke.gen + 1⟩ := by
    rw [RevList.add, RevList.indexFor, ← index, List.append_assoc]
    rfl
  simp only [State.revokeAdd, h, named, added, RevList.indexFor, ← index]
  rfl

theorem State.revokeDrop_taken {first : Serial} (h : s.revokeDropRefusal r = none)
    (named : serialField r.payload 2 = first) :
    State.revokeDrop r s =
      { s with
        me.inHand := some (.revokeDrop r.tid)
        ts.write := some (.revokeEdit
          ⟨s.ts.revoke.ranges.filter (fun y => decide (y.first ≠ first)), s.ts.revoke.gen + 1⟩) } := by
  have removed : s.ts.revoke.remove first =
      ⟨s.ts.revoke.ranges.filter (fun y => decide (y.first ≠ first)), s.ts.revoke.gen + 1⟩ := by
    rw [RevList.remove]
    congr 2
    funext y
    rw [Bool.eq_iff_iff]
    simp
  simp only [State.revokeDrop, h, named, removed]
  rfl

end

end Sys2Proof.Machine

open Sys2Proof Sys2Proof.Machine Sys2Proof.Claims

/-- Settles O50: each request's conditions in their order. -/
theorem revocationsAreReadAndEdited : Obligations.RevocationsAreReadAndEdited := by
  intro s r rest u list gen count loading edit
  have blocked : (u.storeBusy || u.revokeLoading) = true ↔ storing s ∨ loading := by
    rw [Bool.or_eq_true]
    exact or_congr State.storeBusy_iff State.revokeLoading_iff
  have adds {st : Status} (asked : asks s 0x32 r rest) (h : u.revokeAddRefusal r = some st) : edit .revokeAdd st :=
    takeRequest_asked asked (State.revokeAdd_refused h)
  have drops {st : Status} (asked : asks s 0x33 r rest) (h : u.revokeDropRefusal r = some st) : edit .revokeDrop st :=
    takeRequest_asked asked (State.revokeDrop_refused h)
  refine ⟨fun asked i given range => ?_, fun asked => ⟨fun length => adds asked (State.revokeAddRefusal_length length),
    fun g a z given gTwo aSix zSix => ?_⟩,
    fun asked => ⟨fun length => drops asked (State.revokeDropRefusal_length length),
    fun g a given gTwo aSix => ?_⟩⟩
  · have gets := State.revokeGet_named (s := u) given range
    refine ⟨fun beyond => ?_, fun x here => ?_⟩
    · have none : u.ts.revoke.ranges[i.toNat]? = none := List.getElem?_eq_none beyond
      rw [none] at gets
      exact takeRequest_asked asked gets
    · have some : u.ts.revoke.ranges[i.toNat]? = some x := here
      rw [some] at gets
      refine takeRequest_asked asked (gets.trans ?_)
      simp only [List.append_assoc]
      rfl
  · intro x overlap
    refine ⟨fun stale => adds asked (State.revokeAddRefusal_stale gTwo aSix zSix given stale), fun current => ?_⟩
    have refusal := State.revokeAddRefusal_current (s := u) (x := x) gTwo aSix zSix given rfl current
    have overlapping : u.ts.revoke.ranges.any (fun y => y.overlaps x) = true ↔ overlap := by
      simp only [List.any_eq_true, Range.overlaps_iff]
      rfl
    refine ⟨fun busy => adds asked (refusal.trans (if_pos (blocked.mpr busy))), fun free unloaded => ?_⟩
    rw [if_neg (mt blocked.mp (not_or.mpr ⟨free, unloaded⟩))] at refusal
    refine ⟨fun backward => adds asked (refusal.trans (if_pos backward)), fun forward => ?_⟩
    rw [if_neg (Nat.not_lt.mpr forward)] at refusal
    refine ⟨fun overlaps => adds asked (refusal.trans (if_pos (overlapping.mpr overlaps))), fun clear => ?_⟩
    rw [if_neg (mt overlapping.mp clear)] at refusal
    refine ⟨fun full => adds asked (refusal.trans (if_pos full)), fun room => ?_⟩
    intro n
    have named : addRange r.payload = x := by rw [given, addRange_edit gTwo aSix zSix]
    exact takeRequest_asked asked
      (State.revokeAdd_taken (n := n) (refusal.trans (if_neg (Nat.not_le.mpr room))) named rfl)
  · intro first
    refine ⟨fun stale => drops asked (State.revokeDropRefusal_stale gTwo aSix given stale), fun current => ?_⟩
    have refusal := State.revokeDropRefusal_current (s := u) gTwo aSix given current
    have listed : u.ts.revoke.ranges.any (fun y => y.first == BitVec.ofNat 48 (natBE a)) = true ↔
        ∃ y ∈ list.ranges, y.first = first := by
      simp only [List.any_eq_true, beq_iff_eq]
      rfl
    refine ⟨fun busy => drops asked (refusal.trans (if_pos (blocked.mpr busy))), fun free unloaded => ?_⟩
    rw [if_neg (mt blocked.mp (not_or.mpr ⟨free, unloaded⟩))] at refusal
    refine ⟨fun absent => drops asked (refusal.trans (if_neg ?_)), fun y m same => ?_⟩
    · rw [listed]
      rintro ⟨y, m, same⟩
      exact absent y m same
    · have named : serialField r.payload 2 = first := by
        have split : r.payload = g ++ (a ++ []) := by rw [given, List.append_nil]
        rw [split, serialField_edit gTwo aSix]
      exact takeRequest_asked asked
        (State.revokeDrop_taken (refusal.trans (if_pos (listed.mpr ⟨y, m, same⟩))) named)
end

