-- ==== Sys2Proof/Proofs/ArgumentForms.lean ====
section
/-! PROOF. The argument fields of gate requests (12.3, 12.4): which bytes give which values, FILTER_SET, FILTER_GET and
CAPTURE_TAKE, and the refusals of malformed requests. -/

namespace Sys2Proof.Machine

open Sys2Proof.Claims

/-! ## Fields of one byte (12.4, R215) -/

theorem toNat_eq_iff (x : Byte) {n : Nat} (small : n < 256) : x.toNat = n ↔ x = BitVec.ofNat 8 n := by
  rw [← BitVec.toNat_inj, BitVec.toNat_ofNat, Nat.mod_eq_of_lt small]

theorem fourBits_testBits : ∀ n < 16, fourBits ⟨n.testBit 0, n.testBit 1, n.testBit 2, n.testBit 3⟩ =
    BitVec.ofNat 8 n := by
  decide

theorem bitSetField_iff (x : Byte) (f : Four Bool) : bitSetField x.toNat = some f ↔ x = fourBits f := by
  refine ⟨fun read => ?_, fun same => by rw [same, bitSetField_fourBits]⟩
  obtain ⟨small, bits⟩ := Option.ite_none_right_eq_some.mp read
  rw [← Option.some.inj bits, fourBits_testBits _ small, BitVec.ofNat_toNat]
  exact (BitVec.setWidth_eq x).symm

theorem toPackField_iff (x : Byte) (a : ToPackAction) : toPackField x.toNat = some a ↔ x = a.byte := by
  simp only [toPackField, toNat_eq_iff x (by decide : 0 < 256), toNat_eq_iff x (by decide : 1 < 256),
    toNat_eq_iff x (by decide : 2 < 256)]
  refine ⟨fun read => ?_, fun same => by subst same; cases a <;> rfl⟩
  split at read
  · next zero => cases read; exact zero
  · split at read
    · next one => cases read; exact one
    · obtain ⟨two, here⟩ := Option.ite_none_right_eq_some.mp read
      cases here
      exact two

theorem levelField_iff (n : Nat) (l : VerifyLevel) : levelField n = some l ↔ n = l.num := by
  refine ⟨fun read => ?_, fun same => by subst same; cases l <;> rfl⟩
  unfold levelField at read
  split at read
  · next zero => cases read; exact zero
  · split at read
    · next one => cases read; exact one
    · obtain ⟨two, here⟩ := Option.ite_none_right_eq_some.mp read
      cases here
      exact two

theorem dispositionField_iff (n : Nat) (d : Disposition) : dispositionField n = some d ↔ n = d.num := by
  refine ⟨fun read => ?_, fun same => by subst same; cases d <;> rfl⟩
  unfold dispositionField at read
  split at read
  · next zero => cases read; exact zero
  · split at read
    · next one => cases read; exact one
    · obtain ⟨two, here⟩ := Option.ite_none_right_eq_some.mp read
      cases here
      exact two

theorem toToolField_iff (n : Nat) (l : VerifyLevel) (d : Disposition) :
    toToolField n = some (l, d) ↔ n % 4 = l.num ∧ n / 16 % 4 = d.num := by
  rw [← levelField_iff, ← dispositionField_iff]
  cases level : levelField (n % 4) <;> cases disposition : dispositionField (n / 16 % 4) <;>
    simp [toToolField, level, disposition]

theorem assignField_iff (x : Byte) (a : Option (Fin 4)) : assignField x.toNat = some a ↔ x = assignByte a := by
  refine ⟨fun read => ?_, fun same => by rw [same, assignField_assignByte]⟩
  unfold assignField at read
  split at read
  · next absent =>
    cases read
    exact (toNat_eq_iff x (by decide)).mp absent
  · unfold fourNumber at read
    split at read
    · next small =>
      cases read
      exact ((BitVec.ofNat_toNat 8 x).trans (BitVec.setWidth_eq x)).symm
    · cases read

/-! ## A filter entry (R137) -/

section
variable (b0 v m bays action : Byte)

theorem filterField_invalid (even : b0.toNat % 2 = 0) : filterField [b0, v, m, bays, action] = some .invalid := by
  simp only [filterField, byteField_cons_zero, if_pos even]

theorem filterField_unknown (odd : b0.toNat % 2 ≠ 0) (above : 3 < b0.toNat) :
    filterField [b0, v, m, bays, action] = none := by
  simp only [filterField, byteField_cons_zero, if_neg odd, if_pos above]

theorem filterField_valid (odd : b0.toNat % 2 ≠ 0) (known : b0.toNat ≤ 3) (f : FilterEntry) :
    filterField [b0, v, m, bays, action] = some f ↔
      ∃ set, bays = fourBits set ∧
        if b0.toNat = 1 then ∃ a, action = a.byte ∧ f = .toPack v m set a
        else ∃ l d, (action.toNat % 4 = l.num ∧ action.toNat / 16 % 4 = d.num) ∧ f = .toTool v m set l d := by
  simp only [filterField, byteField_cons_zero, byteField_cons_succ, if_neg odd, if_neg (Nat.not_lt.mpr known),
    ← bitSetField_iff]
  cases bitSetField bays.toNat with
  | none => simp
  | some set =>
    simp only [Option.some.injEq, exists_eq_left']
    split
    · simp only [Option.map_eq_some_iff, toPackField_iff]
      simp only [List.getD_cons_succ, List.getD_cons_zero, eq_comm (a := f)]
    · simp only [Option.map_eq_some_iff, Prod.exists, toToolField_iff]
      simp only [List.getD_cons_succ, List.getD_cons_zero, eq_comm (a := f)]

theorem even_iff_getLsbD (x : Byte) : x.toNat % 2 = 0 ↔ x.getLsbD 0 = false := by
  simp [BitVec.getLsbD, Nat.testBit_zero]

/-- With its valid bit clear an entry is invalid, whatever its other bytes. -/
theorem givesEntry_even (even : b0.toNat % 2 = 0) (f : FilterEntry) :
    givesEntry b0 v m bays action f ↔ f = .invalid := by
  cases f with
  | invalid => exact ⟨fun _ => rfl, fun _ => (even_iff_getLsbD b0).mp even⟩
  | toPack w k set a => exact ⟨fun ⟨one, _⟩ => absurd even (by rw [one]; decide), nofun⟩
  | toTool w k set l d => exact ⟨fun ⟨three, _⟩ => absurd even (by rw [three]; decide), nofun⟩

theorem givesEntry_one (one : b0 = 1) (f : FilterEntry) :
    givesEntry b0 v m bays action f ↔
      ∃ set, bays = fourBits set ∧ ∃ a, action = a.byte ∧ f = .toPack v m set a := by
  subst one
  cases f with
  | invalid => simp [givesEntry]
  | toPack w k set a =>
    refine ⟨fun ⟨_, value, mask, members, act⟩ => ⟨set, members, a, act, by rw [value, mask]⟩, ?_⟩
    rintro ⟨_, members, _, act, same⟩
    cases same
    exact ⟨rfl, rfl, rfl, members, act⟩
  | toTool w k set l d => simp [givesEntry]

theorem givesEntry_three (three : b0 = 3) (f : FilterEntry) :
    givesEntry b0 v m bays action f ↔
      ∃ set, bays = fourBits set ∧
        ∃ l d, (action.toNat % 4 = l.num ∧ action.toNat / 16 % 4 = d.num) ∧ f = .toTool v m set l d := by
  subst three
  cases f with
  | invalid => simp [givesEntry]
  | toPack w k set a => simp [givesEntry]
  | toTool w k set l d =>
    refine ⟨fun ⟨_, value, mask, members, level, disposition⟩ =>
      ⟨set, members, l, d, ⟨level, disposition⟩, by rw [value, mask]⟩, ?_⟩
    rintro ⟨_, members, _, _, ⟨level, disposition⟩, same⟩
    cases same
    exact ⟨rfl, rfl, rfl, members, level, disposition⟩

theorem filterField_iff (f : FilterEntry) :
    filterField [b0, v, m, bays, action] = some f ↔ givesEntry b0 v m bays action f := by
  by_cases even : b0.toNat % 2 = 0
  · rw [filterField_invalid b0 v m bays action even, givesEntry_even b0 v m bays action even, Option.some.injEq,
      eq_comm]
  · by_cases above : 3 < b0.toNat
    · rw [filterField_unknown b0 v m bays action even above]
      refine ⟨nofun, fun gives => ?_⟩
      cases f with
      | invalid => exact absurd ((even_iff_getLsbD b0).mpr gives) even
      | toPack w k set a => exact absurd above (by rw [gives.1]; decide)
      | toTool w k set l d => exact absurd above (by rw [gives.1]; decide)
    · rw [filterField_valid b0 v m bays action even (Nat.not_lt.mp above)]
      by_cases first : b0.toNat = 1
      · simp only [if_pos first, givesEntry_one b0 v m bays action ((toNat_eq_iff b0 (by decide)).mp first)]
      · have three : b0 = 3 := (toNat_eq_iff b0 (n := 3) (by decide)).mp (by omega)
        simp only [if_neg first, givesEntry_three b0 v m bays action three]

end

/-! ## FILTER_SET, FILTER_GET and CAPTURE_TAKE (R137, R138, R150) -/

section
variable {s : State} {r : GateRequest}

/-- A FILTER_SET's payload carries an entry for an index. -/
def carriesEntry (payload : List Byte) (i : Fin 16) (f : FilterEntry) : Prop :=
  ∃ b0 v m bays action, payload = [BitVec.ofNat 8 i.val, b0, v, m, bays, action] ∧ givesEntry b0 v m bays action f

theorem toNat_ofNat_small {n : Nat} (small : n < 256) : (BitVec.ofNat 8 n).toNat = n := by
  rw [BitVec.toNat_ofNat, Nat.mod_eq_of_lt small]

theorem State.filterSet_carried {i : Fin 16} {f : FilterEntry} (h : carriesEntry r.payload i f) :
    State.filterSet r s = ({ s with ff.table := s.ff.table.set i.val f } : State).reply r .ok [] := by
  obtain ⟨b0, v, m, bays, action, given, gives⟩ := h
  have small : i.val < 256 := by omega
  have index : byteField r.payload 0 = i.val := by rw [given, byteField_cons_zero, toNat_ofNat_small small]
  have fits : r.payload.length = 6 ∧ i.val ≤ 15 := ⟨by rw [given]; rfl, by omega⟩
  have read : filterField (r.payload.drop 1) = some f := by
    rw [given]
    exact (filterField_iff b0 v m bays action f).mpr gives
  simp only [State.filterSet, index, if_pos fits, read]

theorem exists_six {l : List Byte} (h : l.length = 6) : ∃ a b c d e f, l = [a, b, c, d, e, f] :=
  match l, h with
  | [a, b, c, d, e, f], _ => ⟨a, b, c, d, e, f, rfl⟩

theorem State.filterSet_refused (h : ∀ i f, ¬ carriesEntry r.payload i f) :
    State.filterSet r s = s.refuse r .range := by
  unfold State.filterSet
  dsimp only
  split
  · next fits =>
    obtain ⟨length, range⟩ := fits
    obtain ⟨a, b0, v, m, bays, action, given⟩ := exists_six length
    rw [given, byteField_cons_zero] at range
    have index : a = BitVec.ofNat 8 a.toNat := (toNat_eq_iff a a.isLt).mp rfl
    have unread : filterField (r.payload.drop 1) = none := by
      rw [given]
      refine Option.eq_none_iff_forall_ne_some.mpr fun f read => ?_
      refine h ⟨a.toNat, by omega⟩ f ⟨b0, v, m, bays, action, ?_, (filterField_iff b0 v m bays action f).mp read⟩
      rw [given]
      exact congrArg (· :: [b0, v, m, bays, action]) index
    rw [unread]
  · rfl

theorem State.filterGet_named {i : Fin 16} {f : FilterEntry} (given : r.payload = [BitVec.ofNat 8 i.val])
    (here : s.ff.table[i.val]? = some f) : State.filterGet r s = s.reply r .ok f.bytes := by
  have small : i.val < 256 := by omega
  have index : byteField r.payload 0 = i.val := by rw [given, byteField_cons_zero, toNat_ofNat_small small]
  have fits : r.payload.length = 1 ∧ i.val ≤ 15 := ⟨by rw [given]; rfl, by omega⟩
  have entry : s.ff.table.getD i.val .invalid = f := by rw [List.getD_eq_getElem?_getD, here, Option.getD_some]
  simp only [State.filterGet, index, if_pos fits, entry]

end

/-! ## Malformed requests (R215) -/

section
variable {payload : List Byte} {most : Nat}

theorem length_ne_one_or_above (h : ∀ n : Byte, payload = [n] → most < n.toNat) :
    payload.length ≠ 1 ∨ most < byteField payload 0 := by
  by_cases one : payload.length = 1
  · obtain ⟨n, here⟩ := List.length_eq_one_iff.mp one
    refine .inr ?_
    rw [here, byteField_cons_zero]
    exact h n here
  · exact .inl one

theorem oneNumber_none (h : ∀ n : Byte, payload = [n] → 3 < n.toNat) : oneNumber payload = none := by
  unfold oneNumber
  split
  · next one =>
    have above := (length_ne_one_or_above h).resolve_left (not_not.mpr one)
    exact dif_neg (by omega)
  · rfl

theorem exists_five {l : List Byte} (h : l.length = 5) : ∃ a b c d e, l = [a, b, c, d, e] :=
  match l, h with
  | [a, b, c, d, e], _ => ⟨a, b, c, d, e, rfl⟩

theorem topologyFields_none (h : ∀ assign manual, payload ≠ topologyBytes assign manual) :
    topologyFields payload = none := by
  unfold topologyFields
  split
  · next five =>
    obtain ⟨x0, x1, x2, x3, x4, given⟩ := exists_five five
    subst given
    split
    · next a b c d manual r0 r1 r2 r3 r4 =>
      refine absurd ?_ (h ⟨a, b, c, d⟩ manual)
      simp only [byteField_cons_succ, byteField_cons_zero, assignField_iff, bitSetField_iff] at r0 r1 r2 r3 r4
      rw [r0, r1, r2, r3, r4]
      rfl
    · rfl
  · rfl

end

section
variable {s : State} {r : GateRequest}

theorem State.keyLoadRefusal_form
    (h : r.payload.length = 17 → ∃ slot key, r.payload = slot :: key ∧ 7 < slot.toNat) :
    s.keyLoadRefusal r = some .range := by
  refine if_pos ?_
  by_cases length : r.payload.length = 17
  · obtain ⟨slot, key, given, above⟩ := h length
    exact .inr (by rwa [given, byteField_cons_zero])
  · exact .inl length

/-- The requests that answer malformed arguments, each by its own check. -/
theorem malformed_refuses {c : Instr} {code : Byte} {rest : List GateRequest} (asked : asks s code r rest)
    (h : malformed c code r.payload) : refuses c s r rest .range := by
  have noNumber (bad : ∀ n : Byte, r.payload = [n] → 3 < n.toNat) : oneNumber r.payload = none := oneNumber_none bad
  rcases h with ⟨rfl, rfl, bad⟩ | ⟨rfl, rfl, bad⟩ | ⟨rfl, rfl, bad⟩ | ⟨rfl, rfl, bad⟩ | ⟨rfl, rfl, bad⟩ |
    ⟨rfl, rfl, bad⟩ | ⟨rfl, rfl, bad⟩ | ⟨rfl, rfl, bad⟩ | ⟨rfl, rfl, bad⟩ | ⟨rfl, rfl, bad⟩ | ⟨rfl, rfl, bad⟩ |
    ⟨rfl, rfl, bad⟩ | ⟨rfl, rfl, bad⟩
  · exact takeRequest_asked asked (by rw [State.bayQuery, noNumber bad]; rfl)
  · exact takeRequest_asked asked (by rw [State.bayRetry, noNumber bad]; rfl)
  · exact takeRequest_asked asked (State.keyLoad_refused (State.keyLoadRefusal_form bad))
  · exact takeRequest_asked asked (State.keyCheck_refused (if_pos (length_ne_one_or_above bad)))
  · exact takeRequest_asked asked (if_pos (length_ne_one_or_above bad))
  · exact takeRequest_asked asked (if_pos (length_ne_one_or_above bad))
  · exact takeRequest_asked asked (if_pos bad)
  · refine takeRequest_asked asked (if_neg ?_)
    rintro ⟨one, range⟩
    exact absurd range (Nat.not_le.mpr ((length_ne_one_or_above bad).resolve_left (not_not.mpr one)))
  · exact takeRequest_asked asked (if_pos bad)
  · exact takeRequest_asked asked (by rw [State.topologySet, topologyFields_none bad]; rfl)
  · exact takeRequest_asked asked (if_pos bad)
  · exact takeRequest_asked asked (by rw [State.stringQuery, noNumber bad]; rfl)
  · exact takeRequest_asked asked (by rw [State.stringRelease, noNumber bad]; rfl)

theorem exec_unknownCode {code : Byte} {rest : List GateRequest} (asked : asks s code r rest)
    (unknown : code ∉ requestCodes) : refuses .unknownCode s r rest .unknownCode := by
  obtain ⟨running, awake, free, queued, ofCode⟩ := asked
  have next : s.nextRequest = some r := by
    simp [State.nextRequest, State.meReady, State.awake, State.isRunning, running, awake, free, queued]
  have popped : s.popRequest = without s rest := by simp only [State.popRequest, without, queued, List.tail_cons]
  have noCode : ¬ knownCodes.contains r.code = true := by
    rw [List.contains_iff_mem, ofCode]
    exact unknown
  simp only [refuses, exec, execUnknownCode, next, if_neg noCode, popped]
  rfl

end

end Sys2Proof.Machine

open Sys2Proof Sys2Proof.Machine Sys2Proof.Claims

/-- Settles O52: by the forms of the entry, and by the capture queue. -/
theorem filtersAndCapturesAreServed : Obligations.FiltersAndCapturesAreServed := by
  intro s r rest u set
  refine ⟨fun asked => ?_, fun asked i f given here => takeRequest_asked asked (State.filterGet_named given here),
    fun asked empty => ⟨fun none => ?_, fun e more held => ?_⟩⟩
  · intro carries
    exact ⟨fun i f carried => takeRequest_asked asked (State.filterSet_carried carried),
      fun bad => takeRequest_asked asked (State.filterSet_refused bad)⟩
  · have drained : u.ff.capture = [] := none
    refine takeRequest_asked asked ?_
    rw [State.captureTake, if_neg (not_not.mpr empty), drained]
    rfl
  · have queued : u.ff.capture = e :: more := held
    refine takeRequest_asked asked ?_
    rw [State.captureTake, if_neg (not_not.mpr empty), queued]
    rfl

/-- Settles O54: an unknown code, and the argument checks of the requests. -/
theorem badRequestsAreRefused : Obligations.BadRequestsAreRefused :=
  fun _ _ _ => ⟨fun _ asked unknown => exec_unknownCode asked unknown, fun _ _ asked bad => malformed_refuses asked bad⟩
end

