-- ==== Sys2Proof/Proofs/Encodings.lean ====
section
/-! PROOF. What is encoded reads back: numbers, pack-line and tool-line frames, filter entries and model records. -/

namespace Sys2Proof.Machine

open Sys2Proof.Claims

/-! ## Numbers, most significant byte first (chapter 12) -/

theorem natBE_append (xs ys : List Byte) : natBE (xs ++ ys) = natBE xs * 256 ^ ys.length + natBE ys := by
  induction ys using List.reverseRecOn with
  | nil => simp [natBE]
  | append_singleton ys y ih =>
    rw [← List.append_assoc, natBE_concat, natBE_concat, ih, List.length_append, List.length_singleton, Nat.pow_succ]
    ring

theorem length_bytesBE (n x : Nat) : (bytesBE n x).length = n := by
  induction n with
  | zero => rfl
  | succ n ih => rw [bytesBE, List.length_cons, ih]

theorem natBE_bytesBE (n x : Nat) : natBE (bytesBE n x) = x % 256 ^ n := by
  induction n with
  | zero => rw [Nat.pow_zero, Nat.mod_one]; rfl
  | succ n ih =>
    have first : natBE [BitVec.ofNat 8 (x >>> (8 * n))] = x / 256 ^ n % 256 := by
      rw [Nat.shiftRight_eq_div_pow, Nat.pow_mul]
      simp [natBE]
    have split : bytesBE (n + 1) x = [BitVec.ofNat 8 (x >>> (8 * n))] ++ bytesBE n x := rfl
    rw [split, natBE_append, ih, length_bytesBE, first, Nat.mod_pow_succ]
    ring

/-- A word reads back from its bytes. -/
theorem ofNat_natBE_bytesBE {w n : Nat} (x : BitVec w) (fits : 2 ^ w ≤ 256 ^ n) :
    BitVec.ofNat w (natBE (bytesBE n x.toNat)) = x := by
  rw [natBE_bytesBE, Nat.mod_eq_of_lt (x.isLt.trans_le fits), BitVec.ofNat_toNat]
  exact BitVec.setWidth_eq x

theorem natBE_bytesBE_crc (x : Word16) : natBE (bytesBE 2 x.toNat) = x.toNat := by
  rw [natBE_bytesBE]
  exact Nat.mod_eq_of_lt x.isLt

/-! ## Pack-line frames (R108) -/

section
variable (code control seq len : Byte)

theorem parsePack_header (rest : List Byte) :
    parsePack (0xC3 :: code :: control :: seq :: len :: rest) =
      if 16 < len.toNat then .frameError
      else if rest.length < len.toNat + (if control.getLsbD 1 then 4 else 0) + 2 then .incomplete
      else if (crc16 (code :: control :: seq :: len ::
            rest.take (len.toNat + (if control.getLsbD 1 then 4 else 0)))).toNat =
          natBE ((rest.drop (len.toNat + (if control.getLsbD 1 then 4 else 0))).take 2) then
        .good ⟨code, control, seq, rest.take len.toNat,
          if control.getLsbD 1 then some (BitVec.ofNat 32 (natBE ((rest.drop len.toNat).take 4))) else none⟩
      else .crcError := by
  have body (t : Nat) : (code :: control :: seq :: len :: rest).take (4 + len.toNat + t) =
      code :: control :: seq :: len :: rest.take (len.toNat + t) := by
    rw [Nat.add_assoc, Nat.add_comm 4]
    rfl
  unfold parsePack
  dsimp only
  rw [if_neg (by simp), body]

variable {code control seq len}
variable {payload tag crc : List Byte}

/-- A whole frame with a matching CRC is judged good. -/
theorem parsePack_whole (fits : len.toNat ≤ 16) (long : payload.length = len.toNat)
    (tagLong : tag.length = if control.getLsbD 1 then 4 else 0) (crcLong : crc.length = 2)
    (matching : (crc16 (code :: control :: seq :: len :: (payload ++ tag))).toNat = natBE crc) :
    parsePack (0xC3 :: code :: control :: seq :: len :: (payload ++ (tag ++ crc))) =
      .good ⟨code, control, seq, payload,
        if control.getLsbD 1 then some (BitVec.ofNat 32 (natBE tag)) else none⟩ := by
  have complete : ¬ (payload ++ (tag ++ crc)).length < len.toNat + tag.length + 2 := by
    simp only [List.length_append]
    omega
  have covered : (payload ++ (tag ++ crc)).take (len.toNat + tag.length) = payload ++ tag := by
    rw [← long, ← List.append_assoc, ← List.length_append, List.take_left]
  have behind : ((payload ++ (tag ++ crc)).drop (len.toNat + tag.length)).take 2 = crc := by
    rw [← long, ← List.append_assoc, ← List.length_append, List.drop_left, ← crcLong, List.take_length]
  have carried : (payload ++ (tag ++ crc)).take len.toNat = payload := by rw [← long, List.take_left]
  have tagged : (payload ++ (tag ++ crc)).drop len.toNat = tag ++ crc := by rw [← long, List.drop_left]
  rw [parsePack_header, if_neg (Nat.not_lt.mpr fits), ← tagLong, if_neg complete, covered, behind, if_pos matching,
    carried, tagged]
  by_cases bit : control.getLsbD 1 = true
  · rw [if_pos bit] at tagLong
    rw [if_pos bit, if_pos bit, ← tagLong, List.take_left]
  · rw [if_neg bit, if_neg bit]

end

/-- The tag's bytes in a pack-line frame. -/
def PackFrame.tagBytes (f : PackFrame) : List Byte :=
  match f.tag with
  | some t => bytesBE 4 t.toNat
  | none => []

theorem PackFrame.bytes_eq (f : PackFrame) :
    f.bytes = 0xC3 :: f.code :: f.control :: f.seq :: byteOf f.payload.length ::
      (f.payload ++ (f.tagBytes ++
        bytesBE 2 (crc16 (f.code :: f.control :: f.seq :: byteOf f.payload.length ::
          (f.payload ++ f.tagBytes))).toNat)) := by
  cases tag : f.tag <;> simp [PackFrame.bytes, PackFrame.tagBytes, tag, List.append_assoc]

theorem PackFrame.tag_reads_back {f : PackFrame} (tagged : f.control.getLsbD 1 = f.tag.isSome) :
    (f.tagBytes.length = if f.control.getLsbD 1 then 4 else 0) ∧
      (if f.control.getLsbD 1 then some (BitVec.ofNat 32 (natBE f.tagBytes)) else none) = f.tag := by
  rw [tagged]
  cases tag : f.tag with
  | none => simp [PackFrame.tagBytes, tag]
  | some t =>
    have read : BitVec.ofNat 32 (natBE (bytesBE 4 t.toNat)) = t := ofNat_natBE_bytesBE t (by decide)
    simp [PackFrame.tagBytes, tag, length_bytesBE, read]

theorem toNat_byteOf_small {n : Nat} (small : n < 256) : (byteOf n).toNat = n := toNat_ofNat_small small

theorem parsePack_bytes {f : PackFrame} (short : f.payload.length ≤ 16)
    (tagged : f.control.getLsbD 1 = f.tag.isSome) : parsePack f.bytes = .good f := by
  have number : (byteOf f.payload.length).toNat = f.payload.length := toNat_byteOf_small (by omega)
  obtain ⟨tagLong, tag⟩ := PackFrame.tag_reads_back tagged
  rw [PackFrame.bytes_eq, parsePack_whole (by rwa [number]) number.symm tagLong (length_bytesBE 2 _)
    (natBE_bytesBE_crc _).symm, tag]

/-! ## Tool-line frames (12.1, R193) -/

theorem parseTool_bytes {f : ToolFrame} (rest : List Byte) (short : f.payload.length ≤ 48) :
    parseTool (f.bytes ++ rest) = .complete f.kindSelector f.tid f.code f.flags f.payload rest := by
  have number : (byteOf f.payload.length).toNat = f.payload.length := toNat_byteOf_small (by omega)
  have spelled := natBE_bytesBE_crc (crc16 (f.kindSelector :: f.tid :: f.code :: f.status :: f.flags ::
    byteOf f.payload.length :: f.payload))
  have whole := parseTool_whole f.kindSelector f.tid f.code f.status f.flags (byteOf f.payload.length) rest
    (BitVec.ofNat 8 ((crc16 (f.kindSelector :: f.tid :: f.code :: f.status :: f.flags ::
      byteOf f.payload.length :: f.payload)).toNat >>> (8 * 1)))
    (BitVec.ofNat 8 ((crc16 (f.kindSelector :: f.tid :: f.code :: f.status :: f.flags ::
      byteOf f.payload.length :: f.payload)).toNat >>> (8 * 0)))
    (payload := f.payload) (by rwa [number]) number.symm
  rw [if_pos ((toNat_eq_natBE_iff _ _ _).mp spelled.symm)] at whole
  rw [← whole]
  congr 1
  simp [ToolFrame.bytes, bytesBE]

theorem ToolFrame.toNat_kindSelector (f : ToolFrame) : f.kindSelector.toNat = 16 * f.kind.num + f.selector.toNat := by
  have selector : f.selector.toNat < 2 ^ 3 := f.selector.isLt
  have kind : f.kind.num ≤ 2 := by cases f.kind <;> decide
  exact toNat_byteOf_small (by omega)

theorem kindField_kindSelector (f : ToolFrame) : kindField f.kindSelector = f.kind.num := by
  have selector : f.selector.toNat < 2 ^ 3 := f.selector.isLt
  have kind : f.kind.num ≤ 2 := by cases f.kind <;> decide
  rw [kindField, f.toNat_kindSelector]
  omega

theorem selectorField_kindSelector (f : ToolFrame) : selectorField f.kindSelector = f.selector := by
  have selector : f.selector.toNat < 2 ^ 3 := f.selector.isLt
  refine BitVec.eq_of_toNat_eq ?_
  rw [selectorField, BitVec.truncate_eq_setWidth, BitVec.toNat_setWidth, f.toNat_kindSelector]
  omega

/-! ## Filter entries and model records (12.4, 12.5) -/

theorem givesEntry_bytes (l : VerifyLevel) (d : Disposition) :
    (byteOf (l.num + 16 * d.num)).toNat % 4 = l.num ∧ (byteOf (l.num + 16 * d.num)).toNat / 16 % 4 = d.num := by
  cases l <;> cases d <;> decide

theorem filterField_bytes (f : FilterEntry) : filterField f.bytes = some f := by
  cases f with
  | invalid => rfl
  | toPack v m set a =>
    exact (filterField_iff 1 v m (fourBits set) a.byte _).mpr ⟨rfl, rfl, rfl, rfl, rfl⟩
  | toTool v m set l d =>
    exact (filterField_iff 3 v m (fourBits set) (byteOf (l.num + 16 * d.num)) _).mpr
      ⟨rfl, rfl, rfl, rfl, givesEntry_bytes l d⟩

theorem modelRecord_bytes (e : ModelEntry) : modelRecord e.bytes = e := by
  have code : BitVec.ofNat 16 (natBE (bytesBE 2 e.code.toNat)) = e.code := ofNat_natBE_bytesBE _ (by decide)
  have firmware : BitVec.ofNat 16 (natBE (bytesBE 2 e.minFirmware.toNat)) = e.minFirmware :=
    ofNat_natBE_bytesBE _ (by decide)
  have record : modelRecord e.bytes =
      ⟨BitVec.ofNat 16 (natBE (bytesBE 2 e.code.toNat)), e.keySlot,
        BitVec.ofNat 16 (natBE (bytesBE 2 e.minFirmware.toNat)), e.chemistry, e.cells, e.capacity, e.current,
        e.flags⟩ := rfl
  rw [record, code, firmware]

end Sys2Proof.Machine

open Sys2Proof Sys2Proof.Machine Sys2Proof.Claims

/-- Settles O55: numbers read back from their bytes, and so does what is made of them. -/
theorem encodingsReadBack : Obligations.EncodingsReadBack :=
  ⟨fun _ short tagged => parsePack_bytes short tagged,
    fun f rest short => ⟨parseTool_bytes rest short, kindField_kindSelector f, selectorField_kindSelector f⟩,
    filterField_bytes, modelRecord_bytes⟩
end
